-- ==== Sys2Proof/Word.lean ====
section
/-! DEFINITION. Bytes, the numbers of groups and ports, and the fixed-size tables of eight, four and twelve. -/

namespace Sys2Proof

/-- One byte of a frame. -/
abbrev Byte := BitVec 8

/-- A rectifier group, G0 to G7 (00_scope.md 4.3). -/
abbrev Group := Fin 8

/-- A requester port, 0 to 3 (R180). -/
abbrev Port := Fin 4

/-- One value for each of eight numbered things: groups, breakpoints, tariff windows, status inputs. -/
structure Eight (α : Type) where
  m0 : α
  m1 : α
  m2 : α
  m3 : α
  m4 : α
  m5 : α
  m6 : α
  m7 : α
deriving DecidableEq, Repr

/-- One value for each of four numbered things: ports, sections, trip inputs. -/
structure Four (α : Type) where
  m0 : α
  m1 : α
  m2 : α
  m3 : α
deriving DecidableEq, Repr

/-- One value for each of a group's twelve inputs (R61). -/
structure Twelve (α : Type) where
  status : Eight α
  trip : Four α
deriving DecidableEq, Repr

/-- The member numbered `i`. -/
def Eight.get {α : Type} (e : Eight α) (i : Fin 8) : α :=
  match i with
  | 0 => e.m0
  | 1 => e.m1
  | 2 => e.m2
  | 3 => e.m3
  | 4 => e.m4
  | 5 => e.m5
  | 6 => e.m6
  | 7 => e.m7

/-- The table with the member numbered `i` replaced. -/
def Eight.set {α : Type} (e : Eight α) (i : Fin 8) (a : α) : Eight α :=
  match i with
  | 0 => { e with m0 := a }
  | 1 => { e with m1 := a }
  | 2 => { e with m2 := a }
  | 3 => { e with m3 := a }
  | 4 => { e with m4 := a }
  | 5 => { e with m5 := a }
  | 6 => { e with m6 := a }
  | 7 => { e with m7 := a }

/-- The table made of `f 0` to `f 7`. -/
def Eight.ofFn {α : Type} (f : Fin 8 → α) : Eight α :=
  ⟨f 0, f 1, f 2, f 3, f 4, f 5, f 6, f 7⟩

/-- The same value for all eight. -/
def Eight.fill {α : Type} (a : α) : Eight α := ⟨a, a, a, a, a, a, a, a⟩

/-- The members in ascending order of number. -/
def Eight.toList {α : Type} (e : Eight α) : List α :=
  [e.m0, e.m1, e.m2, e.m3, e.m4, e.m5, e.m6, e.m7]

/-- The member numbered `i`. -/
def Four.get {α : Type} (e : Four α) (i : Fin 4) : α :=
  match i with
  | 0 => e.m0
  | 1 => e.m1
  | 2 => e.m2
  | 3 => e.m3

/-- The table with the member numbered `i` replaced. -/
def Four.set {α : Type} (e : Four α) (i : Fin 4) (a : α) : Four α :=
  match i with
  | 0 => { e with m0 := a }
  | 1 => { e with m1 := a }
  | 2 => { e with m2 := a }
  | 3 => { e with m3 := a }

/-- The table made of `f 0` to `f 3`. -/
def Four.ofFn {α : Type} (f : Fin 4 → α) : Four α := ⟨f 0, f 1, f 2, f 3⟩

/-- The same value for all four. -/
def Four.fill {α : Type} (a : α) : Four α := ⟨a, a, a, a⟩

/-- The members in ascending order of number. -/
def Four.toList {α : Type} (e : Four α) : List α := [e.m0, e.m1, e.m2, e.m3]

/-- The same value for all twelve inputs. -/
def Twelve.fill {α : Type} (a : α) : Twelve α := ⟨Eight.fill a, Four.fill a⟩

/-- The status inputs 0 to 7, then the trip inputs 0 to 3 (Table 11-10, code 13). -/
def Twelve.toList {α : Type} (t : Twelve α) : List α := t.status.toList ++ t.trip.toList

/-- The eight groups in ascending order. -/
def allGroups : List Group := [0, 1, 2, 3, 4, 5, 6, 7]

/-- The four ports in ascending order. -/
def allPorts : List Port := [0, 1, 2, 3]

/-- `n` brought to the nearer end of `lo` to `hi`. -/
def clamp (lo hi n : Nat) : Nat := max lo (min hi n)

/-- The integer `n` brought to the nearer end of `lo` to `hi`. -/
def clampInt (lo hi n : Int) : Int := max lo (min hi n)

/-- `a + b`, saturating at `hi` (00_scope.md 4.2). -/
def satAdd (hi a b : Nat) : Nat := min hi (a + b)

end Sys2Proof
end

