-- ==== Sys2Proof/Config.lean ====
section
/-! DEFINITION. What the manual leaves open: constants without a body. Nothing can be proved of their values.
The configuration ITEMS of the part (Table 11-4) are State, not this file's. -/

namespace Sys2Proof

/-- R138 gives the hold reason OFF while demand control is OFF and NO_CALENDAR while the calendar is INVALID, and
does not say which it is while both hold. `true` stands for OFF. FREE VALUE (log 18). -/
opaque Config.offBeforeNoCalendar : Bool

/-- R137 step 4 gives the hold reason GUARD or VOLTAGE and does not say which it is while both grounds hold.
`true` stands for GUARD. FREE VALUE (log 18). -/
opaque Config.guardBeforeVoltage : Bool

/-- R193 codes a mark as 1 or 0 and does not say how a request's mark byte of any other value is read.
FREE VALUE (log 19). -/
opaque Config.markOfByte : Nat → Bool

/-- Where several entries or orders give one least value, R152 and R168 report "the" one that gives it and do not say
which. This is its place among `n` of them. FREE VALUE (log 29). -/
opaque Config.tiedPlace : (n : Nat) → Nat

end Sys2Proof
end

