-- ==== Sys2Proof/Syntax.lean ====
section
/-! DEFINITION. The commands of the LC408: one constructor of `Instr` for each row of spec/opcode_table.json, with its
operands as they stand in the frame, pulse or expiry that brings the command. -/

namespace Sys2Proof

/-- What every request frame carries besides its fields: the port it arrives on, its tag, and the length of its
payload in bytes (Table 11-5). The length is kept because a wrong one is answered OUT_OF_RANGE (R182 step 3). -/
structure Req where
  port : Port
  tag : Nat
  len : Nat
deriving DecidableEq, Repr

/-- The request kinds of Table 11-9, in the order of their codes. -/
inductive ReqKind where
  | startLine
  | stopLine
  | resetTrip
  | setGroupService
  | restoreGroup
  | setSetpoint
  | setCutoutLimit
  | releaseCutoutLimit
  | setServiceLimit
  | releaseServiceLimit
  | cutOutPot
  | cutInPot
  | quenchStarted
  | quenchFailed
  | setClock
  | postOrder
  | cancelOrder
  | clearFault
  | dropTop
  | dropAll
  | saveConfig
  | restart
  | writeConfig
  | readConfig
  | readLineStatus
  | readGroupStatus
  | readClaims
  | readAllocation
  | readCooling
  | readScanStatus
  | readPot
  | readAeList
  | readMetering
  | readOrders
  | readFaults
  | readFault
  | readFrame
  | readStackStatus
  | readPortStatus
  | fetchNotices
  | setCursor
  | readNext
deriving DecidableEq, Repr

/-- The straps of one port, first and second (R180). -/
structure Straps where
  first : Bool
  second : Bool
deriving DecidableEq, Repr

/-- The contents of an inbound status frame (Table 11-7), as sent. -/
structure StatusFrame where
  current : Nat
  voltage : Nat
  inlet : Int
  outlet : Int
  flow : Nat
  status : BitVec 8
  trips : BitVec 4
  echo : Nat
deriving DecidableEq, Repr

/-- An arrival on a group link (R18): a frame whose check word or type is bad, or a good frame. -/
inductive GroupFrame where
  | bad
  | good (frame : StatusFrame)
deriving DecidableEq, Repr

/-- The frame READ_FRAME names (R176; FFFF hex names TOP in Table 11-9). -/
inductive FrameSelector where
  | top
  | address (a : Nat)
deriving DecidableEq, Repr

/-- What WRITE_CONFIG writes: the item (Table 11-10) with the fields of its value, as sent. -/
inductive ItemWrite where
  | floor (v : Nat)
  | upRate (v : Nat)
  | downRate (v : Nat)
  | startRate (v : Nat)
  | stopRate (v : Nat)
  | holdOnAe (on : Bool)
  | rating (v : Nat)
  | weight (v : Nat)
  | resolution (v : Nat)
  | joinRate (v : Nat)
  | leaveRate (v : Nat)
  | trackingTolerance (v : Nat)
  | filterCounts (f : Twelve Nat)
  | expectedPattern (e : BitVec 8)
  | enableMask (m : BitVec 8)
  | tripMask (m : BitVec 8)
  | lossFraction (v : Nat)
  | pumpGrace (v : Nat)
  | derateTable (t : Eight (Int × Nat))
  | derateHysteresis (v : Nat)
  | warnThreshold (v : Int)
  | tripThreshold (v : Int)
  | alarmHysteresis (v : Nat)
  | sectionDescriptor (origin length : Nat)
  | bandSet (low high swing : Nat) (voltageCheck swingCheck : Bool)
  | staleLimit (v : Nat)
  | switchingLimit (v : Nat)
  | detectionSet (aeOn aeOff nOn nOff : Nat)
  | quenchSet (ack quench nominal : Nat)
  | aeCapture (on : Bool)
  | headroomSet (uMax margin hysteresis step : Nat)
  | efficiency (v : Nat)
  | intervalLength (v : Nat)
  | demandMargin (v : Nat)
  | guardTime (v : Nat)
  | defaultDemand (v : Nat)
  | demandControl (on : Bool)
  | tariffWindow (enabled : Bool) (start stop : Nat) (days : BitVec 8) (demand priceClass : Nat)
  | curtailGrace (v : Nat)
  | actionRow (route response percent : Nat) (capture : Bool)
  /-- An item code that Table 11-10 does not give. -/
  | unknown (code : Nat)
deriving DecidableEq, Repr

/-- The commands, one constructor for each row of spec/opcode_table.json, in the table's order. -/
inductive Instr where
  | powerOnReset (straps : Four Straps)
  | configLoadComplete
  | badRequestFrame (port : Port) (bytes : List Byte)
  | gapTimerExpiry (port : Port) (bytes : List Byte)
  | requestWhileBusy (port : Port) (tag kind : Nat)
  | responseSent (port : Port)
  | startLine (rq : Req)
  | stopLine (rq : Req)
  | resetTrip (rq : Req)
  | setGroupService (rq : Req) (group mode : Nat)
  | restoreGroup (rq : Req) (group : Nat)
  | setSetpoint (rq : Req) (value : Nat)
  | setCutoutLimit (rq : Req) (value : Nat)
  | releaseCutoutLimit (rq : Req)
  | setServiceLimit (rq : Req) (value : Nat)
  | releaseServiceLimit (rq : Req)
  | cutOutPot (rq : Req) (index : Nat)
  | cutInPot (rq : Req) (index : Nat)
  | quenchStarted (rq : Req) (id attempt : Nat)
  | quenchFailed (rq : Req) (id attempt : Nat)
  | setClock (rq : Req) (day tod : Nat)
  | postOrder (rq : Req) (orderTag delay duration ceiling : Nat)
  | cancelOrder (rq : Req) (orderTag : Nat)
  | clearFault (rq : Req) (kind group : Nat)
  | dropTop (rq : Req) (sequence : Nat)
  | dropAll (rq : Req)
  | saveConfig (rq : Req)
  | saveComplete
  | restart (rq : Req)
  | writeConfig (rq : Req) (index expected : Nat) (item : ItemWrite)
  | readConfig (rq : Req) (code index : Nat)
  | readLineStatus (rq : Req)
  | readGroupStatus (rq : Req) (group : Nat)
  | readClaims (rq : Req)
  | readAllocation (rq : Req)
  | readCooling (rq : Req) (group : Nat)
  | readScanStatus (rq : Req)
  | readPot (rq : Req) (index : Nat)
  | readAeList (rq : Req)
  | readMetering (rq : Req)
  | readOrders (rq : Req)
  | readFaults (rq : Req)
  | readFault (rq : Req) (kind group : Nat)
  | readFrame (rq : Req) (selector : FrameSelector)
  | readStackStatus (rq : Req)
  | readPortStatus (rq : Req)
  | fetchNotices (rq : Req)
  | setCursor (rq : Req) (target position direction : Nat)
  | readNext (rq : Req)
  | allocationTimerExpiry
  | adoptWindowClose
  | linkTimerExpiry (g : Group)
  | trackingTimerExpiry (g : Group)
  | graceTimerExpiry (g : Group)
  | statusFrame (g : Group) (frame : GroupFrame)
  | sampleFrame (sectionNo position voltage : Nat)
  | scanFrameBad
  | cycleMarker
  | markerTimerExpiry
  | meteringTimerExpiry
  | intervalDeadlineExpiry
  | syncPulse
  | syncWindowExpiry
  | ackTimerExpiry (id : Nat)
  | quenchTimerExpiry (id : Nat)
  | orderStartDeadline (orderTag : Nat)
  | orderEndDeadline (orderTag : Nat)
  | snapshotWriteComplete
  | unknownKindRequest (port : Port) (tag kind : Nat)
deriving DecidableEq, Repr

/-- The request a command is, if it is one: its frame data and its kind (Table 11-9). -/
def Instr.request? : Instr → Option (Req × ReqKind)
  | .startLine rq => some (rq, .startLine)
  | .stopLine rq => some (rq, .stopLine)
  | .resetTrip rq => some (rq, .resetTrip)
  | .setGroupService rq _ _ => some (rq, .setGroupService)
  | .restoreGroup rq _ => some (rq, .restoreGroup)
  | .setSetpoint rq _ => some (rq, .setSetpoint)
  | .setCutoutLimit rq _ => some (rq, .setCutoutLimit)
  | .releaseCutoutLimit rq => some (rq, .releaseCutoutLimit)
  | .setServiceLimit rq _ => some (rq, .setServiceLimit)
  | .releaseServiceLimit rq => some (rq, .releaseServiceLimit)
  | .cutOutPot rq _ => some (rq, .cutOutPot)
  | .cutInPot rq _ => some (rq, .cutInPot)
  | .quenchStarted rq _ _ => some (rq, .quenchStarted)
  | .quenchFailed rq _ _ => some (rq, .quenchFailed)
  | .setClock rq _ _ => some (rq, .setClock)
  | .postOrder rq _ _ _ _ => some (rq, .postOrder)
  | .cancelOrder rq _ => some (rq, .cancelOrder)
  | .clearFault rq _ _ => some (rq, .clearFault)
  | .dropTop rq _ => some (rq, .dropTop)
  | .dropAll rq => some (rq, .dropAll)
  | .saveConfig rq => some (rq, .saveConfig)
  | .restart rq => some (rq, .restart)
  | .writeConfig rq _ _ _ => some (rq, .writeConfig)
  | .readConfig rq _ _ => some (rq, .readConfig)
  | .readLineStatus rq => some (rq, .readLineStatus)
  | .readGroupStatus rq _ => some (rq, .readGroupStatus)
  | .readClaims rq => some (rq, .readClaims)
  | .readAllocation rq => some (rq, .readAllocation)
  | .readCooling rq _ => some (rq, .readCooling)
  | .readScanStatus rq => some (rq, .readScanStatus)
  | .readPot rq _ => some (rq, .readPot)
  | .readAeList rq => some (rq, .readAeList)
  | .readMetering rq => some (rq, .readMetering)
  | .readOrders rq => some (rq, .readOrders)
  | .readFaults rq => some (rq, .readFaults)
  | .readFault rq _ _ => some (rq, .readFault)
  | .readFrame rq _ => some (rq, .readFrame)
  | .readStackStatus rq => some (rq, .readStackStatus)
  | .readPortStatus rq => some (rq, .readPortStatus)
  | .fetchNotices rq => some (rq, .fetchNotices)
  | .setCursor rq _ _ _ => some (rq, .setCursor)
  | .readNext rq => some (rq, .readNext)
  | .powerOnReset _ => none
  | .configLoadComplete => none
  | .badRequestFrame _ _ => none
  | .gapTimerExpiry _ _ => none
  | .requestWhileBusy _ _ _ => none
  | .responseSent _ => none
  | .saveComplete => none
  | .allocationTimerExpiry => none
  | .adoptWindowClose => none
  | .linkTimerExpiry _ => none
  | .trackingTimerExpiry _ => none
  | .graceTimerExpiry _ => none
  | .statusFrame _ _ => none
  | .sampleFrame _ _ _ => none
  | .scanFrameBad => none
  | .cycleMarker => none
  | .markerTimerExpiry => none
  | .meteringTimerExpiry => none
  | .intervalDeadlineExpiry => none
  | .syncPulse => none
  | .syncWindowExpiry => none
  | .ackTimerExpiry _ => none
  | .quenchTimerExpiry _ => none
  | .orderStartDeadline _ => none
  | .orderEndDeadline _ => none
  | .snapshotWriteComplete => none
  | .unknownKindRequest _ _ _ => none

end Sys2Proof
end

