-- ==== Sys2Proof/WellFormed.lean ====
section
/-! DEFINITION. The commands that the links can carry: every field of a request within the width Table 11-9 or 11-10
gives it, every field of a status or sample frame within Tables 11-7 and 11-8. `exec` is total and does not need this;
what is not well formed cannot arrive. -/

namespace Sys2Proof

/-- `n` fits in `w` bytes. -/
def fits (w n : Nat) : Bool := decide (n < 256 ^ w)

/-- An integer fits in two bytes of two's complement. -/
def fitsSigned (i : Int) : Bool := decide (-32768 ≤ i ∧ i < 32768)

/-- A request's own data: a tag of one byte, and a payload that leaves the length within 2 to 1,024 (R181). -/
def Req.wellFormed (rq : Req) : Bool := fits 1 rq.tag && decide (rq.len ≤ 1022)

/-- The fields of an item's value within their widths (Table 11-10). -/
def ItemWrite.wellFormed : ItemWrite → Bool
  | .floor v | .upRate v | .downRate v | .startRate v | .stopRate v | .rating v | .joinRate v
  | .leaveRate v | .trackingTolerance v | .pumpGrace v | .staleLimit v | .switchingLimit v
  | .efficiency v | .demandMargin v | .curtailGrace v => fits 2 v
  | .weight v | .resolution v | .lossFraction v | .derateHysteresis v | .alarmHysteresis v
  | .intervalLength v => fits 1 v
  | .guardTime v | .defaultDemand v => fits 4 v
  | .holdOnAe _ | .aeCapture _ | .demandControl _ => true
  | .filterCounts f => f.toList.all (fits 1)
  | .expectedPattern _ | .enableMask _ | .tripMask _ => true
  | .derateTable t => t.toList.all fun b => fitsSigned b.1 && fits 1 b.2
  | .warnThreshold v | .tripThreshold v => fitsSigned v
  | .sectionDescriptor o l => fits 2 o && fits 1 l
  | .bandSet lo hi sw _ _ => fits 2 lo && fits 2 hi && fits 2 sw
  | .detectionSet on off a b => fits 2 on && fits 2 off && fits 1 a && fits 1 b
  | .quenchSet a q n => fits 1 a && fits 2 q && fits 2 n
  | .headroomSet u m h st => fits 2 u && fits 2 m && fits 2 h && fits 2 st
  | .tariffWindow _ a b _ d c => fits 1 a && fits 1 b && fits 4 d && fits 1 c
  | .actionRow r p pct _ => fits 1 r && fits 1 p && fits 1 pct
  | .unknown c => fits 1 c && decide (c = 0 ∨ 40 < c)

/-- The fields of a status frame within Table 11-7. -/
def StatusFrame.wellFormed (f : StatusFrame) : Bool :=
  fits 2 f.current && fits 2 f.voltage && fitsSigned f.inlet && fitsSigned f.outlet && fits 2 f.flow
    && fits 1 f.echo

/-- The fields a command carries besides the request's own data, within their widths. -/
def Instr.fieldsFit : Instr → Bool
  | .setGroupService _ g m => fits 1 g && fits 1 m
  | .restoreGroup _ g | .readGroupStatus _ g | .readCooling _ g => fits 1 g
  | .setSetpoint _ v | .setCutoutLimit _ v | .setServiceLimit _ v => fits 2 v
  | .cutOutPot _ i | .cutInPot _ i | .readPot _ i => fits 2 i
  | .quenchStarted _ a b | .quenchFailed _ a b => fits 1 a && fits 1 b
  | .setClock _ d t => fits 1 d && fits 4 t
  | .postOrder _ t d u c => fits 1 t && fits 4 d && fits 2 u && fits 4 c
  | .cancelOrder _ t => fits 1 t
  | .clearFault _ k g | .readFault _ k g => fits 1 k && fits 1 g
  | .dropTop _ n => fits 2 n
  | .writeConfig _ i e w => fits 1 i && fits 2 e && w.wellFormed
  | .readConfig _ c i => fits 1 c && fits 1 i
  | .readFrame _ (.address a) => decide (a < 0xFFFF)
  | .setCursor _ t p d => fits 1 t && fits 2 p && fits 1 d
  | .statusFrame _ (.good f) => f.wellFormed
  | .sampleFrame s p v => fits 1 s && fits 1 p && fits 2 v
  | .unknownKindRequest _ t k => fits 1 t && fits 1 k && decide (k = 0 ∨ 42 < k)
  | .requestWhileBusy _ t k => fits 1 t && fits 1 k
  | .ackTimerExpiry id | .quenchTimerExpiry id => decide (1 ≤ id) && fits 1 id
  | .orderStartDeadline t | .orderEndDeadline t => decide (1 ≤ t) && fits 1 t
  | _ => true

/-- A command that the links and timers can bring. -/
def Instr.wellFormed (i : Instr) : Bool :=
  i.fieldsFit && (match i.request? with | some r => r.1.wellFormed | none => true)

end Sys2Proof
end

