-- ==== Sys2Proof/Decode.lean ====
section
/-! DEFINITION. From bytes on the links to commands: the CRC, the request receiver (R181), the request payloads
(Tables 11-9 and 11-10), the group and scan link frames (Tables 11-7 and 11-8), and the request frame of a command.
Decoding is total; what cannot be a command is answered `none` or as the bad frame the manual makes of it. -/

namespace Sys2Proof

/-! ### Numbers in bytes, most significant byte first (11.8) -/

/-- The number a run of bytes spells, most significant byte first. -/
def natOfBytes (bs : List Byte) : Nat := bs.foldl (fun n b => n * 256 + b.toNat) 0

/-- `v` in `width` bytes, most significant byte first. -/
def bytesOfNat : (width v : Nat) → List Byte
  | 0, _ => []
  | w + 1, v => bytesOfNat w (v / 256) ++ [BitVec.ofNat 8 v]

/-- The number in the `n` bytes from offset `i`; bytes past the end read as 0. -/
def field (bs : List Byte) (i n : Nat) : Nat :=
  natOfBytes ((List.range n).map fun k => bs.getD (i + k) 0)

/-- A 16-bit number read as two's complement. -/
def signed16 (n : Nat) : Int := if n < 32768 then (n : Int) else (n : Int) - 65536

/-- The 16 bits of an integer in two's complement. -/
def unsigned16 (i : Int) : Nat := (i % 65536).toNat

/-- A mark byte: 1 for set and 0 for clear (R193); any other value is left open by the manual (log 19). -/
def markOf (b : Nat) : Bool :=
  if b = 0 then false else if b = 1 then true else Config.markOfByte b

/-- A mark in its byte. -/
def markByte (b : Bool) : Byte := if b then 1 else 0

/-! ### The check word (R181) -/

/-- One shift of the CRC register: polynomial x^16 + x^12 + x^5 + 1. -/
def crcShift (r : BitVec 16) : BitVec 16 :=
  if r.getLsbD 15 then (r <<< 1) ^^^ 0x1021#16 else r <<< 1

/-- One byte into the CRC register, most significant bit first. -/
def crcByte (r : BitVec 16) (b : Byte) : BitVec 16 :=
  let r0 := r ^^^ ((b.setWidth 16) <<< 8)
  crcShift (crcShift (crcShift (crcShift (crcShift (crcShift (crcShift (crcShift r0)))))))

/-- The CRC of a run of bytes: the register starts at all ones and is not inverted at the end (R181). -/
def crc16 (bs : List Byte) : BitVec 16 := bs.foldl crcByte 0xFFFF#16

/-- The check word as its two bytes. -/
def crcBytes (bs : List Byte) : List Byte := bytesOfNat 2 (crc16 bs).toNat

/-! ### Request codes (Table 11-9) -/

/-- The code of a request kind (Table 11-9). -/
def ReqKind.code : ReqKind → Nat
  | .startLine => 1
  | .stopLine => 2
  | .resetTrip => 3
  | .setGroupService => 4
  | .restoreGroup => 5
  | .setSetpoint => 6
  | .setCutoutLimit => 7
  | .releaseCutoutLimit => 8
  | .setServiceLimit => 9
  | .releaseServiceLimit => 10
  | .cutOutPot => 11
  | .cutInPot => 12
  | .quenchStarted => 13
  | .quenchFailed => 14
  | .setClock => 15
  | .postOrder => 16
  | .cancelOrder => 17
  | .clearFault => 18
  | .dropTop => 19
  | .dropAll => 20
  | .saveConfig => 21
  | .restart => 22
  | .writeConfig => 23
  | .readConfig => 24
  | .readLineStatus => 25
  | .readGroupStatus => 26
  | .readClaims => 27
  | .readAllocation => 28
  | .readCooling => 29
  | .readScanStatus => 30
  | .readPot => 31
  | .readAeList => 32
  | .readMetering => 33
  | .readOrders => 34
  | .readFaults => 35
  | .readFault => 36
  | .readFrame => 37
  | .readStackStatus => 38
  | .readPortStatus => 39
  | .fetchNotices => 40
  | .setCursor => 41
  | .readNext => 42

/-- The payload length a request kind requires (Table 11-9); WRITE_CONFIG's is 4 bytes plus the value's (R193). -/
def ReqKind.payloadLength : ReqKind → Nat
  | .setGroupService | .setSetpoint | .setCutoutLimit | .setServiceLimit | .cutOutPot | .cutInPot
  | .quenchStarted | .quenchFailed | .clearFault | .dropTop | .readConfig | .readPot | .readFault
  | .readFrame => 2
  | .restoreGroup | .cancelOrder | .readGroupStatus | .readCooling => 1
  | .setClock => 5
  | .postOrder => 11
  | .writeConfig | .setCursor => 4
  | .startLine | .stopLine | .resetTrip | .releaseCutoutLimit | .releaseServiceLimit | .dropAll
  | .saveConfig | .restart | .readLineStatus | .readClaims | .readAllocation | .readScanStatus
  | .readAeList | .readMetering | .readOrders | .readFaults | .readStackStatus | .readPortStatus
  | .fetchNotices | .readNext => 0

/-- The request kinds in the order of their codes. -/
def allReqKinds : List ReqKind :=
  [.startLine, .stopLine, .resetTrip, .setGroupService, .restoreGroup, .setSetpoint, .setCutoutLimit,
   .releaseCutoutLimit, .setServiceLimit, .releaseServiceLimit, .cutOutPot, .cutInPot, .quenchStarted,
   .quenchFailed, .setClock, .postOrder, .cancelOrder, .clearFault, .dropTop, .dropAll, .saveConfig,
   .restart, .writeConfig, .readConfig, .readLineStatus, .readGroupStatus, .readClaims, .readAllocation,
   .readCooling, .readScanStatus, .readPot, .readAeList, .readMetering, .readOrders, .readFaults,
   .readFault, .readFrame, .readStackStatus, .readPortStatus, .fetchNotices, .setCursor, .readNext]

/-- The request kind of a code, or none for a code Table 11-9 does not give. -/
def ReqKind.ofCode (c : Nat) : Option ReqKind := allReqKinds.find? fun k => k.code == c

/-- The length of an item's value in bytes (Table 11-10), by the item's code. -/
def itemLength (code : Nat) : Option Nat :=
  if code = 6 ∨ code = 8 ∨ code = 9 ∨ code = 14 ∨ code = 15 ∨ code = 16 ∨ code = 17 ∨ code = 20
    ∨ code = 23 ∨ code = 30 ∨ code = 33 ∨ code = 37 then some 1
  else if code = 13 then some 12
  else if code = 19 then some 24
  else if code = 24 then some 3
  else if code = 25 ∨ code = 31 then some 8
  else if code = 28 then some 6
  else if code = 29 then some 5
  else if code = 35 ∨ code = 36 ∨ code = 40 then some 4
  else if code = 38 then some 9
  else if 1 ≤ code ∧ code ≤ 40 then some 2
  else none

/-- The code of the item a write names (Table 11-10). -/
def ItemWrite.code : ItemWrite → Nat
  | .floor _ => 1
  | .upRate _ => 2
  | .downRate _ => 3
  | .startRate _ => 4
  | .stopRate _ => 5
  | .holdOnAe _ => 6
  | .rating _ => 7
  | .weight _ => 8
  | .resolution _ => 9
  | .joinRate _ => 10
  | .leaveRate _ => 11
  | .trackingTolerance _ => 12
  | .filterCounts _ => 13
  | .expectedPattern _ => 14
  | .enableMask _ => 15
  | .tripMask _ => 16
  | .lossFraction _ => 17
  | .pumpGrace _ => 18
  | .derateTable _ => 19
  | .derateHysteresis _ => 20
  | .warnThreshold _ => 21
  | .tripThreshold _ => 22
  | .alarmHysteresis _ => 23
  | .sectionDescriptor _ _ => 24
  | .bandSet _ _ _ _ _ => 25
  | .staleLimit _ => 26
  | .switchingLimit _ => 27
  | .detectionSet _ _ _ _ => 28
  | .quenchSet _ _ _ => 29
  | .aeCapture _ => 30
  | .headroomSet _ _ _ _ => 31
  | .efficiency _ => 32
  | .intervalLength _ => 33
  | .demandMargin _ => 34
  | .guardTime _ => 35
  | .defaultDemand _ => 36
  | .demandControl _ => 37
  | .tariffWindow _ _ _ _ _ _ => 38
  | .curtailGrace _ => 39
  | .actionRow _ _ _ _ => 40
  | .unknown c => c

/-- The write that an item code and the bytes of its value spell (Table 11-10). -/
def decodeItem (code : Nat) (v : List Byte) : ItemWrite :=
  match code with
  | 1 => .floor (field v 0 2)
  | 2 => .upRate (field v 0 2)
  | 3 => .downRate (field v 0 2)
  | 4 => .startRate (field v 0 2)
  | 5 => .stopRate (field v 0 2)
  | 6 => .holdOnAe (markOf (field v 0 1))
  | 7 => .rating (field v 0 2)
  | 8 => .weight (field v 0 1)
  | 9 => .resolution (field v 0 1)
  | 10 => .joinRate (field v 0 2)
  | 11 => .leaveRate (field v 0 2)
  | 12 => .trackingTolerance (field v 0 2)
  | 13 => .filterCounts
      ⟨Eight.ofFn fun i => field v i.val 1, Four.ofFn fun i => field v (8 + i.val) 1⟩
  | 14 => .expectedPattern (BitVec.ofNat 8 (field v 0 1))
  | 15 => .enableMask (BitVec.ofNat 8 (field v 0 1))
  | 16 => .tripMask (BitVec.ofNat 8 (field v 0 1))
  | 17 => .lossFraction (field v 0 1)
  | 18 => .pumpGrace (field v 0 2)
  | 19 => .derateTable (Eight.ofFn fun i => (signed16 (field v (3 * i.val) 2), field v (3 * i.val + 2) 1))
  | 20 => .derateHysteresis (field v 0 1)
  | 21 => .warnThreshold (signed16 (field v 0 2))
  | 22 => .tripThreshold (signed16 (field v 0 2))
  | 23 => .alarmHysteresis (field v 0 1)
  | 24 => .sectionDescriptor (field v 0 2) (field v 2 1)
  | 25 => .bandSet (field v 0 2) (field v 2 2) (field v 4 2) (markOf (field v 6 1)) (markOf (field v 7 1))
  | 26 => .staleLimit (field v 0 2)
  | 27 => .switchingLimit (field v 0 2)
  | 28 => .detectionSet (field v 0 2) (field v 2 2) (field v 4 1) (field v 5 1)
  | 29 => .quenchSet (field v 0 1) (field v 1 2) (field v 3 2)
  | 30 => .aeCapture (markOf (field v 0 1))
  | 31 => .headroomSet (field v 0 2) (field v 2 2) (field v 4 2) (field v 6 2)
  | 32 => .efficiency (field v 0 2)
  | 33 => .intervalLength (field v 0 1)
  | 34 => .demandMargin (field v 0 2)
  | 35 => .guardTime (field v 0 4)
  | 36 => .defaultDemand (field v 0 4)
  | 37 => .demandControl (markOf (field v 0 1))
  | 38 => .tariffWindow (markOf (field v 0 1)) (field v 1 1) (field v 2 1)
      (BitVec.ofNat 8 (field v 3 1)) (field v 4 4) (field v 8 1)
  | 39 => .curtailGrace (field v 0 2)
  | 40 => .actionRow (field v 0 1) (field v 1 1) (field v 2 1) (markOf (field v 3 1))
  | c => .unknown c

/-- The bytes of the value a write carries (Table 11-10). -/
def ItemWrite.bytes : ItemWrite → List Byte
  | .floor v | .upRate v | .downRate v | .startRate v | .stopRate v | .rating v | .joinRate v
  | .leaveRate v | .trackingTolerance v | .pumpGrace v | .staleLimit v | .switchingLimit v
  | .efficiency v | .demandMargin v | .curtailGrace v => bytesOfNat 2 v
  | .weight v | .resolution v | .lossFraction v | .derateHysteresis v | .alarmHysteresis v
  | .intervalLength v => bytesOfNat 1 v
  | .guardTime v | .defaultDemand v => bytesOfNat 4 v
  | .holdOnAe b | .aeCapture b | .demandControl b => [markByte b]
  | .filterCounts f => f.toList.map (BitVec.ofNat 8)
  | .expectedPattern e => [e]
  | .enableMask m => [m]
  | .tripMask m => [m]
  | .derateTable t => t.toList.flatMap fun b => bytesOfNat 2 (unsigned16 b.1) ++ bytesOfNat 1 b.2
  | .warnThreshold v | .tripThreshold v => bytesOfNat 2 (unsigned16 v)
  | .sectionDescriptor o l => bytesOfNat 2 o ++ bytesOfNat 1 l
  | .bandSet lo hi sw vc sc =>
      bytesOfNat 2 lo ++ bytesOfNat 2 hi ++ bytesOfNat 2 sw ++ [markByte vc, markByte sc]
  | .detectionSet on off a b => bytesOfNat 2 on ++ bytesOfNat 2 off ++ bytesOfNat 1 a ++ bytesOfNat 1 b
  | .quenchSet a q n => bytesOfNat 1 a ++ bytesOfNat 2 q ++ bytesOfNat 2 n
  | .headroomSet u m h st => bytesOfNat 2 u ++ bytesOfNat 2 m ++ bytesOfNat 2 h ++ bytesOfNat 2 st
  | .tariffWindow en a b days d c =>
      [markByte en] ++ bytesOfNat 1 a ++ bytesOfNat 1 b ++ [days] ++ bytesOfNat 4 d ++ bytesOfNat 1 c
  | .actionRow r p pct c => bytesOfNat 1 r ++ bytesOfNat 1 p ++ bytesOfNat 1 pct ++ [markByte c]
  | .unknown _ => []

/-- The payload length a request must have (R182 step 3), or none where no length is right: an item code that
Table 11-10 does not give (R193). -/
def Instr.requiredLength (i : Instr) : Option Nat :=
  match i with
  | .writeConfig _ _ _ w => (itemLength w.code).map (4 + ·)
  | j => j.request?.map fun r => r.2.payloadLength

/-- The command a valid request frame is (Table 11-9): the port it came on, its tag, its kind byte and its payload. -/
def decodeRequest (port : Port) (tag kind : Nat) (p : List Byte) : Instr :=
  let rq : Req := ⟨port, tag, p.length⟩
  match ReqKind.ofCode kind with
  | none => .unknownKindRequest port tag kind
  | some .startLine => .startLine rq
  | some .stopLine => .stopLine rq
  | some .resetTrip => .resetTrip rq
  | some .setGroupService => .setGroupService rq (field p 0 1) (field p 1 1)
  | some .restoreGroup => .restoreGroup rq (field p 0 1)
  | some .setSetpoint => .setSetpoint rq (field p 0 2)
  | some .setCutoutLimit => .setCutoutLimit rq (field p 0 2)
  | some .releaseCutoutLimit => .releaseCutoutLimit rq
  | some .setServiceLimit => .setServiceLimit rq (field p 0 2)
  | some .releaseServiceLimit => .releaseServiceLimit rq
  | some .cutOutPot => .cutOutPot rq (field p 0 2)
  | some .cutInPot => .cutInPot rq (field p 0 2)
  | some .quenchStarted => .quenchStarted rq (field p 0 1) (field p 1 1)
  | some .quenchFailed => .quenchFailed rq (field p 0 1) (field p 1 1)
  | some .setClock => .setClock rq (field p 0 1) (field p 1 4)
  | some .postOrder => .postOrder rq (field p 0 1) (field p 1 4) (field p 5 2) (field p 7 4)
  | some .cancelOrder => .cancelOrder rq (field p 0 1)
  | some .clearFault => .clearFault rq (field p 0 1) (field p 1 1)
  | some .dropTop => .dropTop rq (field p 0 2)
  | some .dropAll => .dropAll rq
  | some .saveConfig => .saveConfig rq
  | some .restart => .restart rq
  | some .writeConfig => .writeConfig rq (field p 1 1) (field p 2 2) (decodeItem (field p 0 1) (p.drop 4))
  | some .readConfig => .readConfig rq (field p 0 1) (field p 1 1)
  | some .readLineStatus => .readLineStatus rq
  | some .readGroupStatus => .readGroupStatus rq (field p 0 1)
  | some .readClaims => .readClaims rq
  | some .readAllocation => .readAllocation rq
  | some .readCooling => .readCooling rq (field p 0 1)
  | some .readScanStatus => .readScanStatus rq
  | some .readPot => .readPot rq (field p 0 2)
  | some .readAeList => .readAeList rq
  | some .readMetering => .readMetering rq
  | some .readOrders => .readOrders rq
  | some .readFaults => .readFaults rq
  | some .readFault => .readFault rq (field p 0 1) (field p 1 1)
  | some .readFrame =>
      .readFrame rq (if field p 0 2 = 0xFFFF then .top else .address (field p 0 2))
  | some .readStackStatus => .readStackStatus rq
  | some .readPortStatus => .readPortStatus rq
  | some .fetchNotices => .fetchNotices rq
  | some .setCursor => .setCursor rq (field p 0 1) (field p 1 2) (field p 3 1)
  | some .readNext => .readNext rq

/-- The payload of a request (Table 11-9). -/
def Instr.payload : Instr → List Byte
  | .setGroupService _ g m => bytesOfNat 1 g ++ bytesOfNat 1 m
  | .restoreGroup _ g | .readGroupStatus _ g | .readCooling _ g => bytesOfNat 1 g
  | .setSetpoint _ v | .setCutoutLimit _ v | .setServiceLimit _ v => bytesOfNat 2 v
  | .cutOutPot _ i | .cutInPot _ i | .readPot _ i => bytesOfNat 2 i
  | .quenchStarted _ a b | .quenchFailed _ a b => bytesOfNat 1 a ++ bytesOfNat 1 b
  | .setClock _ d t => bytesOfNat 1 d ++ bytesOfNat 4 t
  | .postOrder _ t d u c => bytesOfNat 1 t ++ bytesOfNat 4 d ++ bytesOfNat 2 u ++ bytesOfNat 4 c
  | .cancelOrder _ t => bytesOfNat 1 t
  | .clearFault _ k g | .readFault _ k g => bytesOfNat 1 k ++ bytesOfNat 1 g
  | .dropTop _ n => bytesOfNat 2 n
  | .writeConfig _ i e w => bytesOfNat 1 w.code ++ bytesOfNat 1 i ++ bytesOfNat 2 e ++ w.bytes
  | .readConfig _ c i => bytesOfNat 1 c ++ bytesOfNat 1 i
  | .readFrame _ .top => bytesOfNat 2 0xFFFF
  | .readFrame _ (.address a) => bytesOfNat 2 a
  | .setCursor _ t p d => bytesOfNat 1 t ++ bytesOfNat 2 p ++ bytesOfNat 1 d
  | _ => []

/-- The request frame of a command (Table 11-5), or none for a command that is no request. -/
def encodeRequest (i : Instr) : Option (List Byte) :=
  i.request?.map fun r =>
    let body := bytesOfNat 2 (2 + i.payload.length) ++ bytesOfNat 1 r.1.tag ++ bytesOfNat 1 r.2.code ++ i.payload
    (0xA5#8 : Byte) :: (body ++ crcBytes body)

/-! ### The request receiver (R181) -/

/-- The receiver of a port: hunting for a start marker, or inside a frame with the bytes taken since the marker. -/
inductive Receiver where
  | hunting
  | inside (taken : List Byte)
deriving DecidableEq, Repr

/-- What the receiver makes of a frame. -/
inductive Received where
  | bad
  | request (tag kind : Nat) (payload : List Byte)
deriving DecidableEq, Repr

/-- One byte into the receiver (R181): a start marker opens a frame, a length below 2 or above 1,024 makes it bad at
once, and a whole frame is bad when its CRC differs from the one formed over the length, tag, kind and payload. -/
def receiveByte (r : Receiver) (b : Byte) : Receiver × Option Received :=
  match r with
  | .hunting => if b = 0xA5#8 then (.inside [], none) else (.hunting, none)
  | .inside taken =>
    let bs := taken ++ [b]
    if bs.length < 2 then (.inside bs, none)
    else
      let n := field bs 0 2
      if n < 2 ∨ 1024 < n then (.hunting, some .bad)
      else if bs.length < n + 4 then (.inside bs, none)
      else if bs.drop (n + 2) = crcBytes (bs.take (n + 2)) then
        (.hunting, some (.request (field bs 2 1) (field bs 3 1) ((bs.take (n + 2)).drop 4)))
      else (.hunting, some .bad)

/-- A run of bytes into the receiver: the state it leaves and what it made of them, in order. -/
def receiveBytes (r : Receiver) : List Byte → Receiver × List Received
  | [] => (r, [])
  | b :: bs =>
    let one := receiveByte r b
    let rest := receiveBytes one.1 bs
    (rest.1, one.2.toList ++ rest.2)

/-- The command that ONE whole request frame's bytes bring at a hunting port: the request they spell, or
BAD_REQUEST_FRAME; none when they are not one whole frame. -/
def decodeRequestFrame (port : Port) (bytes : List Byte) : Option Instr :=
  match receiveBytes .hunting bytes with
  | (.hunting, [.bad]) => some (.badRequestFrame port bytes)
  | (.hunting, [.request tag kind p]) => some (decodeRequest port tag kind p)
  | _ => none

/-! ### The group links and the scan link (Tables 11-7 and 11-8) -/

/-- A frame on a group link (R18): an unknown type, a wrong length or a wrong check word makes it bad. -/
def decodeStatusFrame (bytes : List Byte) : GroupFrame :=
  if bytes.length = 16 ∧ field bytes 0 1 = 0x81 ∧ bytes.drop 14 = crcBytes (bytes.take 14) then
    .good
      { current := field bytes 1 2
        voltage := field bytes 3 2
        inlet := signed16 (field bytes 5 2)
        outlet := signed16 (field bytes 7 2)
        flow := field bytes 9 2
        status := BitVec.ofNat 8 (field bytes 11 1)
        trips := BitVec.ofNat 4 (field bytes 12 1)
        echo := field bytes 13 1 }
  else .bad

/-- The bytes of a status frame (Table 11-7). -/
def encodeStatusFrame (f : StatusFrame) : List Byte :=
  let body := bytesOfNat 1 0x81 ++ bytesOfNat 2 f.current ++ bytesOfNat 2 f.voltage
    ++ bytesOfNat 2 (unsigned16 f.inlet) ++ bytesOfNat 2 (unsigned16 f.outlet) ++ bytesOfNat 2 f.flow
    ++ [f.status, f.trips.setWidth 8] ++ bytesOfNat 1 f.echo
  body ++ crcBytes body

/-- The command that the bytes of a group link frame bring. -/
def decodeGroupFrame (g : Group) (bytes : List Byte) : Instr := .statusFrame g (decodeStatusFrame bytes)

/-- The command that the bytes of a scan link frame bring (R86, R89; an unknown type is a bad check word). -/
def decodeScanFrame (bytes : List Byte) : Instr :=
  if bytes.length = 7 ∧ field bytes 0 1 = 0x21 ∧ bytes.drop 5 = crcBytes (bytes.take 5) then
    .sampleFrame (field bytes 1 1) (field bytes 2 1) (field bytes 3 2)
  else if bytes.length = 3 ∧ field bytes 0 1 = 0x2F ∧ bytes.drop 1 = crcBytes (bytes.take 1) then
    .cycleMarker
  else .scanFrameBad

/-- The bytes of a sample frame (Table 11-8). -/
def encodeSampleFrame (sectionNo position voltage : Nat) : List Byte :=
  let body := bytesOfNat 1 0x21 ++ bytesOfNat 1 sectionNo ++ bytesOfNat 1 position ++ bytesOfNat 2 voltage
  body ++ crcBytes body

/-- The bytes of a cycle marker (Table 11-8). -/
def encodeCycleMarker : List Byte := bytesOfNat 1 0x2F ++ crcBytes (bytesOfNat 1 0x2F)

/-- The bytes of an order frame (Table 11-7). -/
def encodeOrderFrame (order : Nat) (block : Bool) (sequence : Nat) : List Byte :=
  let body := bytesOfNat 1 0x01 ++ bytesOfNat 2 order ++ [markByte block] ++ bytesOfNat 1 sequence
  body ++ crcBytes body

/-! ### The host's question -/

/-- The command that a table word spells. No row of spec/opcode_table.json has bits, so none spells one. -/
def decodeTableWord (_nbits _w : Nat) : Option Instr := none

end Sys2Proof
end

