-- ==== Sys2Proof/Machine/Types.lean ====
section
/-! DEFINITION. The types the state is made of, block by block (00_scope.md Table 1). Named values stand in the order
of the list or table their rule gives, since that order is their code (R193). -/

namespace Sys2Proof.Machine

/-! ### The line (chapters 1 to 3) -/

/-- The line states, in the order of Table 1-1. -/
inductive LineState where
  | standby
  | adopting
  | starting
  | regulating
  | hold
  | stopping
  | tripped
deriving DecidableEq, Repr

/-- The cause in a LINE_STATE notice (R1). -/
inductive LineCause where
  | request
  | ramp
  | adoption
  | fault
  | reset
deriving DecidableEq, Repr

/-- The group service states, in the order of Table 1-3. -/
inductive ServiceState where
  | out
  | joining
  | inService
  | leaving
  | removed
  | linkLost
deriving DecidableEq, Repr

/-- The cause in a GROUP_STATE notice (R9). -/
inductive GroupCause where
  | request
  | ramp
  | line
  | fault
  | link
  | adoption
deriving DecidableEq, Repr

/-- The claim slots, in slot order (Table 2-1). -/
inductive ClaimSlot where
  | fault
  | headroom
  | curtail
  | demand
  | cutout
  | service
  | setpoint
deriving DecidableEq, Repr

/-- One slot of the limit claims table (R26). -/
structure Claim where
  active : Bool
  value : Nat
  writer : Option Port
  changed : Nat
deriving DecidableEq, Repr

/-- The limit claims table with the ADOPTED mark of SETPOINT (R26). -/
structure ClaimsTable where
  fault : Claim
  headroom : Claim
  curtail : Claim
  demand : Claim
  cutout : Claim
  service : Claim
  setpoint : Claim
  adopted : Bool
deriving DecidableEq, Repr

/-- What the allocation record keeps of one member (R59). -/
structure AllocMember where
  ceiling : Nat
  cap : Nat
  weight : Nat
  resolution : Nat
  share : Nat
  pinned : Option Nat
  order : Nat
deriving DecidableEq, Repr

/-- The allocation record (R59). -/
structure AllocRecord where
  time : Nat
  lineState : LineState
  iCmd : Nat
  capacity : Nat
  total : Nat
  shortfall : Nat
  passes : Nat
  leftover : Nat
  start : Option Group
  residual : Nat
  rotation : Group
  members : Eight (Option AllocMember)
deriving DecidableEq, Repr

/-- The line regulator (R1, R32 to R38, R46, R51, R52). The state is none while the store loads (R190). -/
structure Line where
  state : Option LineState
  iCmd : Nat
  residual : Nat
  rotation : Group
  allocTimer : Option Nat
  adoptDeadline : Option Nat
  aeHold : Bool
  least : Nat
  governing : ClaimSlot
  target : Nat
  capacityShort : Bool
  record : AllocRecord
deriving DecidableEq, Repr

/-- The record of one group interface (R9, R17 to R21), without its configuration. `awaiting` marks a group that
entered JOINING from OUT and is in the allocation set only from the next expiry (R11, R68). `tolerance` and `resolution`
are the configuration items in use: a change of an item is used from the next allocation-timer expiry (R9), and these
two are the ones that are used between expiries (R21, R23; log 34). -/
structure GroupRecord where
  service : ServiceState
  joinCeiling : Nat
  leaveCeiling : Nat
  lastOrder : Nat
  blockFlag : Bool
  sequence : Nat
  lastFrame : Option StatusFrame
  linkTimer : Option Nat
  trackingTimer : Option Nat
  awaiting : Bool
  tolerance : Nat
  resolution : Nat
deriving DecidableEq, Repr

/-! ### Cooling and inputs (chapter 4) -/

/-- The filter of one input (R61). -/
structure InputFilter where
  filtered : Bool
  settled : Bool
  run : Bool
  count : Nat
deriving DecidableEq, Repr

/-- The pattern state (R63). -/
inductive PatternState where
  | matching
  | mismatching
deriving DecidableEq, Repr

/-- The pump-loss state (R68). -/
inductive PumpLoss where
  | none
  | grace
  | expired
deriving DecidableEq, Repr

/-- The last T_out with the inlet temperature and flow of its frame (R72). -/
structure Temperatures where
  outlet : Int
  inlet : Int
  flow : Nat
deriving DecidableEq, Repr

/-- The group input monitor and the cooling supervisor of one group (chapter 4). The pattern source of R64 holds
exactly while the pattern state is MISMATCH, so it is not kept a second time. `clearLevel` is the warn threshold less the
alarm hysteresis that the last valid frame was taken with (R75, R77). -/
structure GroupCooling where
  inputs : Twelve InputFilter
  pattern : PatternState
  differing : BitVec 8
  adoptionSource : Bool
  protection : Bool
  pumpLoss : PumpLoss
  graceTimer : Option Nat
  governing : Option (Fin 8)
  percent : Nat
  lastTemps : Option Temperatures
  ceiling : Nat
  warning : Bool
  clearLevel : Int
  overtemp : Bool
deriving DecidableEq, Repr

/-! ### Pots and the scan link (chapter 5) -/

inductive Circuit where
  | inCircuit
  | cutOut
deriving DecidableEq, Repr

inductive BandState where
  | inBand
  | outOfBand
deriving DecidableEq, Repr

/-- The AE states of a pot (Table 6-1). -/
inductive AeState where
  | normal
  | rising
  | ae
  | falling
deriving DecidableEq, Repr

/-- A pot entry (Table 5-1). -/
structure Pot where
  circuit : Circuit
  last : Nat
  previous : Nat
  swing : Nat
  stamp : Nat
  stale : Bool
  band : BandState
  aeState : AeState
  run : Nat
  unlisted : Bool
  aeCount : Nat
  lastOnset : Nat
deriving DecidableEq, Repr

/-- A section descriptor (R82). -/
structure SectionDescriptor where
  origin : Nat
  length : Nat
deriving DecidableEq, Repr

/-- The scan receiver and the part-wide state of the pot table (R86 to R92). -/
structure Scan where
  cycleCount : Nat
  stamp : Nat
  markerTimer : Option Nat
  timeoutMark : Bool
  staleCount : Nat
  armed : Bool
  scanStale : Bool
  checkFlag : Bool
  addressFlag : Bool
  lastBadAddress : Option (Nat × Nat)
deriving DecidableEq, Repr

/-! ### Anode effects (chapter 6) -/

inductive QuenchState where
  | waitAck
  | quenching
deriving DecidableEq, Repr

/-- The reason of an end (R117). -/
inductive EndReason where
  | normal
  | cutOut
  | restart
deriving DecidableEq, Repr

/-- An AE record (R104). The deadline is the ack timer in WAIT_ACK and the quench timer in QUENCHING. -/
structure AeRecord where
  id : Nat
  pot : Nat
  onset : Nat
  original : Option Nat
  current : Nat
  peak : Nat
  state : QuenchState
  attempt : Nat
  exhausted : Bool
  deadline : Option Nat
  reported : Bool
  energy : Nat
deriving DecidableEq, Repr

/-- An entry of the overflow list (R100). -/
structure Overflow where
  pot : Nat
  onset : Nat
deriving DecidableEq, Repr

/-- An entry of the recent-ends list (R117). -/
structure RecentEnd where
  id : Nat
  pot : Nat
  time : Nat
  reason : EndReason
deriving DecidableEq, Repr

/-- The anode-effect unit (R100). The HEADROOM claim itself stands in the claims table. Recent ends stand oldest
first. -/
structure AeUnit where
  list : List AeRecord
  overflow : List Overflow
  nextId : Nat
  recent : List RecentEnd
  storm : Bool
  unquenched : Bool
  headroom : Bool
deriving DecidableEq, Repr

/-! ### Metering (chapter 7) -/

/-- A calendar position: day of the week and milliseconds since midnight (R124). -/
structure Calendar where
  day : Nat
  tod : Nat
deriving DecidableEq, Repr

/-- The interval in progress (R129); a governing window of none is DEFAULT. -/
structure Interval where
  number : Nat
  start : Nat
  startCalendar : Option Calendar
  length : Nat
  efficiency : Nat
  window : Option (Fin 8)
  demand : Nat
  priceClass : Nat
  accumulator : Nat
  eUsed : Nat
  peak : Nat
  aeEnergy : Nat
  aeOnsets : Nat
  breaches : Nat
  short : Bool
  exceeded : Bool
  curtailed : Bool
  deadline : Nat
deriving DecidableEq, Repr

/-- A history record (R140). -/
structure History where
  number : Nat
  start : Nat
  stop : Nat
  startCalendar : Option Calendar
  length : Nat
  window : Option (Fin 8)
  priceClass : Nat
  demand : Nat
  billed : Nat
  peak : Nat
  aeEnergy : Nat
  aeOnsets : Nat
  breaches : Nat
  short : Bool
  unsynced : Bool
  exceeded : Bool
  curtailed : Bool
deriving DecidableEq, Repr

/-- The kind of a sync window (R130, R132). -/
inductive SyncKind where
  | afterTimer
  | afterPulse
deriving DecidableEq, Repr

/-- An open sync window: its kind and the time base of its end. -/
structure SyncWindow where
  kind : SyncKind
  deadline : Nat
deriving DecidableEq, Repr

/-- The hold reason of the demand ceiling (R137, R138). -/
inductive HoldReason where
  | none
  | guard
  | voltage
  | off
  | noCalendar
deriving DecidableEq, Repr

/-- The metering and demand unit, without the time base (chapter 7). The ring holds the newest record first. -/
structure Metering where
  calendar : Option Calendar
  timer : Option Nat
  interval : Option Interval
  iM : Nat
  u : Nat
  pDc : Nat
  pBill : Nat
  ceiling : Nat
  holdReason : HoldReason
  dTarget : Nat
  eAllow : Nat
  contract : Nat
  exceedance : Bool
  sync : Option SyncWindow
  repeated : Nat
  ring : List History
deriving DecidableEq, Repr

/-- A tariff window (R135). -/
structure TariffWindow where
  enabled : Bool
  start : Nat
  stop : Nat
  days : BitVec 7
  demand : Nat
  priceClass : Nat
deriving DecidableEq, Repr

/-! ### Curtailment (chapter 8) -/

/-- The states an ORDER_STATE notice names (R145); an order of the list is PENDING or ACTIVE. -/
inductive OrderState where
  | pending
  | active
  | done
  | cancelled
deriving DecidableEq, Repr

/-- A curtailment order (R145), with its membership of the enforced set (R151). -/
structure CurtailOrder where
  tag : Nat
  state : OrderState
  ceiling : Nat
  start : Nat
  duration : Nat
  stop : Nat
  port : Port
  activation : Option Nat
  enforcement : Option Nat
  enforced : Bool
deriving DecidableEq, Repr

/-- The curtailment unit (chapter 8). -/
structure Curtailment where
  orders : List CurtailOrder
  value : Nat
  holdMark : Bool
  lastVoltage : Nat
  compliance : Bool
  run : Nat
deriving DecidableEq, Repr

/-! ### Faults (chapter 9) -/

/-- The group kinds, in the order of their kind numbers 0 to 5 (Table 9-1). -/
inductive GroupKind where
  | linkLost
  | protection
  | overtemp
  | mismatch
  | coolingLost
  | tracking
deriving DecidableEq, Repr

/-- The line kinds, in the order of their kind numbers 6 to 12 (Table 9-1). -/
inductive LineKind where
  | capacityShort
  | headroomLow
  | aeStorm
  | aeUnquenched
  | scanStale
  | demandExceeded
  | curtailMissed
deriving DecidableEq, Repr

/-- A fault kind. -/
inductive FaultKind where
  | group (k : GroupKind)
  | line (k : LineKind)
deriving DecidableEq, Repr

/-- The name of a fault entry: its kind and, for a group kind, its group (R156). -/
inductive FaultId where
  | group (k : GroupKind) (g : Group)
  | line (k : LineKind)
deriving DecidableEq, Repr

inductive EntryState where
  | clear
  | active
  | latched
deriving DecidableEq, Repr

/-- The configured responses (R157), in the order R156 lists them. -/
inductive Action where
  | note
  | hold
  | reduce
  | remove
  | trip
deriving DecidableEq, Repr

/-- The response an entry carries: the configured one, with REMOVE added where the kind forces it (R158). -/
structure Carried where
  configured : Action
  forced : Bool
deriving DecidableEq, Repr

/-- The routes (R157). -/
inductive Route where
  | none
  | lineA
  | lineB
  | both
deriving DecidableEq, Repr

/-- The reduce value of an entry (R156). -/
inductive ReduceValue where
  | absent
  | pending
  | set (v : Nat)
deriving DecidableEq, Repr

/-- The quantities an onset carries, as the rule of the owning block names them (R156). -/
inductive Detail where
  | linkLost (current : Nat)
  | protection (inputs : BitVec 4)
  | overtemp (outlet : Int)
  | mismatch (inputs : BitVec 8)
  | tracking (current order : Nat)
  | capacity (shortfall : Nat)
  | headroom (u limit : Nat)
  | storm (length : Nat)
  | unquenched (id pot : Nat)
  | scanStale (count : Nat)
  | demand (eUsed contract : Nat)
  | curtail (billed ceiling tag : Nat)
deriving DecidableEq, Repr

/-- A fault entry (R156). -/
structure Entry where
  state : EntryState
  first : Nat
  last : Nat
  count : Nat
  response : Option Carried
  route : Route
  capture : Bool
  reducePercent : Option Nat
  reduceValue : ReduceValue
  detail : Option Detail
deriving DecidableEq, Repr

/-- The fault table: 6 group kinds in 8 groups and 7 line kinds, 55 entries (R156). -/
structure FaultTable where
  linkLost : Eight Entry
  protection : Eight Entry
  overtemp : Eight Entry
  mismatch : Eight Entry
  coolingLost : Eight Entry
  tracking : Eight Entry
  capacityShort : Entry
  headroomLow : Entry
  aeStorm : Entry
  aeUnquenched : Entry
  scanStale : Entry
  demandExceeded : Entry
  curtailMissed : Entry
deriving DecidableEq, Repr

/-- A row of the action table (R157). -/
structure ActionRow where
  route : Route
  response : Action
  percent : Nat
  capture : Bool
deriving DecidableEq, Repr

/-- The action table (R157). -/
structure ActionTable where
  linkLost : ActionRow
  protection : ActionRow
  overtemp : ActionRow
  mismatch : ActionRow
  coolingLost : ActionRow
  tracking : ActionRow
  capacityShort : ActionRow
  headroomLow : ActionRow
  aeStorm : ActionRow
  aeUnquenched : ActionRow
  scanStale : ActionRow
  demandExceeded : ActionRow
  curtailMissed : ActionRow
deriving DecidableEq, Repr

/-- The fault unit: the fault table and the fault lines (R156, R167). The action table is configuration. -/
structure FaultUnit where
  table : FaultTable
  lineA : Bool
  lineB : Bool
deriving DecidableEq, Repr

/-! ### Configuration (Table 11-4) -/

/-- The configuration items of one group (R9, R61 to R70). -/
structure GroupConfig where
  rating : Nat
  weight : Nat
  resolution : Nat
  joinRate : Nat
  leaveRate : Nat
  tolerance : Nat
  filterCounts : Twelve Nat
  expected : BitVec 8
  enabled : BitVec 8
  tripMask : BitVec 4
  lossFraction : Nat
  graceTime : Nat
deriving DecidableEq, Repr

/-- The band set (R93). -/
structure BandSet where
  low : Nat
  high : Nat
  swing : Nat
  voltageCheck : Bool
  swingCheck : Bool
deriving DecidableEq, Repr

/-- The detection set (R101). -/
structure DetectionSet where
  aeOn : Nat
  aeOff : Nat
  nOn : Nat
  nOff : Nat
deriving DecidableEq, Repr

/-- The quench set (R110). -/
structure QuenchSet where
  ack : Nat
  quench : Nat
  nominal : Nat
deriving DecidableEq, Repr

/-- The headroom set (R119). -/
structure HeadroomSet where
  uMax : Nat
  margin : Nat
  hysteresis : Nat
  step : Nat
deriving DecidableEq, Repr

/-- Every configuration item (Table 11-4). -/
structure Configuration where
  floor : Nat
  upRate : Nat
  downRate : Nat
  startRate : Nat
  stopRate : Nat
  holdOnAe : Bool
  groups : Eight GroupConfig
  derate : Eight (Int × Nat)
  derateHysteresis : Nat
  warnThreshold : Int
  tripThreshold : Int
  alarmHysteresis : Nat
  sections : Four SectionDescriptor
  band : BandSet
  staleLimit : Nat
  switchingLimit : Nat
  detection : DetectionSet
  quench : QuenchSet
  aeCapture : Bool
  headroom : HeadroomSet
  efficiency : Nat
  intervalLength : Nat
  demandMargin : Nat
  guardTime : Nat
  defaultDemand : Nat
  demandControl : Bool
  windows : Eight TariffWindow
  curtailGrace : Nat
  actions : ActionTable
deriving DecidableEq, Repr

/-! ### Snapshots (chapter 10) -/

/-- The cause and the cause detail of a frame (Table 10-1). `principal` is the principal quantity of an onset. -/
inductive FrameCause where
  | ae (deferred : Bool) (id attempt pot onset current peak : Nat)
  | fault (id : FaultId) (before : EntryState) (count : Nat) (response : Option Carried) (route : Route)
      (reduce : ReduceValue) (principal : Int)
deriving DecidableEq, Repr

/-- What a frame's body keeps of one group (Table 10-1). -/
structure FrameGroup where
  service : ServiceState
  order : Nat
  block : Bool
  current : Option Nat
deriving DecidableEq, Repr

/-- The body of a frame (Table 10-1). -/
structure FrameBody where
  lineState : Option LineState
  iCmd : Nat
  target : Nat
  governing : ClaimSlot
  claims : List (Bool × Nat)
  iM : Nat
  u : Nat
  groups : Eight FrameGroup
  rotation : Group
  residual : Nat
  aeCount : Nat
  aeHold : Bool
  eUsed : Nat
deriving DecidableEq, Repr

/-- A captured frame (R172, R173): what is fixed when the push is requested. -/
structure Captured where
  cause : FrameCause
  time : Nat
  body : FrameBody
deriving DecidableEq, Repr

/-- A frame with its completed header, at the word address of its first word (R174). -/
structure Frame where
  address : Nat
  backLink : Nat
  sequence : Nat
  missed : Nat
  length : Nat
  contents : Captured
deriving DecidableEq, Repr

/-- The snapshot stack (R171). The stacked frames stand newest first, which is by rising word address. -/
structure SnapshotStack where
  frames : List Frame
  top : Nat
  nextSequence : Nat
  missed : Nat
  writing : Option Frame
  waiting : List Captured
deriving DecidableEq, Repr

/-! ### Ports and the store (chapter 11) -/

/-- The roles, in the order of R180. -/
inductive Role where
  | substation
  | potline
  | energy
  | service
deriving DecidableEq, Repr

/-- The result codes, in the order of Table 11-1. -/
inductive ResultCode where
  | ok
  | okClamped
  | unknownKind
  | notPermitted
  | badState
  | outOfRange
  | outOfOrder
  | range
  | staleGeneration
  | full
  | duplicate
  | notFound
  | notSet
  | alreadyEnded
  | conditionPresent
  | moved
  | tooHigh
  | lastGroup
  | noGroups
  | busy
deriving DecidableEq, Repr

/-- One value of a payload or a notice record, as R193 codes it. -/
inductive Field where
  /-- A quantity in `width` bytes. -/
  | num (width value : Nat)
  /-- A quantity whose range includes negative values, in two bytes. -/
  | int (value : Int)
  /-- A mark or condition. -/
  | mark (set : Bool)
  /-- A value named from a list, by its place. -/
  | name (place : Nat)
  /-- Several values of one list, or a set of members, one bit each. -/
  | bits (mask : Nat)
  /-- The mark byte before a field that holds a value. -/
  | present
  /-- A field that holds no value: 1 absent or none, 2 PENDING, 3 INVALID; `width` is its full width. -/
  | noValue (why width : Nat)
  /-- The number of members of a list that varies. -/
  | count (n : Nat)
deriving DecidableEq, Repr

/-- A response (Table 11-5): the tag and kind echoed, the result code and the payload. -/
structure Reply where
  tag : Nat
  kind : Nat
  code : ResultCode
  payload : List Field
deriving DecidableEq, Repr

/-- What a notice reports, with the fields its rule gives (Table 11-3). -/
inductive NoticeBody where
  | lineState (new : LineState) (previous : Option LineState) (cause : LineCause)
  | groupState (g : Group) (new previous : ServiceState) (cause : GroupCause)
  | faultOnset (id : FaultId) (before : EntryState) (count first last : Nat) (response : Option Carried)
      (route : Route) (reduce : ReduceValue) (detail : Option Detail) (lineA lineB : Bool)
  | faultLatched (id : FaultId) (count time : Nat)
  | faultCleared (id : FaultId) (count : Nat) (port : Port) (lineA lineB : Bool)
  /-- Listed (R105) with an id, UNLISTED (R106) without one, DEFERRED (R108) with the original onset. `number` is the
  length of the AE list, or of the overflow list for an UNLISTED one. -/
  | aeOnset (id : Option Nat) (pot sectionNo position onset current peak number : Nat) (original : Option Nat)
  | aeEnd (id pot sectionNo position : Nat) (reason : EndReason) (onset : Nat) (original : Option Nat)
      (duration peak energy attempt : Nat) (exhausted reported : Bool)
  | aeEndUnlisted (pot sectionNo position : Nat) (reason : EndReason) (onset duration : Nat)
  | quenchRequest (id attempt pot sectionNo position : Nat)
  | potWatch (pot sectionNo position last swing : Nat) (voltageFailed swingFailed : Bool)
  | warningTemperature (g : Group) (outlet threshold : Int)
  | warningPumpLoss (g : Group) (graceTime : Nat)
  | intervalClosed (record : History) (position : Nat)
  | orderState (tag : Nat) (state : OrderState) (ceiling start stop left : Nat)
  | configChanged (item index generation : Nat) (port : Port)
  | configDefaulted
  | snapshotPushed (sequence : Nat) (cause : FrameCause) (address length missed used frames : Nat)
deriving DecidableEq, Repr

/-- A notice (R183): the time base of the event that placed it and what it reports. -/
structure Notice where
  time : Nat
  body : NoticeBody
deriving DecidableEq, Repr

inductive RequestState where
  | idle
  | answering
  | saving
deriving DecidableEq, Repr

inductive CursorTarget where
  | pots
  | history
deriving DecidableEq, Repr

inductive Direction where
  | ascending
  | descending
deriving DecidableEq, Repr

/-- A read cursor (R185). -/
structure Cursor where
  target : CursorTarget
  position : Nat
  direction : Direction
  skipped : Bool
deriving DecidableEq, Repr

/-- A tag waiting for its BUSY answer, with the kind that the answer echoes (R182, Table 11-5; log 7). -/
structure BusyTag where
  tag : Nat
  kind : Nat
deriving DecidableEq, Repr

/-- A requester port (chapter 11). The attention line is a function of the queue (R183). -/
structure PortRecord where
  role : Role
  request : RequestState
  reply : Option Reply
  busy : List BusyTag
  queue : List Notice
  overrun : Bool
  badFrame : Bool
  dropped : Nat
  receiver : Receiver
  gapTimer : Option Nat
  cursor : Cursor
deriving DecidableEq, Repr

/-- The contents of a stored image (R189). -/
structure Image where
  config : Configuration
  generation : Nat
  selected : Eight Bool
  circuits : List Circuit
deriving DecidableEq, Repr

/-- A save in progress (R189): the saving port, the tag of its request, the captured contents and the start time. -/
structure Save where
  port : Port
  tag : Nat
  contents : Image
  start : Nat
deriving DecidableEq, Repr

/-- The store state (R189, R190). -/
inductive StoreState where
  | loading
  | idle
  | saving (save : Save)
deriving DecidableEq, Repr

inductive LoadResult where
  | loaded
  | defaulted
deriving DecidableEq, Repr

/-- The configuration store (R187 to R190). `image` is what the attached memory holds behind a valid check word, or
none when its check word fails. -/
structure Store where
  state : StoreState
  load : LoadResult
  generation : Nat
  image : Option Image
deriving DecidableEq, Repr

/-- A frame the part has sent: an order frame on a group link (R17) or a response frame on a port (R182). -/
inductive Sent where
  | order (g : Group) (order : Nat) (block : Bool) (sequence : Nat)
  | response (port : Port) (reply : Reply)
deriving DecidableEq, Repr

end Sys2Proof.Machine
end

