-- ==== Sys2Proof/Machine/Defaults.lean ====
section
/-! DEFINITION. The defaults of the configuration items, and the value each piece of state takes at a power-on reset
(the tables of R25, R42, R60, R80, R99, R123, R143, R155, R169, R179 and R192). -/

namespace Sys2Proof.Machine

/-! ### Configuration defaults -/

/-- R9, R61 (F of 3), R63, R66, R70. -/
def defaultGroupConfig : GroupConfig :=
  { rating := 12000
    weight := 4
    resolution := 5
    joinRate := 100
    leaveRate := 100
    tolerance := 300
    filterCounts := Twelve.fill 3
    expected := 0x1F#8
    enabled := 0x51#8
    tripMask := 0xF#4
    lossFraction := 50
    graceTime := 30 }

/-- R71. -/
def defaultDerate : Eight (Int × Nat) :=
  ⟨(450, 100), (500, 95), (550, 90), (600, 80), (650, 70), (700, 60), (750, 50), (800, 40)⟩

/-- R82. -/
def defaultSections : Four SectionDescriptor := ⟨⟨0, 100⟩, ⟨100, 100⟩, ⟨200, 100⟩, ⟨300, 100⟩⟩

/-- R135. -/
def defaultWindow : TariffWindow :=
  { enabled := false, start := 0, stop := 95, days := 0x7F#7, demand := 2000000, priceClass := 0 }

/-- R157. -/
def defaultActions : ActionTable :=
  { linkLost := ⟨.lineB, .note, 90, true⟩
    protection := ⟨.both, .note, 90, true⟩
    overtemp := ⟨.lineA, .note, 90, true⟩
    mismatch := ⟨.none, .note, 90, false⟩
    coolingLost := ⟨.lineA, .remove, 90, true⟩
    tracking := ⟨.none, .note, 90, true⟩
    capacityShort := ⟨.none, .note, 90, false⟩
    headroomLow := ⟨.none, .note, 90, false⟩
    aeStorm := ⟨.lineB, .note, 90, true⟩
    aeUnquenched := ⟨.lineB, .note, 90, true⟩
    scanStale := ⟨.lineB, .note, 90, false⟩
    demandExceeded := ⟨.none, .note, 90, true⟩
    curtailMissed := ⟨.none, .note, 90, true⟩ }

/-- The defaults of every configuration item (R35, R9, R71, R75, R82, R93, R92, R95, R101, R110, R119, R126, R135,
R151, R157). -/
def defaultConfiguration : Configuration :=
  { floor := 25000
    upRate := 20
    downRate := 100
    startRate := 50
    stopRate := 200
    holdOnAe := true
    groups := Eight.fill defaultGroupConfig
    derate := defaultDerate
    derateHysteresis := 20
    warnThreshold := 650
    tripThreshold := 850
    alarmHysteresis := 30
    sections := defaultSections
    band := { low := 3800, high := 4800, swing := 150, voltageCheck := true, swingCheck := true }
    staleLimit := 8
    switchingLimit := 3000
    detection := { aeOn := 8000, aeOff := 5500, nOn := 3, nOff := 5 }
    quench := { ack := 5, quench := 180, nominal := 4200 }
    aeCapture := true
    headroom := { uMax := 18000, margin := 300, hysteresis := 200, step := 200 }
    efficiency := 10350
    intervalLength := 15
    demandMargin := 50
    guardTime := 20000
    defaultDemand := 2000000
    demandControl := false
    windows := Eight.fill defaultWindow
    curtailGrace := 60
    actions := defaultActions }

/-! ### Power-on values -/

/-- The reset contents of the allocation record (R60). -/
def emptyAllocRecord : AllocRecord :=
  { time := 0, lineState := .standby, iCmd := 0, capacity := 0, total := 0, shortfall := 0, passes := 0
    leftover := 0, start := none, residual := 0, rotation := 0, members := Eight.fill none }

/-- R25, R42, R60; no line state while the store loads (R190). -/
def powerOnLine : Line :=
  { state := none, iCmd := 0, residual := 0, rotation := 0, allocTimer := none, adoptDeadline := none
    aeHold := false, least := 0, governing := .setpoint, target := defaultConfiguration.floor
    capacityShort := false, record := emptyAllocRecord }

/-- An inactive slot of value 0 with no writer, changed at `t` (R42). -/
def clearClaim (t : Nat) : Claim := { active := false, value := 0, writer := none, changed := t }

/-- The claims table after a reset taken at time base `t` (R42): only SETPOINT is active. -/
def resetClaims (t : Nat) : ClaimsTable :=
  { fault := clearClaim t, headroom := clearClaim t, curtail := clearClaim t, demand := clearClaim t
    cutout := clearClaim t, service := clearClaim t
    setpoint := { active := true, value := 0, writer := none, changed := t }
    adopted := false }

/-- R25, for a group that is not selected. -/
def powerOnGroup : GroupRecord :=
  { service := .out, joinCeiling := 0, leaveCeiling := 0, lastOrder := 0, blockFlag := true, sequence := 0
    lastFrame := none, linkTimer := none, trackingTimer := none, awaiting := false
    tolerance := defaultGroupConfig.tolerance, resolution := defaultGroupConfig.resolution }

/-- R62. -/
def powerOnFilter : InputFilter := { filtered := false, settled := false, run := false, count := 0 }

/-- R80; the cooling ceiling is the rating. The clear level is not read before a frame has set it (log 5). -/
def powerOnCooling (rating : Nat) : GroupCooling :=
  { inputs := Twelve.fill powerOnFilter, pattern := .matching, differing := 0, adoptionSource := false
    protection := false, pumpLoss := .none, graceTimer := none, governing := none, percent := 100
    lastTemps := none, ceiling := rating, warning := false
    clearLevel := defaultConfiguration.warnThreshold - (defaultConfiguration.alarmHysteresis : Int), overtemp := false }

/-- The fresh entry of R84, which is also the power-on entry of R99. -/
def freshPot : Pot :=
  { circuit := .inCircuit, last := 0, previous := 0, swing := 0, stamp := 0, stale := true, band := .inBand
    aeState := .normal, run := 0, unlisted := false, aeCount := 0, lastOnset := 0 }

/-- The number of pot entries (R82). -/
def potCount : Nat := 400

/-- R99. -/
def powerOnPots : List Pot := List.replicate potCount freshPot

/-- R99; with the default descriptors every one of the 400 entries is mapped and IN_CIRCUIT. -/
def powerOnScan : Scan :=
  { cycleCount := 0, stamp := 0, markerTimer := none, timeoutMark := false, staleCount := potCount
    armed := false, scanStale := false, checkFlag := false, addressFlag := false, lastBadAddress := none }

/-- R123. -/
def powerOnAe : AeUnit :=
  { list := [], overflow := [], nextId := 1, recent := [], storm := false, unquenched := false
    headroom := false }

/-- R143, R127; no interval while the store loads (R190). -/
def powerOnMetering : Metering :=
  { calendar := none, timer := none, interval := none, iM := 0, u := 0, pDc := 0, pBill := 0
    ceiling := 60000, holdReason := .noCalendar, dTarget := 0, eAllow := 0, contract := 0
    exceedance := false, sync := none, repeated := 0, ring := [] }

/-- R155. -/
def powerOnCurtailment : Curtailment :=
  { orders := [], value := 60000, holdMark := false, lastVoltage := 0, compliance := false, run := 0 }

/-- An entry in CLEAR (R161). -/
def clearEntry : Entry :=
  { state := .clear, first := 0, last := 0, count := 0, response := none, route := .none, capture := false
    reducePercent := none, reduceValue := .absent, detail := none }

/-- Every entry in CLEAR. -/
def clearTable : FaultTable :=
  { linkLost := Eight.fill clearEntry, protection := Eight.fill clearEntry
    overtemp := Eight.fill clearEntry, mismatch := Eight.fill clearEntry
    coolingLost := Eight.fill clearEntry, tracking := Eight.fill clearEntry
    capacityShort := clearEntry, headroomLow := clearEntry, aeStorm := clearEntry
    aeUnquenched := clearEntry, scanStale := clearEntry, demandExceeded := clearEntry
    curtailMissed := clearEntry }

/-- R169, R170: every entry in CLEAR and both lines deasserted. -/
def clearFaults : FaultUnit := { table := clearTable, lineA := false, lineB := false }

/-- R179. -/
def emptyStack : SnapshotStack :=
  { frames := [], top := 4096, nextSequence := 0, missed := 0, writing := none, waiting := [] }

/-- R192. -/
def powerOnCursor : Cursor := { target := .pots, position := 0, direction := .ascending, skipped := false }

/-- R192, for a port of the given role. -/
def powerOnPort (role : Role) : PortRecord :=
  { role := role, request := .idle, reply := none, busy := [], queue := [], overrun := false
    badFrame := false, dropped := 0, receiver := .hunting, gapTimer := none, cursor := powerOnCursor }

/-- The role two straps bind a port to (R180). -/
def roleOfStraps (st : Straps) : Role :=
  match st.first, st.second with
  | false, false => .substation
  | false, true => .potline
  | true, false => .energy
  | true, true => .service

/-- The straps that State.reset supposes: one port of each role (DESIGN CHOICE, log 4). -/
def resetStraps : Four Straps := ⟨⟨false, false⟩, ⟨false, true⟩, ⟨true, false⟩, ⟨true, true⟩⟩

/-- The ports as a power-on reset leaves them (R180, R192). -/
def powerOnPorts (straps : Four Straps) : Four PortRecord :=
  Four.ofFn fun p => powerOnPort (roleOfStraps (straps.get p))

/-- The store as a power-on reset leaves it: the load of the image has begun (R190). The load result stands at
DEFAULTED until the load has one (log 5). -/
def powerOnStore (image : Option Image) : Store :=
  { state := .loading, load := .defaulted, generation := 0, image := image }

end Sys2Proof.Machine
end

