-- ==== Sys2Proof/Machine/State.lean ====
section
/-! DEFINITION. The state of the LC408, the reasons a step can stop, and the state after a power-on reset. -/

namespace Sys2Proof.Machine

/-- The state of the part, block by block (00_scope.md Table 1), with the queue of the commands that wait. `out` is the
model's own record of the frames the last command sent (log 27). -/
structure State where
  timeBase : Nat
  config : Configuration
  line : Line
  claims : ClaimsTable
  groups : Eight GroupRecord
  cooling : Eight GroupCooling
  pots : List Pot
  scan : Scan
  ae : AeUnit
  metering : Metering
  curtail : Curtailment
  faults : FaultUnit
  stack : SnapshotStack
  ports : Four PortRecord
  store : Store
  out : List Sent
  pending : List Instr
deriving DecidableEq, Repr

/-- Reasons for which the machine stops. There are none: no rule of the manual stops the part, so this type has no
constructor and no command can end in a fault. -/
inductive Fault where
deriving DecidableEq, Repr

/-- Reasons for which a command is turned away by the model. -/
inductive Refusal where
  /-- Raised by an arm of `exec` whose command has no meaning yet. Safe: the machine stops. No arm uses it. -/
  | notModelled (mnemonic : String)
deriving DecidableEq, Repr

/-- The part right after a power-on reset (R190): the ports bound by their straps (here one port of each role, log 4),
every block at its power-on value, the load of the stored image in progress, and no valid image behind the link
(log 4). -/
def State.reset : State :=
  { timeBase := 0
    config := defaultConfiguration
    line := powerOnLine
    claims := resetClaims 0
    groups := Eight.fill powerOnGroup
    cooling := Eight.fill (powerOnCooling defaultGroupConfig.rating)
    pots := powerOnPots
    scan := powerOnScan
    ae := powerOnAe
    metering := powerOnMetering
    curtail := powerOnCurtailment
    faults := clearFaults
    stack := emptyStack
    ports := powerOnPorts resetStraps
    store := powerOnStore none
    out := []
    pending := [] }

end Sys2Proof.Machine
end

