-- ==== Sys2Proof/Machine/Operands.lean ====
section
/-! DEFINITION. How values are coded in payloads and notice records (R193), the result and notice codes, the rights of
the roles (Table 11-2), and the bytes of a response frame and of a notice record. -/

namespace Sys2Proof.Machine

/-! ### Places in the lists of the manual (R193: counting from 0) -/

def LineState.place : LineState → Nat
  | .standby => 0
  | .adopting => 1
  | .starting => 2
  | .regulating => 3
  | .hold => 4
  | .stopping => 5
  | .tripped => 6

def LineCause.place : LineCause → Nat
  | .request => 0
  | .ramp => 1
  | .adoption => 2
  | .fault => 3
  | .reset => 4

def ServiceState.place : ServiceState → Nat
  | .out => 0
  | .joining => 1
  | .inService => 2
  | .leaving => 3
  | .removed => 4
  | .linkLost => 5

def GroupCause.place : GroupCause → Nat
  | .request => 0
  | .ramp => 1
  | .line => 2
  | .fault => 3
  | .link => 4
  | .adoption => 5

def ClaimSlot.place : ClaimSlot → Nat
  | .fault => 0
  | .headroom => 1
  | .curtail => 2
  | .demand => 3
  | .cutout => 4
  | .service => 5
  | .setpoint => 6

def PatternState.place : PatternState → Nat
  | .matching => 0
  | .mismatching => 1

def PumpLoss.place : PumpLoss → Nat
  | .none => 0
  | .grace => 1
  | .expired => 2

def Circuit.place : Circuit → Nat
  | .inCircuit => 0
  | .cutOut => 1

def BandState.place : BandState → Nat
  | .inBand => 0
  | .outOfBand => 1

def AeState.place : AeState → Nat
  | .normal => 0
  | .rising => 1
  | .ae => 2
  | .falling => 3

def QuenchState.place : QuenchState → Nat
  | .waitAck => 0
  | .quenching => 1

def EndReason.place : EndReason → Nat
  | .normal => 0
  | .cutOut => 1
  | .restart => 2

def SyncKind.place : SyncKind → Nat
  | .afterTimer => 0
  | .afterPulse => 1

/-- The hold reasons of R137 in its order, then those of R138 in its order (log 21). -/
def HoldReason.place : HoldReason → Nat
  | .none => 0
  | .guard => 1
  | .voltage => 2
  | .off => 3
  | .noCalendar => 4

def OrderState.place : OrderState → Nat
  | .pending => 0
  | .active => 1
  | .done => 2
  | .cancelled => 3

/-- The kind number of a group kind (Table 9-1). -/
def GroupKind.number : GroupKind → Nat
  | .linkLost => 0
  | .protection => 1
  | .overtemp => 2
  | .mismatch => 3
  | .coolingLost => 4
  | .tracking => 5

/-- The kind number of a line kind (Table 9-1). -/
def LineKind.number : LineKind → Nat
  | .capacityShort => 6
  | .headroomLow => 7
  | .aeStorm => 8
  | .aeUnquenched => 9
  | .scanStale => 10
  | .demandExceeded => 11
  | .curtailMissed => 12

/-- The kind number of a kind (Table 9-1). -/
def FaultKind.number : FaultKind → Nat
  | .group k => k.number
  | .line k => k.number

/-- The kind of an entry. -/
def FaultId.kind : FaultId → FaultKind
  | .group k _ => .group k
  | .line k => .line k

/-- The group of a group kind's entry. -/
def FaultId.group? : FaultId → Option Group
  | .group _ g => some g
  | .line _ => none

def EntryState.place : EntryState → Nat
  | .clear => 0
  | .active => 1
  | .latched => 2

def Action.place : Action → Nat
  | .note => 0
  | .hold => 1
  | .reduce => 2
  | .remove => 3
  | .trip => 4

def Route.place : Route → Nat
  | .none => 0
  | .lineA => 1
  | .lineB => 2
  | .both => 3

def Role.place : Role → Nat
  | .substation => 0
  | .potline => 1
  | .energy => 2
  | .service => 3

def RequestState.place : RequestState → Nat
  | .idle => 0
  | .answering => 1
  | .saving => 2

def CursorTarget.place : CursorTarget → Nat
  | .pots => 0
  | .history => 1

def Direction.place : Direction → Nat
  | .ascending => 0
  | .descending => 1

/-- The store state as READ_PORT_STATUS returns it (R188, R189: IDLE, or SAVING). No read is answered while the store
loads; LOADING has the place after them. -/
def StoreState.place : StoreState → Nat
  | .idle => 0
  | .saving _ => 1
  | .loading => 2

/-- The result codes by their place in Table 11-1 (R193). -/
def ResultCode.code : ResultCode → Nat
  | .ok => 0
  | .okClamped => 1
  | .unknownKind => 2
  | .notPermitted => 3
  | .badState => 4
  | .outOfRange => 5
  | .outOfOrder => 6
  | .range => 7
  | .staleGeneration => 8
  | .full => 9
  | .duplicate => 10
  | .notFound => 11
  | .notSet => 12
  | .alreadyEnded => 13
  | .conditionPresent => 14
  | .moved => 15
  | .tooHigh => 16
  | .lastGroup => 17
  | .noGroups => 18
  | .busy => 19

/-- The notice codes (R193). -/
def NoticeBody.code : NoticeBody → Nat
  | .lineState _ _ _ => 1
  | .groupState _ _ _ _ => 2
  | .faultOnset _ _ _ _ _ _ _ _ _ _ _ => 3
  | .faultLatched _ _ _ => 4
  | .faultCleared _ _ _ _ _ => 5
  | .aeOnset _ _ _ _ _ _ _ _ _ => 6
  | .aeEnd _ _ _ _ _ _ _ _ _ _ _ _ _ => 7
  | .aeEndUnlisted _ _ _ _ _ _ => 7
  | .quenchRequest _ _ _ _ _ => 8
  | .potWatch _ _ _ _ _ _ _ => 9
  | .warningTemperature _ _ _ => 10
  | .warningPumpLoss _ _ => 10
  | .intervalClosed _ _ => 11
  | .orderState _ _ _ _ _ _ => 12
  | .configChanged _ _ _ _ => 13
  | .configDefaulted => 14
  | .snapshotPushed _ _ _ _ _ _ _ => 15

/-! ### Rights (Table 11-2) -/

/-- Whether a role holds a request (R182 step 2, Table 11-2). WRITE_CONFIG is taken from every role; its own rule
tests the item (R187). -/
def requestPermits : ReqKind → Role → Bool
  | .startLine, r | .stopLine, r | .resetTrip, r | .setGroupService, r | .restoreGroup, r
  | .setSetpoint, r => r == .substation
  | .setCutoutLimit, r | .releaseCutoutLimit, r | .cutOutPot, r | .cutInPot, r | .quenchStarted, r
  | .quenchFailed, r => r == .potline
  | .setServiceLimit, r | .releaseServiceLimit, r | .restart, r => r == .service
  | .setClock, r | .postOrder, r | .cancelOrder, r => r == .energy
  | .clearFault, r | .dropTop, r | .dropAll, r | .saveConfig, r => r == .substation || r == .service
  | .writeConfig, _ | .readConfig, _ | .readLineStatus, _ | .readGroupStatus, _ | .readClaims, _
  | .readAllocation, _ | .readCooling, _ | .readScanStatus, _ | .readPot, _ | .readAeList, _
  | .readMetering, _ | .readOrders, _ | .readFaults, _ | .readFault, _ | .readFrame, _
  | .readStackStatus, _ | .readPortStatus, _ | .fetchNotices, _ | .setCursor, _ | .readNext, _ => true

/-- The roles a notice goes to (Table 11-3). -/
def NoticeBody.goesTo : NoticeBody → Role → Bool
  | .lineState _ _ _, _ => true
  | .groupState _ _ _ _, r => r == .substation || r == .service
  | .faultOnset _ _ _ _ _ _ _ _ _ _ _, _ => true
  | .faultLatched _ _ _, _ => true
  | .faultCleared _ _ _ _ _, _ => true
  | .aeOnset _ _ _ _ _ _ _ _ _, r => r == .substation || r == .potline
  | .aeEnd _ _ _ _ _ _ _ _ _ _ _ _ _, r => r == .substation || r == .potline
  | .aeEndUnlisted _ _ _ _ _ _, r => r == .substation || r == .potline
  | .quenchRequest _ _ _ _ _, r => r == .potline
  | .potWatch _ _ _ _ _ _ _, r => r == .potline
  | .warningTemperature _ _ _, r => r == .substation || r == .service
  | .warningPumpLoss _ _, r => r == .substation || r == .service
  | .intervalClosed _ _, r => r == .energy
  | .orderState _ _ _ _ _ _, r => r == .substation || r == .energy
  | .configChanged _ _ _ _, _ => true
  | .configDefaulted, _ => true
  | .snapshotPushed _ _ _ _ _ _ _, r => r == .substation || r == .service

/-! ### Fields (R193) -/

/-- The bytes of one value (R193). A quantity too great for its width is sent as the greatest the width holds (log 22). -/
def Field.bytes : Field → List Byte
  | .num w v => bytesOfNat w (min v (256 ^ w - 1))
  | .int v => bytesOfNat 2 (unsigned16 v)
  | .mark b => [markByte b]
  | .name p => bytesOfNat 1 p
  | .bits m => bytesOfNat 1 m
  | .present => [0]
  | .noValue why w => bytesOfNat 1 why ++ List.replicate w 0
  | .count n => bytesOfNat 1 n

/-- The bytes of a run of values. -/
def fieldBytes (fs : List Field) : List Byte := fs.flatMap Field.bytes

/-- A time base: 5 bytes. -/
def fTime (t : Nat) : Field := .num 5 t

/-- A line or group current, or another quantity of up to two bytes. -/
def fTwo (n : Nat) : Field := .num 2 n

/-- A group or another quantity of one byte. -/
def fOne (n : Nat) : Field := .num 1 n

/-- A power in kW: 3 bytes. -/
def fPower (n : Nat) : Field := .num 3 n

/-- A billed energy in kWs, or a quantity whose range is not stated: 4 bytes. -/
def fFour (n : Nat) : Field := .num 4 n

/-- A field that may be absent, of `width` bytes (R193). -/
def fOption {α : Type} (width : Nat) (f : α → List Field) : Option α → List Field
  | none => [.noValue 1 width]
  | some a => .present :: f a

/-- A calendar position or INVALID (R193): its day followed by its time of day. -/
def fCalendar : Option Calendar → List Field
  | none => [.noValue 3 5]
  | some c => [.present, fOne c.day, fFour c.tod]

/-- A list whose number of members varies (R193). -/
def fList {α : Type} (f : α → List Field) (l : List α) : List Field := .count l.length :: l.flatMap f

/-- A list of fixed length. -/
def fAll {α : Type} (f : α → List Field) (l : List α) : List Field := l.flatMap f

/-- The time that remains to a deadline, in ms: 4 bytes. -/
def remaining (now deadline : Nat) : Nat := deadline - now

/-- A running deadline as the time that remains to it, or absent. -/
def fRemaining (now : Nat) : Option Nat → List Field := fOption 4 fun d => [fFour (remaining now d)]

/-- The response of an entry: one bit for each response it names (R193, R158). -/
def Carried.mask (c : Carried) : Nat :=
  let own := if c.forced ∧ c.configured = .note then 0 else 2 ^ c.configured.place
  if c.forced ∧ c.configured ≠ .remove then own + 8 else own

/-- A reduce value (R156): a value, PENDING or absent. -/
def fReduce : ReduceValue → List Field
  | .absent => [.noValue 1 2]
  | .pending => [.noValue 2 2]
  | .set v => [.present, fTwo v]

/-- The quantities of a detail in the order the owning rule names them. -/
def Detail.fields : Detail → List Field
  | .linkLost c => [fTwo c]
  | .protection m => [.bits m.toNat]
  | .overtemp t => [.int t]
  | .mismatch m => [.bits m.toNat]
  | .tracking c o => [fTwo c, fTwo o]
  | .capacity n => [fTwo n]
  | .headroom u l => [fTwo u, fTwo l]
  | .storm n => [fTwo n]
  | .unquenched i p => [fOne i, fTwo p]
  | .scanStale n => [fTwo n]
  | .demand e c => [fFour e, fFour c]
  | .curtail b c t => [fPower b, fPower c, fOne t]

/-- The full width of a kind's detail, held as 0 when the entry has none (R193). -/
def FaultKind.detailWidth : FaultKind → Nat
  | .group .linkLost => 2
  | .group .protection => 1
  | .group .overtemp => 2
  | .group .mismatch => 1
  | .group .coolingLost => 0
  | .group .tracking => 4
  | .line .capacityShort => 2
  | .line .headroomLow => 4
  | .line .aeStorm => 2
  | .line .aeUnquenched => 3
  | .line .scanStale => 2
  | .line .demandExceeded => 8
  | .line .curtailMissed => 7

/-- The line state. It is never absent where it is read or captured (R24, Table 10-1): the line has none only while the
store loads, when no request is answered by its own rule and no frame is captured (R190), and the place of ADOPTING
stands for it. -/
def fLineState : Option LineState → Field
  | none => .name LineState.adopting.place
  | some l => .name l.place

/-- The principal quantity of a fault detail, in the width of its range (R193); COOLING_LOST's 0, which has no stated
range, takes 4 bytes (log 22). -/
def principalField (k : FaultKind) (q : Int) : Field :=
  match k with
  | .group .linkLost => fTwo q.toNat
  | .group .protection => .bits q.toNat
  | .group .overtemp => .int q
  | .group .mismatch => .bits q.toNat
  | .group .coolingLost => fFour q.toNat
  | .group .tracking => fTwo q.toNat
  | .line .capacityShort => fTwo q.toNat
  | .line .headroomLow => fTwo q.toNat
  | .line .aeStorm => fTwo q.toNat
  | .line .aeUnquenched => fOne q.toNat
  | .line .scanStale => fTwo q.toNat
  | .line .demandExceeded => fFour q.toNat
  | .line .curtailMissed => fPower q.toNat

/-- The principal quantity of an onset (Table 10-1 note 5); 0 for COOLING_LOST. -/
def principalOf : Option Detail → Int
  | none => 0
  | some (.linkLost c) => c
  | some (.protection m) => m.toNat
  | some (.overtemp t) => t
  | some (.mismatch m) => m.toNat
  | some (.tracking c _) => c
  | some (.capacity n) => n
  | some (.headroom u _) => u
  | some (.storm n) => n
  | some (.unquenched i _) => i
  | some (.scanStale n) => n
  | some (.demand e _) => e
  | some (.curtail b _ _) => b

/-- The name of an entry: its kind, and its group for a group kind, which is an absent value for a line kind (log 21). -/
def FaultId.fields (id : FaultId) : List Field :=
  .name id.kind.number :: fOption 1 (fun g : Group => [fOne g.val]) id.group?

/-- The cause of a frame, by its place in Table 10-1: AE_ONSET, AE_ONSET_DEFERRED, then the fault kinds, with the group as an
absent value but for a group kind (log 21). -/
def FrameCause.fields : FrameCause → List Field
  | .ae deferred _ _ _ _ _ _ => [.name (if deferred then 1 else 0), .noValue 1 1]
  | .fault id _ _ _ _ _ _ =>
      .name (2 + id.kind.number) :: fOption 1 (fun g : Group => [fOne g.val]) id.group?

/-- The cause detail of a frame (Table 10-1). The state before the onset is coded by its place in R156's list, LATCHED as 2,
and the response has the mark byte that R156's absent one calls for (log 21). -/
def FrameCause.detailFields : FrameCause → List Field
  | .ae deferred id attempt pot onset current peak =>
      [fOne id, fOne attempt, .mark deferred, fTwo pot, fTime onset, fTwo current, fTwo peak]
  | .fault id before count response route reduce principal =>
      id.fields ++ [.name before.place, fOne count]
        ++ fOption 1 (fun c : Carried => [.bits c.mask]) response ++ [.name route.place]
        ++ fReduce reduce ++ [principalField id.kind principal]

/-- The fields of a history record (R140). A governing window of DEFAULT is sent as an absent one (log 21). -/
def History.fields (h : History) : List Field :=
  [fFour h.number, fTime h.start, fTime h.stop] ++ fCalendar h.startCalendar
    ++ [fOne h.length] ++ fOption 1 (fun w : Fin 8 => [fOne w.val]) h.window
    ++ [fOne h.priceClass, fPower h.demand, fFour h.billed, fPower h.peak, fFour h.aeEnergy
      , fTwo h.aeOnsets, fTwo h.breaches, .mark h.short, .mark h.unsynced, .mark h.exceeded
      , .mark h.curtailed]

/-- The fields of a notice, in the order its rule lists them (Table 11-6). Where a notice comes in variants, the marks
that tell them apart stand at the places log 21 gives, as does the coding of FAULT_ONSET's state before and response. -/
def NoticeBody.fields : NoticeBody → List Field
  | .lineState new previous cause =>
      .name new.place :: fOption 1 (fun p : LineState => [.name p.place]) previous ++ [.name cause.place]
  | .groupState g new previous cause =>
      [fOne g.val, .name new.place, .name previous.place, .name cause.place]
  | .faultOnset id before count first last response route reduce detail a b =>
      id.fields ++ [.name before.place, fOne count, fTime first, fTime last]
        ++ fOption 1 (fun c : Carried => [.bits c.mask]) response ++ [.name route.place]
        ++ fReduce reduce ++ fOption id.kind.detailWidth Detail.fields detail ++ [.mark a, .mark b]
  | .faultLatched id count time => id.fields ++ [fOne count, fTime time]
  | .faultCleared id count port a b => id.fields ++ [fOne count, fOne port.val, .mark a, .mark b]
  | .aeOnset id pot sec pos onset current peak number original =>
      fOption 1 (fun i : Nat => [fOne i]) id ++ [.mark id.isNone, .mark original.isSome]
        ++ [fTwo pot, fOne sec, fOne pos, fTime onset, fTwo current, fTwo peak
          , if id.isSome then fOne number else fTwo number]
        ++ fOption 5 (fun t : Nat => [fTime t]) original
  | .aeEnd id pot sec pos reason onset original duration peak energy attempt exhausted reported =>
      [.present, fOne id, .mark false, fTwo pot, fOne sec, fOne pos, .name reason.place, fTime onset]
        ++ fOption 5 (fun t : Nat => [fTime t]) original
        ++ [fFour duration, fTwo peak, fFour energy, fOne attempt, .mark exhausted, .mark reported]
  | .aeEndUnlisted pot sec pos reason onset duration =>
      [.noValue 1 1, .mark true, fTwo pot, fOne sec, fOne pos, .name reason.place, fTime onset
      , fFour duration]
  | .quenchRequest id attempt pot sec pos => [fOne id, fOne attempt, fTwo pot, fOne sec, fOne pos]
  | .potWatch pot sec pos last swing v w =>
      [fTwo pot, fOne sec, fOne pos, fTwo last, fTwo swing, .bits (v.toNat + 2 * w.toNat)]
  | .warningTemperature g t th => [.name 0, fOne g.val, .int t, .int th]
  | .warningPumpLoss g grace => [.name 1, fOne g.val, fTwo grace]
  | .intervalClosed h position => h.fields ++ [fOne position]
  | .orderState tag state ceiling start stop left =>
      [fOne tag, .name state.place, fPower ceiling, fTime start, fTime stop, fOne left]
  | .configChanged item index generation port => [.name item, fOne index, fTwo generation, fOne port.val]
  | .configDefaulted => [fTwo 0]
  | .snapshotPushed sequence cause address length missed used frames =>
      [fTwo sequence] ++ cause.fields ++ [fTwo address, fOne length, fOne missed, fTwo used, fFour frames]

/-! ### Notice records and response frames (Tables 11-5 and 11-6) -/

/-- A notice record (Table 11-6): length, kind, time base of the event, fields. -/
def Notice.bytes (n : Notice) : List Byte :=
  let rest := bytesOfNat 1 n.body.code ++ (fTime n.time).bytes ++ fieldBytes n.body.fields
  bytesOfNat 1 (rest.length + 1) ++ rest

/-- A run of bytes as fields of one byte each. -/
def rawFields (bs : List Byte) : List Field := bs.map fun b => .bits b.toNat

/-- A response frame (Table 11-5). -/
def Reply.bytes (r : Reply) : List Byte :=
  let payload := fieldBytes r.payload
  let body := bytesOfNat 2 (3 + payload.length) ++ bytesOfNat 1 r.tag ++ bytesOfNat 1 r.kind
    ++ bytesOfNat 1 r.code.code ++ payload
  (0xA5#8 : Byte) :: (body ++ crcBytes body)

/-- The bytes of a frame the part has sent (Tables 11-5 and 11-7). -/
def Sent.bytes : Sent → List Byte
  | .order _ amount block sequence => encodeOrderFrame amount block sequence
  | .response _ reply => reply.bytes

end Sys2Proof.Machine
end

