-- ==== Sys2Proof/Machine/Flags.lean ====
section
/-! DEFINITION. The conditions the rules read off the state: what is running, selected, a member of the allocation
set, settled, lost, held, driven or open. None of them is stored. -/

namespace Sys2Proof.Machine

/-! ### Reading one group, one port, one pot -/

/-- The record of group `g`. -/
def State.group (s : State) (g : Group) : GroupRecord := s.groups.get g

/-- The cooling and input record of group `g`. -/
def State.cool (s : State) (g : Group) : GroupCooling := s.cooling.get g

/-- The configuration items of group `g`. -/
def State.groupConfig (s : State) (g : Group) : GroupConfig := s.config.groups.get g

/-- Requester port `p`. -/
def State.port (s : State) (p : Port) : PortRecord := s.ports.get p

/-- Pot entry `i`; an index the table does not have reads as a fresh entry. -/
def State.pot (s : State) (i : Nat) : Pot := s.pots.getD i freshPot

/-! ### The line and the groups -/

/-- The running states (chapter 1). -/
def LineState.running : LineState → Bool
  | .starting => true
  | .regulating => true
  | .hold => true
  | .stopping => true
  | .standby => false
  | .adopting => false
  | .tripped => false

/-- The blocked states (chapter 1). -/
def LineState.blocked : LineState → Bool
  | .standby => true
  | .tripped => true
  | .starting => false
  | .regulating => false
  | .hold => false
  | .stopping => false
  | .adopting => false

/-- The line regulates or holds. -/
def LineState.regulates : LineState → Bool
  | .regulating => true
  | .hold => true
  | .starting => false
  | .stopping => false
  | .standby => false
  | .adopting => false
  | .tripped => false

/-- The line is in a running state. -/
def State.running (s : State) : Bool :=
  match s.line.state with
  | some l => l.running
  | none => false

/-- The line is in a blocked state. -/
def State.blocked (s : State) : Bool :=
  match s.line.state with
  | some l => l.blocked
  | none => false

/-- The line is in REGULATING or HOLD. -/
def State.regulates (s : State) : Bool :=
  match s.line.state with
  | some l => l.regulates
  | none => false

/-- The store is loading its image (R190). -/
def State.loading (s : State) : Bool :=
  match s.store.state with
  | .loading => true
  | .idle => false
  | .saving _ => false

/-- JOINING, IN_SERVICE or LEAVING (R44). -/
def ServiceState.member : ServiceState → Bool
  | .joining => true
  | .inService => true
  | .leaving => true
  | .out => false
  | .removed => false
  | .linkLost => false

/-- Selected: JOINING or IN_SERVICE (Table 1-3 note 2). -/
def ServiceState.selected : ServiceState → Bool
  | .joining => true
  | .inService => true
  | .out => false
  | .leaving => false
  | .removed => false
  | .linkLost => false

/-- Group `g` is in the allocation set (R44, R68; a group that entered JOINING from OUT only from the next expiry,
R11). -/
def State.inSet (s : State) (g : Group) : Bool :=
  s.running && (s.group g).service.member && !(s.group g).awaiting

/-- The measured current of a group's last valid frame. A group with no valid frame since reset counts 0, as R19, R95 and,
for a group that is not selected, R23 say; for I_m (R18) and for a selected group at the close of the adopt window (R23) that is
the model's choice (log 37). -/
def GroupRecord.measured (r : GroupRecord) : Nat :=
  match r.lastFrame with
  | some f => f.current
  | none => 0

/-- The DC voltage of a group's last valid frame; a group with no valid frame since reset counts 0 (log 37). -/
def GroupRecord.voltage (r : GroupRecord) : Nat :=
  match r.lastFrame with
  | some f => f.voltage
  | none => 0

/-- I_m: the sum of the measured currents of the allocation set (R18), saturating at 60,000 (log 15). -/
def State.measuredCurrent (s : State) : Nat :=
  min 60000 ((allGroups.filter s.inSet).map fun g => (s.group g).measured).sum

/-- U: the greatest DC voltage of the allocation set (R18); 0 when it is empty. -/
def State.busVoltage (s : State) : Nat :=
  ((allGroups.filter s.inSet).map fun g => (s.group g).voltage).foldl max 0

/-- The interlock current of R95: the sum of the currents in the last valid frames of all eight groups. Its range is
not stated (R193), so it does not saturate. -/
def State.interlockCurrent (s : State) : Nat := (allGroups.map fun g => (s.group g).measured).sum

/-- The one that is reported of several that give the same value (log 29). -/
def pickTied {α : Type} : List α → Option α
  | [] => none
  | [a] => some a
  | l => l[Config.tiedPlace l.length % l.length]?

/-! ### The pot table -/

/-- A section covers index `i` (R82). -/
def SectionDescriptor.covers (d : SectionDescriptor) (i : Nat) : Bool :=
  decide (d.origin ≤ i) && decide (i < d.origin + d.length)

/-- The section and position of a mapped index, or none for an unmapped one (R82). -/
def locateIn (sections : Four SectionDescriptor) (i : Nat) : Option (Nat × Nat) :=
  match (allPorts.find? fun k => (sections.get k).covers i) with
  | some k => some (k.val, i - (sections.get k).origin)
  | none => none

/-- Index `i` is mapped (R82). -/
def State.mapped (s : State) (i : Nat) : Bool := (locateIn s.config.sections i).isSome

/-- The section and position of an index for a notice. Every notice names a mapped pot (log 28). -/
def State.place (s : State) (i : Nat) : Nat × Nat := (locateIn s.config.sections i).getD (0, 0)

/-- The mapped in-circuit entries that are stale, counted (R92). -/
def State.countStale (s : State) : Nat :=
  ((List.range potCount).filter fun i =>
    s.mapped i && (s.pot i).circuit == .inCircuit && (s.pot i).stale).length

/-- The interlock is open (R95). -/
def State.interlockOpen (s : State) : Bool := decide (s.interlockCurrent ≤ s.config.switchingLimit)

/-! ### Inputs and cooling -/

/-- Every input of the group is settled (R62). -/
def GroupCooling.settled (c : GroupCooling) : Bool := c.inputs.toList.all InputFilter.settled

/-- The filtered status inputs, bit n for input n. -/
def GroupCooling.statusBits (c : GroupCooling) : BitVec 8 :=
  BitVec.ofNat 8 (((List.range 8).zip c.inputs.status.toList).foldl
    (fun n p => if p.2.filtered then n + 2 ^ p.1 else n) 0)

/-- The filtered trip inputs, bit n for input n. -/
def GroupCooling.tripBits (c : GroupCooling) : BitVec 4 :=
  BitVec.ofNat 4 (((List.range 4).zip c.inputs.trip.toList).foldl
    (fun n p => if p.2.filtered then n + 2 ^ p.1 else n) 0)

/-- The enabled status inputs that differ from the expected pattern (R63). -/
def differingInputs (gc : GroupConfig) (c : GroupCooling) : BitVec 8 :=
  (c.statusBits ^^^ gc.expected) &&& gc.enabled

/-- The enabled trip inputs that are active (R66). -/
def activeTrips (gc : GroupConfig) (c : GroupCooling) : BitVec 4 := c.tripBits &&& gc.tripMask

/-- Both pumps are lost: status inputs 1 and 2 both filtered to 0 (R68). -/
def GroupCooling.bothLost (c : GroupCooling) : Bool :=
  !c.inputs.status.m1.filtered && !c.inputs.status.m2.filtered

/-- The pattern source of R64 holds. -/
def GroupCooling.patternSource (c : GroupCooling) : Bool := c.pattern == .mismatching

/-- The mismatch condition (R64): either source holds. -/
def GroupCooling.mismatched (c : GroupCooling) : Bool := c.patternSource || c.adoptionSource

/-- The temperature ceiling (R73). -/
def temperatureCeiling (gc : GroupConfig) (percent : Nat) : Nat := gc.rating * percent / 100

/-- The pump-loss ceiling, which exists in GRACE and EXPIRED (R73). -/
def pumpLossCeiling (gc : GroupConfig) (p : PumpLoss) : Option Nat :=
  match p with
  | .none => none
  | .grace => some (gc.rating * gc.lossFraction / 100)
  | .expired => some (gc.rating * gc.lossFraction / 100)

/-- The cooling ceiling (R73). -/
def coolingCeiling (gc : GroupConfig) (percent : Nat) (p : PumpLoss) : Nat :=
  match pumpLossCeiling gc p with
  | none => temperatureCeiling gc percent
  | some l => min (temperatureCeiling gc percent) l

/-- The warning latch could be cleared: the last T_out is at or below the warn threshold less the alarm hysteresis (R77),
as they stood when that frame was taken (R75). -/
def State.clearable (s : State) (g : Group) : Bool :=
  (s.cool g).warning &&
    match (s.cool g).lastTemps with
    | some t => decide (t.outlet ≤ (s.cool g).clearLevel)
    | none => false

/-! ### Faults -/

/-- An entry is ACTIVE or LATCHED. -/
def EntryState.stands : EntryState → Bool
  | .clear => false
  | .active => true
  | .latched => true

/-- A response names an action (R156). -/
def Carried.names (c : Carried) (a : Action) : Bool := c.configured == a || (c.forced && a == .remove)

/-- An entry carries an action (R156); an entry in CLEAR has no response. -/
def Entry.carries (e : Entry) (a : Action) : Bool :=
  match e.response with
  | some c => c.names a
  | none => false

/-- An entry that is ACTIVE or LATCHED and carries an action. -/
def Entry.standsWith (e : Entry) (a : Action) : Bool := e.state.stands && e.carries a

/-- A route drives LINE_A. -/
def Route.drivesA : Route → Bool
  | .lineA => true
  | .both => true
  | .none => false
  | .lineB => false

/-- A route drives LINE_B. -/
def Route.drivesB : Route → Bool
  | .lineB => true
  | .both => true
  | .none => false
  | .lineA => false

/-- The entries of the fault table, in ascending order of kind number and, within a group kind, of group (R168). -/
def FaultTable.entries (t : FaultTable) : List Entry :=
  t.linkLost.toList ++ t.protection.toList ++ t.overtemp.toList ++ t.mismatch.toList ++ t.coolingLost.toList
    ++ t.tracking.toList
    ++ [t.capacityShort, t.headroomLow, t.aeStorm, t.aeUnquenched, t.scanStale, t.demandExceeded, t.curtailMissed]

/-- The group kinds, in the order of their numbers. -/
def allGroupKinds : List GroupKind := [.linkLost, .protection, .overtemp, .mismatch, .coolingLost, .tracking]

/-- The line kinds, in the order of their numbers. -/
def allLineKinds : List LineKind :=
  [.capacityShort, .headroomLow, .aeStorm, .aeUnquenched, .scanStale, .demandExceeded, .curtailMissed]

/-- The names of the 55 entries, in the same order. -/
def allFaultIds : List FaultId :=
  (allGroupKinds.flatMap fun k => allGroups.map fun g => FaultId.group k g)
    ++ (allLineKinds.map fun k => FaultId.line k)

/-- The entry with a given name. -/
def FaultTable.get (t : FaultTable) : FaultId → Entry
  | .group .linkLost g => t.linkLost.get g
  | .group .protection g => t.protection.get g
  | .group .overtemp g => t.overtemp.get g
  | .group .mismatch g => t.mismatch.get g
  | .group .coolingLost g => t.coolingLost.get g
  | .group .tracking g => t.tracking.get g
  | .line .capacityShort => t.capacityShort
  | .line .headroomLow => t.headroomLow
  | .line .aeStorm => t.aeStorm
  | .line .aeUnquenched => t.aeUnquenched
  | .line .scanStale => t.scanStale
  | .line .demandExceeded => t.demandExceeded
  | .line .curtailMissed => t.curtailMissed

/-- The table with one entry replaced. -/
def FaultTable.set (t : FaultTable) (id : FaultId) (e : Entry) : FaultTable :=
  match id with
  | .group .linkLost g => { t with linkLost := t.linkLost.set g e }
  | .group .protection g => { t with protection := t.protection.set g e }
  | .group .overtemp g => { t with overtemp := t.overtemp.set g e }
  | .group .mismatch g => { t with mismatch := t.mismatch.set g e }
  | .group .coolingLost g => { t with coolingLost := t.coolingLost.set g e }
  | .group .tracking g => { t with tracking := t.tracking.set g e }
  | .line .capacityShort => { t with capacityShort := e }
  | .line .headroomLow => { t with headroomLow := e }
  | .line .aeStorm => { t with aeStorm := e }
  | .line .aeUnquenched => { t with aeUnquenched := e }
  | .line .scanStale => { t with scanStale := e }
  | .line .demandExceeded => { t with demandExceeded := e }
  | .line .curtailMissed => { t with curtailMissed := e }

/-- The row of the action table for a kind (R157). -/
def ActionTable.get (a : ActionTable) : FaultKind → ActionRow
  | .group .linkLost => a.linkLost
  | .group .protection => a.protection
  | .group .overtemp => a.overtemp
  | .group .mismatch => a.mismatch
  | .group .coolingLost => a.coolingLost
  | .group .tracking => a.tracking
  | .line .capacityShort => a.capacityShort
  | .line .headroomLow => a.headroomLow
  | .line .aeStorm => a.aeStorm
  | .line .aeUnquenched => a.aeUnquenched
  | .line .scanStale => a.scanStale
  | .line .demandExceeded => a.demandExceeded
  | .line .curtailMissed => a.curtailMissed

/-- The action table with one row replaced. -/
def ActionTable.set (a : ActionTable) (k : FaultKind) (r : ActionRow) : ActionTable :=
  match k with
  | .group .linkLost => { a with linkLost := r }
  | .group .protection => { a with protection := r }
  | .group .overtemp => { a with overtemp := r }
  | .group .mismatch => { a with mismatch := r }
  | .group .coolingLost => { a with coolingLost := r }
  | .group .tracking => { a with tracking := r }
  | .line .capacityShort => { a with capacityShort := r }
  | .line .headroomLow => { a with headroomLow := r }
  | .line .aeStorm => { a with aeStorm := r }
  | .line .aeUnquenched => { a with aeUnquenched := r }
  | .line .scanStale => { a with scanStale := r }
  | .line .demandExceeded => { a with demandExceeded := r }
  | .line .curtailMissed => { a with curtailMissed := r }

/-- The kinds in the order of their numbers (Table 9-1). -/
def allFaultKinds : List FaultKind :=
  [.group .linkLost, .group .protection, .group .overtemp, .group .mismatch, .group .coolingLost, .group .tracking,
   .line .capacityShort, .line .headroomLow, .line .aeStorm, .line .aeUnquenched, .line .scanStale,
   .line .demandExceeded, .line .curtailMissed]

/-- The entry that a kind number and a group number name (R161): none where the kind is above 12, or the group above
7 for a group kind. A line kind does not use the group. -/
def faultIdOf (kind group : Nat) : Option FaultId :=
  match allFaultKinds[kind]? with
  | none => none
  | some (.line k) => some (.line k)
  | some (.group k) => if h : group < 8 then some (.group k ⟨group, h⟩) else none

/-- The kind forces REMOVE (Table 9-1). -/
def FaultKind.forcesRemove : FaultKind → Bool
  | .group .protection => true
  | .group .overtemp => true
  | .group .linkLost => false
  | .group .mismatch => false
  | .group .coolingLost => false
  | .group .tracking => false
  | .line _ => false

/-- The responses Table 9-1 allows for a kind. -/
def FaultKind.allows (k : FaultKind) (a : Action) : Bool :=
  match k with
  | .group .linkLost => a == .note || a == .hold || a == .reduce
  | .group .protection => a == .note || a == .hold || a == .reduce || a == .trip
  | .group .overtemp => a == .note || a == .hold || a == .reduce || a == .trip
  | .group .mismatch => a == .note || a == .hold || a == .remove
  | .group .coolingLost => a == .note || a == .remove || a == .trip
  | .group .tracking => a == .note || a == .hold || a == .remove
  | .line .capacityShort => a == .note || a == .hold
  | .line .headroomLow => a == .note || a == .hold
  | .line .aeStorm => a == .note || a == .hold || a == .reduce || a == .trip
  | .line .aeUnquenched => a == .note || a == .reduce || a == .trip
  | .line .scanStale => a == .note || a == .hold
  | .line .demandExceeded => a == .note || a == .reduce
  | .line .curtailMissed => a == .note || a == .reduce

/-- Some entry that stands carries an action. -/
def FaultTable.anyWith (t : FaultTable) (a : Action) : Bool := t.entries.any fun e => e.standsWith a

/-- A HOLD-response entry is ACTIVE or LATCHED (R4). -/
def State.holdStands (s : State) : Bool := s.faults.table.anyWith .hold

/-- A TRIP-response entry is ACTIVE or LATCHED (R8). -/
def State.tripStands (s : State) : Bool := s.faults.table.anyWith .trip

/-- An entry of group `g` that carries REMOVE is ACTIVE or LATCHED (R16, R20). -/
def State.removeStands (s : State) (g : Group) : Bool :=
  allGroupKinds.any fun k => (s.faults.table.get (.group k g)).standsWith .remove

/-- LINE_A as R167 defines it. -/
def FaultTable.drivenA (t : FaultTable) : Bool := t.entries.any fun e => e.state.stands && e.route.drivesA

/-- LINE_B as R167 defines it. -/
def FaultTable.drivenB (t : FaultTable) : Bool := t.entries.any fun e => e.state.stands && e.route.drivesB

/-- The reduce value an entry contributes to the FAULT claim (R164). -/
def Entry.contributes (e : Entry) : Option Nat :=
  match e.reduceValue with
  | .set v => if e.standsWith .reduce then some v else none
  | .absent => none
  | .pending => none

/-- The set reduce values of the standing entries. -/
def FaultTable.reduceValues (t : FaultTable) : List Nat := t.entries.filterMap Entry.contributes

/-! ### Ports -/

/-- The attention line of a port (R183). -/
def PortRecord.attention (p : PortRecord) : Bool := !p.queue.isEmpty

/-- The role of a port. -/
def State.role (s : State) (p : Port) : Role := (s.port p).role

/-! ### Claims -/

/-- The slots in slot order (Table 2-1). -/
def allSlots : List ClaimSlot := [.fault, .headroom, .curtail, .demand, .cutout, .service, .setpoint]

/-- One slot of the claims table. -/
def ClaimsTable.get (t : ClaimsTable) : ClaimSlot → Claim
  | .fault => t.fault
  | .headroom => t.headroom
  | .curtail => t.curtail
  | .demand => t.demand
  | .cutout => t.cutout
  | .service => t.service
  | .setpoint => t.setpoint

/-- The claims table with one slot replaced. -/
def ClaimsTable.set (t : ClaimsTable) (k : ClaimSlot) (c : Claim) : ClaimsTable :=
  match k with
  | .fault => { t with fault := c }
  | .headroom => { t with headroom := c }
  | .curtail => { t with curtail := c }
  | .demand => { t with demand := c }
  | .cutout => { t with cutout := c }
  | .service => { t with service := c }
  | .setpoint => { t with setpoint := c }

/-- The governing claim and its value among the slots given: the first of least value (R33). -/
def leastClaim (t : ClaimsTable) : List ClaimSlot → Option (ClaimSlot × Nat)
  | [] => none
  | k :: ks =>
    let c := t.get k
    match leastClaim t ks with
    | none => if c.active then some (k, c.value) else none
    | some (j, v) => if c.active ∧ c.value ≤ v then some (k, c.value) else some (j, v)

/-- m and the governing claim (R33). SETPOINT is active at all times; the last arm is never reached while it is. -/
def ClaimsTable.least (t : ClaimsTable) : ClaimSlot × Nat :=
  match leastClaim t allSlots with
  | some r => r
  | none => (.setpoint, t.setpoint.value)

end Sys2Proof.Machine
end

