-- ==== Sys2Proof/Machine/Ops.lean ====
section
/-! DEFINITION. The operations that the commands share: writing one record, placing a notice, sending an order,
changing a service state or the line state, writing an internal claim, pushing a snapshot, and the fault unit's onset
and departure. -/

namespace Sys2Proof.Machine

/-! ### Writing one record -/

/-- Group `g`'s record changed by `f`. -/
def State.modGroup (s : State) (g : Group) (f : GroupRecord → GroupRecord) : State :=
  { s with groups := s.groups.set g (f (s.groups.get g)) }

/-- Group `g`'s cooling and inputs changed by `f`. -/
def State.modCool (s : State) (g : Group) (f : GroupCooling → GroupCooling) : State :=
  { s with cooling := s.cooling.set g (f (s.cooling.get g)) }

/-- Port `p` changed by `f`. -/
def State.modPort (s : State) (p : Port) (f : PortRecord → PortRecord) : State :=
  { s with ports := s.ports.set p (f (s.ports.get p)) }

/-- Pot entry `i` changed by `f`. -/
def State.modPot (s : State) (i : Nat) (f : Pot → Pot) : State :=
  { s with pots := s.pots.modify i f }

/-- A step taken for each group in ascending order. -/
def State.eachGroup (s : State) (f : State → Group → State) : State := allGroups.foldl f s

/-! ### Notices (R183) -/

/-- The greatest number of notices a queue holds (R183). -/
def queueLimit : Nat := 32

/-- A copy of a notice placed in a port's queue, or discarded with the overrun flag set when the queue is full. -/
def PortRecord.place (p : PortRecord) (n : Notice) : PortRecord :=
  if p.queue.length < queueLimit then { p with queue := p.queue ++ [n] } else { p with overrun := true }

/-- A notice placed with the ports: one copy in the queue of every port whose role Table 11-3 names (R183). -/
def State.notify (s : State) (body : NoticeBody) : State :=
  { s with ports := Four.ofFn fun p =>
      let r := s.ports.get p
      if body.goesTo r.role then r.place ⟨s.timeBase, body⟩ else r }

/-! ### Orders (R17) -/

/-- Group interface `g` sends an order frame: the sequence is incremented, 255 being followed by 0, and the frame's
values become the group's last order and last sent sequence (R17). -/
def State.sendOrder (s : State) (g : Group) (order : Nat) (block : Bool) : State :=
  let q := ((s.group g).sequence + 1) % 256
  { s.modGroup g fun r => { r with lastOrder := order, blockFlag := block, sequence := q } with
    out := s.out ++ [.order g order block q] }

/-- The blocked-state orders: 0 with the block flag to every group (R1). -/
def State.sendBlocked (s : State) : State := s.eachGroup fun s g => s.sendOrder g 0 true

/-! ### Claims (R26, R27) -/

/-- The value of an internal slot that its owner writes: within 0 to 60,000 (R27). -/
def claimLimit : Nat := 60000

/-- An internal slot written by its owner: activation or a new value. The time of last change moves only when the
flag or the value does (R27). -/
def Claim.write (c : Claim) (now value : Nat) : Claim :=
  let v := min value claimLimit
  { c with active := true, value := v, changed := if c.active = true ∧ c.value = v then c.changed else now }

/-- An internal slot withdrawn: its last value is kept for reading (R26, R27). -/
def Claim.withdraw (c : Claim) (now : Nat) : Claim :=
  { c with active := false, changed := if c.active then now else c.changed }

/-- Slot `k` written by its owning unit. -/
def State.writeClaim (s : State) (k : ClaimSlot) (value : Nat) : State :=
  { s with claims := s.claims.set k ((s.claims.get k).write s.timeBase value) }

/-- Slot `k` withdrawn by its owning unit. -/
def State.withdrawClaim (s : State) (k : ClaimSlot) : State :=
  { s with claims := s.claims.set k ((s.claims.get k).withdraw s.timeBase) }

/-- The FAULT slot written from the entries that hold a set reduce value: their least value, or withdrawn while there
is none (R164). -/
def State.writeFaultClaim (s : State) : State :=
  match s.faults.table.reduceValues with
  | [] => s.withdrawClaim .fault
  | v :: vs => s.writeClaim .fault (vs.foldl min v)

/-! ### The cooling ceiling and membership of the allocation set (R68, R69, R73) -/

/-- The cooling ceiling of group `g` formed again from its parts (R73). -/
def State.recool (s : State) (g : Group) : State :=
  s.modCool g fun c => { c with ceiling := coolingCeiling (s.groupConfig g) c.percent c.pumpLoss }

/-- The start of GRACE: the grace timer starts, the ceiling falls and a WARNING is placed (R68). -/
def State.startGrace (s : State) (g : Group) : State :=
  let t := (s.groupConfig g).graceTime
  let s1 := (s.modCool g fun c =>
    { c with pumpLoss := .grace, graceTimer := some (s.timeBase + t * 1000) }).recool g
  s1.notify (.warningPumpLoss g t)

/-- The group enters the allocation set: it enters GRACE when it is settled, in NONE, and both pumps are already lost
(R68). -/
def State.enterSet (s : State) (g : Group) : State :=
  let c := s.cool g
  if c.settled ∧ c.pumpLoss = .none ∧ c.bothLost then s.startGrace g else s

/-- The group leaves the allocation set: the tracking timer stops (R21), and GRACE returns to NONE with the ceiling
recovered (R69). -/
def State.leaveSet (s : State) (g : Group) : State :=
  let s1 := s.modGroup g fun r => { r with trackingTimer := none }
  if (s1.cool g).pumpLoss = .grace then
    (s1.modCool g fun c => { c with pumpLoss := .none, graceTimer := none }).recool g
  else s1

/-- What a change of membership from `before` brings about for group `g`. -/
def State.membership (before : Bool) (s : State) (g : Group) : State :=
  match before, s.inSet g with
  | false, true => s.enterSet g
  | true, false => s.leaveSet g
  | false, false => s
  | true, true => s

/-! ### Service states (R9, R19) -/

/-- The link timer, 50 ms (R19). -/
def linkTime : Nat := 50

/-- The link timer after a change of service state: it starts when the group becomes a member of JOINING, IN_SERVICE
or LEAVING, stops when it leaves them, and is otherwise left (R19). -/
def linkTimerAfter (now : Nat) (old new : ServiceState) (timer : Option Nat) : Option Nat :=
  match old.member, new.member with
  | false, true => some (now + linkTime)
  | true, true => timer
  | _, false => none

/-- The awaiting mark after a change of service state: set by the entry to JOINING from OUT, kept through JOINING and
LEAVING (R11, R68; log 11). -/
def awaitingAfter (old new : ServiceState) (awaiting : Bool) : Bool :=
  match new with
  | .joining => old == .out || awaiting
  | .leaving => awaiting
  | .out => false
  | .inService => false
  | .removed => false
  | .linkLost => false

/-- A change of group `g`'s service state (R9): its GROUP_STATE notice, its link timer, and what a change of
membership of the allocation set brings about. -/
def State.setService (s : State) (g : Group) (new : ServiceState) (cause : GroupCause) : State :=
  let old := (s.group g).service
  let before := s.inSet g
  let s1 := s.modGroup g fun r =>
    { r with
      service := new
      linkTimer := linkTimerAfter s.timeBase old new r.linkTimer
      awaiting := awaitingAfter old new r.awaiting }
  (s1.notify (.groupState g new old cause)).membership before g

/-- The join and leave ceilings of group `g` set to 0, and its tracking timer stopped. -/
def State.endRamps (s : State) (g : Group) : State :=
  s.modGroup g fun r => { r with joinCeiling := 0, leaveCeiling := 0, trackingTimer := none }

/-! ### The line state (R1) -/

/-- Every PENDING reduce value set from the I_cmd with which the line enters REGULATING or HOLD (R164). -/
def Entry.settle (iCmd : Nat) (e : Entry) : Entry :=
  match e.reduceValue with
  | .pending => { e with reduceValue := .set (iCmd * (e.reducePercent.getD 0) / 100) }
  | .absent => e
  | .set _ => e

/-- Every entry of the table changed by `f`. -/
def FaultTable.map (f : Entry → Entry) (t : FaultTable) : FaultTable :=
  allFaultIds.foldl (fun t id => t.set id (f (t.get id))) t

/-- The PENDING reduce values set, and the FAULT slot written when there was one (R164). -/
def State.settlePending (s : State) : State :=
  if s.faults.table.entries.any fun e => e.reduceValue == .pending then
    ({ s with faults := { s.faults with table := s.faults.table.map (Entry.settle s.line.iCmd) } }).writeFaultClaim
  else s

/-- A change of the line state (R1): its LINE_STATE notice, what the change of the allocation set brings about for
each group, and, on an entry to REGULATING or HOLD, the PENDING reduce values (R164). That the notice comes before the
WARNINGs of groups that enter GRACE is the model's choice (log 35). -/
def State.setLineState (s : State) (new : LineState) (cause : LineCause) : State :=
  let before := Eight.ofFn s.inSet
  let s1 := ({ s with line := { s.line with state := some new } }).notify (.lineState new s.line.state cause)
  let s2 := s1.eachGroup fun t g => t.membership (before.get g) g
  if new.regulates then s2.settlePending else s2

/-- The state entered in place of REGULATING while a HOLD-response entry stands (R4). -/
def State.regulatingOrHold (s : State) : LineState := if s.holdStands then .hold else .regulating

/-- The settlement of one group at an entry to a blocked state: JOINING becomes IN_SERVICE and LEAVING becomes OUT,
with the ceilings set to 0 (R6). -/
def State.settleGroup (s : State) (g : Group) : State :=
  match (s.group g).service with
  | .joining =>
    (s.modGroup g fun r => { r with joinCeiling := 0, leaveCeiling := 0 }).setService g .inService .line
  | .leaving =>
    (s.modGroup g fun r => { r with joinCeiling := 0, leaveCeiling := 0 }).setService g .out .line
  | .out => s
  | .inService => s
  | .removed => s
  | .linkLost => s

/-- The entry to a blocked state: I_cmd and the residual 0, the new state, the settlement of the groups and the
blocked-state orders (R1, R6, R7, R51). -/
def State.enterBlocked (s : State) (new : LineState) (cause : LineCause) : State :=
  let s1 := ({ s with line := { s.line with iCmd := 0, residual := 0 } }).setLineState new cause
  (s1.eachGroup State.settleGroup).sendBlocked

/-! ### Snapshots (R172 to R174) -/

/-- The body of a frame captured now (Table 10-1). -/
def State.captureBody (s : State) : FrameBody :=
  { lineState := s.line.state
    iCmd := s.line.iCmd
    target := s.line.target
    governing := s.line.governing
    claims := allSlots.map fun k => ((s.claims.get k).active, (s.claims.get k).value)
    iM := s.metering.iM
    u := s.metering.u
    groups := Eight.ofFn fun g =>
      let r := s.group g
      { service := r.service, order := r.lastOrder, block := r.blockFlag
        current := match r.lastFrame with | some f => some f.current | none => none }
    rotation := s.line.rotation
    residual := s.line.residual
    aeCount := s.ae.list.length
    aeHold := s.line.aeHold
    eUsed := match s.metering.interval with | some i => i.eUsed | none => 0 }

/-- The length of a frame in words (R172). -/
def FrameCause.length : FrameCause → Nat
  | .ae _ _ _ _ _ _ _ => 52
  | .fault _ _ _ _ _ _ _ => 50

/-- The missed count plus `n`, saturating at 255 (R171). -/
def SnapshotStack.miss (st : SnapshotStack) (n : Nat) : SnapshotStack := { st with missed := satAdd 255 st.missed n }

/-- The write of the first captured frame of a list that fits: each that does not is discarded and counted as missed
(R174). The rest of the list is what stays pending. -/
def SnapshotStack.startNext (st : SnapshotStack) : List Captured → SnapshotStack
  | [] => { st with writing := none, waiting := [] }
  | c :: cs =>
    let n := c.cause.length
    if st.top < n then (st.miss 1).startNext cs
    else
      { st with
        nextSequence := (st.nextSequence + 1) % 65536
        missed := 0
        writing := some
          { address := st.top - n, backLink := st.top, sequence := st.nextSequence, missed := st.missed
            length := n, contents := c }
        waiting := cs }

/-- The greatest number of pending frames (R171). -/
def waitingLimit : Nat := 3

/-- A captured frame handed to the stack: written at once, appended to the pending list, or discarded and counted as
missed (R173). -/
def SnapshotStack.push (st : SnapshotStack) (c : Captured) : SnapshotStack :=
  match st.writing with
  | none => st.startNext (c :: st.waiting)
  | some _ => if st.waiting.length < waitingLimit then { st with waiting := st.waiting ++ [c] } else st.miss 1

/-- A push request with a cause (R173). -/
def State.push (s : State) (cause : FrameCause) : State :=
  { s with stack := s.stack.push { cause := cause, time := s.timeBase, body := s.captureBody } }

/-! ### The fault lines and single entries (R156, R167) -/

/-- One entry replaced. -/
def State.setEntry (s : State) (id : FaultId) (e : Entry) : State :=
  { s with faults := { s.faults with table := s.faults.table.set id e } }

/-- The entry with a name. -/
def State.entry (s : State) (id : FaultId) : Entry := s.faults.table.get id

/-- The fault lines evaluated (R167). -/
def State.evaluateLines (s : State) : State :=
  { s with faults := { s.faults with lineA := s.faults.table.drivenA, lineB := s.faults.table.drivenB } }

/-- A departure (R160): an ACTIVE entry becomes LATCHED and a FAULT_LATCHED notice is placed; an entry in CLEAR or
LATCHED is left. -/
def State.departure (s : State) (id : FaultId) : State :=
  match (s.entry id).state with
  | .active =>
    (s.setEntry id { s.entry id with state := .latched }).notify
      (.faultLatched id (s.entry id).count s.timeBase)
  | .clear => s
  | .latched => s

/-- The CAPACITY_SHORT departure handed at an entry to a blocked state while the condition is present (R46). -/
def State.capacityDeparture (s : State) : State :=
  if s.line.capacityShort then
    ({ s with line := { s.line with capacityShort := false } }).departure (.line .capacityShort)
  else s

/-! ### Responses (R163 to R166) -/

/-- A REMOVE applied to group `g` (R15): REMOVED at once, in every state but LINK_LOST, with any join or leave ended
and, in a running state, the order of 0 with the block flag sent at once. -/
def State.removeGroup (s : State) (g : Group) : State :=
  match (s.group g).service with
  | .removed => s
  | .linkLost => s
  | .out | .joining | .inService | .leaving =>
    let s1 := (s.endRamps g).setService g .removed .fault
    if s1.running then s1.sendOrder g 0 true else s1

/-- A HOLD onset handed to the line regulator (R4, R163). -/
def State.holdLine (s : State) : State :=
  match s.line.state with
  | some .regulating => s.setLineState .hold .fault
  | some .standby | some .adopting | some .starting | some .hold | some .stopping | some .tripped => s
  | none => s

/-- REDUCE applied at an onset (R164): at an onset from CLEAR the reduce value is formed from I_m while the line
regulates or holds and is PENDING otherwise, and a set value rewrites the FAULT slot; at an onset from LATCHED the
value is kept. -/
def State.reduceLine (s : State) (id : FaultId) (before : EntryState) : State :=
  match before with
  | .clear =>
    let e := s.entry id
    if s.regulates then
      (s.setEntry id { e with reduceValue := .set (s.metering.iM * (e.reducePercent.getD 0) / 100) }).writeFaultClaim
    else s.setEntry id { e with reduceValue := .pending }
  | .active => s
  | .latched => s

/-- The entry to TRIPPED (R7): the blocked state entered, every group ordered 0 with the block flag at once, and the
CAPACITY_SHORT departure (R46). -/
def State.enterTripped (s : State) : State := (s.enterBlocked .tripped .fault).capacityDeparture

/-- The response an entry takes from its row: the configured one, with REMOVE added where the kind forces it (R158). -/
def carriedFrom (k : FaultKind) (row : ActionRow) : Carried := { configured := row.response, forced := k.forcesRemove }

/-- The entry after step 1 of an onset taken in CLEAR (R158, R159). -/
def Entry.openWith (now : Nat) (k : FaultKind) (row : ActionRow) (detail : Option Detail) : Entry :=
  { state := .active, first := now, last := now, count := 1, response := some (carriedFrom k row)
    route := row.route, capture := row.capture, reducePercent := some row.percent, reduceValue := .absent
    detail := detail }

/-- The entry after an onset taken in LATCHED (R159). -/
def Entry.reopen (now : Nat) (e : Entry) (detail : Option Detail) : Entry :=
  { e with state := .active, count := satAdd 255 e.count 1, last := now, detail := detail }

/-- An onset in ACTIVE: the count, the last onset time and the detail only (R159). -/
def Entry.again (now : Nat) (e : Entry) (detail : Option Detail) : Entry :=
  { e with count := satAdd 255 e.count 1, last := now, detail := detail }

/-- Step 3 of an onset: the capture (R159, R172). -/
def State.captureFault (s : State) (id : FaultId) (before : EntryState) (detail : Option Detail) : State :=
  let e := s.entry id
  if e.capture then
    s.push (.fault id before e.count e.response e.route e.reduceValue (principalOf detail))
  else s

/-- Step 4 of an onset: the response the entry carries, REMOVE first and the line-level response second (R159, R165).
`trip` is what a TRIP does to the line. -/
def State.respond (trip : State → State) (s : State) (id : FaultId) (before : EntryState) : State :=
  match (s.entry id).response with
  | none => s
  | some c =>
    let s1 := match id with
      | .group _ g => if c.names .remove then s.removeGroup g else s
      | .line _ => s
    match c.configured with
    | .note => s1
    | .hold => s1.holdLine
    | .reduce => s1.reduceLine id before
    | .remove => s1
    | .trip => trip s1

/-- Step 5 of an onset: the FAULT_ONSET notice, with the state of both lines after the event (R159, R167). -/
def State.noteOnset (s : State) (id : FaultId) (before : EntryState) (detail : Option Detail) : State :=
  let e := s.entry id
  s.notify (.faultOnset id before e.count e.first e.last e.response e.route e.reduceValue detail
    s.faults.lineA s.faults.lineB)

/-- Steps 2 to 5 of an onset taken in CLEAR or LATCHED (R159). -/
def State.onsetSteps (trip : State → State) (s : State) (id : FaultId) (before : EntryState)
    (detail : Option Detail) : State :=
  (((s.evaluateLines).captureFault id before detail).respond trip id before).noteOnset id before detail

/-- An onset handed to the fault unit (R159), with what a TRIP does to the line given. -/
def State.onsetWith (trip : State → State) (s : State) (id : FaultId) (detail : Option Detail) : State :=
  let e := s.entry id
  match e.state with
  | .clear =>
    (s.setEntry id (Entry.openWith s.timeBase id.kind (s.config.actions.get id.kind) detail)).onsetSteps trip id
      .clear detail
  | .latched => (s.setEntry id (e.reopen s.timeBase detail)).onsetSteps trip id .latched detail
  | .active => s.setEntry id (e.again s.timeBase detail)

/-! ### The close of the adopt window by a TRIP (R22) -/

/-- The classification of one group at the close of the adopt window (R23): a group that is not selected and reports
current becomes REMOVED, the adoption source of its mismatch condition holds, and GROUP_STATE_MISMATCH is handed
unless the condition was already present (R64). GROUP_STATE_MISMATCH cannot be configured TRIP (Table 9-1). A selected group
with no valid frame, for which R23 has no row, stays IN_SERVICE (log 37). -/
def State.classifyGroup (s : State) (g : Group) : State :=
  if (s.group g).service = .out ∧ 0 < (s.group g).measured then
    let present := (s.cool g).mismatched
    let s1 := (s.setService g .removed .adoption).modCool g fun c => { c with adoptionSource := true }
    if present then s1
    else s1.onsetWith (fun t => t) (.group .mismatch g) (some (.mismatch (s.cool g).differing))
  else s

/-- The adopt window closed and every group classified (R22, R23), in ascending order (log 35). -/
def State.closeWindow (s : State) : State :=
  ({ s with line := { s.line with adoptDeadline := none } }).eachGroup State.classifyGroup

/-- A TRIP onset handed to the line regulator (R7, R22, R166). -/
def State.tripLine (s : State) : State :=
  match s.line.state with
  | none => s
  | some .tripped => s
  | some .adopting => s.closeWindow.enterTripped
  | some .standby | some .starting | some .regulating | some .hold | some .stopping => s.enterTripped

/-- An onset handed to the fault unit (R159). -/
def State.onset (s : State) (id : FaultId) (detail : Option Detail) : State :=
  s.onsetWith State.tripLine id detail

/-- A condition of an owning block handed to the fault unit at its change (R64, R66, R78 and the like): an onset when it
becomes present, a departure when it becomes absent. -/
def State.conditionChange (s : State) (id : FaultId) (before after : Bool) (detail : Option Detail) : State :=
  match before, after with
  | false, true => s.onset id detail
  | true, false => s.departure id
  | false, false => s
  | true, true => s

/-! ### Answering (R182) -/

/-- What a request's own rule answers: the code and the payload. -/
structure Answer where
  code : ResultCode
  payload : List Field
deriving DecidableEq, Repr

/-- A refusal: the code alone (R193). -/
def refuse (s : State) (c : ResultCode) : State × Option Answer := (s, some ⟨c, []⟩)

/-- An answer of a code alone. -/
def answer (s : State) (c : ResultCode) : State × Option Answer := (s, some ⟨c, []⟩)

/-- An answer OK with a payload. -/
def answerWith (s : State) (fs : List Field) : State × Option Answer := (s, some ⟨.ok, fs⟩)

/-- OK, or OK_CLAMPED when a value was brought within its range. -/
def okOrClamped (clamped : Bool) : ResultCode := if clamped then .okClamped else .ok

/-- The busy list's length (R182). -/
def busyLimit : Nat := 4

/-- A request taken while its port is not IDLE: its tag joins the busy list, or is dropped and counted (R182). -/
def PortRecord.queueBusy (p : PortRecord) (tag kind : Nat) : PortRecord :=
  if p.busy.length < busyLimit then { p with busy := p.busy ++ [⟨tag, kind⟩] }
  else { p with dropped := satAdd 255 p.dropped 1 }

/-- A response formed: the port is ANSWERING with it. -/
def State.respondOn (s : State) (p : Port) (r : Reply) : State :=
  s.modPort p fun q => { q with request := .answering, reply := some r }

/-- The start of every command: nothing has been sent yet (log 27). -/
def State.begin (s : State) : State := { s with out := [] }

/-- The frame in a port's receiver has ended: the receiver hunts for a start marker and the gap timer is stopped (R181). -/
def PortRecord.frameEnds (q : PortRecord) : PortRecord := { q with receiver := .hunting, gapTimer := none }

/-- The start of a valid request: its frame has come whole, with the bytes of it that the receiver held already (R181, log 31). -/
def State.arrive (s : State) (p : Port) : State := s.begin.modPort p PortRecord.frameEnds

/-- A valid request arriving on its port (R181, R182). Outside IDLE its tag joins the busy list. During the load it is
answered BUSY. In IDLE the port enters ANSWERING and the tests are taken in order: the role's right to the request, the
payload length, and the request's own rule `body`. An answer of none leaves the port as the body left it. -/
def State.takeRequest (s : State) (rq : Req) (kind : ReqKind) (length : Option Nat)
    (body : State → State × Option Answer) : State :=
  let s0 := s.arrive rq.port
  match (s0.port rq.port).request with
  | .answering => s0.modPort rq.port fun q => q.queueBusy rq.tag kind.code
  | .saving => s0.modPort rq.port fun q => q.queueBusy rq.tag kind.code
  | .idle =>
    if s0.loading then s0.respondOn rq.port ⟨rq.tag, kind.code, .busy, []⟩
    else
      let s1 := s0.modPort rq.port fun q => { q with request := .answering }
      if ¬ requestPermits kind (s1.role rq.port) then s1.respondOn rq.port ⟨rq.tag, kind.code, .notPermitted, []⟩
      else if length ≠ some rq.len then s1.respondOn rq.port ⟨rq.tag, kind.code, .outOfRange, []⟩
      else
        match body s1 with
        | (s2, some a) => s2.respondOn rq.port ⟨rq.tag, kind.code, a.code, a.payload⟩
        | (s2, none) => s2

/-- A request whose payload length its kind alone fixes (Table 11-9). -/
def State.take (s : State) (rq : Req) (kind : ReqKind) (body : State → State × Option Answer) : State :=
  s.takeRequest rq kind (some kind.payloadLength) body

end Sys2Proof.Machine
end

