-- ==== Sys2Proof/Machine/Claims.lean ====
section
/-! DEFINITION. The requests that write the requester slots of the claims table, and READ_CLAIMS (R28 to R31, R41). -/

namespace Sys2Proof.Machine

/-- A slot set by a request of port `p`: the value within 0 to 60,000, the writer, and the time of last change where
the flag or the value changes (R26, R29). -/
def Claim.setBy (c : Claim) (now value : Nat) (p : Port) : Claim :=
  let v := min value claimLimit
  { active := true, value := v, writer := some p
    changed := if c.active = true ∧ c.value = v then c.changed else now }

/-- An active slot released by a request of port `p`: the value is kept (R29). -/
def Claim.releaseBy (c : Claim) (now : Nat) (p : Port) : Claim :=
  { c with active := false, writer := some p, changed := now }

/-- SET_SETPOINT's own rule (R28). The time of last change moves when the value or the ADOPTED mark changes (R26). -/
def setSetpoint (p : Port) (value : Nat) (s : State) : State × Option Answer :=
  match s.line.state with
  | none => refuse s .badState
  | some .adopting => refuse s .badState
  | some .standby | some .starting | some .regulating | some .hold | some .stopping | some .tripped =>
    let v := min value claimLimit
    let c := s.claims.setpoint
    let c' : Claim :=
      { active := true, value := v, writer := some p
        changed := if c.value = v ∧ s.claims.adopted = false then c.changed else s.timeBase }
    answer { s with claims := { s.claims with setpoint := c', adopted := false } } (okOrClamped (claimLimit < value))

/-- SET_SETPOINT (R28). -/
def execSetSetpoint (rq : Req) (value : Nat) (s : State) : Host.Outcome State Fault Refusal :=
  .next (s.take rq .setSetpoint (setSetpoint rq.port value))

/-- A SET of CUTOUT or SERVICE (R29, R30). -/
def setLimit (k : ClaimSlot) (p : Port) (value : Nat) (s : State) : State × Option Answer :=
  answer { s with claims := s.claims.set k ((s.claims.get k).setBy s.timeBase value p) }
    (okOrClamped (claimLimit < value))

/-- A RELEASE of CUTOUT or SERVICE (R29, R30). -/
def releaseLimit (k : ClaimSlot) (p : Port) (s : State) : State × Option Answer :=
  if (s.claims.get k).active then
    answer { s with claims := s.claims.set k ((s.claims.get k).releaseBy s.timeBase p) } .ok
  else refuse s .notSet

/-- SET_CUTOUT_LIMIT (R29). -/
def execSetCutoutLimit (rq : Req) (value : Nat) (s : State) : Host.Outcome State Fault Refusal :=
  .next (s.take rq .setCutoutLimit (setLimit .cutout rq.port value))

/-- RELEASE_CUTOUT_LIMIT (R29). -/
def execReleaseCutoutLimit (rq : Req) (s : State) : Host.Outcome State Fault Refusal :=
  .next (s.take rq .releaseCutoutLimit (releaseLimit .cutout rq.port))

/-- SET_SERVICE_LIMIT (R30). -/
def execSetServiceLimit (rq : Req) (value : Nat) (s : State) : Host.Outcome State Fault Refusal :=
  .next (s.take rq .setServiceLimit (setLimit .service rq.port value))

/-- RELEASE_SERVICE_LIMIT (R30). -/
def execReleaseServiceLimit (rq : Req) (s : State) : Host.Outcome State Fault Refusal :=
  .next (s.take rq .releaseServiceLimit (releaseLimit .service rq.port))

/-- One slot as READ_CLAIMS returns it (R41). -/
def Claim.fields (c : Claim) : List Field :=
  [.mark c.active, fTwo c.value] ++ fOption 1 (fun p : Port => [fOne p.val]) c.writer ++ [fTime c.changed]

/-- READ_CLAIMS's own rule (R41). -/
def readClaims (s : State) : State × Option Answer :=
  answerWith s ((allSlots.flatMap fun k => (s.claims.get k).fields)
    ++ [.mark s.claims.adopted, fTwo s.line.least, .name s.line.governing.place, fTwo s.line.target
      , fTwo s.line.iCmd, fTwo s.config.floor, .mark s.line.aeHold])

/-- READ_CLAIMS (R41). -/
def execReadClaims (rq : Req) (s : State) : Host.Outcome State Fault Refusal :=
  .next (s.take rq .readClaims readClaims)

end Sys2Proof.Machine
end

