-- ==== Sys2Proof/Machine/LineControl.lean ====
section
/-! DEFINITION. START_LINE, STOP_LINE, RESET_TRIP, ADOPT_WINDOW_CLOSE and READ_LINE_STATUS (sections 1.1, 1.4, 1.5). -/

namespace Sys2Proof.Machine

/-- START_LINE's own rule (R2). -/
def startLine (s : State) : State × Option Answer :=
  if s.line.state ≠ some .standby then refuse s .badState
  else if ¬ allGroups.any fun g => (s.group g).service == .inService then refuse s .noGroups
  else answer (({ s with line := { s.line with iCmd := 0 } }).setLineState .starting .request) .ok

/-- START_LINE (R2). -/
def execStartLine (rq : Req) (s : State) : Host.Outcome State Fault Refusal := .next (s.take rq .startLine startLine)

/-- STOP_LINE's own rule (R5). -/
def stopLine (s : State) : State × Option Answer :=
  match s.line.state with
  | some .starting | some .regulating | some .hold => answer (s.setLineState .stopping .request) .ok
  | some .stopping => answer s .ok
  | some .standby | some .tripped | some .adopting => refuse s .badState
  | none => refuse s .badState

/-- STOP_LINE (R5). -/
def execStopLine (rq : Req) (s : State) : Host.Outcome State Fault Refusal := .next (s.take rq .stopLine stopLine)

/-- RESET_TRIP's own rule (R8). -/
def resetTrip (s : State) : State × Option Answer :=
  if s.line.state ≠ some .tripped then refuse s .badState
  else if s.tripStands then refuse s .conditionPresent
  else answer (s.setLineState .standby .request) .ok

/-- RESET_TRIP (R8). -/
def execResetTrip (rq : Req) (s : State) : Host.Outcome State Fault Refusal := .next (s.take rq .resetTrip resetTrip)

/-! ### Adoption (R23) -/

/-- The first order of a group in IN_SERVICE at the close of the window: its reported current brought down to its
resolution in use (R23, R9), and 0 where no valid frame has come (log 37). -/
def State.firstOrder (s : State) (g : Group) : Nat :=
  match (s.group g).service with
  | .inService => (s.group g).measured / (s.group g).resolution * (s.group g).resolution
  | .out => 0
  | .joining => 0
  | .leaving => 0
  | .removed => 0
  | .linkLost => 0

/-- The adoption sum S (R23). -/
def State.adoptionSum (s : State) : Nat := (allGroups.map s.firstOrder).sum

/-- The SETPOINT slot written by adoption: value S, no writer, marked ADOPTED (R23, R26; saturation log 15). -/
def State.adoptSetpoint (s : State) (sum : Nat) : State :=
  let v := min sum claimLimit
  let c := s.claims.setpoint
  { s with claims := { s.claims with
      setpoint := { active := true, value := v, writer := none
                    changed := if c.value = v ∧ s.claims.adopted = true then c.changed else s.timeBase }
      adopted := true } }

/-- The line adopted (R23): I_cmd and SETPOINT take S, the first orders are sent and the line enters REGULATING or
HOLD. -/
def State.adoptLine (s : State) (sum : Nat) : State :=
  let s1 := ({ s with line := { s.line with iCmd := min sum claimLimit } }).adoptSetpoint sum
  let s2 := s1.eachGroup fun t g => t.sendOrder g (s.firstOrder g) ((s.group g).service != .inService)
  s2.setLineState s2.regulatingOrHold .adoption

/-- The close of the adopt window (R23). -/
def State.adoptClose (s : State) : State :=
  let s1 := s.closeWindow
  let sum := s1.adoptionSum
  if 0 < sum ∧ s1.config.floor ≤ sum then s1.adoptLine sum
  else (s1.enterBlocked .standby .adoption).capacityDeparture

/-- ADOPT_WINDOW_CLOSE (R23). With no window open nothing happens (log 3). -/
def execAdoptWindowClose (s : State) : Host.Outcome State Fault Refusal :=
  let s0 := s.begin
  match s0.line.state with
  | some .adopting => .next s0.adoptClose
  | some .standby | some .starting | some .regulating | some .hold | some .stopping | some .tripped => .next s0
  | none => .next s0

/-! ### READ_LINE_STATUS (R24) -/

/-- What READ_LINE_STATUS returns (R24). I_m and U are those formed at the last metering-timer expiry (log 32). -/
def State.lineFields (s : State) : List Field :=
  [fLineState s.line.state, fTwo s.line.iCmd, fTwo s.line.target, .name s.line.governing.place, fTwo s.metering.iM
  , fTwo s.metering.u, .mark s.line.aeHold, .mark s.line.capacityShort, fFour s.line.residual, fOne s.line.rotation.val]

/-- READ_LINE_STATUS's own rule (R24). -/
def readLineStatus (s : State) : State × Option Answer := answerWith s s.lineFields

/-- READ_LINE_STATUS (R24). -/
def execReadLineStatus (rq : Req) (s : State) : Host.Outcome State Fault Refusal :=
  .next (s.take rq .readLineStatus readLineStatus)

end Sys2Proof.Machine
end

