-- ==== Sys2Proof/Machine/AnodeEffects.lean ====
section
/-! DEFINITION. The anode-effect unit (chapter 6): detection, the AE list, the overflow list, the quench protocol, the
ends, the energy of a record and the headroom step. -/

namespace Sys2Proof.Machine

/-! ### Ids and lists (R100, R104, R117) -/

/-- The greatest number of AE records (R100). -/
def aeLimit : Nat := 16

/-- The id after `n`: 255 is followed by 1 (R104). -/
def idAfter (n : Nat) : Nat := if 255 ≤ n then 1 else n + 1

/-- The id a new record takes: the first from `n` on that no record holds; each record can make one pass over (R104). -/
def freeId (held : List Nat) : (fuel : Nat) → Nat → Nat
  | 0, n => n
  | k + 1, n => if held.contains n then freeId held k (idAfter n) else n

/-- The id that the unit gives next. -/
def AeUnit.newId (u : AeUnit) : Nat := freeId (u.list.map AeRecord.id) u.list.length u.nextId

/-- The record of a listed pot. -/
def AeUnit.ofPot (u : AeUnit) (pot : Nat) : Option AeRecord := u.list.find? fun r => r.pot == pot

/-- The record with an id. -/
def AeUnit.ofId (u : AeUnit) (id : Nat) : Option AeRecord := u.list.find? fun r => r.id == id

/-- The record with an id changed by `f`. -/
def AeUnit.modRecord (u : AeUnit) (id : Nat) (f : AeRecord → AeRecord) : AeUnit :=
  { u with list := u.list.map fun r => if r.id = id then f r else r }

/-- The recent-ends list with an end entered: the oldest of 16 is dropped (R117). -/
def enterRecent (l : List RecentEnd) (e : RecentEnd) : List RecentEnd :=
  (if l.length < aeLimit then l else l.drop (l.length + 1 - aeLimit)) ++ [e]

/-! ### Hand-offs to the metering unit (R128) -/

/-- The account of the interval in progress changed by `f`. -/
def State.modInterval (s : State) (f : Interval → Interval) : State :=
  { s with metering := { s.metering with interval := match s.metering.interval with
      | some i => some (f i)
      | none => none } }

/-- One AE onset handed over (R128). -/
def State.countOnset (s : State) : State :=
  s.modInterval fun i => { i with aeOnsets := satAdd 65535 i.aeOnsets 1 }

/-- The greatest billed energy, in kWs (Table 3). -/
def energyLimit : Nat := 4294967295

/-- The energy of an ended record handed over, in kWs (R128). -/
def State.creditEnergy (s : State) (kWs : Nat) : State :=
  s.modInterval fun i => { i with aeEnergy := satAdd energyLimit i.aeEnergy kWs }

/-! ### Onsets (R105, R106, R108) -/

/-- A QUENCH_REQUEST for a record's present attempt (R110). -/
def State.requestQuench (s : State) (id attempt pot : Nat) : State :=
  s.notify (.quenchRequest id attempt pot (s.place pot).1 (s.place pot).2)

/-- The ack timer's end, from now (R105 step 6, R113). -/
def State.ackDeadline (s : State) : Nat := s.timeBase + s.config.quench.ack * 1000

/-- The record a pot takes now (R104, R105 step 1). -/
def State.newRecord (s : State) (pot peak : Nat) (original : Option Nat) : AeRecord :=
  { id := s.ae.newId, pot := pot, onset := s.timeBase, original := original, current := s.measuredCurrent
    peak := peak, state := .waitAck, attempt := 1, exhausted := false, deadline := some s.ackDeadline
    reported := false, energy := 0 }

/-- The unit with a new record at the tail of its list: the next id moves on, and the id leaves the recent-ends list
(R104). -/
def AeUnit.enter (u : AeUnit) (r : AeRecord) : AeUnit :=
  { u with list := u.list ++ [r], nextId := idAfter r.id, recent := u.recent.filter fun e => e.id != r.id }

/-- Step 5 of an onset or promotion: the snapshot push, when the AE capture option is ON (R105). -/
def State.captureAe (s : State) (r : AeRecord) : State :=
  if s.config.aeCapture then
    s.push (.ae r.original.isSome r.id r.attempt r.pot (r.original.getD r.onset) r.current r.peak)
  else s

/-- A record created (R105): its notices, the onset count unless it is a promotion (R108), and its snapshot. -/
def State.createRecord (s : State) (pot peak : Nat) (original : Option Nat) : State :=
  let r := s.newRecord pot peak original
  let s1 := { s with ae := s.ae.enter r }
  let s2 := s1.notify (.aeOnset (some r.id) pot (s.place pot).1 (s.place pot).2 r.onset r.current r.peak
    s1.ae.list.length original)
  let s3 := s2.requestQuench r.id r.attempt pot
  let s4 := match original with
    | none => s3.countOnset
    | some _ => s3
  s4.captureAe r

/-- An onset while the AE list is full (R106): the pot joins the overflow list with its unlisted mark, and the first of
a storm hands AE_STORM. -/
def State.overflowOnset (s : State) (pot peak : Nat) : State :=
  let s1 := ({ s with ae := { s.ae with overflow := s.ae.overflow ++ [Overflow.mk pot s.timeBase] } }).modPot pot
    fun p => { p with unlisted := true }
  let n := s1.ae.overflow.length
  let s2 := (s1.notify (.aeOnset none pot (s.place pot).1 (s.place pot).2 s.timeBase s.measuredCurrent peak n
    none)).countOnset
  if s2.ae.storm then s2
  else ({ s2 with ae := { s2.ae with storm := true } }).onset (.line .aeStorm) (some (.storm n))

/-- An onset taken (R105, R106). -/
def State.takeOnset (s : State) (pot peak : Nat) : State :=
  if s.ae.list.length < aeLimit then s.createRecord pot peak none else s.overflowOnset pot peak

/-! ### Ends (R107, R109, R114 to R117) -/

/-- The storm condition evaluated (R109). -/
def State.evaluateStorm (s : State) : State :=
  if s.ae.storm ∧ s.ae.overflow = [] ∧ s.ae.list.length < aeLimit then
    ({ s with ae := { s.ae with storm := false } }).departure (.line .aeStorm)
  else s

/-- The unquenched condition evaluated (R114). -/
def State.evaluateUnquenched (s : State) : State :=
  if s.ae.unquenched ∧ ¬ s.ae.list.any AeRecord.exhausted then
    ({ s with ae := { s.ae with unquenched := false } }).departure (.line .aeUnquenched)
  else s

/-- The head of the overflow list promoted (R108). -/
def State.promote (s : State) : State :=
  match s.ae.overflow with
  | [] => s
  | o :: os =>
    let s1 := ({ s with ae := { s.ae with overflow := os } }).modPot o.pot fun p => { p with unlisted := false }
    s1.createRecord o.pot (s1.pot o.pot).last (some o.onset)

/-- The pot's AE count and last onset at an end (R107, R115 step 2). -/
def State.countEnd (s : State) (pot onset : Nat) : State :=
  s.modPot pot fun p => { p with aeCount := satAdd 65535 p.aeCount 1, lastOnset := onset }

/-- The onset an end is measured from: the original onset for a promoted record (R115). -/
def AeRecord.origin (r : AeRecord) : Nat := r.original.getD r.onset

/-- The AE_END notice of a listed record that ends now (R115 step 3). -/
def State.endNotice (s : State) (r : AeRecord) (reason : EndReason) : NoticeBody :=
  .aeEnd r.id r.pot (s.place r.pot).1 (s.place r.pot).2 reason r.onset r.original (s.timeBase - r.origin) r.peak
    (r.energy / 1000) r.attempt r.exhausted r.reported

/-- The end of a listed anode effect (R115, R116). -/
def State.endListed (s : State) (r : AeRecord) (reason : EndReason) : State :=
  let s1 := (s.countEnd r.pot r.origin).notify (s.endNotice r reason)
  let s2 := s1.creditEnergy (r.energy / 1000)
  let s3 := { s2 with ae := { s2.ae with
    list := s2.ae.list.filter fun x => x.id != r.id
    recent := enterRecent s2.ae.recent ⟨r.id, r.pot, s.timeBase, reason⟩ } }
  s3.evaluateUnquenched.promote.evaluateStorm

/-- The end of an unlisted anode effect (R107). Its notice gives the pot by index, section and position (log 21). -/
def State.endUnlisted (s : State) (o : Overflow) (reason : EndReason) : State :=
  let s1 := ({ s with ae := { s.ae with overflow := s.ae.overflow.filter fun x => x.pot != o.pot } }).modPot o.pot
    fun p => { p with unlisted := false }
  let s2 := (s1.countEnd o.pot o.onset).notify
    (.aeEndUnlisted o.pot (s.place o.pot).1 (s.place o.pot).2 reason o.onset (s.timeBase - o.onset))
  s2.evaluateStorm

/-- The end of a pot's anode effect, listed or unlisted; a pot that is neither has none. -/
def State.endAe (s : State) (pot : Nat) (reason : EndReason) : State :=
  match s.ae.ofPot pot with
  | some r => s.endListed r reason
  | none =>
    match s.ae.overflow.find? fun o => o.pot == pot with
    | some o => s.endUnlisted o reason
    | none => s

/-! ### Detection (R102, R103) -/

/-- The AE state and the run count of a pot. -/
def State.setAe (s : State) (pot : Nat) (a : AeState) (run : Nat) : State :=
  s.modPot pot fun p => { p with aeState := a, run := run }

/-- A pot in NORMAL or RISING evaluated (R102). -/
def State.detectOnset (s : State) (pot : Nat) : State :=
  let p := s.pot pot
  let d := s.config.detection
  if d.aeOn ≤ p.last then
    if d.nOn ≤ p.run + 1 then (s.setAe pot .ae 0).takeOnset pot p.last else s.setAe pot .rising (p.run + 1)
  else s.setAe pot .normal 0

/-- The peak of a listed pot's record raised to the last sample (R103). -/
def State.raisePeak (s : State) (pot : Nat) : State :=
  { s with ae := { s.ae with list := s.ae.list.map fun r =>
      if r.pot = pot then { r with peak := max r.peak (s.pot pot).last } else r } }

/-- A pot in AE or FALLING evaluated (R103). -/
def State.detectEnd (s : State) (pot : Nat) : State :=
  let p := s.pot pot
  let d := s.config.detection
  let s1 := s.raisePeak pot
  if p.last ≤ d.aeOff then
    if d.nOff ≤ p.run + 1 then (s1.setAe pot .normal 0).endAe pot .normal else s1.setAe pot .falling (p.run + 1)
  else s1.setAe pot .ae 0

/-- A pot's entry handed to the anode-effect unit (R90 step 4). -/
def State.evaluateAe (s : State) (pot : Nat) : State :=
  match (s.pot pot).aeState with
  | .normal => s.detectOnset pot
  | .rising => s.detectOnset pot
  | .ae => s.detectEnd pot
  | .falling => s.detectEnd pot

/-! ### The quench protocol (R111 to R114) -/

/-- The exhaustion of a record (R114). -/
def State.exhaust (s : State) (r : AeRecord) : State :=
  let s1 := { s with ae := s.ae.modRecord r.id fun x =>
    { x with state := .quenching, exhausted := true, deadline := none } }
  if s1.ae.unquenched then s1
  else ({ s1 with ae := { s1.ae with unquenched := true } }).onset (.line .aeUnquenched) (some (.unquenched r.id r.pot))

/-- The end of a record's present attempt (R113). -/
def State.nextAttempt (s : State) (r : AeRecord) : State :=
  if r.attempt < 3 then
    ({ s with ae := s.ae.modRecord r.id fun x =>
      { x with attempt := r.attempt + 1, state := .waitAck, deadline := some s.ackDeadline } }).requestQuench
      r.id (r.attempt + 1) r.pot
  else s.exhaust r

/-- The tests of a quench reply (R111), and what it does when it passes them all. -/
def quenchReply (id attempt : Nat) (accept : AeRecord → State → State × Option Answer) (s : State) :
    State × Option Answer :=
  if id = 0 ∨ attempt < 1 ∨ 3 < attempt then refuse s .outOfRange
  else
    match s.ae.ofId id with
    | none => refuse s (if s.ae.recent.any fun e => e.id == id then .alreadyEnded else .notFound)
    | some r =>
      if r.attempt < attempt then refuse s .outOfRange
      else if attempt < r.attempt then refuse s .moved
      else if r.exhausted then refuse s .badState
      else accept r s

/-- QUENCH_STARTED accepted (R112). -/
def startQuench (r : AeRecord) (s : State) : State × Option Answer :=
  match r.state with
  | .waitAck =>
    answer { s with ae := s.ae.modRecord r.id fun x =>
      { x with state := .quenching, reported := true
               deadline := some (s.timeBase + s.config.quench.quench * 1000) } } .ok
  | .quenching => answer s .ok

/-- QUENCH_STARTED (R111, R112). -/
def execQuenchStarted (rq : Req) (id attempt : Nat) (s : State) : Host.Outcome State Fault Refusal :=
  .next (s.take rq .quenchStarted (quenchReply id attempt startQuench))

/-- QUENCH_FAILED accepted (R113). -/
def failQuench (r : AeRecord) (s : State) : State × Option Answer := answer (s.nextAttempt r) .ok

/-- QUENCH_FAILED (R111, R113). -/
def execQuenchFailed (rq : Req) (id attempt : Nat) (s : State) : Host.Outcome State Fault Refusal :=
  .next (s.take rq .quenchFailed (quenchReply id attempt failQuench))

/-- The record of an id whose timer runs in the given state. -/
def AeUnit.timed (u : AeUnit) (id : Nat) (q : QuenchState) : Option AeRecord :=
  match u.ofId id with
  | some r => if r.state = q ∧ r.deadline.isSome then some r else none
  | none => none

/-- ACK_TIMER_EXPIRY (R113). With no such timer running nothing happens (log 3). -/
def execAckTimerExpiry (id : Nat) (s : State) : Host.Outcome State Fault Refusal :=
  let s0 := s.begin
  match s0.ae.timed id .waitAck with
  | some r => .next (s0.nextAttempt r)
  | none => .next s0

/-- QUENCH_TIMER_EXPIRY (R113). With no such timer running nothing happens (log 3). -/
def execQuenchTimerExpiry (id : Nat) (s : State) : Host.Outcome State Fault Refusal :=
  let s0 := s.begin
  match s0.ae.timed id .quenching with
  | some r => .next (s0.nextAttempt r)
  | none => .next s0

/-! ### Energy (R118) -/

/-- The greatest energy of a record and of an interval's DC accumulator (Table 3). -/
def dcLimit : Nat := 2 ^ 48 - 1

/-- One record's energy at a metering expiry with the line current I_m (R118). -/
def State.accrueRecord (s : State) (iM : Nat) (r : AeRecord) : AeRecord :=
  if (s.pot r.pot).stale then r
  else
    let excess := (s.pot r.pot).last - s.config.quench.nominal
    { r with energy := satAdd dcLimit r.energy (excess * iM / 100000 * 100) }

/-- Every record's energy at a metering expiry (R118). -/
def State.accrueAe (s : State) (iM : Nat) : State :=
  { s with ae := { s.ae with list := s.ae.list.map (s.accrueRecord iM) } }

/-! ### Headroom (R119 to R121) -/

/-- U_lim (R119): 0 where the margin exceeds U_max. -/
def HeadroomSet.limit (h : HeadroomSet) : Nat := h.uMax - h.margin

/-- The withdrawal level (R119): a level below 0 is taken as 0. -/
def HeadroomSet.withdrawal (h : HeadroomSet) : Nat := h.limit - h.hysteresis

/-- The headroom step (R120): the HEADROOM slot written from the bus voltage and the I_cmd held at the start of the
expiry. Where U is in both outer columns of the rule's table, the last one applies. -/
def State.headroomStep (s : State) : State :=
  let h := s.config.headroom
  let u := s.busVoltage
  let c := s.claims.headroom
  if u ≤ h.withdrawal then
    if c.active then s.withdrawClaim .headroom else s
  else if h.limit ≤ u then
    if c.active then s.writeClaim .headroom (c.value - h.step)
    else s.writeClaim .headroom (s.line.iCmd - h.step)
  else s

/-- The HEADROOM_LOW event of an expiry, from the U the headroom step used (R121). The headroom condition is present
while the claim is active. -/
def State.headroomEvent (s : State) (u : Nat) : State :=
  let present := s.claims.headroom.active
  ({ s with ae := { s.ae with headroom := present } }).conditionChange (.line .headroomLow) s.ae.headroom present
    (some (.headroom u s.config.headroom.limit))

/-! ### Reading and resetting (R122, R123) -/

/-- The deadline of a record: the ack timer, the quench timer or none (R104). -/
def AeRecord.deadlineField (r : AeRecord) : List Field :=
  fOption 1 (fun _ : Nat => [.name r.state.place]) r.deadline

/-- Every field of a record (R104), with the time that remains to its deadline last (R122, log 21). -/
def AeRecord.fields (now : Nat) (r : AeRecord) : List Field :=
  [fOne r.id, fTwo r.pot, fTime r.onset] ++ fOption 5 (fun t : Nat => [fTime t]) r.original
    ++ [fTwo r.current, fTwo r.peak, .name r.state.place, fOne r.attempt, .mark r.exhausted]
    ++ r.deadlineField ++ [.mark r.reported, .num 6 r.energy] ++ fRemaining now r.deadline

/-- The detection set (R101). -/
def DetectionSet.fields (d : DetectionSet) : List Field := [fTwo d.aeOn, fTwo d.aeOff, fOne d.nOn, fOne d.nOff]

/-- The quench set (R110). -/
def QuenchSet.fields (q : QuenchSet) : List Field := [fOne q.ack, fTwo q.quench, fTwo q.nominal]

/-- The headroom set (R119). -/
def HeadroomSet.fields (h : HeadroomSet) : List Field := [fTwo h.uMax, fTwo h.margin, fTwo h.hysteresis, fTwo h.step]

/-- What READ_AE_LIST returns (R122). That the number of AE records, which R122 names before the records, is the one byte with
which R193 precedes a list of varying length and is not sent a second time, while the length of the overflow list takes 2 bytes
and the up to 16 entries given of it then have a count byte of their own, is the model's choice (log 21). -/
def State.aeFields (s : State) : List Field :=
  let u := s.ae
  fList (AeRecord.fields s.timeBase) u.list
    ++ [fTwo u.overflow.length] ++ fList (fun o : Overflow => [fTwo o.pot, fTime o.onset]) (u.overflow.take 16)
    ++ [fOne u.nextId]
    ++ fList (fun e : RecentEnd => [fOne e.id, fTwo e.pot, fTime e.time, .name e.reason.place]) u.recent.reverse
    ++ [.mark u.storm, .mark u.unquenched, .mark s.claims.headroom.active, fTwo s.claims.headroom.value
      , fTwo s.config.headroom.limit, fTwo s.config.headroom.withdrawal, .mark u.headroom]
    ++ s.config.detection.fields ++ s.config.quench.fields ++ [.mark s.config.aeCapture]
    ++ s.config.headroom.fields

/-- READ_AE_LIST's own rule (R122). -/
def readAeList (s : State) : State × Option Answer := answerWith s s.aeFields

/-- READ_AE_LIST (R122). -/
def execReadAeList (rq : Req) (s : State) : Host.Outcome State Fault Refusal :=
  .next (s.take rq .readAeList readAeList)

/-- What a RESTART leaves of the unit (R123): the emptied records' ids enter the recent-ends list in list order. -/
def AeUnit.restart (u : AeUnit) (now : Nat) : AeUnit :=
  { u with
    list := []
    overflow := []
    recent := u.list.foldl (fun l r => enterRecent l ⟨r.id, r.pot, now, .restart⟩) u.recent
    storm := false
    unquenched := false
    headroom := false }

end Sys2Proof.Machine
end

