-- ==== Sys2Proof/Machine/Allocation.lean ====
section
/-! DEFINITION. ALLOCATION_TIMER_EXPIRY: the target step, the ramp and the states' own steps, the join and leave steps,
the share allocation of chapter 3 and the handing of orders. READ_ALLOCATION. -/

namespace Sys2Proof.Machine

/-! ### The target step and the ramp (R32 to R40) -/

/-- The least claim, the governing claim and the line target derived from the slots as they stand (R33, R34). -/
def State.deriveTarget (s : State) : State :=
  let r := s.claims.least
  { s with line := { s.line with least := r.2, governing := r.1, target := max s.config.floor r.2 } }

/-- The AE hold (R38). -/
def State.updateAeHold (s : State) : State :=
  { s with line := { s.line with aeHold := s.config.holdOnAe && !s.ae.list.isEmpty } }

/-- I_cmd after the ramp step of REGULATING (R37, R39, R40). -/
def rampStep (iCmd target : Nat) (governing : ClaimSlot) (aeHold : Bool) (upRate downRate : Nat) : Nat :=
  if iCmd < target then (if aeHold then iCmd else iCmd + min upRate (target - iCmd))
  else if target < iCmd then
    (if governing = .fault then target else iCmd - min downRate (iCmd - target))
  else iCmd

/-- I_cmd set. -/
def State.setICmd (s : State) (i : Nat) : State := { s with line := { s.line with iCmd := i } }

/-- The start rise of STARTING (R3): at or above the floor the line enters REGULATING or HOLD in the same expiry. -/
def State.startRise (s : State) : State :=
  let s1 := s.setICmd (min 60000 (s.line.iCmd + s.config.startRate))
  if s.config.floor ≤ s1.line.iCmd then s1.setLineState s1.regulatingOrHold .ramp else s1

/-- The stop descent of STOPPING (R6): at 0 the line enters STANDBY in that expiry. -/
def State.stopDescent (s : State) : State :=
  let i := s.line.iCmd - min s.config.stopRate s.line.iCmd
  if i = 0 then s.enterBlocked .standby .ramp else s.setICmd i

/-- The ramp of REGULATING, or the state's own step (R32). The flag says that the step itself has sent the orders of
the expiry. -/
def State.ownStep (s : State) : State × Bool :=
  match s.line.state with
  | some .regulating =>
    (s.setICmd (rampStep s.line.iCmd s.line.target s.line.governing s.line.aeHold s.config.upRate s.config.downRate),
      false)
  | some .starting => (s.startRise, false)
  | some .stopping => let s1 := s.stopDescent; (s1, s1.blocked)
  | some .hold => (s, false)
  | some .standby => (s, false)
  | some .tripped => (s, false)
  | some .adopting => (s, false)
  | none => (s, false)

/-! ### The join and leave steps (R13, R14) -/

/-- The join or leave step of one group (R13, R14). -/
def State.rampGroup (s : State) (g : Group) : State :=
  let r := s.group g
  let gc := s.groupConfig g
  match r.service with
  | .joining =>
    let j := min 12000 (r.joinCeiling + gc.joinRate)
    if gc.rating ≤ j then (s.modGroup g fun r => { r with joinCeiling := 0 }).setService g .inService .ramp
    else s.modGroup g fun r => { r with joinCeiling := j }
  | .leaving =>
    let l := r.leaveCeiling - min gc.leaveRate r.leaveCeiling
    let s1 := s.modGroup g fun r => { r with leaveCeiling := l }
    if l = 0 then s1.setService g .out .ramp else s1
  | .out => s
  | .inService => s
  | .removed => s
  | .linkLost => s

/-- The marks of the groups that entered JOINING from OUT cleared: such a group enters the allocation set at this
expiry (R11, R68; log 11). -/
def State.enrol (s : State) (g : Group) : State :=
  let before := s.inSet g
  (s.modGroup g fun r => { r with awaiting := false }).membership before g

/-! ### The share allocation (R43 to R52) -/

/-- A member of the allocation set with its inputs (R43, R44). -/
structure Member where
  group : Group
  ceiling : Nat
  weight : Nat
  resolution : Nat
deriving DecidableEq, Repr

/-- A member's cap: the greatest multiple of its resolution not above its ceiling (R50 step 2). -/
def Member.cap (m : Member) : Nat := m.ceiling / m.resolution * m.resolution

/-- C_g of a member (R44). -/
def State.memberCeiling (s : State) (g : Group) : Nat :=
  let r := s.group g
  let c := min (s.groupConfig g).rating (s.cool g).ceiling
  match r.service with
  | .joining => min r.joinCeiling c
  | .leaving => min r.leaveCeiling c
  | .inService => c
  | .out => c
  | .removed => c
  | .linkLost => c

/-- The allocation set A with the inputs of each member, in ascending order of group (R44). -/
def State.allocationSet (s : State) : List Member :=
  (allGroups.filter s.inSet).map fun g =>
    { group := g, ceiling := s.memberCeiling g, weight := (s.groupConfig g).weight
      resolution := (s.groupConfig g).resolution }

/-- A member that stage 2 has pinned, with the number of the pass that pinned it (R47). -/
structure Pin where
  member : Member
  pass : Nat
deriving DecidableEq, Repr

/-- What stage 2 produces (R47, R48): the members not pinned with their shares, the pinned members, the passes taken
and the leftover. -/
structure Split where
  shared : List (Member × Nat)
  pinned : List Pin
  passes : Nat
  leftover : Nat
deriving DecidableEq, Repr

/-- One pass's share of a member (R47 step 3). -/
def shareOf (r w : Nat) (m : Member) : Nat := r * m.weight / w

/-- The passes of stage 2 (R47) from pass `pass` on, over the members not pinned `n` and the members pinned `p`. Every
pass but the last pins a member, so that one pass for each member and one more are enough fuel. -/
def splitPasses (t : Nat) : (fuel pass : Nat) → (n : List Member) → (p : List Pin) → Split
  | 0, pass, n, p =>
    let r := t - (p.map fun q => q.member.ceiling).sum
    let w := (n.map Member.weight).sum
    let shares := n.map fun m => (m, shareOf r w m)
    { shared := shares, pinned := p, passes := pass, leftover := r - (shares.map Prod.snd).sum }
  | fuel + 1, pass, n, p =>
    let r := t - (p.map fun q => q.member.ceiling).sum
    let w := (n.map Member.weight).sum
    let exceeding := n.filter fun m => decide (m.ceiling < shareOf r w m)
    if exceeding = [] then
      let shares := n.map fun m => (m, shareOf r w m)
      { shared := shares, pinned := p, passes := pass, leftover := r - (shares.map Prod.snd).sum }
    else
      splitPasses t fuel (pass + 1) (n.filter fun m => decide (shareOf r w m ≤ m.ceiling))
        (p ++ exceeding.map fun m => { member := m, pass := pass })

/-- Stage 2 over the allocation set (R47); with an empty set no pass is taken (R48). -/
def weightedSplit (t : Nat) (a : List Member) : Split :=
  match a with
  | [] => { shared := [], pinned := [], passes := 0, leftover := 0 }
  | _ :: _ => splitPasses t a.length 1 a []

/-- The share of a group after stage 2 (R47). -/
def Split.share (w : Split) (g : Group) : Nat :=
  match w.pinned.find? fun q => q.member.group == g with
  | some q => q.member.ceiling
  | none =>
    match w.shared.find? fun q => q.1.group == g with
    | some q => q.2
    | none => 0

/-- The pass that pinned a group (R47). -/
def Split.pinnedIn (w : Split) (g : Group) : Option Nat :=
  match w.pinned.find? fun q => q.member.group == g with
  | some q => some q.pass
  | none => none

/-- The eight groups in ascending order taken cyclically from `p` (R49). -/
def cyclicFrom (p : Group) : List Group := [p, p + 1, p + 2, p + 3, p + 4, p + 5, p + 6, p + 7]

/-- The members in the order of stage 3's visits (R49). -/
def visitOrder (p : Group) (a : List Member) : List Member :=
  (cyclicFrom p).filterMap fun g => a.find? fun m => m.group == g

/-- A member's order with the value `v` = share plus carry (R50 step 3). -/
def Member.orderFor (m : Member) (v : Nat) : Nat := min (v / m.resolution * m.resolution) m.cap

/-- Stage 3 (R50): the order of each member visited, and the carry that remains. -/
def quantize (share : Group → Nat) : (carry : Nat) → List Member → List (Group × Nat) × Nat
  | carry, [] => ([], carry)
  | carry, m :: ms =>
    let v := share m.group + carry
    let o := m.orderFor v
    let rest := quantize share (v - o) ms
    ((m.group, o) :: rest.1, rest.2)

/-- The rotation pointer after stage 4 (R52). -/
def rotate (p : Group) (a : List Member) : Group :=
  match visitOrder (p + 1) a with
  | [] => p
  | m :: _ => m.group

/-- What the share allocation produces. -/
structure Allocated where
  record : AllocRecord
  orders : List (Group × Nat)
deriving DecidableEq, Repr

/-- The share allocation of I_cmd over the members `a` with the pointer `p` (R45 to R52, R59). -/
def allocate (now : Nat) (state : LineState) (iCmd : Nat) (p : Group) (a : List Member) : Allocated :=
  let k := (a.map Member.ceiling).sum
  let t := min iCmd k
  let split := weightedSplit t a
  let visits := visitOrder p a
  let q := quantize split.share split.leftover visits
  let orderOf := fun g => match q.1.find? fun x => x.1 == g with
    | some x => x.2
    | none => 0
  { record :=
      { time := now, lineState := state, iCmd := iCmd, capacity := k, total := t, shortfall := iCmd - t
        passes := split.passes, leftover := split.leftover, start := (visits.head?).map Member.group
        residual := q.2, rotation := rotate p a
        members := Eight.ofFn fun g => match a.find? fun m => m.group == g with
          | none => none
          | some m => some
            { ceiling := m.ceiling, cap := m.cap, weight := m.weight, resolution := m.resolution
              share := split.share g, pinned := split.pinnedIn g, order := orderOf g } }
    orders := q.1 }

/-- The order and the block flag of a group at an expiry (R53). -/
def AllocRecord.orderOf (r : AllocRecord) (g : Group) : Nat × Bool :=
  match r.members.get g with
  | some m => (m.order, false)
  | none => (0, true)

/-- The allocation run and recorded (R43 to R52, R59). -/
def State.allocate (s : State) (state : LineState) : State :=
  let r := (Machine.allocate s.timeBase state s.line.iCmd s.line.rotation s.allocationSet).record
  { s with line := { s.line with record := r, residual := r.residual, rotation := r.rotation } }

/-- The orders of the allocation handed to every group interface (R53). -/
def State.handOrders (s : State) : State :=
  s.eachGroup fun t g => t.sendOrder g (s.line.record.orderOf g).1 (s.line.record.orderOf g).2

/-- The CAPACITY_SHORT event of an allocation (R46). -/
def State.capacityEvent (s : State) : State :=
  let short := decide (s.line.record.total < s.line.record.iCmd)
  ({ s with line := { s.line with capacityShort := short } }).conditionChange (.line .capacityShort)
    s.line.capacityShort short (some (.capacity s.line.record.shortfall))

/-- The second half of an expiry in a running state: the join and leave steps, the allocation, the orders and the
CAPACITY_SHORT event. The groups take their steps in ascending order (log 35). -/
def State.runAllocation (s : State) (state : LineState) : State :=
  (((s.eachGroup State.rampGroup).allocate state).handOrders).capacityEvent

/-! ### The expiry (R1, R32) -/

/-- The allocation timer, 20 ms (R1). -/
def allocTime : Nat := 20

/-- The orders of an expiry, after the target and ramp steps (R1, R43). `sent` says that the entry to STANDBY has
already sent the blocked-state orders of this expiry. -/
def State.finishExpiry (s : State) (sent : Bool) : State :=
  match s.line.state with
  | some .starting => s.runAllocation .starting
  | some .regulating => s.runAllocation .regulating
  | some .hold => s.runAllocation .hold
  | some .stopping => s.runAllocation .stopping
  | some .standby => if sent then s.capacityDeparture else s.sendBlocked
  | some .tripped => s.sendBlocked
  | some .adopting => s
  | none => s

/-- The target step: the headroom step, the claims read, the AE hold (R32, R33, R34, R38). -/
def State.targetStep (s : State) : State := (s.headroomStep.deriveTarget).updateAeHold

/-- The items of R9 as they stand in the configuration taken into use (R9). -/
def State.takeItems (s : State) (g : Group) : State :=
  s.modGroup g fun r =>
    { r with tolerance := (s.groupConfig g).tolerance, resolution := (s.groupConfig g).resolution }

/-- The start of an expiry for one group: its items taken into use, and its entry to the allocation set (R9, R11). -/
def State.startExpiry (s : State) (g : Group) : State := (s.takeItems g).enrol g

/-- One expiry of the allocation timer (R1, R32). -/
def State.allocationExpiry (s : State) : State :=
  let s0 := { s with line := { s.line with allocTimer := some (s.timeBase + allocTime) } }
  let s1 := s0.eachGroup State.startExpiry
  let u := s1.busVoltage
  let r := s1.targetStep.ownStep
  (r.1.headroomEvent u).finishExpiry r.2

/-- ALLOCATION_TIMER_EXPIRY (R1). With the timer stopped, during the load, nothing happens (log 3). -/
def execAllocationTimerExpiry (s : State) : Host.Outcome State Fault Refusal :=
  let s0 := s.begin
  match s0.line.allocTimer with
  | none => .next s0
  | some _ => .next s0.allocationExpiry

/-! ### READ_ALLOCATION (R59) -/

/-- One group of the record (R59). -/
def AllocMember.fields (m : AllocMember) : List Field :=
  [fTwo m.ceiling, fTwo m.cap, fOne m.weight, fOne m.resolution, fTwo m.share]
    ++ fOption 1 (fun p : Nat => [fOne p]) m.pinned ++ [fTwo m.order]

/-- The allocation record as READ_ALLOCATION returns it (R59). K reaches 96,000, which takes 3 bytes. -/
def AllocRecord.fields (r : AllocRecord) : List Field :=
  [fTime r.time, .name r.lineState.place, fTwo r.iCmd, .num 3 r.capacity, fTwo r.total, fTwo r.shortfall, fOne r.passes
  , fOne r.leftover]
    ++ fOption 1 (fun g : Group => [fOne g.val]) r.start ++ [fFour r.residual, fOne r.rotation.val]
    ++ (r.members.toList.flatMap fun m => .mark m.isSome :: fOption 12 AllocMember.fields m)

/-- READ_ALLOCATION's own rule (R59). -/
def readAllocation (s : State) : State × Option Answer := answerWith s s.line.record.fields

/-- READ_ALLOCATION (R59). -/
def execReadAllocation (rq : Req) (s : State) : Host.Outcome State Fault Refusal :=
  .next (s.take rq .readAllocation readAllocation)

end Sys2Proof.Machine
end

