-- ==== Sys2Proof/Machine/Faults.lean ====
section
/-! DEFINITION. The fault unit's requests: CLEAR_FAULT, READ_FAULTS and READ_FAULT (R161, R168). -/

namespace Sys2Proof.Machine

/-- The end of the responses that a cleared entry `e` carried (R161): the fault lines, the FAULT claim, and HOLD. -/
def State.endResponses (s : State) (e : Entry) : State :=
  let s1 := s.evaluateLines
  let s2 := if e.carries .reduce then s1.writeFaultClaim else s1
  if e.carries .hold ∧ s2.holdStands = false ∧ s2.line.state = some .hold then s2.setLineState .regulating .fault
  else s2

/-- An entry cleared by a request of port `p` (R161). -/
def State.clearLatched (s : State) (id : FaultId) (p : Port) : State :=
  let e := s.entry id
  let s1 := (s.setEntry id clearEntry).endResponses e
  s1.notify (.faultCleared id e.count p s1.faults.lineA s1.faults.lineB)

/-- CLEAR_FAULT's own rule (R161). -/
def clearFault (p : Port) (kind group : Nat) (s : State) : State × Option Answer :=
  match faultIdOf kind group with
  | none => refuse s .outOfRange
  | some id =>
    match (s.entry id).state with
    | .latched => answer (s.clearLatched id p) .ok
    | .active => refuse s .conditionPresent
    | .clear => refuse s .notSet

/-- CLEAR_FAULT (R161). -/
def execClearFault (rq : Req) (kind group : Nat) (s : State) : Host.Outcome State Fault Refusal :=
  .next (s.take rq .clearFault (clearFault rq.port kind group))

/-- Every field of an entry (R156). -/
def Entry.fields (k : FaultKind) (e : Entry) : List Field :=
  [.name e.state.place, fTime e.first, fTime e.last, fOne e.count]
    ++ fOption 1 (fun c : Carried => [.bits c.mask]) e.response
    ++ [.name e.route.place, .mark e.capture] ++ fOption 1 (fun n : Nat => [fOne n]) e.reducePercent
    ++ fReduce e.reduceValue ++ fOption k.detailWidth Detail.fields e.detail

/-- A row of the action table (R157). -/
def ActionRow.fields (r : ActionRow) : List Field :=
  [.name r.route.place, .name r.response.place, fOne r.percent, .mark r.capture]

/-- The entry that gives the FAULT value, or none: one that holds the least set reduce value (R168, log 29). -/
def State.faultGiver (s : State) : Option FaultId :=
  match s.faults.table.reduceValues with
  | [] => none
  | v :: vs => pickTied (allFaultIds.filter fun id => (s.entry id).contributes == some (vs.foldl min v))

/-- The number of entries in a state. -/
def FaultTable.countIn (t : FaultTable) (st : EntryState) : Nat := (t.entries.filter fun e => e.state == st).length

/-- What READ_FAULTS returns (R168). -/
def State.faultFields (s : State) : List Field :=
  (allFaultIds.flatMap fun id => (s.entry id).fields id.kind)
    ++ [.mark s.faults.lineA, .mark s.faults.lineB, fOne (s.faults.table.countIn .active)
      , fOne (s.faults.table.countIn .latched), .mark s.claims.fault.active, fTwo s.claims.fault.value]
    ++ fOption 3 FaultId.fields s.faultGiver
    ++ (allFaultKinds.flatMap fun k => (s.config.actions.get k).fields)

/-- READ_FAULTS's own rule (R168). -/
def readFaults (s : State) : State × Option Answer := answerWith s s.faultFields

/-- READ_FAULTS (R168). -/
def execReadFaults (rq : Req) (s : State) : Host.Outcome State Fault Refusal :=
  .next (s.take rq .readFaults readFaults)

/-- READ_FAULT's own rule (R168). -/
def readFault (kind group : Nat) (s : State) : State × Option Answer :=
  match faultIdOf kind group with
  | none => refuse s .outOfRange
  | some id => answerWith s ((s.entry id).fields id.kind)

/-- READ_FAULT (R168). -/
def execReadFault (rq : Req) (kind group : Nat) (s : State) : Host.Outcome State Fault Refusal :=
  .next (s.take rq .readFault (readFault kind group))

end Sys2Proof.Machine
end

