-- ==== Sys2Proof/Machine/Cooling.lean ====
section
/-! DEFINITION. The group input monitor and the cooling supervisor (chapter 4): filtering, the pattern, trip and pump
tests, the derate, the warning latch, overtemperature, GRACE_TIMER_EXPIRY and READ_COOLING. -/

namespace Sys2Proof.Machine

/-! ### Filtering (R61) -/

/-- One input filtered by one frame (R61): `f` is the filter count F. -/
def InputFilter.step (i : InputFilter) (f : Nat) (raw : Bool) : InputFilter :=
  let run :=
    if i.filtered = raw ∧ i.settled = true then { i with count := 0 }
    else if raw = i.run ∧ 0 < i.count then { i with count := i.count + 1 }
    else { i with run := raw, count := 1 }
  if f ≤ run.count then { run with filtered := run.run, settled := true, count := 0 } else run

/-- The twelve inputs filtered by one frame (R61). -/
def filterInputs (inputs : Twelve InputFilter) (counts : Twelve Nat) (f : StatusFrame) : Twelve InputFilter :=
  { status := Eight.ofFn fun n => (inputs.status.get n).step (counts.status.get n) (f.status.getLsbD n.val)
    trip := Four.ofFn fun n => (inputs.trip.get n).step (counts.trip.get n) (f.trips.getLsbD n.val) }

/-- The run count of every input set to 0 (R62). -/
def GroupCooling.breakRuns (c : GroupCooling) : GroupCooling :=
  { c with inputs :=
    { status := Eight.ofFn fun n => { c.inputs.status.get n with count := 0 }
      trip := Four.ofFn fun n => { c.inputs.trip.get n with count := 0 } } }

/-! ### The pattern test (R63 to R65) -/

/-- The pattern state and the differing inputs of a settled group tested against E and M (R63). -/
def GroupCooling.testPattern (c : GroupCooling) (gc : GroupConfig) : GroupCooling :=
  let d := differingInputs gc c
  { c with pattern := if d = 0 then .matching else .mismatching, differing := d }

/-- The mismatch condition of group `g` handed to the fault unit where it has changed from `before` (R64). -/
def State.mismatchChange (s : State) (g : Group) (before : Bool) : State :=
  s.conditionChange (.group .mismatch g) before (s.cool g).mismatched (some (.mismatch (s.cool g).differing))

/-- A write of E or M of a settled group tested at once; a write to an unsettled group waits for its first test
(R65). -/
def State.retestPattern (s : State) (g : Group) : State :=
  let before := (s.cool g).mismatched
  if (s.cool g).settled then (s.modCool g fun c => c.testPattern (s.groupConfig g)).mismatchChange g before else s

/-- The sources of the mismatch condition after a valid frame (R64): the pattern test of a settled group, and the
release of the adoption source by a reported current of 0. -/
def State.frameMismatch (s : State) (g : Group) (current : Nat) : State :=
  let before := (s.cool g).mismatched
  let s1 := if (s.cool g).settled then s.modCool g fun c => c.testPattern (s.groupConfig g) else s
  let s2 := if current = 0 then s1.modCool g fun c => { c with adoptionSource := false } else s1
  s2.mismatchChange g before

/-! ### The trip inputs (R66, R67) -/

/-- The protection condition of a settled group evaluated (R66, R67). -/
def State.protectionTest (s : State) (g : Group) : State :=
  if (s.cool g).settled then
    let before := (s.cool g).protection
    let active := activeTrips (s.groupConfig g) (s.cool g)
    (s.modCool g fun c => { c with protection := active != 0 }).conditionChange (.group .protection g) before
      (active != 0) (some (.protection active))
  else s

/-! ### The pumps (R68 to R70) -/

/-- The pump test of a settled group after the filtering of a frame: a loss in the allocation set starts GRACE, and a
pump that runs ends GRACE or EXPIRED (R68 to R70). -/
def State.pumpTest (s : State) (g : Group) : State :=
  if (s.cool g).settled then
    match (s.cool g).pumpLoss with
    | .none => if s.inSet g ∧ (s.cool g).bothLost then s.startGrace g else s
    | .grace =>
      if (s.cool g).bothLost then s
      else (s.modCool g fun c => { c with pumpLoss := .none, graceTimer := none }).recool g
    | .expired =>
      if (s.cool g).bothLost then s
      else ((s.modCool g fun c => { c with pumpLoss := .none }).departure (.group .coolingLost g)).recool g
  else s

/-- The expiry of the grace timer (R69): EXPIRED, and the COOLING_LOST onset, which carries no quantity. -/
def State.graceExpired (s : State) (g : Group) : State :=
  (s.modCool g fun c => { c with pumpLoss := .expired, graceTimer := none }).onset (.group .coolingLost g) none

/-- GRACE_TIMER_EXPIRY (R69). With the timer stopped nothing happens (log 3). -/
def execGraceTimerExpiry (g : Group) (s : State) : Host.Outcome State Fault Refusal :=
  let s0 := s.begin
  match (s0.cool g).graceTimer with
  | none => .next s0
  | some _ => .next (s0.graceExpired g)

/-! ### The derate (R71 to R74) -/

/-- The candidate: the highest breakpoint whose temperature is at or below T_out (R72). -/
def candidate (table : Eight (Int × Nat)) (outlet : Int) : Option (Fin 8) :=
  (allGroups.reverse.find? fun i => decide ((table.get i).1 ≤ outlet))

/-- The percent of a breakpoint, or 100 for none (R72). -/
def percentOf (table : Eight (Int × Nat)) : Option (Fin 8) → Nat
  | none => 100
  | some i => (table.get i).2

/-- The derate after a frame with outlet temperature `t` (R72): a fall at once, a rise with hysteresis. -/
def GroupCooling.derateStep (c : GroupCooling) (table : Eight (Int × Nat)) (hysteresis : Nat) (t : Int) : GroupCooling :=
  let k := candidate table t
  let p := percentOf table k
  let risePermitted := match c.governing with
    | none => true
    | some i => decide (t ≤ (table.get i).1 - (hysteresis : Int))
  if p < c.percent then { c with governing := k, percent := p }
  else if c.percent < p ∧ risePermitted = true then { c with governing := k, percent := p }
  else c

/-- The derate of group `g` re-derived from its last T_out without hysteresis (R74). -/
def State.rederive (s : State) (g : Group) : State :=
  (s.modCool g fun c =>
    match c.lastTemps with
    | none => { c with governing := none, percent := 100 }
    | some t =>
      { c with governing := candidate s.config.derate t.outlet
               percent := percentOf s.config.derate (candidate s.config.derate t.outlet) }).recool g

/-- The temperatures of a valid frame taken: the derate, the cooling ceiling, and the level the warning latch is judged by
(R72, R73, R75). -/
def State.takeTemperatures (s : State) (g : Group) (f : StatusFrame) : State :=
  (s.modCool g fun c =>
    { c.derateStep s.config.derate s.config.derateHysteresis f.outlet with
      lastTemps := some { outlet := f.outlet, inlet := f.inlet, flow := f.flow }
      clearLevel := s.config.warnThreshold - (s.config.alarmHysteresis : Int) }).recool g

/-! ### The warning latch and overtemperature (R76, R78) -/

/-- The warning latch after a valid frame (R76). -/
def State.warningTest (s : State) (g : Group) (outlet : Int) : State :=
  if (s.cool g).warning = false ∧ s.config.warnThreshold ≤ outlet then
    (s.modCool g fun c => { c with warning := true }).notify
      (.warningTemperature g outlet s.config.warnThreshold)
  else s

/-- The overtemperature condition after a frame with T_out `outlet` (R78). -/
def overtempAfter (present : Bool) (outlet threshold : Int) (hysteresis : Nat) : Bool :=
  if present then !decide (outlet < threshold - (hysteresis : Int)) else decide (threshold ≤ outlet)

/-- The overtemperature test of a valid frame (R78). -/
def State.overtempTest (s : State) (g : Group) (outlet : Int) : State :=
  let before := (s.cool g).overtemp
  let after := overtempAfter before outlet s.config.tripThreshold s.config.alarmHysteresis
  (s.modCool g fun c => { c with overtemp := after }).conditionChange (.group .overtemp g) before after
    (some (.overtemp outlet))

/-- A valid frame handed to the group input monitor: filtering, then the pattern, trip and pump tests (R61 to R70). That
the trip test comes before the pump test is the model's choice (log 33). -/
def State.monitorFrame (s : State) (g : Group) (f : StatusFrame) : State :=
  let s1 := s.modCool g fun c => { c with inputs := filterInputs c.inputs (s.groupConfig g).filterCounts f }
  ((s1.frameMismatch g f.current).protectionTest g).pumpTest g

/-- A valid frame handed to the cooling supervisor: the derate, the warning latch and overtemperature (R72 to R78), in
that order (log 35). -/
def State.superviseFrame (s : State) (g : Group) (f : StatusFrame) : State :=
  ((s.takeTemperatures g f).warningTest g f.outlet).overtempTest g f.outlet

/-! ### Reading and resetting (R79, R80) -/

/-- One input as READ_COOLING returns it (R79). -/
def inputFields (i : InputFilter) (f : Nat) : List Field :=
  [.mark i.filtered, .mark i.settled, .mark i.run, fOne i.count, fOne f]

/-- A group number of a request (R10, R24, R79). -/
def groupOf (n : Nat) : Option Group := if h : n < 8 then some ⟨n, h⟩ else none

/-- What READ_COOLING returns of one group (R79). The enabled inputs that differ are sent as one set byte (log 21). -/
def State.coolingFields (s : State) (g : Group) : List Field :=
  let c := s.cool g
  let gc := s.groupConfig g
  ((c.inputs.toList.zip gc.filterCounts.toList).flatMap fun p => inputFields p.1 p.2)
    ++ [.mark c.settled, .bits gc.expected.toNat, .bits gc.enabled.toNat, .name c.pattern.place
      , .bits c.differing.toNat, .mark c.patternSource, .mark c.adoptionSource, .bits gc.tripMask.toNat
      , .mark c.protection, .name c.pumpLoss.place]
    ++ fRemaining s.timeBase c.graceTimer
    ++ fOption 1 (fun i : Fin 8 => [fOne i.val]) c.governing
    ++ [fOne c.percent, fTwo (temperatureCeiling gc c.percent)]
    ++ fOption 2 (fun n : Nat => [fTwo n]) (pumpLossCeiling gc c.pumpLoss)
    ++ [fTwo c.ceiling]
    ++ fOption 6 (fun t : Temperatures => [.int t.outlet, .int t.inlet, fTwo t.flow]) c.lastTemps
    ++ [.mark c.warning, .mark (s.clearable g), .mark c.overtemp]

/-- READ_COOLING's own rule (R79). -/
def readCooling (n : Nat) (s : State) : State × Option Answer :=
  match groupOf n with
  | none => refuse s .outOfRange
  | some g => answerWith s (s.coolingFields g)

/-- READ_COOLING (R79). -/
def execReadCooling (rq : Req) (group : Nat) (s : State) : Host.Outcome State Fault Refusal :=
  .next (s.take rq .readCooling (readCooling group))

/-- What a RESTART leaves of one group's inputs and cooling (R80): the inputs, the derate, the last T_out and the
warning latch are kept, and the conditions forgotten. -/
def GroupCooling.restart (c : GroupCooling) (gc : GroupConfig) : GroupCooling :=
  { c with
    pattern := .matching
    differing := 0
    adoptionSource := false
    protection := false
    pumpLoss := .none
    graceTimer := none
    ceiling := coolingCeiling gc c.percent .none
    overtemp := false }

end Sys2Proof.Machine
end

