-- ==== Sys2Proof/Machine/Groups.lean ====
section
/-! DEFINITION. The group interfaces (sections 1.2, 1.3 and 1.5): STATUS_FRAME, LINK_TIMER_EXPIRY,
TRACKING_TIMER_EXPIRY, SET_GROUP_SERVICE, RESTORE_GROUP and READ_GROUP_STATUS. -/

namespace Sys2Proof.Machine

/-! ### Arrivals (R18, R20, R21) -/

/-- A frame's currents, voltages, temperatures and flow saturated at the ends of their ranges (R18; 00_scope.md 4.2,
log 16). -/
def saturateFrame (f : StatusFrame) : StatusFrame :=
  { f with
    current := min f.current 12000
    voltage := min f.voltage 30000
    inlet := clampInt (-400) 1500 f.inlet
    outlet := clampInt (-400) 1500 f.outlet
    flow := min f.flow 10000 }

/-- A valid frame becomes the group's last valid frame, and a running link timer restarts (R18, R19). -/
def State.storeFrame (s : State) (g : Group) (f : StatusFrame) : State :=
  s.modGroup g fun r =>
    { r with
      lastFrame := some f
      linkTimer := match r.linkTimer with
        | some _ => some (s.timeBase + linkTime)
        | none => none }

/-- The return of a lost link (R20): GROUP_LINK_LOST departs, and the group enters REMOVED or OUT. -/
def State.linkReturn (s : State) (g : Group) : State :=
  match (s.group g).service with
  | .linkLost =>
    let s1 := s.departure (.group .linkLost g)
    s1.setService g (if s1.removeStands g then .removed else .out) .link
  | .out => s
  | .joining => s
  | .inService => s
  | .leaving => s
  | .removed => s

/-- The tracking timer, 2 s (R21). -/
def trackingTime : Nat := 2000

/-- The tracking check of a valid frame (R21), with the tolerance in use (R9). -/
def State.trackingCheck (s : State) (g : Group) (f : StatusFrame) : State :=
  let r := s.group g
  if f.echo ≠ r.sequence then s
  else if r.tolerance < (f.current - r.lastOrder) + (r.lastOrder - f.current) then
    if r.trackingTimer = none ∧ s.inSet g = true ∧ (s.entry (.group .tracking g)).state ≠ .active then
      s.modGroup g fun q => { q with trackingTimer := some (s.timeBase + trackingTime) }
    else s
  else (s.modGroup g fun q => { q with trackingTimer := none }).departure (.group .tracking g)

/-- A frame with a good check word (R18): stored, then the link, tracking, the input monitor and the cooling
supervisor. -/
def State.takeFrame (s : State) (g : Group) (f : StatusFrame) : State :=
  ((((s.storeFrame g f).linkReturn g).trackingCheck g f).monitorFrame g f).superviseFrame g f

/-- STATUS_FRAME (R18). A frame with a bad check word is discarded, and so is every frame during the load (R190). -/
def execStatusFrame (g : Group) (frame : GroupFrame) (s : State) : Host.Outcome State Fault Refusal :=
  let s0 := s.begin
  match frame with
  | .bad => .next s0
  | .good f => if s0.loading then .next s0 else .next (s0.takeFrame g (saturateFrame f))

/-! ### Link loss and tracking (R19, R21) -/

/-- The line is in ADOPTING. -/
def State.adopting (s : State) : Bool := s.line.state == some .adopting

/-- The loss of a group's link (R19, R62): any join or leave ends, the group enters LINK_LOST, the order of 0 with the
block flag is sent outside ADOPTING, and GROUP_LINK_LOST is handed after the group has left the allocation set. -/
def State.linkLoss (s : State) (g : Group) : State :=
  let s1 := ((s.endRamps g).setService g .linkLost .link).modCool g GroupCooling.breakRuns
  let s2 := if s1.adopting then s1 else s1.sendOrder g 0 true
  s2.onset (.group .linkLost g) (some (.linkLost (s.group g).measured))

/-- LINK_TIMER_EXPIRY (R19). With the timer stopped nothing happens (log 3). -/
def execLinkTimerExpiry (g : Group) (s : State) : Host.Outcome State Fault Refusal :=
  let s0 := s.begin
  match (s0.group g).linkTimer with
  | none => .next s0
  | some _ => .next (s0.linkLoss g)

/-- The expiry of the tracking timer (R21): the onset carries the measured current and the last order sent. -/
def State.trackingExpired (s : State) (g : Group) : State :=
  (s.modGroup g fun r => { r with trackingTimer := none }).onset (.group .tracking g)
    (some (.tracking (s.group g).measured (s.group g).lastOrder))

/-- TRACKING_TIMER_EXPIRY (R21). With the timer stopped nothing happens (log 3). -/
def execTrackingTimerExpiry (g : Group) (s : State) : Host.Outcome State Fault Refusal :=
  let s0 := s.begin
  match (s0.group g).trackingTimer with
  | none => .next s0
  | some _ => .next (s0.trackingExpired g)

/-! ### Requests on a group's service (R10 to R12, R16) -/

/-- SET_GROUP_SERVICE(g, IN) in a running state (R11). -/
def State.join (s : State) (g : Group) : State × Option Answer :=
  match (s.group g).service with
  | .out => answer ((s.modGroup g fun r => { r with joinCeiling := 0 }).setService g .joining .request) .ok
  | .leaving =>
    answer ((s.modGroup g fun r => { r with joinCeiling := r.leaveCeiling, leaveCeiling := 0 }).setService g
      .joining .request) .ok
  | .joining => answer s .ok
  | .inService => answer s .ok
  | .removed => refuse s .badState
  | .linkLost => refuse s .badState

/-- Some other group is in JOINING or IN_SERVICE (R12). -/
def State.otherSelected (s : State) (g : Group) : Bool :=
  allGroups.any fun h => h != g && (s.group h).service.selected

/-- SET_GROUP_SERVICE(g, OUT) in a running state (R12): the leave ceiling is the last order sent. -/
def State.leave (s : State) (g : Group) : State × Option Answer :=
  match (s.group g).service with
  | .joining | .inService =>
    if s.otherSelected g then
      answer ((s.modGroup g fun r => { r with leaveCeiling := r.lastOrder, joinCeiling := 0 }).setService g
        .leaving .request) .ok
    else refuse s .lastGroup
  | .leaving => answer s .ok
  | .out => answer s .ok
  | .removed => refuse s .badState
  | .linkLost => refuse s .badState

/-- SET_GROUP_SERVICE in a blocked state (R10). JOINING and LEAVING do not occur there (R6); they would be taken as the
selected and the deselected state. -/
def State.select (s : State) (g : Group) (wanted : Bool) : State × Option Answer :=
  match (s.group g).service, wanted with
  | .out, true => answer (s.setService g .inService .request) .ok
  | .leaving, true => answer (s.setService g .inService .request) .ok
  | .out, false => answer s .ok
  | .leaving, false => answer s .ok
  | .inService, true => answer s .ok
  | .joining, true => answer s .ok
  | .inService, false => answer (s.setService g .out .request) .ok
  | .joining, false => answer (s.setService g .out .request) .ok
  | .removed, _ => refuse s .badState
  | .linkLost, _ => refuse s .badState

/-- SET_GROUP_SERVICE's own rule (R10 to R12): mode 0 is IN and 1 is OUT (Table 11-9). -/
def setGroupService (group mode : Nat) (s : State) : State × Option Answer :=
  match groupOf group with
  | none => refuse s .outOfRange
  | some g =>
    if 1 < mode then refuse s .outOfRange
    else if s.running then (if mode = 0 then s.join g else s.leave g)
    else if s.blocked then s.select g (mode == 0)
    else refuse s .badState

/-- SET_GROUP_SERVICE (R10 to R12). -/
def execSetGroupService (rq : Req) (group mode : Nat) (s : State) : Host.Outcome State Fault Refusal :=
  .next (s.take rq .setGroupService (setGroupService group mode))

/-- RESTORE_GROUP's own rule (R16). -/
def restoreGroup (group : Nat) (s : State) : State × Option Answer :=
  match groupOf group with
  | none => refuse s .outOfRange
  | some g =>
    if (s.group g).service ≠ .removed then refuse s .badState
    else if s.removeStands g then refuse s .conditionPresent
    else answer (s.setService g .out .request) .ok

/-- RESTORE_GROUP (R10, R16). -/
def execRestoreGroup (rq : Req) (group : Nat) (s : State) : Host.Outcome State Fault Refusal :=
  .next (s.take rq .restoreGroup (restoreGroup group))

/-! ### READ_GROUP_STATUS (R24, R77) -/

/-- The contents of an inbound frame, without its check word (log 21). -/
def frameFields (f : StatusFrame) : List Field :=
  [fTwo f.current, fTwo f.voltage, .int f.inlet, .int f.outlet, fTwo f.flow, .bits f.status.toNat
  , .bits f.trips.toNat, fOne f.echo]

/-- The join or leave ceiling that the group's state uses; 0 in the other states (log 23). -/
def GroupRecord.ramp (r : GroupRecord) : Nat :=
  match r.service with
  | .joining => r.joinCeiling
  | .leaving => r.leaveCeiling
  | .out => 0
  | .inService => 0
  | .removed => 0
  | .linkLost => 0

/-- What READ_GROUP_STATUS returns of one group (R24), with the warning latch last (R77, log 23). -/
def State.groupFields (s : State) (g : Group) : List Field :=
  let r := s.group g
  let gc := s.groupConfig g
  let c := s.cool g
  [.name r.service.place, fTwo gc.rating, fOne gc.weight, fOne gc.resolution, fTwo gc.joinRate
  , fTwo gc.leaveRate, fTwo gc.tolerance, fTwo r.ramp, fTwo c.ceiling, fTwo r.lastOrder, .mark r.blockFlag
  , fOne r.sequence]
    ++ fOption 13 frameFields r.lastFrame
    ++ [.bits c.statusBits.toNat, .bits c.tripBits.toNat, .mark r.trackingTimer.isSome, .mark c.warning]

/-- READ_GROUP_STATUS's own rule (R24): a read from a SUBSTATION port clears a clearable warning latch when the answer
has been formed (R77). -/
def readGroupStatus (p : Port) (n : Nat) (s : State) : State × Option Answer :=
  match groupOf n with
  | none => refuse s .outOfRange
  | some g =>
    let s1 := if s.role p = .substation ∧ s.clearable g = true then s.modCool g fun c => { c with warning := false }
      else s
    answerWith s1 (s.groupFields g)

/-- READ_GROUP_STATUS (R24, R77). -/
def execReadGroupStatus (rq : Req) (group : Nat) (s : State) : Host.Outcome State Fault Refusal :=
  .next (s.take rq .readGroupStatus (readGroupStatus rq.port group))

end Sys2Proof.Machine
end

