-- ==== Sys2Proof/Machine/Curtailment.lean ====
section
/-! DEFINITION. The curtailment unit (chapter 8): POST_ORDER, CANCEL_ORDER, the start and end deadlines, the metering
hand-off and READ_ORDERS. -/

namespace Sys2Proof.Machine

/-! ### The order list (R145) -/

/-- The greatest number of orders (R145). -/
def orderLimit : Nat := 4

/-- The greatest time base (R124). -/
def timeLimit : Nat := 2 ^ 40 - 1

/-- A time base `ms` milliseconds after `t`, saturating at the end of its range (00_scope.md 4.2). -/
def timeAfter (t ms : Nat) : Nat := satAdd timeLimit t ms

/-- The greatest power, in kW (Table 3). -/
def powerLimit : Nat := 2000000

/-- The least bus voltage at which a ceiling is computed, in dV (R137, R150). -/
def voltageFloor : Nat := 1000

/-- The order with a tag. -/
def Curtailment.ofTag (c : Curtailment) (tag : Nat) : Option CurtailOrder := c.orders.find? fun o => o.tag == tag

/-- An order put in its place: ascending start time, the one accepted earlier first (R145). -/
def insertOrder (o : CurtailOrder) : List CurtailOrder → List CurtailOrder
  | [] => [o]
  | x :: xs => if x.start ≤ o.start then x :: insertOrder o xs else o :: x :: xs

/-- The active set (R145). -/
def Curtailment.active (c : Curtailment) : List CurtailOrder := c.orders.filter fun o => o.state == .active

/-- The enforced set (R145, R151). -/
def Curtailment.enforcedSet (c : Curtailment) : List CurtailOrder :=
  c.orders.filter fun o => o.state == .active && o.enforced

/-- The least ceiling of a set of orders. -/
def leastCeiling : List CurtailOrder → Option Nat
  | [] => none
  | o :: os => some (os.foldl (fun m x => min m x.ceiling) o.ceiling)

/-- P_k (R151). -/
def Curtailment.complianceCeiling (c : Curtailment) : Option Nat := leastCeiling c.enforcedSet

/-- The order list replaced. -/
def State.setOrders (s : State) (l : List CurtailOrder) : State := { s with curtail := { s.curtail with orders := l } }

/-- An ORDER_STATE notice, with the number of orders left in the list (R145). -/
def State.noteOrder (s : State) (o : CurtailOrder) (state : OrderState) : State :=
  s.notify (.orderState o.tag state o.ceiling o.start o.stop s.curtail.orders.length)

/-! ### The CURTAIL claim (R150) -/

/-- The efficiency factor of the interval in progress; there is an interval at all times once the store has loaded
(R129). -/
def State.efficiency (s : State) : Nat :=
  match s.metering.interval with
  | some i => i.efficiency
  | none => s.config.efficiency

/-- The line current that a billed power `p` allows at efficiency `eff` and bus voltage `u`, within 0 to 60,000 (R137
steps 6 and 7, R150). -/
def currentFor (p eff u : Nat) : Nat := min 60000 (p * 10000 / eff * 1000 / u)

/-- The CURTAIL slot written from the active set (R150). -/
def State.writeCurtail (s : State) : State :=
  match leastCeiling s.curtail.active with
  | none => s.withdrawClaim .curtail
  | some p =>
    if voltageFloor ≤ s.curtail.lastVoltage then
      let v := currentFor p s.efficiency s.curtail.lastVoltage
      ({ s with curtail := { s.curtail with value := v, holdMark := false } }).writeClaim .curtail v
    else ({ s with curtail := { s.curtail with holdMark := true } }).writeClaim .curtail s.curtail.value

/-! ### Activation and end (R147 to R149, R153) -/

/-- The CURTAILED mark of the interval set (R128). -/
def State.markCurtailed (s : State) : State := s.modInterval fun i => { i with curtailed := true }

/-- An order activated (R148). -/
def State.activateOrder (s : State) (o : CurtailOrder) : State :=
  let s1 := s.setOrders (s.curtail.orders.map fun x =>
    if x.tag = o.tag then
      { x with state := .active, activation := some s.timeBase
               enforcement := some (timeAfter s.timeBase (s.config.curtailGrace * 1000)) }
    else x)
  ((s1.noteOrder o .active).markCurtailed).writeCurtail

/-- The compliance condition after the removal of an ACTIVE order: with the enforced set empty the run count is 0, and
a present condition departs (R152, R153). -/
def State.emptyEnforced (s : State) : State :=
  if s.curtail.enforcedSet = [] then
    ({ s with curtail := { s.curtail with compliance := false, run := 0 } }).conditionChange (.line .curtailMissed)
      s.curtail.compliance false none
  else s

/-- An order removed with the notice of its new state (R147, R149). The removal of an ACTIVE one writes the claim again
and tests the compliance condition. -/
def State.removeOrder (s : State) (o : CurtailOrder) (state : OrderState) : State :=
  let s1 := (s.setOrders (s.curtail.orders.filter fun x => x.tag != o.tag)).noteOrder o state
  match o.state with
  | .active => s1.writeCurtail.emptyEnforced
  | .pending => s1
  | .done => s1
  | .cancelled => s1

/-- The order a POST_ORDER creates (R146). Its times are time bases (R145). -/
def State.newOrder (s : State) (p : Port) (tag delay duration ceiling : Nat) : CurtailOrder :=
  { tag := tag, state := .pending, ceiling := min ceiling powerLimit, start := timeAfter s.timeBase (delay * 1000)
    duration := duration, stop := timeAfter (timeAfter s.timeBase (delay * 1000)) (duration * 1000), port := p, activation := none
    enforcement := none, enforced := false }

/-- POST_ORDER's own rule (R146). -/
def postOrder (p : Port) (tag delay duration ceiling : Nat) (s : State) : State × Option Answer :=
  if tag = 0 ∨ 255 < tag ∨ 86400 < delay ∨ duration < 60 ∨ 14400 < duration then refuse s .outOfRange
  else if (s.curtail.ofTag tag).isSome then refuse s .duplicate
  else if orderLimit ≤ s.curtail.orders.length then refuse s .full
  else
    let o := s.newOrder p tag delay duration ceiling
    let s1 := (s.setOrders (insertOrder o s.curtail.orders)).noteOrder o .pending
    answer (if delay = 0 then s1.activateOrder o else s1) (okOrClamped (powerLimit < ceiling))

/-- POST_ORDER (R146). -/
def execPostOrder (rq : Req) (orderTag delay duration ceiling : Nat) (s : State) : Host.Outcome State Fault Refusal :=
  .next (s.take rq .postOrder (postOrder rq.port orderTag delay duration ceiling))

/-- CANCEL_ORDER's own rule (R147). -/
def cancelOrder (tag : Nat) (s : State) : State × Option Answer :=
  if tag = 0 ∨ 255 < tag then refuse s .outOfRange
  else
    match s.curtail.ofTag tag with
    | none => refuse s .notFound
    | some o => answer (s.removeOrder o .cancelled) .ok

/-- CANCEL_ORDER (R147). -/
def execCancelOrder (rq : Req) (orderTag : Nat) (s : State) : Host.Outcome State Fault Refusal :=
  .next (s.take rq .cancelOrder (cancelOrder orderTag))

/-- The order with a tag in a state. -/
def Curtailment.inState (c : Curtailment) (tag : Nat) (st : OrderState) : Option CurtailOrder :=
  match c.ofTag tag with
  | some o => if o.state = st then some o else none
  | none => none

/-- ORDER_START_DEADLINE (R148). With no such order PENDING nothing happens (log 3). -/
def execOrderStartDeadline (orderTag : Nat) (s : State) : Host.Outcome State Fault Refusal :=
  let s0 := s.begin
  match s0.curtail.inState orderTag .pending with
  | none => .next s0
  | some o => .next (s0.activateOrder o)

/-- ORDER_END_DEADLINE (R149). With no such order ACTIVE nothing happens (log 3). -/
def execOrderEndDeadline (orderTag : Nat) (s : State) : Host.Outcome State Fault Refusal :=
  let s0 := s.begin
  match s0.curtail.inState orderTag .active with
  | none => .next s0
  | some o => .next (s0.removeOrder o .done)

/-! ### The metering hand-off (R150 to R153) -/

/-- The enforcement step (R151). -/
def State.enforce (s : State) : State :=
  s.setOrders (s.curtail.orders.map fun o =>
    match o.state, o.enforcement with
    | .active, some t => if t ≤ s.timeBase then { o with enforced := true } else o
    | _, _ => o)

/-- The tag of the order that gives P_k: one of the enforced set that holds it (R152, log 29). -/
def Curtailment.givesCeiling (c : Curtailment) (pk : Nat) : Nat :=
  match pickTied (c.enforcedSet.filter fun o => o.ceiling == pk) with
  | some o => o.tag
  | none => 0

/-- The consecutive hand-offs above P_k that make a breach (R152). -/
def breachRun : Nat := 10

/-- The tenth consecutive hand-off above P_k (R152). -/
def State.breach (s : State) (pBill pk : Nat) : State :=
  ((({ s with curtail := { s.curtail with compliance := true, run := 0 } }).onset (.line .curtailMissed)
    (some (.curtail pBill pk (s.curtail.givesCeiling pk)))).modInterval
      fun i => { i with breaches := satAdd 65535 i.breaches 1 })

/-- The compliance test (R152, R153). -/
def State.complianceTest (s : State) (pBill : Nat) : State :=
  match s.curtail.complianceCeiling with
  | none => { s with curtail := { s.curtail with run := 0 } }
  | some pk =>
    if pk < pBill then
      if s.curtail.compliance then s
      else if breachRun ≤ s.curtail.run + 1 then s.breach pBill pk
      else { s with curtail := { s.curtail with run := s.curtail.run + 1 } }
    else if s.curtail.compliance then
      ({ s with curtail := { s.curtail with compliance := false, run := 0 } }).departure (.line .curtailMissed)
    else { s with curtail := { s.curtail with run := 0 } }

/-- The hand-off of a metering expiry (R127 step 8): the last voltage, the claim, the enforcement and the compliance
test. -/
def State.curtailHandoff (s : State) (u pBill : Nat) : State :=
  let s1 := { s with curtail := { s.curtail with lastVoltage := u } }
  let s2 := if s1.curtail.active = [] then s1 else s1.writeCurtail
  s2.enforce.complianceTest pBill

/-! ### READ_ORDERS and RESTART (R154, R155) -/

/-- One order as READ_ORDERS returns it (R154). -/
def CurtailOrder.fields (now position : Nat) (o : CurtailOrder) : List Field :=
  [fOne o.tag, .name o.state.place, fPower o.ceiling, fTime o.start, fTwo o.duration, fTime o.stop, fOne o.port.val]
    ++ fOption 5 (fun t : Nat => [fTime t]) o.activation ++ fOption 5 (fun t : Nat => [fTime t]) o.enforcement
    ++ [fOne position, .mark o.enforced
      , fFour (remaining now (match o.state with | .pending => o.start | _ => o.stop))]

/-- What READ_ORDERS returns (R154). Positions count from 0 and take one byte (log 21). -/
def State.orderFields (s : State) : List Field :=
  let c := s.curtail
  .count c.orders.length :: ((c.orders.zipIdx.flatMap fun p => p.1.fields s.timeBase p.2))
    ++ [fTwo c.value, .mark c.holdMark, fTwo c.lastVoltage, .mark s.claims.curtail.active]
    ++ fOption 3 (fun n : Nat => [fPower n]) c.complianceCeiling
    ++ [fOne c.run, .mark c.compliance, fTwo s.config.curtailGrace]

/-- READ_ORDERS's own rule (R154). -/
def readOrders (s : State) : State × Option Answer := answerWith s s.orderFields

/-- READ_ORDERS (R154). -/
def execReadOrders (rq : Req) (s : State) : Host.Outcome State Fault Refusal :=
  .next (s.take rq .readOrders readOrders)

/-- What a RESTART leaves of the unit (R155). -/
def Curtailment.restart (c : Curtailment) : Curtailment := { c with compliance := false, run := 0 }

end Sys2Proof.Machine
end

