-- ==== Sys2Proof/Machine/Metering.lean ====
section
/-! DEFINITION. The metering and demand unit (chapter 7): the passing of a millisecond, SET_CLOCK, the metering expiry,
the interval closes, the sync input and READ_METERING. -/

namespace Sys2Proof.Machine

/-! ### Time (R124) -/

/-- The milliseconds of a day (R124). -/
def dayLength : Nat := 86400000

/-- The calendar one millisecond later (R124). -/
def Calendar.advance (c : Calendar) : Calendar :=
  if dayLength ≤ c.tod + 1 then { day := if 6 ≤ c.day then 0 else c.day + 1, tod := 0 } else { c with tod := c.tod + 1 }

/-- One millisecond passes: the time base advances and the calendar with it (R124). The time base saturates, and the
calendar then stands still with it (log 26). -/
def State.tick (s : State) : State :=
  if timeLimit ≤ s.timeBase then { s with out := [] }
  else
    { s with
      out := []
      timeBase := s.timeBase + 1
      metering := { s.metering with calendar := match s.metering.calendar with
        | some c => some c.advance
        | none => none } }

/-- The tariff slot of a calendar position (R124). -/
def Calendar.slot (c : Calendar) : Nat := c.tod / 900000

/-! ### Intervals (R129, R131, R136) -/

/-- The distance from a position to the first boundary more than 2,000 ms after it, for a length in minutes (R129). -/
def boundaryDistance (tod minutes : Nat) : Nat :=
  let l := minutes * 60000
  ((tod + 2000) / l + 1) * l - tod

/-- The deadline of an interval of `minutes`, derived from the reference `now` (R129). It is a time base, and saturates as
one (00_scope.md 4.2). -/
def deriveDeadline (now : Nat) (calendar : Option Calendar) (minutes : Nat) : Nat :=
  match calendar with
  | some c => timeAfter now (boundaryDistance c.tod minutes)
  | none => timeAfter now (minutes * 60000)

/-- A tariff window contains slot `n` on day `d` (R136). -/
def TariffWindow.contains (w : TariffWindow) (d n : Nat) : Bool :=
  w.days.getLsbD d &&
    (if w.start ≤ w.stop then decide (w.start ≤ n ∧ n ≤ w.stop) else decide (w.start ≤ n ∨ n ≤ w.stop))

/-- The governing window at a calendar position, or none for DEFAULT (R136). -/
def governingWindow (windows : Eight TariffWindow) : Option Calendar → Option (Fin 8)
  | none => none
  | some c => allGroups.find? fun i => (windows.get i).enabled && (windows.get i).contains c.day c.slot

/-- The interval that begins now with a number (R131 step 4). -/
def State.newInterval (s : State) (number : Nat) : Interval :=
  let cal := s.metering.calendar
  let w := governingWindow s.config.windows cal
  { number := number, start := s.timeBase, startCalendar := cal, length := s.config.intervalLength
    efficiency := s.config.efficiency, window := w
    demand := match w with | some i => (s.config.windows.get i).demand | none => s.config.defaultDemand
    priceClass := match w with | some i => (s.config.windows.get i).priceClass | none => 0
    accumulator := 0, eUsed := 0, peak := 0, aeEnergy := 0, aeOnsets := 0, breaches := 0, short := false
    exceeded := false, curtailed := !s.curtail.active.isEmpty
    deadline := deriveDeadline s.timeBase cal s.config.intervalLength }

/-- The history record of an interval that closes now (R131 step 1, R140). -/
def Interval.record (i : Interval) (now : Nat) (short unsynced : Bool) : History :=
  { number := i.number, start := i.start, stop := now, startCalendar := i.startCalendar, length := i.length
    window := i.window, priceClass := i.priceClass, demand := i.demand, billed := i.eUsed, peak := i.peak
    aeEnergy := i.aeEnergy, aeOnsets := i.aeOnsets, breaches := i.breaches, short := short, unsynced := unsynced
    exceeded := i.exceeded, curtailed := i.curtailed }

/-- The greatest number of history records (R141). -/
def ringLimit : Nat := 96

/-- A record entered at the head of the ring; the oldest of 96 is dropped (R141). -/
def enterRing (ring : List History) (h : History) : List History := (h :: ring).take ringLimit

/-- A HISTORY cursor moved one record older by a close (R185). -/
def Cursor.shift (c : Cursor) : Cursor :=
  match c.target with
  | .pots => c
  | .history =>
    if ringLimit ≤ c.position + 1 then { c with position := ringLimit - 1, skipped := true }
    else { c with position := c.position + 1 }

/-- Every HISTORY cursor moved by a close (R185). -/
def State.shiftCursors (s : State) : State :=
  { s with ports := Four.ofFn fun p => { s.ports.get p with cursor := (s.ports.get p).cursor.shift } }

/-- The exceedance condition departs at a close (R131 step 3). -/
def State.endExceedance (s : State) : State :=
  if s.metering.exceedance then
    ({ s with metering := { s.metering with exceedance := false } }).departure (.line .demandExceeded)
  else s

/-- The close of the interval `i` in progress (R131). -/
def State.closeInterval (s : State) (i : Interval) (short unsynced : Bool) : State :=
  let s1 := ({ s with metering := { s.metering with
    ring := enterRing s.metering.ring (i.record s.timeBase short unsynced) } }).shiftCursors
  let s2 := s1.endExceedance
  { s2 with metering := { s2.metering with interval := some (s2.newInterval (satAdd 4294967295 i.number 1)) } }

/-- The INTERVAL_CLOSED notice for the newest record (R132, R133). -/
def State.noteClosed (s : State) : State :=
  match s.metering.ring with
  | h :: _ => s.notify (.intervalClosed h 0)
  | [] => s

/-- The sync window, 2,000 ms (R130). -/
def syncTime : Nat := 2000

/-- A sync window opened. -/
def State.openSync (s : State) (k : SyncKind) : State :=
  { s with metering := { s.metering with sync := some { kind := k, deadline := s.timeBase + syncTime } } }

/-- The sync window closed. -/
def State.closeSync (s : State) : State := { s with metering := { s.metering with sync := none } }

/-- INTERVAL_DEADLINE_EXPIRY (R130). With no interval in progress, during the load, nothing happens (log 3). -/
def execIntervalDeadlineExpiry (s : State) : Host.Outcome State Fault Refusal :=
  let s0 := s.begin
  match s0.metering.interval with
  | none => .next s0
  | some i => .next ((s0.closeInterval i false true).openSync .afterTimer)

/-- The UNSYNCED mark of the newest record cleared (R133). -/
def State.clearUnsynced (s : State) : State :=
  { s with metering := { s.metering with ring := match s.metering.ring with
      | h :: t => { h with unsynced := false } :: t
      | [] => [] } }

/-- A pulse while no sync window is open (R132): the interval closes on the pulse, SHORT when its deadline lies more than
2,000 ms after it. -/
def State.pulseClose (s : State) (i : Interval) : State :=
  ((s.closeInterval i (decide (s.timeBase + syncTime < i.deadline)) false).noteClosed).openSync .afterPulse

/-- SYNC_PULSE (R132, R133). With no interval in progress, during the load, nothing happens (log 3). -/
def execSyncPulse (s : State) : Host.Outcome State Fault Refusal :=
  let s0 := s.begin
  match s0.metering.sync with
  | some w =>
    match w.kind with
    | .afterTimer => .next s0.clearUnsynced.closeSync.noteClosed
    | .afterPulse =>
      .next { s0 with metering := { s0.metering with repeated := satAdd 65535 s0.metering.repeated 1 } }
  | none =>
    match s0.metering.interval with
    | none => .next s0
    | some i => .next (s0.pulseClose i)

/-- SYNC_WINDOW_EXPIRY (R133). With no window open nothing happens (log 3). -/
def execSyncWindowExpiry (s : State) : Host.Outcome State Fault Refusal :=
  let s0 := s.begin
  match s0.metering.sync with
  | none => .next s0
  | some w =>
    match w.kind with
    | .afterTimer => .next s0.closeSync.noteClosed
    | .afterPulse => .next s0.closeSync

/-! ### SET_CLOCK (R125) -/

/-- SET_CLOCK's own rule (R125). -/
def setClock (day tod : Nat) (s : State) : State × Option Answer :=
  if 6 < day ∨ dayLength ≤ tod then refuse s .outOfRange
  else
    let cal : Calendar := { day := day, tod := tod }
    answer (({ s with metering := { s.metering with calendar := some cal } }).modInterval fun i =>
      { i with deadline := deriveDeadline s.timeBase (some cal) i.length }) .ok

/-- SET_CLOCK (R125). -/
def execSetClock (rq : Req) (day tod : Nat) (s : State) : Host.Outcome State Fault Refusal :=
  .next (s.take rq .setClock (setClock day tod))

/-! ### The metering expiry (R127) -/

/-- The metering timer, 100 ms (R127). -/
def meterTime : Nat := 100

/-- P_dc in kW (R127 step 3). -/
def dcPower (iM u : Nat) : Nat := iM * u / 1000

/-- P_bill in kW (R127 step 6). -/
def billedPower (pDc eff : Nat) : Nat := min powerLimit (pDc * eff / 10000)

/-- The account of an interval after an expiry with DC power `pDc` (R127 steps 4 to 6). -/
def Interval.account (i : Interval) (pDc : Nat) : Interval :=
  let a := satAdd dcLimit i.accumulator (pDc * 100)
  { i with accumulator := a, eUsed := min energyLimit (a * i.efficiency / 10000000), peak := max i.peak pDc }

/-- Steps 1 to 6 of a metering expiry (R127). -/
def State.meterAccount (s : State) : State :=
  let iM := s.measuredCurrent
  let u := s.busVoltage
  let pDc := dcPower iM u
  let s1 := ({ s with metering := { s.metering with iM := iM, u := u } }).accrueAe iM
  let s2 := s1.modInterval fun i => i.account pDc
  { s2 with metering := { s2.metering with pDc := pDc, pBill := billedPower pDc s.efficiency } }

/-- The contract energy of an interval, D_c times L in kWs (R139). -/
def Interval.contractEnergy (i : Interval) : Nat := i.demand * (i.length * 60)

/-- The exceedance test (R139). -/
def State.exceedanceTest (s : State) : State :=
  match s.metering.interval with
  | none => s
  | some i =>
    let s1 := { s with metering := { s.metering with contract := i.contractEnergy } }
    if i.contractEnergy < i.eUsed ∧ s.metering.exceedance = false then
      (({ s1 with metering := { s1.metering with exceedance := true } }).modInterval
        fun j => { j with exceeded := true }).onset (.line .demandExceeded)
          (some (.demand i.eUsed i.contractEnergy))
    else s1

/-- D_t (R137 step 1). -/
def targetDemand (demand margin : Nat) : Nat := demand * (10000 - margin) / 10000

/-- The hold reason of an expiry whose ceiling is held (R137 step 4): where both grounds hold, the manual does not say
which is given (log 18). -/
def heldReason (byGuard byVoltage : Bool) : HoldReason :=
  match byGuard, byVoltage with
  | true, true => if Config.guardBeforeVoltage then .guard else .voltage
  | true, false => .guard
  | false, true => .voltage
  | false, false => .none

/-- The hold reason while the demand step computes nothing (R138): where both grounds hold, the manual does not say
which is given (log 18). -/
def offReason (off invalid : Bool) : HoldReason :=
  match off, invalid with
  | true, true => if Config.offBeforeNoCalendar then .off else .noCalendar
  | true, false => .off
  | false, true => .noCalendar
  | false, false => .none

/-- I_dem (R137 steps 5 to 7). -/
def demandCeiling (eAllow eUsed tRem eff u : Nat) : Nat := currentFor ((eAllow - eUsed) * 1000 / tRem) eff u

/-- The demand ceiling computed or held (R137). -/
def State.demandCompute (s : State) (i : Interval) : State :=
  let dT := targetDemand i.demand s.config.demandMargin
  let eA := dT * (i.length * 60)
  let tRem := i.deadline - s.timeBase
  let byGuard := decide (tRem ≤ s.config.guardTime)
  let byVoltage := decide (s.metering.u < voltageFloor)
  let ceiling := if byGuard || byVoltage then s.metering.ceiling
    else demandCeiling eA i.eUsed tRem i.efficiency s.metering.u
  { s with metering := { s.metering with
      dTarget := dT, eAllow := eA, ceiling := ceiling, holdReason := heldReason byGuard byVoltage } }

/-- The demand step (R137, R138). -/
def State.demandStep (s : State) : State :=
  match s.metering.interval with
  | none => s
  | some i =>
    if s.config.demandControl = true ∧ s.metering.calendar.isSome then
      let s1 := s.demandCompute i
      s1.writeClaim .demand s1.metering.ceiling
    else
      ({ s with metering := { s.metering with
        ceiling := 60000
        holdReason := offReason (!s.config.demandControl) s.metering.calendar.isNone } }).withdrawClaim .demand

/-- One metering expiry (R127). -/
def State.meteringExpiry (s : State) : State :=
  let s1 := { s with metering := { s.metering with timer := some (s.timeBase + meterTime) } }
  let s2 := s1.meterAccount.exceedanceTest.demandStep
  s2.curtailHandoff s2.metering.u s2.metering.pBill

/-- METERING_TIMER_EXPIRY (R127). With the timer stopped, during the load, nothing happens (log 3). -/
def execMeteringTimerExpiry (s : State) : Host.Outcome State Fault Refusal :=
  let s0 := s.begin
  match s0.metering.timer with
  | none => .next s0
  | some _ => .next s0.meteringExpiry

/-! ### READ_METERING (R142) -/

/-- The interval in progress as READ_METERING returns it (R142). -/
def Interval.fields (i : Interval) : List Field :=
  [fFour i.number, fTime i.start] ++ fCalendar i.startCalendar
    ++ [fOne i.length, fTwo i.efficiency, fTime i.deadline]
    ++ fOption 1 (fun w : Fin 8 => [fOne w.val]) i.window
    ++ [fPower i.demand, fOne i.priceClass, .num 6 i.accumulator, fFour i.eUsed, fPower i.peak, fFour i.aeEnergy
      , fTwo i.aeOnsets, fTwo i.breaches, .mark i.short, .mark i.exceeded, .mark i.curtailed]

/-- What READ_METERING returns (R142). The allowed and the contract energy have no stated range and take 4 bytes (R193, log
22), and the guard time and the default demand take the fewest bytes of their ranges here, though Table 11-10 gives them 4 as
configuration items (log 22). A closed sync window is a value that is not there, and one mark byte stands before the calendar
and its slot (log 21). -/
def State.meteringFields (s : State) : List Field :=
  let m := s.metering
  let c := s.config
  [fTime s.timeBase]
    ++ (match m.calendar with
        | none => [.noValue 3 6]
        | some k => [.present, fOne k.day, fFour k.tod, fOne k.slot])
    ++ (match m.interval with
        | none => []
        | some i => i.fields)
    ++ [fTwo m.iM, fTwo m.u, fPower m.pDc, fPower m.pBill, fPower m.dTarget, fFour m.eAllow, fFour m.contract
      , fTwo m.ceiling, .name m.holdReason.place, .mark m.exceedance]
    ++ (match m.sync with
        | none => [.noValue 1 5]
        | some w => [.present, .name w.kind.place, fFour (remaining s.timeBase w.deadline)])
    ++ [fTwo m.repeated, fTwo c.efficiency, fOne c.intervalLength, fTwo c.demandMargin, .num 3 c.guardTime
      , fPower c.defaultDemand, .mark c.demandControl, fOne m.ring.length]

/-- READ_METERING's own rule (R142). -/
def readMetering (s : State) : State × Option Answer := answerWith s s.meteringFields

/-- READ_METERING (R142). -/
def execReadMetering (rq : Req) (s : State) : Host.Outcome State Fault Refusal :=
  .next (s.take rq .readMetering readMetering)

/-- What a RESTART leaves of the unit (R143). -/
def Metering.restart (m : Metering) : Metering := { m with exceedance := false }

end Sys2Proof.Machine
end

