-- ==== Sys2Proof/Machine/Scan.lean ====
section
/-! DEFINITION. The pot table and the scan receiver (chapter 5): samples, markers, staleness, the band test, cut-out and
cut-in, and the reads. -/

namespace Sys2Proof.Machine

/-! ### The stale count and SCAN_STALE (R92) -/

/-- The stale count recomputed (R92). -/
def State.recount (s : State) : State := { s with scan := { s.scan with staleCount := s.countStale } }

/-- The SCAN_STALE condition evaluated, while the armed mark is set (R92). -/
def State.evaluateStale (s : State) : State :=
  if s.scan.armed then
    let present := decide (s.config.staleLimit < s.scan.staleCount)
    ({ s with scan := { s.scan with scanStale := present } }).conditionChange (.line .scanStale) s.scan.scanStale
      present (some (.scanStale s.scan.staleCount))
  else s

/-- The stale count recomputed and SCAN_STALE evaluated. -/
def State.restale (s : State) : State := s.recount.evaluateStale

/-! ### The band test (R93, R94) -/

/-- The voltage check passes (R93). -/
def BandSet.voltagePasses (b : BandSet) (p : Pot) : Bool := decide (b.low ≤ p.last) && decide (p.last ≤ b.high)

/-- The swing check passes (R93). -/
def BandSet.swingPasses (b : BandSet) (p : Pot) : Bool := decide (p.swing ≤ b.swing)

/-- A pot is in band: every check that is ON passes (R93). -/
def BandSet.passes (b : BandSet) (p : Pot) : Bool :=
  (!b.voltageCheck || b.voltagePasses p) && (!b.swingCheck || b.swingPasses p)

/-- The band test of a pot (R94): POT_WATCH on leaving the band, and nothing on a return. -/
def State.bandTest (s : State) (i : Nat) : State :=
  let p := s.pot i
  let b := s.config.band
  match p.band, b.passes p with
  | .inBand, false =>
    (s.modPot i fun q => { q with band := .outOfBand }).notify
      (.potWatch i (s.place i).1 (s.place i).2 p.last p.swing (b.voltageCheck && !b.voltagePasses p)
        (b.swingCheck && !b.swingPasses p))
  | .outOfBand, true => s.modPot i fun q => { q with band := .inBand }
  | .inBand, true => s
  | .outOfBand, false => s

/-! ### Samples (R89 to R91) -/

/-- The absolute difference of two samples. -/
def distance (a b : Nat) : Nat := (a - b) + (b - a)

/-- Step 1 of R90: a sample stored, `fresh` when the entry was not stale. -/
def Pot.store (p : Pot) (voltage stamp : Nat) (fresh : Bool) : Pot :=
  if fresh then { p with previous := p.last, last := voltage, swing := distance voltage p.last, stamp := stamp }
  else { p with previous := voltage, last := voltage, swing := 0, stamp := stamp }

/-- A sample for a pot in IN_CIRCUIT (R90): stored, counted for staleness, band-tested and handed to the anode-effect
unit, in that order. -/
def State.sampleInCircuit (s : State) (i voltage : Nat) : State :=
  let p := s.pot i
  let s1 := s.modPot i fun q => { q.store voltage s.scan.stamp (!p.stale) with stale := false }
  let s2 := if p.stale then s1.restale else s1
  (s2.bandTest i).evaluateAe i

/-- A sample for a pot in CUT_OUT: stored as though the entry were not stale (R91). -/
def State.sampleCutOut (s : State) (i voltage : Nat) : State :=
  s.modPot i fun q => q.store voltage s.scan.stamp true

/-- The pot a scan address names, or none for a misaddressed sample (R89, Table 11-8 note 2). -/
def State.resolve (s : State) (sectionNo position : Nat) : Option Nat :=
  if h : sectionNo < 4 then
    let d := s.config.sections.get ⟨sectionNo, h⟩
    if position < d.length then some (d.origin + position) else none
  else none

/-- A valid sample frame (R89); a voltage saturates at the end of its range (00_scope.md 4.2). -/
def State.sample (s : State) (sectionNo position voltage : Nat) : State :=
  match s.resolve sectionNo position with
  | none => { s with scan := { s.scan with addressFlag := true, lastBadAddress := some (sectionNo, position) } }
  | some i =>
    let v := min voltage 65535
    match (s.pot i).circuit with
    | .inCircuit => s.sampleInCircuit i v
    | .cutOut => s.sampleCutOut i v

/-- SAMPLE_FRAME (R89 to R91). During the load every frame is discarded (R190). -/
def execSampleFrame (sectionNo position voltage : Nat) (s : State) : Host.Outcome State Fault Refusal :=
  let s0 := s.begin
  if s0.loading then .next s0 else .next (s0.sample sectionNo position voltage)

/-- SCAN_FRAME_BAD (R86). During the load every frame is discarded and sets no flag (R190). -/
def execScanFrameBad (s : State) : Host.Outcome State Fault Refusal :=
  let s0 := s.begin
  if s0.loading then .next s0 else .next { s0 with scan := { s0.scan with checkFlag := true } }

/-! ### Markers (R87, R88) -/

/-- The marker timer, 2 s (R87). -/
def markerTime : Nat := 2000

/-- The age of a stamp: taken modulo 64 (R87). -/
def ageOf (current stamp : Nat) : Nat := (current + 64 - stamp) % 64

/-- The entries that `old` picks among the mapped in-circuit ones become stale. -/
def State.ageOut (s : State) (old : Pot → Bool) : State :=
  { s with pots := s.pots.mapIdx fun i p =>
      if s.mapped i && p.circuit == .inCircuit && old p then { p with stale := true } else p }

/-- The armed mark set by the first marker or marker-timer expiry after a reset (R92). -/
def State.arm (s : State) : State := { s with scan := { s.scan with armed := true } }

/-- A valid cycle marker (R87). -/
def State.marker (s : State) : State :=
  let stamp := (s.scan.stamp + 1) % 64
  let s1 := { s with scan := { s.scan with
    cycleCount := satAdd 4294967295 s.scan.cycleCount 1
    stamp := stamp
    markerTimer := some (s.timeBase + markerTime)
    timeoutMark := false } }
  (s1.ageOut fun p => decide (4 ≤ ageOf stamp p.stamp)).arm.restale

/-- CYCLE_MARKER (R87). During the load every frame is discarded (R190). -/
def execCycleMarker (s : State) : Host.Outcome State Fault Refusal :=
  let s0 := s.begin
  if s0.loading then .next s0 else .next s0.marker

/-- The expiry of the marker timer (R88). -/
def State.markerTimeout (s : State) : State :=
  let s1 := { s with scan := { s.scan with markerTimer := some (s.timeBase + markerTime), timeoutMark := true } }
  (s1.ageOut fun _ => true).arm.restale

/-- MARKER_TIMER_EXPIRY (R88). With the timer stopped nothing happens (log 3). -/
def execMarkerTimerExpiry (s : State) : Host.Outcome State Fault Refusal :=
  let s0 := s.begin
  match s0.scan.markerTimer with
  | none => .next s0
  | some _ => .next s0.markerTimeout

/-! ### Cut-out and cut-in (R96, R97) -/

/-- A cut-out accepted (R96): the circuit and its marks, the end of the pot's anode effect, the AE fields, and the
stale count without the pot. -/
def State.cutOut (s : State) (i : Nat) : State :=
  let s1 := s.modPot i fun p => { p with circuit := .cutOut, stale := true, band := .inBand }
  ((s1.endAe i .cutOut).setAe i .normal 0).restale

/-- A cut-in accepted (R97). -/
def State.cutIn (s : State) (i : Nat) : State :=
  (s.modPot i fun p =>
    { p with circuit := .inCircuit, stale := true, band := .inBand, aeState := .normal, run := 0 }).restale

/-- The tests that CUT_OUT_POT and CUT_IN_POT share (R96, R97): `goal` is the circuit asked for. -/
def switchPot (goal : Circuit) (apply : State → Nat → State) (i : Nat) (s : State) : State × Option Answer :=
  if 399 < i then refuse s .outOfRange
  else if ¬ s.mapped i then refuse s .notFound
  else if (s.pot i).circuit = goal then answer s .ok
  else if ¬ s.interlockOpen then (s, some ⟨.tooHigh, [fFour s.interlockCurrent]⟩)
  else answer (apply s i) .ok

/-- CUT_OUT_POT (R96). -/
def execCutOutPot (rq : Req) (index : Nat) (s : State) : Host.Outcome State Fault Refusal :=
  .next (s.take rq .cutOutPot (switchPot .cutOut State.cutOut index))

/-- CUT_IN_POT (R97). -/
def execCutInPot (rq : Req) (index : Nat) (s : State) : Host.Outcome State Fault Refusal :=
  .next (s.take rq .cutInPot (switchPot .inCircuit State.cutIn index))

/-! ### Section writes (R83, R84) -/

/-- Two sections cover a common index. -/
def SectionDescriptor.overlaps (a b : SectionDescriptor) : Bool :=
  decide (0 < a.length) && decide (0 < b.length) && decide (a.origin < b.origin + b.length)
    && decide (b.origin < a.origin + a.length)

/-- The entries after a write of the section descriptors: an index whose mapped mark changes takes the fresh entry
(R84). -/
def remapPots (old new : Four SectionDescriptor) (pots : List Pot) : List Pot :=
  pots.mapIdx fun i p => if (locateIn old i).isSome = (locateIn new i).isSome then p else freshPot

/-- Test 4 of R83: some index whose pot has an anode effect in progress would be unmapped or moved. -/
def State.movesAe (s : State) (new : Four SectionDescriptor) : Bool :=
  (List.range potCount).any fun i =>
    ((s.pot i).aeState != .normal || (s.pot i).unlisted)
      && (locateIn s.config.sections i).isSome
      && locateIn new i != locateIn s.config.sections i

/-! ### Reading and resetting (R98, R99) -/

/-- Every field of a pot entry, as READ_POT and the POTS cursor return it (R98). That the section and the position share one
mark byte, and that the age stands last, is the model's choice (log 21). -/
def State.potFields (s : State) (i : Nat) : List Field :=
  let p := s.pot i
  [.mark (s.mapped i)]
    ++ fOption 2 (fun a : Nat × Nat => [fOne a.1, fOne a.2]) (locateIn s.config.sections i)
    ++ [.name p.circuit.place, fTwo p.last, fTwo p.previous, fTwo p.swing, fOne p.stamp, .mark p.stale
      , .name p.band.place, .name p.aeState.place, fOne p.run, .mark p.unlisted, fTwo p.aeCount
      , fTime p.lastOnset]
    ++ fOption 1 (fun a : Nat => [fOne a]) (if p.stale then none else some (ageOf s.scan.stamp p.stamp))

/-- READ_POT's own rule (R98). -/
def readPot (i : Nat) (s : State) : State × Option Answer :=
  if 399 < i then refuse s .outOfRange else answerWith s (s.potFields i)

/-- READ_POT (R98). -/
def execReadPot (rq : Req) (index : Nat) (s : State) : Host.Outcome State Fault Refusal :=
  .next (s.take rq .readPot (readPot index))

/-- READ_SCAN_STATUS's own rule (R98): the check flag and the address flag are cleared when the answer has been
formed. The marker timer runs at all times once the store has loaded (R88). -/
def readScanStatus (s : State) : State × Option Answer :=
  let c := s.scan
  answerWith { s with scan := { s.scan with checkFlag := false, addressFlag := false } }
    ([fFour c.cycleCount, fOne c.stamp, .mark c.timeoutMark, fFour (remaining s.timeBase (c.markerTimer.getD 0))
      , fTwo c.staleCount, fTwo s.config.staleLimit, .mark c.armed, .mark c.scanStale, .mark c.checkFlag
        , .mark c.addressFlag]
      ++ fOption 2 (fun a : Nat × Nat => [fOne a.1, fOne a.2]) c.lastBadAddress
      ++ (s.config.sections.toList.flatMap fun d => [fTwo d.origin, fOne d.length])
      ++ [fTwo s.config.switchingLimit, fFour s.interlockCurrent])

/-- READ_SCAN_STATUS (R98). -/
def execReadScanStatus (rq : Req) (s : State) : Host.Outcome State Fault Refusal :=
  .next (s.take rq .readScanStatus readScanStatus)

/-- The pots after a RESTART (R99): every AE state NORMAL and every unlisted mark clear. -/
def restartPots (pots : List Pot) : List Pot :=
  pots.map fun p => { p with aeState := .normal, run := 0, unlisted := false }

/-- The scan receiver after a RESTART (R99), before the stale count is recomputed. -/
def Scan.restart (c : Scan) (now : Nat) : Scan :=
  { c with
    markerTimer := some (now + markerTime)
    armed := false
    scanStale := false
    checkFlag := false
    addressFlag := false
    lastBadAddress := none }

end Sys2Proof.Machine
end

