-- ==== Sys2Proof/Machine/ConfigStore.lean ====
section
/-! DEFINITION. The configuration store: WRITE_CONFIG with every item's own rule, READ_CONFIG, SAVE_CONFIG and
SAVE_COMPLETE (R187 to R189). -/

namespace Sys2Proof.Machine

/-! ### Items (Tables 11-4 and 11-10) -/

/-- The number of indices an item has (Table 11-10): an item with no index takes index 0 (R193). None for a code that
the table does not give. -/
def itemIndices (code : Nat) : Option Nat :=
  if code = 0 ∨ 40 < code then none
  else if 7 ≤ code ∧ code ≤ 18 then some 8
  else if code = 24 then some 4
  else if code = 38 then some 8
  else if code = 40 then some 13
  else some 1

/-- Step 1 of R187 passes: a known item, with an index in its range. -/
def itemNamed (code index : Nat) : Bool :=
  match itemIndices code with
  | none => false
  | some n => decide (index < n)

/-- The role that may write an item in any line state (Table 11-4). -/
def itemRole (code : Nat) : Role :=
  if 24 ≤ code ∧ code ≤ 29 then .potline
  else if 32 ≤ code ∧ code ≤ 39 then .energy
  else .substation

/-- What an item's own rule makes of a write that has passed the generation check: a refusal, or the state with the
value in force, and whether a value was clamped. -/
inductive ItemResult where
  | refused (code : ResultCode)
  | accepted (s : State) (clamped : Bool)
deriving DecidableEq, Repr

/-- The configuration changed by `f`. -/
def State.modConfig (s : State) (f : Configuration → Configuration) : State := { s with config := f s.config }

/-- A group's configuration items changed by `f`. -/
def State.modGroupConfig (s : State) (g : Group) (f : GroupConfig → GroupConfig) : State :=
  s.modConfig fun c => { c with groups := c.groups.set g (f (c.groups.get g)) }

/-- A group item accepted: the item's index names the group. -/
def groupItem (s : State) (index : Nat) (clamped : Bool) (f : State → Group → State) : ItemResult :=
  match groupOf index with
  | none => .refused .outOfRange
  | some g => .accepted (f s g) clamped

/-- A group item whose value is clamped to `lo` to `hi` (R9, R70). -/
def clampedGroupItem (s : State) (index lo hi v : Nat) (f : GroupConfig → Nat → GroupConfig)
    (after : State → Group → State) : ItemResult :=
  groupItem s index (clamp lo hi v != v) fun t g => after (t.modGroupConfig g fun c => f c (clamp lo hi v)) g

/-- A part-wide item whose value is clamped to `lo` to `hi`. -/
def clampedItem (s : State) (lo hi v : Nat) (f : Configuration → Nat → Configuration) : ItemResult :=
  .accepted (s.modConfig fun c => f c (clamp lo hi v)) (clamp lo hi v != v)

/-- Nothing more follows a group item's write. -/
def noEffect (s : State) (_ : Group) : State := s

/-- The floor (R35, R36): after any clamp it is refused while it is above I_cmd and the line regulates or holds. -/
def writeFloor (s : State) (v : Nat) : ItemResult :=
  let f := clamp 0 60000 v
  if s.regulates = true ∧ s.line.iCmd < f then .refused .badState
  else .accepted (s.modConfig fun c => { c with floor := f }) (f != v)

/-- The filter counts of a group (R62). -/
def writeFilterCounts (s : State) (index : Nat) (t : Twelve Nat) : ItemResult :=
  let u : Twelve Nat :=
    { status := Eight.ofFn fun i => clamp 1 25 (t.status.get i), trip := Four.ofFn fun i => clamp 1 25 (t.trip.get i) }
  groupItem s index (u != t) fun x g => x.modGroupConfig g fun c => { c with filterCounts := u }

/-- The temperatures of a derate table are strictly ascending (R71). -/
def ascending : List (Int × Nat) → Bool
  | [] => true
  | [_] => true
  | a :: b :: rest => decide (a.1 < b.1) && ascending (b :: rest)

/-- The derate table (R71, R74). -/
def writeDerate (s : State) (t : Eight (Int × Nat)) : ItemResult :=
  let u := Eight.ofFn fun i => (clampInt (-400) 1500 (t.get i).1, clamp 0 100 (t.get i).2)
  if ascending u.toList then
    .accepted ((s.modConfig fun c => { c with derate := u }).eachGroup State.rederive) (u != t)
  else .refused .outOfOrder

/-- The warn threshold (R75). -/
def writeWarn (s : State) (v : Int) : ItemResult :=
  let t := clampInt (-400) 1500 v
  if s.config.tripThreshold ≤ t then .refused .outOfOrder
  else .accepted (s.modConfig fun c => { c with warnThreshold := t }) (t != v)

/-- The trip threshold (R75). -/
def writeTrip (s : State) (v : Int) : ItemResult :=
  let t := clampInt (-400) 1500 v
  if t ≤ s.config.warnThreshold then .refused .outOfOrder
  else .accepted (s.modConfig fun c => { c with tripThreshold := t }) (t != v)

/-- The new descriptor covers an index that another enabled section covers (R83 test 3). -/
def overlapsOther (sections : Four SectionDescriptor) (k : Fin 4) (d : SectionDescriptor) : Bool :=
  allPorts.any fun j => j != k && d.overlaps (sections.get j)

/-- A section descriptor (R83, R84). -/
def writeSection (s : State) (index origin length : Nat) : ItemResult :=
  if h : index < 4 then
    let d : SectionDescriptor := { origin := origin, length := length }
    let new := s.config.sections.set ⟨index, h⟩ d
    if s.line.state ≠ some .standby then .refused .badState
    else if 399 < origin ∨ 128 < length then .refused .outOfRange
    else if 0 < length ∧ (400 < origin + length ∨ overlapsOther s.config.sections ⟨index, h⟩ d = true) then
      .refused .range
    else if s.movesAe new then .refused .badState
    else
      .accepted (({ s.modConfig fun c => { c with sections := new } with
        pots := remapPots s.config.sections new s.pots }).restale) false
  else .refused .outOfRange

/-- The pots that an accepted band set tests at once: mapped, in circuit and not stale (R94). -/
def State.bandRetest (s : State) : State :=
  (List.range potCount).foldl (fun t i =>
    if t.mapped i && (t.pot i).circuit == .inCircuit && !(t.pot i).stale then t.bandTest i else t) s

/-- The band set (R93, R94). -/
def writeBand (s : State) (b : BandSet) : ItemResult :=
  if b.high < b.low then .refused .outOfOrder
  else .accepted (s.modConfig fun c => { c with band := b }).bandRetest false

/-- The detection set (R101). -/
def writeDetection (s : State) (on off nOn nOff : Nat) : ItemResult :=
  if on ≤ off then .refused .outOfOrder
  else
    .accepted (s.modConfig fun c =>
      { c with detection := { aeOn := on, aeOff := off, nOn := clamp 1 15 nOn, nOff := clamp 1 15 nOff } })
      (clamp 1 15 nOn != nOn || clamp 1 15 nOff != nOff)

/-- The quench set (R110). -/
def writeQuench (s : State) (q : QuenchSet) : ItemResult :=
  let r : QuenchSet := { ack := clamp 1 60 q.ack, quench := clamp 10 1800 q.quench, nominal := q.nominal }
  .accepted (s.modConfig fun c => { c with quench := r }) (r != q)

/-- The headroom set (R119). -/
def writeHeadroom (s : State) (h : HeadroomSet) : ItemResult :=
  let r : HeadroomSet :=
    { uMax := clamp 0 30000 h.uMax, margin := clamp 0 5000 h.margin, hysteresis := clamp 0 2000 h.hysteresis
      step := clamp 1 5000 h.step }
  .accepted (s.modConfig fun c => { c with headroom := r }) (r != h)

/-- The interval length (R134). -/
def writeIntervalLength (s : State) (v : Nat) : ItemResult :=
  if v = 5 ∨ v = 10 ∨ v = 15 ∨ v = 30 ∨ v = 60 then
    .accepted (s.modConfig fun c => { c with intervalLength := v }) false
  else .refused .outOfRange

/-- A tariff window (R135). The eighth bit of the day mask names no day (log 30). -/
def writeWindow (s : State) (index : Nat) (enabled : Bool) (start stop : Nat) (days : BitVec 8)
    (demand priceClass : Nat) : ItemResult :=
  if h : index < 8 then
    if 95 < start ∨ 95 < stop ∨ 7 < priceClass then .refused .outOfRange
    else
      let w : TariffWindow :=
        { enabled := enabled, start := start, stop := stop, days := days.setWidth 7
          demand := clamp 0 powerLimit demand, priceClass := priceClass }
      .accepted (s.modConfig fun c => { c with windows := c.windows.set ⟨index, h⟩ w }) (w.demand != demand)
  else .refused .outOfRange

/-- The route of a place (R157). -/
def routeOf (n : Nat) : Option Route := [Route.none, .lineA, .lineB, .both][n]?

/-- The response of a place (R157). -/
def actionOf (n : Nat) : Option Action := [Action.note, .hold, .reduce, .remove, .trip][n]?

/-- A row of the action table (R157). -/
def writeAction (s : State) (index route response percent : Nat) (capture : Bool) : ItemResult :=
  match allFaultKinds[index]?, routeOf route, actionOf response with
  | some k, some r, some a =>
    if k.allows a then
      let row : ActionRow := { route := r, response := a, percent := clamp 10 100 percent, capture := capture }
      .accepted (s.modConfig fun c => { c with actions := c.actions.set k row }) (row.percent != percent)
    else .refused .outOfRange
  | _, _, _ => .refused .outOfRange

/-- The item's own rule (step 5 of R187). -/
def writeItem (s : State) (index : Nat) (item : ItemWrite) : ItemResult :=
  match item with
  | .floor v => writeFloor s v
  | .upRate v => clampedItem s 1 5000 v fun c n => { c with upRate := n }
  | .downRate v => clampedItem s 1 5000 v fun c n => { c with downRate := n }
  | .startRate v => clampedItem s 1 5000 v fun c n => { c with startRate := n }
  | .stopRate v => clampedItem s 1 5000 v fun c n => { c with stopRate := n }
  | .holdOnAe b => .accepted (s.modConfig fun c => { c with holdOnAe := b }) false
  | .rating v => clampedGroupItem s index 1 12000 v (fun c n => { c with rating := n }) State.recool
  | .weight v => clampedGroupItem s index 1 15 v (fun c n => { c with weight := n }) noEffect
  | .resolution v => clampedGroupItem s index 1 100 v (fun c n => { c with resolution := n }) noEffect
  | .joinRate v => clampedGroupItem s index 1 5000 v (fun c n => { c with joinRate := n }) noEffect
  | .leaveRate v => clampedGroupItem s index 1 5000 v (fun c n => { c with leaveRate := n }) noEffect
  | .trackingTolerance v => clampedGroupItem s index 10 12000 v (fun c n => { c with tolerance := n }) noEffect
  | .filterCounts t => writeFilterCounts s index t
  | .expectedPattern e =>
    groupItem s index false fun t g => (t.modGroupConfig g fun c => { c with expected := e }).retestPattern g
  | .enableMask m =>
    groupItem s index false fun t g => (t.modGroupConfig g fun c => { c with enabled := m }).retestPattern g
  | .tripMask m =>
    groupItem s index false fun t g =>
      (t.modGroupConfig g fun c => { c with tripMask := m.setWidth 4 }).protectionTest g
  | .lossFraction v => clampedGroupItem s index 0 100 v (fun c n => { c with lossFraction := n }) State.recool
  | .pumpGrace v => clampedGroupItem s index 1 300 v (fun c n => { c with graceTime := n }) noEffect
  | .derateTable t => writeDerate s t
  | .derateHysteresis v => clampedItem s 0 200 v fun c n => { c with derateHysteresis := n }
  | .warnThreshold v => writeWarn s v
  | .tripThreshold v => writeTrip s v
  | .alarmHysteresis v => clampedItem s 0 200 v fun c n => { c with alarmHysteresis := n }
  | .sectionDescriptor o l => writeSection s index o l
  | .bandSet lo hi sw vc sc =>
    writeBand s { low := lo, high := hi, swing := sw, voltageCheck := vc, swingCheck := sc }
  | .staleLimit v =>
    .accepted (s.modConfig fun c => { c with staleLimit := clamp 0 400 v }).evaluateStale (clamp 0 400 v != v)
  | .switchingLimit v => clampedItem s 0 60000 v fun c n => { c with switchingLimit := n }
  | .detectionSet on off a b => writeDetection s on off a b
  | .quenchSet a q n => writeQuench s { ack := a, quench := q, nominal := n }
  | .aeCapture b => .accepted (s.modConfig fun c => { c with aeCapture := b }) false
  | .headroomSet u m h st => writeHeadroom s { uMax := u, margin := m, hysteresis := h, step := st }
  | .efficiency v => clampedItem s 10000 11500 v fun c n => { c with efficiency := n }
  | .intervalLength v => writeIntervalLength s v
  | .demandMargin v => clampedItem s 0 1000 v fun c n => { c with demandMargin := n }
  | .guardTime v => clampedItem s 0 300000 v fun c n => { c with guardTime := n }
  | .defaultDemand v => clampedItem s 0 powerLimit v fun c n => { c with defaultDemand := n }
  | .demandControl b => .accepted (s.modConfig fun c => { c with demandControl := b }) false
  | .tariffWindow en a b days d cl => writeWindow s index en a b days d cl
  | .curtailGrace v => clampedItem s 0 3600 v fun c n => { c with curtailGrace := n }
  | .actionRow r a pct cap => writeAction s index r a pct cap
  | .unknown _ => .refused .outOfRange

/-! ### WRITE_CONFIG and READ_CONFIG (R187, R188) -/

/-- The generation incremented, 65,535 being followed by 0, and CONFIG_CHANGED placed (R187). -/
def State.bumpGeneration (s : State) (code index : Nat) (p : Port) : State :=
  let n := (s.store.generation + 1) % 65536
  ({ s with store := { s.store with generation := n } }).notify (.configChanged code index n p)

/-- Steps 2 and 3 of R187: the role's right to the item, as a refusal or none. -/
def roleRefusal (role : Role) (code : Nat) (line : Option LineState) : Option ResultCode :=
  if role = itemRole code then none
  else if role ≠ .service then some .notPermitted
  else if line ≠ some .standby then some .badState
  else none

/-- WRITE_CONFIG's own rule (R187). -/
def writeConfig (p : Port) (index expected : Nat) (item : ItemWrite) (s : State) : State × Option Answer :=
  if ¬ itemNamed item.code index then refuse s .outOfRange
  else
    match roleRefusal (s.role p) item.code s.line.state with
    | some c => refuse s c
    | none =>
      if expected ≠ s.store.generation then refuse s .staleGeneration
      else
        match writeItem s index item with
        | .refused c => refuse s c
        | .accepted s1 clamped =>
          let s2 := s1.bumpGeneration item.code index p
          (s2, some ⟨okOrClamped clamped, [fTwo s2.store.generation]⟩)

/-- WRITE_CONFIG (R187). The length it requires depends on the item (R193). -/
def execWriteConfig (rq : Req) (index expected : Nat) (item : ItemWrite) (s : State) :
    Host.Outcome State Fault Refusal :=
  .next (s.takeRequest rq .writeConfig ((itemLength item.code).map (4 + ·)) (writeConfig rq.port index expected item))

/-- The value in force of a group's item, by code (Table 11-10). -/
def groupItemFields (c : GroupConfig) (code : Nat) : List Field :=
  match code with
  | 7 => [fTwo c.rating]
  | 8 => [fOne c.weight]
  | 9 => [fOne c.resolution]
  | 10 => [fTwo c.joinRate]
  | 11 => [fTwo c.leaveRate]
  | 12 => [fTwo c.tolerance]
  | 13 => c.filterCounts.toList.map fOne
  | 14 => [.bits c.expected.toNat]
  | 15 => [.bits c.enabled.toNat]
  | 16 => [.bits c.tripMask.toNat]
  | 17 => [fOne c.lossFraction]
  | 18 => [fTwo c.graceTime]
  | _ => []

/-- The band set (R93). -/
def BandSet.fields (b : BandSet) : List Field :=
  [fTwo b.low, fTwo b.high, fTwo b.swing, .mark b.voltageCheck, .mark b.swingCheck]

/-- A tariff window (R135). -/
def TariffWindow.fields (w : TariffWindow) : List Field :=
  [.mark w.enabled, fOne w.start, fOne w.stop, .bits w.days.toNat, fFour w.demand, fOne w.priceClass]

/-- The value in force of an item; the index has passed step 1 of R187. Its fields take the widths that Table 11-10 gives for
writing them (log 22). -/
def itemFields (c : Configuration) (code index : Nat) : List Field :=
  match code with
  | 1 => [fTwo c.floor]
  | 2 => [fTwo c.upRate]
  | 3 => [fTwo c.downRate]
  | 4 => [fTwo c.startRate]
  | 5 => [fTwo c.stopRate]
  | 6 => [.mark c.holdOnAe]
  | 19 => c.derate.toList.flatMap fun b => [.int b.1, fOne b.2]
  | 20 => [fOne c.derateHysteresis]
  | 21 => [.int c.warnThreshold]
  | 22 => [.int c.tripThreshold]
  | 23 => [fOne c.alarmHysteresis]
  | 24 => if h : index < 4 then
      [fTwo (c.sections.get ⟨index, h⟩).origin, fOne (c.sections.get ⟨index, h⟩).length] else []
  | 25 => c.band.fields
  | 26 => [fTwo c.staleLimit]
  | 27 => [fTwo c.switchingLimit]
  | 28 => c.detection.fields
  | 29 => c.quench.fields
  | 30 => [.mark c.aeCapture]
  | 31 => c.headroom.fields
  | 32 => [fTwo c.efficiency]
  | 33 => [fOne c.intervalLength]
  | 34 => [fTwo c.demandMargin]
  | 35 => [fFour c.guardTime]
  | 36 => [fFour c.defaultDemand]
  | 37 => [.mark c.demandControl]
  | 38 => if h : index < 8 then (c.windows.get ⟨index, h⟩).fields else []
  | 39 => [fTwo c.curtailGrace]
  | 40 => match allFaultKinds[index]? with
    | some k => (c.actions.get k).fields
    | none => []
  | _ => match groupOf index with
    | some g => groupItemFields (c.groups.get g) code
    | none => []

/-- READ_CONFIG's own rule (R188). -/
def readConfig (code index : Nat) (s : State) : State × Option Answer :=
  if ¬ itemNamed code index then refuse s .outOfRange
  else answerWith s (itemFields s.config code index ++ [fTwo s.store.generation])

/-- READ_CONFIG (R188). -/
def execReadConfig (rq : Req) (code index : Nat) (s : State) : Host.Outcome State Fault Refusal :=
  .next (s.take rq .readConfig (readConfig code index))

/-! ### SAVE_CONFIG (R189) -/

/-- What a save captures (R189). -/
def State.capture (s : State) : Image :=
  { config := s.config
    generation := s.store.generation
    selected := Eight.ofFn fun g => (s.group g).service.selected
    circuits := s.pots.map Pot.circuit }

/-- SAVE_CONFIG's own rule (R189). An accepted save has no answer yet: the port is SAVING, and the image has no valid
check word until the save completes. -/
def saveConfig (rq : Req) (s : State) : State × Option Answer :=
  match s.store.state with
  | .saving _ => refuse s .busy
  | .loading => refuse s .busy
  | .idle =>
    let save : Save := { port := rq.port, tag := rq.tag, contents := s.capture, start := s.timeBase }
    (({ s with store := { s.store with state := .saving save, image := none } }).modPort rq.port
      fun q => { q with request := .saving }, none)

/-- SAVE_CONFIG (R189). -/
def execSaveConfig (rq : Req) (s : State) : Host.Outcome State Fault Refusal :=
  .next (s.take rq .saveConfig (saveConfig rq))

/-- The completion of a save (R189): the image holds the captured contents, and the saving port forms its response. -/
def State.saveDone (s : State) (v : Save) : State :=
  ({ s with store := { s.store with state := .idle, image := some v.contents } }).respondOn v.port
    { tag := v.tag, kind := ReqKind.saveConfig.code, code := .ok, payload := [fTwo v.contents.generation] }

/-- SAVE_COMPLETE (R189). With no save in progress nothing happens (log 3). -/
def execSaveComplete (s : State) : Host.Outcome State Fault Refusal :=
  let s0 := s.begin
  match s0.store.state with
  | .saving v => .next (s0.saveDone v)
  | .idle => .next s0
  | .loading => .next s0

end Sys2Proof.Machine
end

