-- ==== Sys2Proof/Machine/Snapshot.lean ====
section
/-! DEFINITION. The snapshot stack's commands: SNAPSHOT_WRITE_COMPLETE, READ_FRAME, READ_STACK_STATUS, DROP_TOP and
DROP_ALL (R173 to R178). -/

namespace Sys2Proof.Machine

/-- The number of words of the frame store (R171). -/
def storeWords : Nat := 4096

/-- The used words: 4,096 less the top (10.1). -/
def SnapshotStack.used (st : SnapshotStack) : Nat := storeWords - st.top

/-- The completion of a frame's write (R175): the frame becomes the newest stacked frame, and the write of the pending
list's head starts. -/
def SnapshotStack.complete (st : SnapshotStack) (f : Frame) : SnapshotStack :=
  ({ st with frames := f :: st.frames, top := f.address, writing := none }).startNext st.waiting

/-- The SNAPSHOT_PUSHED notice of a completed frame (R175): the used words and the number of stacked frames are those
after the push. -/
def pushedNotice (f : Frame) (frames : Nat) : NoticeBody :=
  .snapshotPushed f.sequence f.contents.cause f.address f.length f.missed (storeWords - f.address) frames

/-- SNAPSHOT_WRITE_COMPLETE (R175). With no write in progress nothing happens (log 3). -/
def execSnapshotWriteComplete (s : State) : Host.Outcome State Fault Refusal :=
  let s0 := s.begin
  match s0.stack.writing with
  | none => .next s0
  | some f =>
    .next (({ s0 with stack := s0.stack.complete f }).notify (pushedNotice f (s0.stack.frames.length + 1)))

/-- Every field of Table 10-1 for one group. The measured current is a value that is absent when no valid frame has arrived
(log 21). -/
def FrameGroup.fields (g : FrameGroup) : List Field :=
  [.name g.service.place, fTwo g.order, .mark g.block] ++ fOption 2 (fun c : Nat => [fTwo c]) g.current

/-- The body of a frame (Table 10-1). -/
def FrameBody.fields (b : FrameBody) : List Field :=
  [fLineState b.lineState, fTwo b.iCmd, fTwo b.target, .name b.governing.place]
    ++ (b.claims.flatMap fun c => [.mark c.1, fTwo c.2])
    ++ [fTwo b.iM, fTwo b.u] ++ (b.groups.toList.flatMap FrameGroup.fields)
    ++ [fOne b.rotation.val, fFour b.residual, fOne b.aeCount, .mark b.aeHold, fFour b.eUsed]

/-- Every field of a frame (Table 10-1). -/
def Frame.fields (f : Frame) : List Field :=
  [fTwo f.backLink, fTwo f.sequence] ++ f.contents.cause.fields
    ++ [fTime f.contents.time, fOne f.missed, fOne f.length] ++ f.contents.body.fields
    ++ f.contents.cause.detailFields

/-- READ_FRAME's own rule (R176). -/
def readFrame (selector : FrameSelector) (s : State) : State × Option Answer :=
  match selector with
  | .top =>
    match s.stack.frames with
    | [] => refuse s .notFound
    | f :: _ => answerWith s (f.fields ++ [fTwo f.address])
  | .address a =>
    if storeWords < a then refuse s .outOfRange
    else
      match s.stack.frames.find? fun f => f.address == a with
      | none => refuse s .notFound
      | some f => answerWith s (f.fields ++ [fTwo f.address])

/-- READ_FRAME (R176). -/
def execReadFrame (rq : Req) (selector : FrameSelector) (s : State) : Host.Outcome State Fault Refusal :=
  .next (s.take rq .readFrame (readFrame selector))

/-- What READ_STACK_STATUS returns (R176). One byte says whether a write is in progress, and the sequence it was given follows
as a value that may be absent, with a mark byte of its own (log 21). -/
def SnapshotStack.statusFields (st : SnapshotStack) : List Field :=
  [fTwo st.top, fTwo st.used, fFour st.frames.length]
    ++ fOption 2 (fun f : Frame => [fTwo f.sequence]) st.frames.head?
    ++ [fTwo st.nextSequence, fOne st.missed]
    ++ [.mark st.writing.isSome] ++ fOption 2 (fun f : Frame => [fTwo f.sequence]) st.writing
    ++ [fOne st.waiting.length]

/-- READ_STACK_STATUS's own rule (R176). -/
def readStackStatus (s : State) : State × Option Answer := answerWith s s.stack.statusFields

/-- READ_STACK_STATUS (R176). -/
def execReadStackStatus (rq : Req) (s : State) : Host.Outcome State Fault Refusal :=
  .next (s.take rq .readStackStatus readStackStatus)

/-- The top frame dropped: the top takes its back link (R177). -/
def SnapshotStack.dropFrame (st : SnapshotStack) (f : Frame) (rest : List Frame) : SnapshotStack :=
  { st with frames := rest, top := f.backLink }

/-- DROP_TOP's own rule (R177). -/
def dropTop (sequence : Nat) (s : State) : State × Option Answer :=
  if 65535 < sequence then refuse s .outOfRange
  else
    match s.stack.frames, s.stack.writing with
    | [], none => refuse s .notFound
    | _, some _ => refuse s .moved
    | f :: rest, none =>
      if sequence ≠ f.sequence then refuse s .moved
      else answer { s with stack := s.stack.dropFrame f rest } .ok

/-- DROP_TOP (R177). -/
def execDropTop (rq : Req) (sequence : Nat) (s : State) : Host.Outcome State Fault Refusal :=
  .next (s.take rq .dropTop (dropTop sequence))

/-- A write in progress abandoned: the missed count grows by the count the frame carried and 1 (R178). -/
def SnapshotStack.abandon (st : SnapshotStack) : SnapshotStack :=
  match st.writing with
  | none => st
  | some f => { st.miss (f.missed + 1) with writing := none }

/-- DROP_ALL on the stack (R178): every frame dropped, the write in progress abandoned, and the write of the pending
list's head started on the empty store. -/
def SnapshotStack.dropAll (st : SnapshotStack) : SnapshotStack :=
  let st1 := { st.abandon with frames := [], top := storeWords }
  match st.writing with
  | none => st1
  | some _ => st1.startNext st.waiting

/-- DROP_ALL's own rule (R178). -/
def dropAll (s : State) : State × Option Answer := answer { s with stack := s.stack.dropAll } .ok

/-- DROP_ALL (R178). -/
def execDropAll (rq : Req) (s : State) : Host.Outcome State Fault Refusal := .next (s.take rq .dropAll dropAll)

/-- What a RESTART leaves of the stack (R179): the write abandoned, each pending frame counted as missed. -/
def SnapshotStack.restart (st : SnapshotStack) : SnapshotStack :=
  { st.abandon.miss st.waiting.length with waiting := [] }

end Sys2Proof.Machine
end

