-- ==== Sys2Proof/Machine/Reset.lean ====
section
/-! DEFINITION. The two resets: POWER_ON_RESET, CONFIG_LOAD_COMPLETE, and RESTART with what it does when its response
has been sent (R190, R191, and the reset tables of every chapter). -/

namespace Sys2Proof.Machine

/-- The adopt window, 200 ms (R22). -/
def adoptTime : Nat := 200

/-- A power-on reset (R190): the ports bound by their straps, every block at its power-on value, and the load of the
image begun. The image memory keeps what it holds; the commands that wait are the model's and are kept. -/
def powerOn (straps : Four Straps) (s : State) : State :=
  { State.reset with ports := powerOnPorts straps, store := powerOnStore s.store.image, pending := s.pending }

/-- POWER_ON_RESET (R180, R190). -/
def execPowerOnReset (straps : Four Straps) (s : State) : Host.Outcome State Fault Refusal :=
  .next (powerOn straps s)

/-! ### The load (R190) -/

/-- The contents an image gives, or the defaults of R190 where its check word fails. -/
def loadedContents : Option Image → Image
  | some i => i
  | none =>
    { config := defaultConfiguration, generation := 0, selected := Eight.fill false
      circuits := List.replicate potCount .inCircuit }

/-- The pot entries after the load: a mapped index takes its stored circuit, every other one IN_CIRCUIT (R99). -/
def loadedPots (sections : Four SectionDescriptor) (circuits : List Circuit) : List Pot :=
  (List.range potCount).map fun i =>
    { freshPot with circuit := if (locateIn sections i).isSome then circuits.getD i .inCircuit else .inCircuit }

/-- A group at the opening of the adopt window: a selected one stands in IN_SERVICE with its link timer started, every
other one in OUT (R22, R25). The items in use are those given. -/
def windowGroup (now : Nat) (selected : Bool) (tolerance resolution : Nat) : GroupRecord :=
  let r := { powerOnGroup with tolerance := tolerance, resolution := resolution }
  if selected then { r with service := .inService, linkTimer := some (now + linkTime) } else r

/-- The configuration, the selections and the circuits taken from the image or the defaults (R190). -/
def State.takeImage (s : State) : State :=
  let i := loadedContents s.store.image
  { s with
    config := i.config
    store := { s.store with
      state := .idle
      load := if s.store.image.isSome then .loaded else .defaulted
      generation := i.generation }
    groups := Eight.ofFn fun g =>
      let c := i.config.groups.get g
      windowGroup s.timeBase (i.selected.get g) c.tolerance c.resolution
    cooling := Eight.ofFn fun g => powerOnCooling (i.config.groups.get g).rating
    pots := loadedPots i.config.sections i.circuits
    line := { s.line with target := i.config.floor } }

/-- The allocation, metering and marker timers started, and the adopt window opened (R1, R22, R88, R127). -/
def State.startTimers (s : State) : State :=
  { s with
    line := { s.line with
      allocTimer := some (s.timeBase + allocTime), adoptDeadline := some (s.timeBase + adoptTime) }
    metering := { s.metering with timer := some (s.timeBase + meterTime) }
    scan := { s.scan with markerTimer := some (s.timeBase + markerTime) } }

/-- The first interval begun: number 1 (R129). -/
def State.firstInterval (s : State) : State :=
  { s with metering := { s.metering with interval := some (s.newInterval 1) } }

/-- The load done (R190): CONFIG_DEFAULTED where the image failed, the line in ADOPTING with its LINE_STATE notice, and
the first interval. -/
def State.loadDone (s : State) : State :=
  let s1 := s.takeImage
  let s2 := if s.store.image.isSome then s1 else s1.notify .configDefaulted
  ((s2.recount.startTimers).setLineState .adopting .reset).firstInterval

/-- CONFIG_LOAD_COMPLETE (R190). With no load in progress nothing happens (log 3). -/
def execConfigLoadComplete (s : State) : Host.Outcome State Fault Refusal :=
  let s0 := s.begin
  if s0.loading then .next s0.loadDone else .next s0

/-! ### RESTART (R191) -/

/-- A port after a RESTART (R191, R192). -/
def PortRecord.restart (p : PortRecord) : PortRecord :=
  { p with request := .idle, reply := none, busy := [], queue := [], overrun := false }

/-- The line after a RESTART, but for its state (R25, R42, R60). -/
def Line.restart (l : Line) (now floor : Nat) : Line :=
  { l with
    iCmd := 0
    residual := 0
    rotation := 0
    adoptDeadline := some (now + adoptTime)
    aeHold := false
    least := 0
    governing := .setpoint
    target := floor
    capacityShort := false
    record := emptyAllocRecord }

/-- Every block at its RESTART value (R25, R42, R60, R80, R99, R123, R143, R155, R170, R179, R192). -/
def State.restartBlocks (s : State) : State :=
  { s with
    line := s.line.restart s.timeBase s.config.floor
    claims := resetClaims s.timeBase
    groups := Eight.ofFn fun g =>
      let r := s.group g
      windowGroup s.timeBase r.service.selected r.tolerance r.resolution
    cooling := Eight.ofFn fun g => (s.cool g).restart (s.groupConfig g)
    pots := restartPots s.pots
    scan := s.scan.restart s.timeBase
    ae := s.ae.restart s.timeBase
    metering := s.metering.restart
    curtail := s.curtail.restart
    faults := clearFaults
    stack := s.stack.restart
    ports := Four.ofFn fun p => (s.port p).restart
    store := { s.store with state := .idle } }

/-- The restart taken (R191): the blocks, then the LINE_STATE notice of the entry to ADOPTING, which stands in the
cleared queues and gives the state in which RESTART was taken (R25 note 2). -/
def State.restart (s : State) : State :=
  let s1 := s.restartBlocks.recount
  ({ s1 with line := { s1.line with state := some .adopting } }).notify (.lineState .adopting s.line.state .reset)

/-- RESTART's own rule (R191): the restart itself is taken when the response has been sent. -/
def requestRestart (s : State) : State × Option Answer :=
  match s.store.state with
  | .saving _ => refuse s .busy
  | .loading => refuse s .busy
  | .idle => answer s .ok

/-- RESTART (R191). -/
def execRestart (rq : Req) (s : State) : Host.Outcome State Fault Refusal := .next (s.take rq .restart requestRestart)

end Sys2Proof.Machine
end

