-- ==== Sys2Proof/Machine/Ports.lean ====
section
/-! DEFINITION. The requester ports (chapter 11): bad frames and the gap timer, requests taken while busy or of an
unknown kind, RESPONSE_SENT, FETCH_NOTICES, SET_CURSOR, READ_NEXT and READ_PORT_STATUS. -/

namespace Sys2Proof.Machine

/-! ### The receiver (R181) -/

/-- The gap timer, 5 ms (R181). -/
def gapTime : Nat := 5

/-- A receiver left by a run of bytes, with its gap timer (R181). -/
def PortRecord.receive (p : PortRecord) (now : Nat) (r : Receiver) : PortRecord :=
  { p with
    receiver := r
    gapTimer := match r with
      | .hunting => none
      | .inside _ => some (now + gapTime) }

/-- A bad frame (R181): the bad-frame flag is set. -/
def PortRecord.markBad (p : PortRecord) : PortRecord := { p with badFrame := true }

/-- No valid request is among what the receiver has made of a run of bytes. -/
def onlyBad (made : List Received) : Bool := made.all fun m => m == .bad

/-- BAD_REQUEST_FRAME (R181): the bytes make a bad frame, or several, each discarded with no response, and leave the receiver
hunting or inside a further frame. Bytes that make none, or a valid request too, leave the state (logs 3 and 31). -/
def execBadRequestFrame (p : Port) (bytes : List Byte) (s : State) : Host.Outcome State Fault Refusal :=
  let s0 := s.begin
  let r := receiveBytes (s0.port p).receiver bytes
  if onlyBad r.2 ∧ r.2 ≠ [] then .next (s0.modPort p fun q => (q.receive s.timeBase r.1).markBad) else .next s0

/-- GAP_TIMER_EXPIRY (R181): the bytes leave the receiver inside a frame, and the gap timer expires there. Bytes that
do not leave it so, or that make a valid request before, leave the state (logs 3 and 31). -/
def execGapTimerExpiry (p : Port) (bytes : List Byte) (s : State) : Host.Outcome State Fault Refusal :=
  let s0 := s.begin
  let r := receiveBytes (s0.port p).receiver bytes
  if onlyBad r.2 ∧ r.1 ≠ .hunting then .next (s0.modPort p fun q => q.frameEnds.markBad) else .next s0

/-! ### Requests that are not tested (R182) -/

/-- REQUEST_WHILE_BUSY (R182): a valid request taken outside IDLE, or during the load. In IDLE after the load nothing
happens here: such a request is a request of its kind (log 3). -/
def execRequestWhileBusy (p : Port) (tag kind : Nat) (s : State) : Host.Outcome State Fault Refusal :=
  let s0 := s.arrive p
  match (s0.port p).request with
  | .answering => .next (s0.modPort p fun q => q.queueBusy tag kind)
  | .saving => .next (s0.modPort p fun q => q.queueBusy tag kind)
  | .idle => if s0.loading then .next (s0.respondOn p ⟨tag, kind, .busy, []⟩) else .next s.begin

/-- UNKNOWN_KIND_REQUEST (R182 step 1): a valid request whose kind code Table 11-9 does not give. -/
def execUnknownKindRequest (p : Port) (tag kind : Nat) (s : State) : Host.Outcome State Fault Refusal :=
  let s0 := s.arrive p
  match (s0.port p).request with
  | .answering => .next (s0.modPort p fun q => q.queueBusy tag kind)
  | .saving => .next (s0.modPort p fun q => q.queueBusy tag kind)
  | .idle => .next (s0.respondOn p ⟨tag, kind, if s0.loading then .busy else .unknownKind, []⟩)

/-! ### RESPONSE_SENT (R182, R191) -/

/-- The BUSY response of a waiting tag (R182). -/
def BusyTag.reply (b : BusyTag) : Reply := { tag := b.tag, kind := b.kind, code := .busy, payload := [] }

/-- A response is the OK answer of a RESTART. -/
def Reply.restarts (r : Reply) : Bool := r.kind == ReqKind.restart.code && r.code == .ok

/-- The response sent, then one BUSY response for each waiting tag, oldest first; the port returns to IDLE (R182). -/
def State.sendResponses (s : State) (p : Port) : State :=
  let q := s.port p
  { s.modPort p fun q => { q with request := .idle, reply := none, busy := [] } with
    out := s.out ++ (q.reply.toList ++ q.busy.map BusyTag.reply).map (Sent.response p) }

/-- RESPONSE_SENT (R182): when the response was a RESTART's OK, the restart is then taken (R191, log 9). On a port that
is not sending nothing happens (log 3). -/
def execResponseSent (p : Port) (s : State) : Host.Outcome State Fault Refusal :=
  let s0 := s.begin
  match (s0.port p).request with
  | .answering =>
    let s1 := s0.sendResponses p
    match (s0.port p).reply with
    | some r => if r.restarts then .next s1.restart else .next s1
    | none => .next s1
  | .idle => .next s0
  | .saving => .next s0

/-! ### Notices (R184) -/

/-- The greatest number of notices an answer returns (R184). -/
def fetchLimit : Nat := 8

/-- FETCH_NOTICES's own rule (R184, Table 11-6). -/
def fetchNotices (p : Port) (s : State) : State × Option Answer :=
  let q := s.port p
  let got := q.queue.take fetchLimit
  let left := q.queue.drop fetchLimit
  answerWith (s.modPort p fun r => { r with queue := left, overrun := false })
    ([.count got.length, .mark q.overrun, fOne left.length] ++ rawFields (got.flatMap Notice.bytes))

/-- FETCH_NOTICES (R184). -/
def execFetchNotices (rq : Req) (s : State) : Host.Outcome State Fault Refusal :=
  .next (s.take rq .fetchNotices (fetchNotices rq.port))

/-! ### Cursors (R185, R186) -/

/-- The target of a code (Table 11-9). -/
def targetOf (n : Nat) : Option CursorTarget := [CursorTarget.pots, .history][n]?

/-- The direction of a code (Table 11-9). -/
def directionOf (n : Nat) : Option Direction := [Direction.ascending, .descending][n]?

/-- A cursor set on port `p`. -/
def State.setCursor (s : State) (p : Port) (c : Cursor) : State := s.modPort p fun q => { q with cursor := c }

/-- SET_CURSOR's own rule (R185). -/
def setCursor (p : Port) (target position direction : Nat) (s : State) : State × Option Answer :=
  match targetOf target, directionOf direction with
  | some t, some d =>
    let c : Cursor := { target := t, position := position, direction := d, skipped := false }
    match t with
    | .pots => if 399 < position then refuse s .outOfRange else answer (s.setCursor p c) .ok
    | .history =>
      if 95 < position then refuse s .outOfRange
      else if s.metering.ring.length ≤ position then refuse s .notFound
      else answer (s.setCursor p c) .ok
  | _, _ => refuse s .outOfRange

/-- SET_CURSOR (R185). -/
def execSetCursor (rq : Req) (target position direction : Nat) (s : State) : Host.Outcome State Fault Refusal :=
  .next (s.take rq .setCursor (setCursor rq.port target position direction))

/-- The position after `i` in a direction, wrapping among `total` entries (R186). -/
def stepPosition (total : Nat) (d : Direction) (i : Nat) : Nat :=
  match d with
  | .ascending => if total ≤ i + 1 then 0 else i + 1
  | .descending => if i = 0 then total - 1 else i - 1

/-- `n` positions from `i` on, and the position after them (R186). -/
def readRun (total : Nat) (d : Direction) : (n i : Nat) → List Nat × Nat
  | 0, i => ([], i)
  | n + 1, i =>
    let r := readRun total d n (stepPosition total d i)
    (i :: r.1, r.2)

/-- The number of entries a cursor's target holds (R186). -/
def State.targetSize (s : State) : CursorTarget → Nat
  | .pots => potCount
  | .history => s.metering.ring.length

/-- One entry of a target, as READ_POT or a history record gives it (R186). -/
def State.targetFields (s : State) (t : CursorTarget) (i : Nat) : List Field :=
  match t with
  | .pots => s.potFields i
  | .history =>
    match s.metering.ring[i]? with
    | some h => h.fields
    | none => []

/-- The greatest number of entries a READ_NEXT returns (R186). -/
def readLimit : Nat := 16

/-- READ_NEXT's own rule (R186). A position takes 2 bytes for either target (log 22). -/
def readNext (p : Port) (s : State) : State × Option Answer :=
  let c := (s.port p).cursor
  let total := s.targetSize c.target
  if total = 0 then refuse s .notFound
  else
    let r := readRun total c.direction (min readLimit total) c.position
    answerWith (s.setCursor p { c with position := r.2, skipped := false })
      (fList (fun i : Nat => fTwo i :: s.targetFields c.target i) r.1 ++ [.mark c.skipped])

/-- READ_NEXT (R186). -/
def execReadNext (rq : Req) (s : State) : Host.Outcome State Fault Refusal :=
  .next (s.take rq .readNext (readNext rq.port))

/-! ### READ_PORT_STATUS (R188) -/

/-- READ_PORT_STATUS's own rule (R188): the bad-frame flag and the dropped-request count are cleared when the answer
has been formed. -/
def readPortStatus (p : Port) (s : State) : State × Option Answer :=
  let q := s.port p
  answerWith (s.modPort p fun r => { r with badFrame := false, dropped := 0 })
    [fOne p.val, .name q.role.place, .name q.request.place, fOne q.queue.length, .mark q.overrun, .mark q.badFrame
    , fOne q.dropped, .name q.cursor.target.place, fTwo q.cursor.position, .name q.cursor.direction.place
    , .mark q.cursor.skipped, fTwo s.store.generation, .name s.store.state.place]

/-- READ_PORT_STATUS (R188). -/
def execReadPortStatus (rq : Req) (s : State) : Host.Outcome State Fault Refusal :=
  .next (s.take rq .readPortStatus (readPortStatus rq.port))

end Sys2Proof.Machine
end

