-- ==== Sys2Proof/Machine/Dispatch.lean ====
section
/-! DEFINITION. One arm for each command, each a direct call of its meaning. -/

namespace Sys2Proof.Machine

/-- The effect of a command on everything but the queue of waiting commands. -/
def exec (i : Instr) (s : State) : Host.Outcome State Fault Refusal :=
  match i with
  | .powerOnReset straps => Sys2Proof.Machine.execPowerOnReset straps s
  | .configLoadComplete => Sys2Proof.Machine.execConfigLoadComplete s
  | .badRequestFrame port bytes => Sys2Proof.Machine.execBadRequestFrame port bytes s
  | .gapTimerExpiry port bytes => Sys2Proof.Machine.execGapTimerExpiry port bytes s
  | .requestWhileBusy port tag kind => Sys2Proof.Machine.execRequestWhileBusy port tag kind s
  | .responseSent port => Sys2Proof.Machine.execResponseSent port s
  | .startLine rq => Sys2Proof.Machine.execStartLine rq s
  | .stopLine rq => Sys2Proof.Machine.execStopLine rq s
  | .resetTrip rq => Sys2Proof.Machine.execResetTrip rq s
  | .setGroupService rq group mode => Sys2Proof.Machine.execSetGroupService rq group mode s
  | .restoreGroup rq group => Sys2Proof.Machine.execRestoreGroup rq group s
  | .setSetpoint rq value => Sys2Proof.Machine.execSetSetpoint rq value s
  | .setCutoutLimit rq value => Sys2Proof.Machine.execSetCutoutLimit rq value s
  | .releaseCutoutLimit rq => Sys2Proof.Machine.execReleaseCutoutLimit rq s
  | .setServiceLimit rq value => Sys2Proof.Machine.execSetServiceLimit rq value s
  | .releaseServiceLimit rq => Sys2Proof.Machine.execReleaseServiceLimit rq s
  | .cutOutPot rq index => Sys2Proof.Machine.execCutOutPot rq index s
  | .cutInPot rq index => Sys2Proof.Machine.execCutInPot rq index s
  | .quenchStarted rq id attempt => Sys2Proof.Machine.execQuenchStarted rq id attempt s
  | .quenchFailed rq id attempt => Sys2Proof.Machine.execQuenchFailed rq id attempt s
  | .setClock rq day tod => Sys2Proof.Machine.execSetClock rq day tod s
  | .postOrder rq orderTag delay duration ceiling => Sys2Proof.Machine.execPostOrder rq orderTag delay duration ceiling s
  | .cancelOrder rq orderTag => Sys2Proof.Machine.execCancelOrder rq orderTag s
  | .clearFault rq kind group => Sys2Proof.Machine.execClearFault rq kind group s
  | .dropTop rq sequence => Sys2Proof.Machine.execDropTop rq sequence s
  | .dropAll rq => Sys2Proof.Machine.execDropAll rq s
  | .saveConfig rq => Sys2Proof.Machine.execSaveConfig rq s
  | .saveComplete => Sys2Proof.Machine.execSaveComplete s
  | .restart rq => Sys2Proof.Machine.execRestart rq s
  | .writeConfig rq index expected item => Sys2Proof.Machine.execWriteConfig rq index expected item s
  | .readConfig rq code index => Sys2Proof.Machine.execReadConfig rq code index s
  | .readLineStatus rq => Sys2Proof.Machine.execReadLineStatus rq s
  | .readGroupStatus rq group => Sys2Proof.Machine.execReadGroupStatus rq group s
  | .readClaims rq => Sys2Proof.Machine.execReadClaims rq s
  | .readAllocation rq => Sys2Proof.Machine.execReadAllocation rq s
  | .readCooling rq group => Sys2Proof.Machine.execReadCooling rq group s
  | .readScanStatus rq => Sys2Proof.Machine.execReadScanStatus rq s
  | .readPot rq index => Sys2Proof.Machine.execReadPot rq index s
  | .readAeList rq => Sys2Proof.Machine.execReadAeList rq s
  | .readMetering rq => Sys2Proof.Machine.execReadMetering rq s
  | .readOrders rq => Sys2Proof.Machine.execReadOrders rq s
  | .readFaults rq => Sys2Proof.Machine.execReadFaults rq s
  | .readFault rq kind group => Sys2Proof.Machine.execReadFault rq kind group s
  | .readFrame rq selector => Sys2Proof.Machine.execReadFrame rq selector s
  | .readStackStatus rq => Sys2Proof.Machine.execReadStackStatus rq s
  | .readPortStatus rq => Sys2Proof.Machine.execReadPortStatus rq s
  | .fetchNotices rq => Sys2Proof.Machine.execFetchNotices rq s
  | .setCursor rq target position direction => Sys2Proof.Machine.execSetCursor rq target position direction s
  | .readNext rq => Sys2Proof.Machine.execReadNext rq s
  | .allocationTimerExpiry => Sys2Proof.Machine.execAllocationTimerExpiry s
  | .adoptWindowClose => Sys2Proof.Machine.execAdoptWindowClose s
  | .linkTimerExpiry g => Sys2Proof.Machine.execLinkTimerExpiry g s
  | .trackingTimerExpiry g => Sys2Proof.Machine.execTrackingTimerExpiry g s
  | .graceTimerExpiry g => Sys2Proof.Machine.execGraceTimerExpiry g s
  | .statusFrame g frame => Sys2Proof.Machine.execStatusFrame g frame s
  | .sampleFrame sectionNo position voltage => Sys2Proof.Machine.execSampleFrame sectionNo position voltage s
  | .scanFrameBad => Sys2Proof.Machine.execScanFrameBad s
  | .cycleMarker => Sys2Proof.Machine.execCycleMarker s
  | .markerTimerExpiry => Sys2Proof.Machine.execMarkerTimerExpiry s
  | .meteringTimerExpiry => Sys2Proof.Machine.execMeteringTimerExpiry s
  | .intervalDeadlineExpiry => Sys2Proof.Machine.execIntervalDeadlineExpiry s
  | .syncPulse => Sys2Proof.Machine.execSyncPulse s
  | .syncWindowExpiry => Sys2Proof.Machine.execSyncWindowExpiry s
  | .ackTimerExpiry id => Sys2Proof.Machine.execAckTimerExpiry id s
  | .quenchTimerExpiry id => Sys2Proof.Machine.execQuenchTimerExpiry id s
  | .orderStartDeadline orderTag => Sys2Proof.Machine.execOrderStartDeadline orderTag s
  | .orderEndDeadline orderTag => Sys2Proof.Machine.execOrderEndDeadline orderTag s
  | .snapshotWriteComplete => Sys2Proof.Machine.execSnapshotWriteComplete s
  | .unknownKindRequest port tag kind => Sys2Proof.Machine.execUnknownKindRequest port tag kind s

end Sys2Proof.Machine
end

