-- ==== Sys2Proof/Safety.lean ====
section
/-! DEFINITION. The terms in which statements are made: when a request is taken by its own rule, what an answer changes,
which parts of the state a command leaves, and the conditions that every step keeps. -/

namespace Sys2Proof.Machine

/-! ### Answers and frames -/

/-- A request comes to its own rule (R182): the store has loaded, its port is IDLE, the port's role holds the request,
and its payload has the length the request requires. A command that is no request is always ready. -/
def State.ready (s : State) (i : Instr) : Prop :=
  match i.request? with
  | none => True
  | some (rq, kind) =>
    s.loading = false ∧ (s.port rq.port).request = .idle ∧ requestPermits kind (s.role rq.port) = true ∧
      i.requiredLength = some rq.len

/-- The state once a request has been answered with nothing else changed: the frames of the command before are gone, the
receiver of its port hunts again with the gap timer stopped (R181), and the port is ANSWERING with the response. -/
def State.answered (s : State) (rq : Req) (kind : ReqKind) (code : ResultCode) (payload : List Field) : State :=
  { s with
    out := []
    ports := s.ports.set rq.port { s.ports.get rq.port with
      request := .answering, reply := some ⟨rq.tag, kind.code, code, payload⟩
      receiver := .hunting, gapTimer := none } }

/-- The state a request's own rule starts from (R181, R182): the frames of the command before are gone, the receiver of the port
hunts again and the port is ANSWERING. -/
def State.answering (s : State) (p : Port) : State :=
  { s with
    out := []
    ports := s.ports.set p { s.port p with request := .answering, receiver := .hunting, gapTimer := none } }

/-- A request is refused NOT_PERMITTED to every port whose role is not among these, once the store has loaded and the port
is IDLE (R182). -/
def State.refusesOthers (s : State) (rq : Req) (kind : ReqKind) (i : Instr) (roles : List Role) : Prop :=
  s.loading = false → (s.port rq.port).request = .idle → s.role rq.port ∉ roles →
    exec i s = .next (s.answered rq kind .notPermitted [])

/-- The parts of the state (00_scope.md Table 1), for saying what a command leaves. -/
inductive Part where
  | timeBase
  | config
  | line
  | claims
  | groups
  | cooling
  | pots
  | scan
  | ae
  | metering
  | curtail
  | faults
  | stack
  | ports
  | store
  | out
  | pending
deriving DecidableEq, Repr

/-- `t` has one part of `s`. -/
def State.agrees (s t : State) : Part → Prop
  | .timeBase => t.timeBase = s.timeBase
  | .config => t.config = s.config
  | .line => t.line = s.line
  | .claims => t.claims = s.claims
  | .groups => t.groups = s.groups
  | .cooling => t.cooling = s.cooling
  | .pots => t.pots = s.pots
  | .scan => t.scan = s.scan
  | .ae => t.ae = s.ae
  | .metering => t.metering = s.metering
  | .curtail => t.curtail = s.curtail
  | .faults => t.faults = s.faults
  | .stack => t.stack = s.stack
  | .ports => t.ports = s.ports
  | .store => t.store = s.store
  | .out => t.out = s.out
  | .pending => t.pending = s.pending

/-- Every part is kept but those listed. -/
def State.keepsAllBut (s t : State) (changed : List Part) : Prop := ∀ p : Part, p ∉ changed → s.agrees t p

/-- The ports of `t` are those of `s` with notices placed: only queues and overrun flags may differ. -/
def State.portsQuiet (s t : State) : Prop :=
  ∀ p : Port, ∃ (queue : List Notice) (overrun : Bool),
    t.port p = { s.port p with queue := queue, overrun := overrun }

/-- The ports of `t` are those of `s` once the request has been answered, with notices placed. -/
def State.portsAnswer (s t : State) (rq : Req) (kind : ReqKind) (code : ResultCode) (payload : List Field) : Prop :=
  (s.answered rq kind code payload).portsQuiet t

/-- A notice was placed (R183): every port whose role it goes to holds it, or has its overrun flag set. -/
def State.hears (s t : State) (body : NoticeBody) : Prop :=
  ∀ p : Port, body.goesTo (s.role p) = true →
    (⟨s.timeBase, body⟩ : Notice) ∈ (t.port p).queue ∨ (t.port p).overrun = true

/-- A condition that stood at `before` and stands at `after` was handed to the fault unit: an onset with its detail where it
became present, a departure where it became absent, and nothing where it stayed (R159, R160). -/
def State.handed (s t : State) (id : FaultId) (before after : Bool) (detail : Option Detail) : Prop :=
  (before = false → after = true →
    (t.entry id).state = .active ∧ (t.entry id).last = s.timeBase ∧ (t.entry id).detail = detail) ∧
  (before = true → after = false →
    (t.entry id).state = if (s.entry id).state = .active then .latched else (s.entry id).state) ∧
  (before = after → (t.entry id).state = (s.entry id).state ∧ (t.entry id).count = (s.entry id).count)

/-- The claims table that an expiry of the allocation timer reads: the headroom step is taken first, with the groups that
enter the allocation set at the expiry in it (R32, R120). -/
def State.expiryTable (s : State) : ClaimsTable := (s.eachGroup State.startExpiry).headroomStep.claims

/-- The bus voltage of that headroom step (R120). -/
def State.expiryVoltage (s : State) : Nat := (s.eachGroup State.startExpiry).busVoltage

/-- The write of the CURTAIL slot by R150, from the orders and the last voltage that `t` holds: withdrawn for an empty active
set, computed from the least ceiling of the set at 1,000 dV or more, and held below that. -/
def State.curtailLaid (s t : State) (efficiency : Nat) : Prop :=
  ((∀ o ∈ t.curtail.orders, o.state ≠ .active) →
    t.claims.curtail.active = false ∧ t.claims.curtail.value = s.claims.curtail.value ∧
      t.curtail.value = s.curtail.value ∧ t.curtail.holdMark = s.curtail.holdMark) ∧
  (∀ x ∈ t.curtail.orders, x.state = .active →
    (∀ o ∈ t.curtail.orders, o.state = .active → x.ceiling ≤ o.ceiling) →
    t.claims.curtail.active = true ∧
    (1000 ≤ t.curtail.lastVoltage →
      t.curtail.value = min 60000 (x.ceiling * 10000 / efficiency * 1000 / t.curtail.lastVoltage) ∧
      t.curtail.holdMark = false ∧ t.claims.curtail.value = t.curtail.value) ∧
    (t.curtail.lastVoltage < 1000 →
      t.curtail.value = s.curtail.value ∧ t.curtail.holdMark = true ∧
      t.claims.curtail.value = min 60000 s.curtail.value))

/-- What a frame holds of an onset's detail (Table 10-1 note 5): the first quantity of each detail, and 0 for an onset without
one. -/
def principalsNamed : Prop :=
  principalOf none = 0 ∧ (∀ c : Nat, principalOf (some (.linkLost c)) = c) ∧
  (∀ m : BitVec 4, principalOf (some (.protection m)) = m.toNat) ∧
  (∀ x : Int, principalOf (some (.overtemp x)) = x) ∧
  (∀ m : BitVec 8, principalOf (some (.mismatch m)) = m.toNat) ∧
  (∀ c o : Nat, principalOf (some (.tracking c o)) = c) ∧ (∀ n : Nat, principalOf (some (.capacity n)) = n) ∧
  (∀ u l : Nat, principalOf (some (.headroom u l)) = u) ∧ (∀ n : Nat, principalOf (some (.storm n)) = n) ∧
  (∀ i p : Nat, principalOf (some (.unquenched i p)) = i) ∧ (∀ n : Nat, principalOf (some (.scanStale n)) = n) ∧
  (∀ e d : Nat, principalOf (some (.demand e d)) = e) ∧
  (∀ b c tag : Nat, principalOf (some (.curtail b c tag)) = b)

/-- The fault frame that an onset with the capture flag pushes (R159 step 3, R172): the cause with the entry after step 1 and the
state before, the time base, and the body of the moment before the response; without the flag nothing is pushed. -/
def State.onsetStack (s : State) (id : FaultId) (before : EntryState) (detail : Option Detail) (e : Entry) : SnapshotStack :=
  if e.capture = true then
    s.stack.push
      { cause := .fault id before e.count e.response e.route e.reduceValue (principalOf detail), time := s.timeBase
        body := s.captureBody }
  else s.stack

/-- What an onset taken in CLEAR or LATCHED does whatever response the entry carries (R159): the entry is `e` but for the reduce
value its response gives, the frame is pushed, the lines are evaluated, FAULT_ONSET is placed with the entry as it then stands,
and nothing outside the reach of the responses changes. A TRIP at which the adopt window closes may raise
GROUP_STATE_MISMATCH onsets of its own (R22, R23), which push frames of their own. -/
def State.onsetTaken (s t : State) (id : FaultId) (before : EntryState) (detail : Option Detail) (e : Entry) : Prop :=
  t.entry id = { e with reduceValue := (t.entry id).reduceValue } ∧
  ((e.carries .trip = true → s.line.state = some .adopting →
      ∀ g : Group, (s.group g).service = .out → (s.group g).measured = 0) →
    t.stack = s.onsetStack id before detail e) ∧
  (e.carries .trip = false → ∀ j : FaultId, j ≠ id →
    t.entry j = { s.entry j with reduceValue := (t.entry j).reduceValue } ∧
    (e.carries .hold = false ∨ (s.entry j).reduceValue ≠ .pending → t.entry j = s.entry j)) ∧
  t.faults.lineA = t.faults.table.drivenA ∧ t.faults.lineB = t.faults.table.drivenB ∧
  s.hears t (.faultOnset id before e.count e.first e.last e.response e.route (t.entry id).reduceValue detail
    t.faults.lineA t.faults.lineB) ∧
  s.keepsAllBut t [.line, .claims, .groups, .cooling, .faults, .stack, .ports, .out]

/-- The groups whose order of 0 with the block flag the REMOVE of an onset sends at once (R15): in a running state the group
of the entry, where the entry carries REMOVE and the group is neither REMOVED nor in LINK_LOST. -/
def State.orderedAtRemove (s : State) (id : FaultId) (c : Carried) : List Group :=
  allGroups.filter fun g => decide (id.group? = some g ∧ c.names .remove = true ∧ s.running = true ∧
    (s.group g).service ≠ .removed ∧ (s.group g).service ≠ .linkLost)

/-- The allocation record as either reset leaves it (R60). -/
def AllocRecord.unrun (r : AllocRecord) : Prop :=
  r.time = 0 ∧ r.lineState = .standby ∧ r.iCmd = 0 ∧ r.capacity = 0 ∧ r.total = 0 ∧ r.shortfall = 0 ∧ r.passes = 0 ∧
  r.leftover = 0 ∧ r.start = none ∧ r.residual = 0 ∧ r.rotation = 0 ∧ ∀ g : Group, r.members.get g = none

/-- The FAULT slot of `t` as R164 gives it from the entries that `t` holds: withdrawn with its value kept while no ACTIVE or
LATCHED entry carrying REDUCE holds a set reduce value, and active at the least of those values otherwise. -/
def State.faultLaid (s t : State) : Prop :=
  let gives (j : FaultId) (v : Nat) : Prop :=
    (t.entry j).state ≠ .clear ∧ (t.entry j).carries .reduce = true ∧ (t.entry j).reduceValue = .set v
  ((∀ (j : FaultId) (v : Nat), ¬ gives j v) →
    t.claims.fault.active = false ∧ t.claims.fault.value = s.claims.fault.value) ∧
  (∀ (j : FaultId) (v : Nat), gives j v → (∀ (k : FaultId) (w : Nat), gives k w → v ≤ w) →
    t.claims.fault.active = true ∧ t.claims.fault.value = min 60000 v)

/-- An enabled tariff window contains the slot of a calendar position on its day (R136). -/
def TariffWindow.covers (w : TariffWindow) (c : Calendar) : Prop :=
  let slot := c.tod / 900000
  w.enabled = true ∧ w.days.getLsbD c.day = true ∧
    ((w.start ≤ w.stop ∧ w.start ≤ slot ∧ slot ≤ w.stop) ∨ (w.stop < w.start ∧ (w.start ≤ slot ∨ slot ≤ w.stop)))

/-- The deadline of an interval whose reference is the time base `now` at a calendar position (R129), saturating as a time
base (00_scope.md 4.2): the first whole multiple of its length from midnight that lies more than 2,000 ms after the position,
or its length after `now` while the calendar is INVALID. -/
def Interval.endsBy (i : Interval) (now : Nat) (calendar : Option Calendar) : Prop :=
  (calendar = none → i.deadline = min (2 ^ 40 - 1) (now + i.length * 60000)) ∧
  (∀ c : Calendar, calendar = some c → 0 < i.length →
    ∃ distance : Nat, 2000 < distance ∧ distance ≤ 2000 + i.length * 60000 ∧
      (c.tod + distance) % (i.length * 60000) = 0 ∧ i.deadline = min (2 ^ 40 - 1) (now + distance))

/-- An interval as it begins (R131 step 4), its number and its CURTAILED mark aside: the configured length and efficiency, an
empty account, the deadline, and the lowest-numbered window that contains the position, or DEFAULT (R136). -/
def Interval.begins (i : Interval) (c : Configuration) (now : Nat) (calendar : Option Calendar) : Prop :=
  i.start = now ∧ i.startCalendar = calendar ∧ i.length = c.intervalLength ∧ i.efficiency = c.efficiency ∧
  i.accumulator = 0 ∧ i.eUsed = 0 ∧ i.peak = 0 ∧ i.aeEnergy = 0 ∧ i.aeOnsets = 0 ∧ i.breaches = 0 ∧
  i.short = false ∧ i.exceeded = false ∧ i.endsBy now calendar ∧
  (∀ w : Fin 8, i.window = some w →
    i.demand = (c.windows.get w).demand ∧ i.priceClass = (c.windows.get w).priceClass ∧
    ∃ k : Calendar, calendar = some k ∧ (c.windows.get w).covers k ∧
      ∀ v : Fin 8, v.val < w.val → ¬ (c.windows.get v).covers k) ∧
  (i.window = none → i.demand = c.defaultDemand ∧ i.priceClass = 0 ∧
    ∀ (k : Calendar) (w : Fin 8), calendar = some k → ¬ (c.windows.get w).covers k)

/-- The history record of an interval closed at `now`, its SHORT and UNSYNCED marks aside (R131 step 1, R140). -/
def Interval.closesAs (i : Interval) (h : History) (now : Nat) : Prop :=
  h.number = i.number ∧ h.start = i.start ∧ h.stop = now ∧ h.startCalendar = i.startCalendar ∧ h.length = i.length ∧
  h.window = i.window ∧ h.priceClass = i.priceClass ∧ h.demand = i.demand ∧ h.billed = i.eUsed ∧ h.peak = i.peak ∧
  h.aeEnergy = i.aeEnergy ∧ h.aeOnsets = i.aeOnsets ∧ h.breaches = i.breaches ∧ h.exceeded = i.exceeded ∧
  h.curtailed = i.curtailed

/-- The ports of `t` are those of `s` after an interval close, with notices placed: each HISTORY cursor has moved by one
position, or stands at 95 with its skipped mark set where its record was dropped (R185). -/
def State.cursorsFollow (s t : State) : Prop :=
  ∀ p : Port, ∃ (queue : List Notice) (overrun : Bool),
    t.port p = { s.port p with
      queue := queue, overrun := overrun
      cursor :=
        if (s.port p).cursor.target = .pots then (s.port p).cursor
        else if (s.port p).cursor.position < 95 then
          { (s.port p).cursor with position := (s.port p).cursor.position + 1 }
        else { (s.port p).cursor with position := 95, skipped := true } }

/-- A pot is in band by the band set in force (R93): every check that is ON passes. -/
def State.inBandNow (s : State) (p : Pot) : Prop :=
  (s.config.band.voltageCheck = true → s.config.band.low ≤ p.last ∧ p.last ≤ s.config.band.high) ∧
  (s.config.band.swingCheck = true → p.swing ≤ s.config.band.swing)

/-- The POT_WATCH of a pot that leaves the band (R94): its index, section and position, last sample, swing, and the checks
that failed. -/
def State.watchNotice (s : State) (i : Nat) (p : Pot) : NoticeBody :=
  .potWatch i (s.place i).1 (s.place i).2 p.last p.swing
    (s.config.band.voltageCheck && decide (p.last < s.config.band.low ∨ s.config.band.high < p.last))
    (s.config.band.swingCheck && decide (s.config.band.swing < p.swing))

/-- What the end of pot `i`'s anode effect leaves, apart from the line it ends on (R107, R115, R116): for a listed pot its
record, with peak at least `last`, is gone and reported; for an unlisted one its overflow entry. -/
def State.aeEnded (s t : State) (i last : Nat) (reason : EndReason) : Prop :=
  (∀ r : AeRecord, s.ae.ofPot i = some r →
    (t.pot i).aeCount = min 65535 ((s.pot i).aeCount + 1) ∧ (t.pot i).lastOnset = r.original.getD r.onset ∧
    s.hears t (.aeEnd r.id i (s.place i).1 (s.place i).2 reason r.onset r.original
      (s.timeBase - r.original.getD r.onset) (max r.peak last) (r.energy / 1000) r.attempt r.exhausted r.reported) ∧
    (s.ae.overflow = [] → t.ae.list.map AeRecord.id = (s.ae.list.map AeRecord.id).filter (fun n => n != r.id)) ∧
    (∀ (o : Overflow) (os : List Overflow), s.ae.overflow = o :: os → t.ae.overflow = os)) ∧
  (∀ o : Overflow, s.ae.ofPot i = none → s.ae.overflow.find? (fun x => x.pot == i) = some o →
    t.ae.list = s.ae.list ∧ t.ae.overflow = s.ae.overflow.filter (fun x => x.pot != i) ∧
    (t.pot i).unlisted = false ∧ (t.pot i).aeCount = min 65535 ((s.pot i).aeCount + 1) ∧
    (t.pot i).lastOnset = o.onset ∧
    s.hears t (.aeEndUnlisted i (s.place i).1 (s.place i).2 reason o.onset (s.timeBase - o.onset))) ∧
  (s.ae.ofPot i = none → s.ae.overflow.find? (fun x => x.pot == i) = none → t.ae = s.ae)

/-- An item's own rule accepts the write, and all it does is to put the configuration `c` in force (R187); the answer is
OK_CLAMPED where `clamped` holds. -/
def State.setsTo (s : State) (index : Nat) (item : ItemWrite) (c : Configuration) (clamped : Prop) [Decidable clamped] :
    Prop := writeItem s index item = .accepted { s with config := c } (decide clamped)

/-- The configuration with group `g`'s items replaced. -/
def State.configWith (s : State) (g : Group) (gc : GroupConfig) : Configuration :=
  { s.config with groups := s.config.groups.set g gc }

/-- A write that puts `gc` in force and has the pattern of group `g` tested at once (R65): nothing more for an unsettled
group, and for a settled one the pattern state and the differing inputs, with the mismatch condition handed where it has
changed. -/
def State.patternRetested (s u : State) (g : Group) (gc : GroupConfig) : Prop :=
  let differ := ((s.cool g).statusBits ^^^ gc.expected) &&& gc.enabled
  let next : GroupCooling :=
    { s.cool g with pattern := if differ = 0 then .matching else .mismatching, differing := differ }
  let before := (s.cool g).pattern == .mismatching || (s.cool g).adoptionSource
  let after := differ != 0 || (s.cool g).adoptionSource
  ((s.cool g).settled = false → u = { s with config := s.configWith g gc }) ∧
  ((s.cool g).settled = true → before = after →
    u = { s with config := s.configWith g gc, cooling := s.cooling.set g next }) ∧
  ((s.cool g).settled = true →
    u.config = s.configWith g gc ∧ (u.cool g).pattern = next.pattern ∧ (u.cool g).differing = differ ∧
    s.handed u (.group .mismatch g) before after (some (.mismatch differ)) ∧
    s.keepsAllBut u [.config, .line, .claims, .groups, .cooling, .faults, .stack, .ports, .out])

/-- The trip mask's write of a group (R67): nothing more for an unsettled group, and for a settled one the protection
condition evaluated at once and handed where it has changed. -/
def State.protectionRetested (s u : State) (g : Group) (mask : BitVec 4) : Prop :=
  let gc := { s.groupConfig g with tripMask := mask }
  let active := (s.cool g).tripBits &&& mask
  ((s.cool g).settled = false → u = { s with config := s.configWith g gc }) ∧
  ((s.cool g).settled = true → (s.cool g).protection = decide (active ≠ 0) →
    u = { s with config := s.configWith g gc }) ∧
  ((s.cool g).settled = true →
    u.config = s.configWith g gc ∧ (u.cool g).protection = decide (active ≠ 0) ∧
    s.handed u (.group .protection g) (s.cool g).protection (decide (active ≠ 0)) (some (.protection active)) ∧
    s.keepsAllBut u [.config, .line, .claims, .groups, .cooling, .faults, .stack, .ports, .out])

/-- The derate of a group re-derived from its last T_out without hysteresis under `table` (R74): the highest breakpoint at or
below it, or none and 100. -/
def GroupCooling.rederived (c : GroupCooling) (table : Eight (Int × Nat)) (k : Option (Fin 8)) (p : Nat) : Prop :=
  (c.lastTemps = none → k = none ∧ p = 100) ∧
  (∀ x : Temperatures, c.lastTemps = some x →
    (k = none ∧ p = 100 ∧ ∀ i : Fin 8, x.outlet < (table.get i).1) ∨
      ∃ i : Fin 8, k = some i ∧ p = (table.get i).2 ∧ (table.get i).1 ≤ x.outlet ∧
        ∀ j : Fin 8, i.val < j.val → x.outlet < (table.get j).1)

/-- What an entry to the allocation set makes of a group's inputs and cooling (R68, R73): a settled group in NONE with both pumps
lost enters GRACE with its grace timer and the ceiling of a pump loss, and any other is kept. -/
def GroupCooling.entering (c : GroupCooling) (gc : GroupConfig) (now : Nat) : GroupCooling :=
  if c.settled = true ∧ c.pumpLoss = .none ∧ c.bothLost = true then
    { c with
      pumpLoss := .grace, graceTimer := some (now + gc.graceTime * 1000), ceiling := coolingCeiling gc c.percent .grace }
  else c

/-- What leaving the allocation set makes of them (R69, R73): GRACE ends with its timer and the ceiling recovers. -/
def GroupCooling.leaving (c : GroupCooling) (gc : GroupConfig) : GroupCooling :=
  if c.pumpLoss = .grace then
    { c with pumpLoss := .none, graceTimer := none, ceiling := coolingCeiling gc c.percent .none }
  else c

/-- The pump-loss state, the grace timer and the cooling ceiling of a group. -/
def GroupCooling.pump (c : GroupCooling) : PumpLoss × Option Nat × Nat := (c.pumpLoss, c.graceTimer, c.ceiling)

/-- Every group's GRACE follows its entry to the allocation set, with the WARNING, and its leaving of it, and is kept by a group
that stays in the set (R68, R69). -/
def State.graceFollows (s t : State) : Prop :=
  ∀ g : Group,
    (s.inSet g = false → t.inSet g = true →
      (t.cool g).pump = ((s.cool g).entering (s.groupConfig g) s.timeBase).pump ∧
      ((s.cool g).pumpLoss = .none → (t.cool g).pumpLoss = .grace →
        s.hears t (.warningPumpLoss g (s.groupConfig g).graceTime))) ∧
    (s.inSet g = true → t.inSet g = false → (t.cool g).pump = ((s.cool g).leaving (s.groupConfig g)).pump) ∧
    (s.inSet g = true → t.inSet g = true → (t.cool g).pump = (s.cool g).pump)

/-- Every group but `g` keeps its record. -/
def State.otherGroupsKept (s t : State) (g : Group) : Prop := ∀ h : Group, h ≠ g → t.group h = s.group h

/-- Every pot entry but `i` is kept. -/
def State.otherPotsKept (s t : State) (i : Nat) : Prop := ∀ j : Nat, j ≠ i → t.pot j = s.pot j

/-- The members of an allocation as chapter 3 reads them: distinct groups in ascending order, weights and resolutions of
at least 1 and ceilings of at most 12,000 (R9, R44). -/
def membersSound (a : List Member) : Prop :=
  a.Pairwise (fun x y => x.group.val < y.group.val) ∧
    ∀ m ∈ a, 1 ≤ m.weight ∧ 1 ≤ m.resolution ∧ m.ceiling ≤ 12000

/-- The members that a record holds, in ascending order of group (R59). -/
def AllocRecord.taking (r : AllocRecord) : List AllocMember := r.members.toList.filterMap id

/-- The set N of pass `k`: the members that no earlier pass has pinned (R47). -/
def AllocRecord.openIn (r : AllocRecord) (k : Nat) : List AllocMember :=
  r.taking.filter fun x => x.pinned.all fun n => decide (k ≤ n)

/-- The set P of pass `k`: the members that an earlier pass has pinned (R47). -/
def AllocRecord.fixedIn (r : AllocRecord) (k : Nat) : List AllocMember :=
  r.taking.filter fun x => x.pinned.any fun n => decide (n < k)

/-- The share that pass `k` computes for a member: floor(R * W_g / W), with R what the ceilings of P leave of T and W the
weights of N (R47 steps 1 to 3). -/
def AllocRecord.shareIn (r : AllocRecord) (k : Nat) (x : AllocMember) : Nat :=
  (r.total - ((r.fixedIn k).map AllocMember.ceiling).sum) * x.weight / ((r.openIn k).map AllocMember.weight).sum

/-- A record's shares are those of the weighted split (R47): every pass pins exactly the open members whose share of that pass
exceeds their ceiling, every pass but the last pins one at least, a pinned member's share is its ceiling, and every other
member's is its share of the last pass. -/
def AllocRecord.splitByWeight (r : AllocRecord) : Prop :=
  (∀ x ∈ r.taking,
    (x.pinned = none → x.share = r.shareIn r.passes x) ∧
    (∀ k : Nat, x.pinned = some k → 1 ≤ k ∧ k < r.passes ∧ x.share = x.ceiling) ∧
    ∀ k : Nat, 1 ≤ k → k ≤ r.passes → x ∈ r.openIn k → (x.pinned = some k ↔ x.ceiling < r.shareIn k x)) ∧
  ∀ k : Nat, 1 ≤ k → k < r.passes → ∃ x ∈ r.taking, x.pinned = some k

/-- The carry with which stage 3 comes to group `g` when it starts at `first`: the leftover and the shares of the members
visited before, less their orders (R49, R50). -/
def AllocRecord.carryAt (r : AllocRecord) (first g : Group) : Nat :=
  let before := (allGroups.filter fun h => decide ((h.val + 8 - first.val) % 8 < (g.val + 8 - first.val) % 8)).filterMap
    r.members.get
  r.leftover + (before.map AllocMember.share).sum - (before.map AllocMember.order).sum

/-- A record's orders are those of the quantization (R50): from the start group on, each member's order is its share and the
carry rounded down to its resolution, lowered to its cap. -/
def AllocRecord.quantized (r : AllocRecord) : Prop :=
  ∀ (first g : Group) (x : AllocMember), r.start = some first → r.members.get g = some x →
    x.order = min ((x.share + r.carryAt first g) / x.resolution * x.resolution) x.cap

/-! ### The conditions every step keeps -/

/-- Every row of a configuration's action table has a response that Table 9-1 allows for its kind (R157). -/
def Configuration.responsesAllowed (c : Configuration) : Prop :=
  ∀ k : FaultKind, k.allows (c.actions.get k).response = true

/-- The responses of Table 9-1 (R157, R158): in the action table in force, in the stored image, in a save in progress,
and in every fault entry that has a response, which carries the forced REMOVE exactly where its kind forces it. -/
def State.responsesAllowed (s : State) : Prop :=
  s.config.responsesAllowed ∧
  (∀ i : Image, s.store.image = some i → i.config.responsesAllowed) ∧
  (∀ v : Save, s.store.state = .saving v → v.contents.config.responsesAllowed) ∧
  ∀ id : FaultId, ∀ c : Carried, (s.entry id).response = some c →
    id.kind.allows c.configured = true ∧ c.forced = id.kind.forcesRemove

/-- The floor of a configuration is within its range (R35). -/
def Configuration.floorInRange (c : Configuration) : Prop := c.floor ≤ 60000

/-- I_cmd is at or above the floor while the line is in REGULATING or HOLD (the note after R40), every floor that can
come into force being within its range. -/
def State.floorHeld (s : State) : Prop :=
  (s.regulates = true → s.config.floor ≤ s.line.iCmd) ∧
  s.config.floorInRange ∧
  (∀ i : Image, s.store.image = some i → i.config.floorInRange) ∧
  (∀ v : Save, s.store.state = .saving v → v.contents.config.floorInRange)

/-- LINE_A and LINE_B are asserted exactly while an ACTIVE or LATCHED entry's route drives them (R167). -/
def State.linesExact (s : State) : Prop :=
  (s.faults.lineA = true ↔
    ∃ id : FaultId, ((s.entry id).state = .active ∨ (s.entry id).state = .latched) ∧
      ((s.entry id).route = .lineA ∨ (s.entry id).route = .both)) ∧
  (s.faults.lineB = true ↔
    ∃ id : FaultId, ((s.entry id).state = .active ∨ (s.entry id).state = .latched) ∧
      ((s.entry id).route = .lineB ∨ (s.entry id).route = .both))

/-- The lists stay within their sizes: queues, busy lists, the AE and recent-ends lists, the order list, the history
ring, the pending frames and the pot table (R183, R182, R100, R145, R141, R171, R82). -/
def State.listsBounded (s : State) : Prop :=
  (∀ p : Port, (s.port p).queue.length ≤ 32 ∧ (s.port p).busy.length ≤ 4) ∧
  s.ae.list.length ≤ 16 ∧ s.ae.recent.length ≤ 16 ∧ s.curtail.orders.length ≤ 4 ∧ s.metering.ring.length ≤ 96 ∧
  s.stack.waiting.length ≤ 3 ∧ s.pots.length = 400

/-- Every slot's value is within 0 to 60,000, and SETPOINT is active (R26). -/
def State.claimsInRange (s : State) : Prop :=
  (∀ k : ClaimSlot, (s.claims.get k).value ≤ 60000) ∧ s.claims.setpoint.active = true

/-- The stacked frames lie one on another from word 4,096 down to `top`: each frame's first word is `top`, its last word
is one below its back link, and the rest stands at its back link (R171, R174). -/
def framesFrom : (top : Nat) → List Frame → Prop
  | top, [] => top = 4096
  | top, f :: rest =>
    f.address = top ∧ 0 < f.length ∧ f.backLink = top + f.length ∧ f.length = f.contents.cause.length ∧
      framesFrom f.backLink rest

/-- The canonical form of the frame store (R171, R173, R174): the stacked frames fill it from the top up, a frame being
written lies just below the top, and frames wait only while one is being written. -/
def SnapshotStack.wf (st : SnapshotStack) : Prop :=
  framesFrom st.top st.frames ∧
  (∀ f : Frame, st.writing = some f →
    f.backLink = st.top ∧ f.address + f.length = st.top ∧ f.length = f.contents.cause.length) ∧
  (st.writing = none → st.waiting = [])

/-- The group timers run exactly where their rules say: the link timer in JOINING, IN_SERVICE and LEAVING (R19), the
tracking timer only in the allocation set (R21), the grace timer exactly in GRACE, and GRACE only in the allocation set
(R68, R69). -/
def State.timersAgree (s : State) : Prop :=
  ∀ g : Group,
    ((s.group g).linkTimer.isSome = (s.group g).service.member) ∧
    ((s.group g).trackingTimer.isSome = true → s.inSet g = true) ∧
    ((s.cool g).graceTimer.isSome = true ↔ (s.cool g).pumpLoss = .grace) ∧
    ((s.cool g).pumpLoss = .grace → s.inSet g = true)

/-- Outside the running states the line is at rest: I_cmd and the residual are 0, CAPACITY_SHORT is absent, and no group
is in JOINING or LEAVING (R1, R6, R46, R51). The line has no state exactly while the store loads (R190). -/
def State.restsWhenStopped (s : State) : Prop :=
  (s.line.state = none ↔ s.loading = true) ∧
  (s.running = false →
    s.line.iCmd = 0 ∧ s.line.residual = 0 ∧ s.line.capacityShort = false ∧
      ∀ g : Group, (s.group g).service ≠ .joining ∧ (s.group g).service ≠ .leaving)

/-- An entry in CLEAR holds nothing (R161), and a standing entry has the response it took (R158). -/
def State.clearEntriesEmpty (s : State) : Prop :=
  ∀ id : FaultId, ((s.entry id).state = .clear → s.entry id = clearEntry) ∧
    ((s.entry id).state ≠ .clear → (s.entry id).response.isSome = true)

/-- A condition that every step keeps. -/
def keptByStep (inv : State → Prop) : Prop := ∀ s t : State, inv s → step s = .next t → inv t

end Sys2Proof.Machine
end

