-- ==== Sys2Proof/Certificates/Slice0/Obligations.lean ====
section
/-! DEFINITION. The statements for the provers, in the order of OBLIGATIONS.json. -/

open Sys2Proof Sys2Proof.Machine

/-! ### The step -/

/-- A step with a command in front runs it on the state with the queue's rest. -/
def Obligations.StepRunsTheFrontCommand : Prop :=
  ∀ (c : Instr) (rest : List Instr) (s : State), s.pending = c :: rest → step s = exec c { s with pending := rest }

/-- On an empty queue one millisecond passes (R124; that a step on an empty queue is a millisecond is the model's choice,
log 1). -/
def Obligations.EmptyQueuePassesOneMillisecond : Prop :=
  ∀ s : State, s.pending = [] → s.timeBase < 2 ^ 40 - 1 →
    ∃ t : State, step s = .next t ∧ t.timeBase = s.timeBase + 1 ∧ t.out = [] ∧
      (s.metering.calendar = none → t.metering = s.metering) ∧
      (∀ c : Calendar, s.metering.calendar = some c → c.day ≤ 6 → c.tod < 86400000 →
        t.metering = { s.metering with
          calendar := some (if c.tod = 86399999 then ⟨(c.day + 1) % 7, 0⟩ else ⟨c.day, c.tod + 1⟩) }) ∧
      s.keepsAllBut t [.timeBase, .metering, .out]

/-! ### Requests (R182) -/

/-- Requests that do not come to their own rule (R182, R190): outside IDLE the tag joins the busy list or is dropped and
counted, during the load the answer is BUSY, without the right NOT_PERMITTED, with a wrong length OUT_OF_RANGE, and for an
unknown kind UNKNOWN_KIND; in each case nothing else changes but that the receiver of the port hunts again (R181). The kind kept
with a waiting tag and the ANSWERING state of a BUSY answer during the load are the model's choices (logs 7 and 8). -/
def Obligations.RequestsOutsideTheirOwnRule : Prop :=
  (∀ (i : Instr) (rq : Req) (kind : ReqKind) (s : State), i.request? = some (rq, kind) →
    ((s.port rq.port).request ≠ .idle →
      exec i s = .next { s with
        out := []
        ports := s.ports.set rq.port
          (if (s.port rq.port).busy.length < 4 then
            { s.port rq.port with
              busy := (s.port rq.port).busy ++ [⟨rq.tag, kind.code⟩], receiver := .hunting, gapTimer := none }
          else
            { s.port rq.port with
              dropped := min 255 ((s.port rq.port).dropped + 1), receiver := .hunting, gapTimer := none }) }) ∧
    ((s.port rq.port).request = .idle → s.loading = true → exec i s = .next (s.answered rq kind .busy [])) ∧
    ((s.port rq.port).request = .idle → s.loading = false → requestPermits kind (s.role rq.port) = false →
      exec i s = .next (s.answered rq kind .notPermitted [])) ∧
    ((s.port rq.port).request = .idle → s.loading = false → requestPermits kind (s.role rq.port) = true →
      i.requiredLength ≠ some rq.len → exec i s = .next (s.answered rq kind .outOfRange []))) ∧
  ((∀ (p : Port) (tag kind : Nat) (s : State), (s.port p).request = .idle → s.loading = false →
    exec (.unknownKindRequest p tag kind) s = .next { s with
      out := []
      ports := s.ports.set p { s.port p with
        request := .answering, reply := some ⟨tag, kind, .unknownKind, []⟩
        receiver := .hunting, gapTimer := none } }) ∧
  (∀ (p : Port) (tag kind : Nat) (s : State), (s.port p).request ≠ .idle → (s.port p).busy.length < 4 →
    exec (.requestWhileBusy p tag kind) s = .next { s with
      out := []
      ports := s.ports.set p { s.port p with
        busy := (s.port p).busy ++ [⟨tag, kind⟩], receiver := .hunting, gapTimer := none } } ∧
    exec (.unknownKindRequest p tag kind) s = exec (.requestWhileBusy p tag kind) s) ∧
  (∀ (p : Port) (tag kind : Nat) (s : State), (s.port p).request ≠ .idle → 4 ≤ (s.port p).busy.length →
    exec (.requestWhileBusy p tag kind) s = .next { s with
      out := []
      ports := s.ports.set p { s.port p with
        dropped := min 255 ((s.port p).dropped + 1), receiver := .hunting, gapTimer := none } } ∧
    exec (.unknownKindRequest p tag kind) s = exec (.requestWhileBusy p tag kind) s) ∧
  (∀ (p : Port) (tag kind : Nat) (s : State), (s.port p).request = .idle → s.loading = true →
    exec (.requestWhileBusy p tag kind) s = .next { s with
      out := []
      ports := s.ports.set p { s.port p with
        request := .answering, reply := some ⟨tag, kind, .busy, []⟩, receiver := .hunting, gapTimer := none } } ∧
    exec (.unknownKindRequest p tag kind) s = exec (.requestWhileBusy p tag kind) s))

/-- A notice goes to every port whose role Table 11-3 names: to the tail of a queue with room, and otherwise it is
discarded with the overrun flag set (R183). -/
def Obligations.NoticesJoinQueuesOrOverrun : Prop :=
  ∀ (s : State) (body : NoticeBody) (p : Port),
    (body.goesTo (s.role p) = false → (s.notify body).port p = s.port p) ∧
    (body.goesTo (s.role p) = true → (s.port p).queue.length < 32 →
      (s.notify body).port p = { s.port p with queue := (s.port p).queue ++ [⟨s.timeBase, body⟩] }) ∧
    (body.goesTo (s.role p) = true → 32 ≤ (s.port p).queue.length →
      (s.notify body).port p = { s.port p with overrun := true }) ∧
    s.keepsAllBut (s.notify body) [.ports]

/-! ### The line (chapter 1) -/

/-- START_LINE, STOP_LINE and RESET_TRIP past the tests of R182, in every line state (R2, R5, R8, Table 1-2). At an accepted
START_LINE the members enter the allocation set, so that a settled one with both pumps lost enters GRACE (R68), and nothing else
of the inputs and cooling changes. -/
def Obligations.LineRequestsMoveTheLine : Prop :=
  ((∀ (rq : Req) (s : State), s.ready (.startLine rq) →
    (s.line.state ≠ some .standby → exec (.startLine rq) s = .next (s.answered rq .startLine .badState [])) ∧
    (s.line.state = some .standby → (∀ g : Group, (s.group g).service ≠ .inService) →
      exec (.startLine rq) s = .next (s.answered rq .startLine .noGroups [])) ∧
    (s.line.state = some .standby → (∃ g : Group, (s.group g).service = .inService) →
      ∃ t : State, exec (.startLine rq) s = .next t ∧
        t.line = { s.line with state := some .starting, iCmd := 0 } ∧ t.out = [] ∧
        s.portsAnswer t rq .startLine .ok [] ∧ s.hears t (.lineState .starting (some .standby) .request) ∧
        (∀ g : Group,
          t.cool g = if t.inSet g = true then (s.cool g).entering (s.groupConfig g) s.timeBase else s.cool g) ∧
        (∀ g : Group, (s.group g).service = .inService → (s.group g).awaiting = false → t.inSet g = true) ∧
        s.graceFollows t ∧ s.keepsAllBut t [.line, .cooling, .ports, .out])) ∧
  (∀ (rq : Req) (s : State), s.ready (.stopLine rq) →
    (∀ l : LineState, s.line.state = some l → l = .starting ∨ l = .regulating ∨ l = .hold →
      ∃ t : State, exec (.stopLine rq) s = .next t ∧ t.line = { s.line with state := some .stopping } ∧ t.out = [] ∧
        s.portsAnswer t rq .stopLine .ok [] ∧ s.hears t (.lineState .stopping (some l) .request) ∧
        s.keepsAllBut t [.line, .ports, .out]) ∧
    (s.line.state = some .stopping → exec (.stopLine rq) s = .next (s.answered rq .stopLine .ok [])) ∧
    (s.line.state = some .standby ∨ s.line.state = some .tripped ∨ s.line.state = some .adopting →
      exec (.stopLine rq) s = .next (s.answered rq .stopLine .badState [])))) ∧
  (∀ (rq : Req) (s : State), s.ready (.resetTrip rq) →
    (s.line.state ≠ some .tripped → exec (.resetTrip rq) s = .next (s.answered rq .resetTrip .badState [])) ∧
    (s.line.state = some .tripped →
      (∃ (id : FaultId) (c : Carried), (s.entry id).state ≠ .clear ∧ (s.entry id).response = some c ∧
        c.configured = .trip) →
      exec (.resetTrip rq) s = .next (s.answered rq .resetTrip .conditionPresent [])) ∧
    (s.line.state = some .tripped →
      (∀ (id : FaultId) (c : Carried), (s.entry id).state ≠ .clear → (s.entry id).response = some c →
        c.configured ≠ .trip) →
      ∃ t : State, exec (.resetTrip rq) s = .next t ∧ t.line = { s.line with state := some .standby } ∧ t.out = [] ∧
        s.portsAnswer t rq .resetTrip .ok [] ∧ s.hears t (.lineState .standby (some .tripped) .request) ∧
        s.keepsAllBut t [.line, .ports, .out])) ∧
  (∀ (rq : Req) (s : State),
    s.refusesOthers rq .startLine (.startLine rq) [.substation] ∧
    s.refusesOthers rq .stopLine (.stopLine rq) [.substation] ∧
    s.refusesOthers rq .resetTrip (.resetTrip rq) [.substation])

/-- SET_GROUP_SERVICE past the tests of R182, with the group and mode tested first; in ADOPTING it is refused and in a
blocked state it only selects or deselects (R10). (The mark `awaiting` of a joining group is the model's: log 11.) -/
def Obligations.BlockedLineSelectsGroups : Prop :=
  ∀ (rq : Req) (n mode : Nat) (s : State), s.ready (.setGroupService rq n mode) →
    (7 < n ∨ 1 < mode →
      exec (.setGroupService rq n mode) s = .next (s.answered rq .setGroupService .outOfRange [])) ∧
    (∀ g : Group, n = g.val → mode ≤ 1 → s.line.state = some .adopting →
      exec (.setGroupService rq n mode) s = .next (s.answered rq .setGroupService .badState [])) ∧
    (∀ g : Group, n = g.val → s.blocked = true →
      (((s.group g).service = .removed ∨ (s.group g).service = .linkLost) → mode ≤ 1 →
        exec (.setGroupService rq n mode) s = .next (s.answered rq .setGroupService .badState [])) ∧
      ((mode = 0 ∧ (s.group g).service = .inService) ∨ (mode = 1 ∧ (s.group g).service = .out) →
        exec (.setGroupService rq n mode) s = .next (s.answered rq .setGroupService .ok [])) ∧
      (mode = 0 → (s.group g).service = .out →
        ∃ t : State, exec (.setGroupService rq n mode) s = .next t ∧
          t.group g = { s.group g with
            service := .inService, linkTimer := some (s.timeBase + 50), awaiting := false } ∧
          s.otherGroupsKept t g ∧ s.portsAnswer t rq .setGroupService .ok [] ∧
          s.hears t (.groupState g .inService .out .request) ∧ t.out = [] ∧
          s.keepsAllBut t [.groups, .ports, .out]) ∧
      (mode = 1 → (s.group g).service = .inService →
        ∃ t : State, exec (.setGroupService rq n mode) s = .next t ∧
          t.group g = { s.group g with service := .out, linkTimer := none, awaiting := false } ∧
          s.otherGroupsKept t g ∧ s.portsAnswer t rq .setGroupService .ok [] ∧
          s.hears t (.groupState g .out .inService .request) ∧ t.out = [] ∧
          s.keepsAllBut t [.groups, .ports, .out]))

/-- SET_GROUP_SERVICE in a running state starts a join or a leave: a join begins at 0 or at the leave ceiling, a leave at
the last order sent, the last selected group is not let go, and REMOVED and LINK_LOST groups refuse (R11, R12). The mark
`awaiting` of a joining group (log 11), and that a leave and a join out of a leave set the group's other ceiling to 0 (log 23),
are the model's. -/
def Obligations.RunningLineJoinsAndLeavesGroups : Prop :=
  ∀ (rq : Req) (g : Group) (s : State), s.running = true →
    (s.ready (.setGroupService rq g.val 0) →
      ((s.group g).service = .out →
        ∃ t : State, exec (.setGroupService rq g.val 0) s = .next t ∧
          t.group g = { s.group g with
            service := .joining, joinCeiling := 0, linkTimer := some (s.timeBase + 50), awaiting := true } ∧
          s.otherGroupsKept t g ∧ s.portsAnswer t rq .setGroupService .ok [] ∧
          s.hears t (.groupState g .joining .out .request) ∧ t.out = [] ∧
          s.keepsAllBut t [.groups, .ports, .out]) ∧
      ((s.group g).service = .leaving →
        ∃ t : State, exec (.setGroupService rq g.val 0) s = .next t ∧
          t.group g = { s.group g with
            service := .joining, joinCeiling := (s.group g).leaveCeiling, leaveCeiling := 0 } ∧
          s.otherGroupsKept t g ∧ s.portsAnswer t rq .setGroupService .ok [] ∧
          s.hears t (.groupState g .joining .leaving .request) ∧ t.out = [] ∧
          s.keepsAllBut t [.groups, .ports, .out]) ∧
      ((s.group g).service = .joining ∨ (s.group g).service = .inService →
        exec (.setGroupService rq g.val 0) s = .next (s.answered rq .setGroupService .ok [])) ∧
      ((s.group g).service = .removed ∨ (s.group g).service = .linkLost →
        exec (.setGroupService rq g.val 0) s = .next (s.answered rq .setGroupService .badState []))) ∧
    (s.ready (.setGroupService rq g.val 1) →
      ((s.group g).service = .joining ∨ (s.group g).service = .inService →
        (∀ h : Group, h ≠ g → (s.group h).service ≠ .joining ∧ (s.group h).service ≠ .inService) →
        exec (.setGroupService rq g.val 1) s = .next (s.answered rq .setGroupService .lastGroup [])) ∧
      ((s.group g).service = .joining ∨ (s.group g).service = .inService →
        (∃ h : Group, h ≠ g ∧ ((s.group h).service = .joining ∨ (s.group h).service = .inService)) →
        ∃ t : State, exec (.setGroupService rq g.val 1) s = .next t ∧
          t.group g = { s.group g with
            service := .leaving, leaveCeiling := (s.group g).lastOrder, joinCeiling := 0 } ∧
          s.otherGroupsKept t g ∧ s.portsAnswer t rq .setGroupService .ok [] ∧
          s.hears t (.groupState g .leaving (s.group g).service .request) ∧ t.out = [] ∧
          s.keepsAllBut t [.groups, .ports, .out]) ∧
      ((s.group g).service = .leaving ∨ (s.group g).service = .out →
        exec (.setGroupService rq g.val 1) s = .next (s.answered rq .setGroupService .ok [])) ∧
      ((s.group g).service = .removed ∨ (s.group g).service = .linkLost →
        exec (.setGroupService rq g.val 1) s = .next (s.answered rq .setGroupService .badState [])))

/-- RESTORE_GROUP (R16): BAD_STATE unless the group is REMOVED, CONDITION_PRESENT while an entry of the group that carries
REMOVE, configured or forced, is ACTIVE or LATCHED, and otherwise OUT, in every line state. -/
def Obligations.RestoreGroupReturnsToOut : Prop :=
  (∀ (rq : Req) (n : Nat) (s : State),
    s.refusesOthers rq .restoreGroup (.restoreGroup rq n) [.substation] ∧
    (s.ready (.restoreGroup rq n) → 7 < n →
      exec (.restoreGroup rq n) s = .next (s.answered rq .restoreGroup .outOfRange []))) ∧
  ∀ (rq : Req) (g : Group) (s : State), s.ready (.restoreGroup rq g.val) →
    ((s.group g).service ≠ .removed →
      exec (.restoreGroup rq g.val) s = .next (s.answered rq .restoreGroup .badState [])) ∧
    ((s.group g).service = .removed →
      (∃ (k : GroupKind) (c : Carried), (s.entry (.group k g)).state ≠ .clear ∧
        (s.entry (.group k g)).response = some c ∧ (c.configured = .remove ∨ c.forced = true)) →
      exec (.restoreGroup rq g.val) s = .next (s.answered rq .restoreGroup .conditionPresent [])) ∧
    ((s.group g).service = .removed →
      (∀ (k : GroupKind) (c : Carried), (s.entry (.group k g)).state ≠ .clear →
        (s.entry (.group k g)).response = some c → c.configured ≠ .remove ∧ c.forced = false) →
      ∃ t : State, exec (.restoreGroup rq g.val) s = .next t ∧
        t.group g = { s.group g with service := .out, linkTimer := none, awaiting := false } ∧
        s.otherGroupsKept t g ∧ s.portsAnswer t rq .restoreGroup .ok [] ∧
        s.hears t (.groupState g .out .removed .request) ∧ t.out = [] ∧
        s.keepsAllBut t [.groups, .ports, .out])

/-- The close of the adopt window (R23). With the adoption sum above 0 and at or above the floor the line is adopted at the sum;
with a sum of 0 or below the floor it comes up in STANDBY and the blocked-state orders are sent at once (R1). The first orders
of an adopted line are sent at once (R17), its members enter the allocation set with their GRACE (R68), and a sum above 60,000
saturates in I_cmd and SETPOINT (log 15). The groups are classified alike; the adopted SETPOINT has no writer (R26). A first
order is a multiple of the resolution in use (R9; log 34), and that a selected group with no valid frame stays IN_SERVICE with a
first order of 0 (log 37), and that the order frames of the eight links stand in ascending order of group (log 35), are the
model's choices. -/
def Obligations.AdoptWindowCloseAdoptsOrStandsBy : Prop :=
  (∀ (s : State) (sum : Nat), s.line.state = some .adopting →
    sum = (allGroups.map fun g =>
      if (s.group g).service = .inService then
        (s.group g).measured / (s.group g).resolution * (s.group g).resolution else 0).sum →
    0 < sum → s.config.floor ≤ sum →
    ∃ t : State, exec .adoptWindowClose s = .next t ∧
      t.line.iCmd = min 60000 sum ∧ t.line.adoptDeadline = none ∧
      t.out = allGroups.map (fun g =>
        Sent.order g (t.group g).lastOrder (t.group g).blockFlag (((s.group g).sequence + 1) % 256)) ∧
      s.graceFollows t ∧
      (t.line.state = some .regulating ∨ t.line.state = some .hold) ∧
      (t.line.state = some .hold ↔ ∃ (id : FaultId) (c : Carried), (t.entry id).state ≠ .clear ∧
        (t.entry id).response = some c ∧ c.configured = .hold) ∧
      t.claims.setpoint.active = true ∧ t.claims.setpoint.value = min 60000 sum ∧ t.claims.setpoint.writer = none ∧
      t.claims.adopted = true ∧
      ∀ g : Group,
        ((s.group g).service = .inService →
          (t.group g).service = .inService ∧ (t.group g).blockFlag = false ∧ (t.group g).lastOrder =
            (s.group g).measured / (s.group g).resolution * (s.group g).resolution) ∧
        ((s.group g).service ≠ .inService → (t.group g).blockFlag = true ∧ (t.group g).lastOrder = 0) ∧
        ((s.group g).service = .out → (s.group g).measured = 0 → (t.group g).service = .out) ∧
        ((s.group g).service = .out → 0 < (s.group g).measured →
          (t.group g).service = .removed ∧ (t.cool g).adoptionSource = true) ∧
        ((s.group g).service = .linkLost → (t.group g).service = .linkLost)) ∧
  (∀ (s : State) (sum : Nat), s.line.state = some .adopting →
    sum = (allGroups.map fun g =>
      if (s.group g).service = .inService then
        (s.group g).measured / (s.group g).resolution * (s.group g).resolution else 0).sum →
    sum = 0 ∨ sum < s.config.floor →
    ∃ t : State, exec .adoptWindowClose s = .next t ∧ t.line.state = some .standby ∧ t.line.iCmd = 0 ∧
      t.line.residual = 0 ∧ t.line.adoptDeadline = none ∧
      t.out = allGroups.map (fun g => Sent.order g 0 true (((s.group g).sequence + 1) % 256)) ∧
      ∀ g : Group, (t.group g).lastOrder = 0 ∧ (t.group g).blockFlag = true ∧
        ((s.group g).service = .inService → (t.group g).service = .inService) ∧
        ((s.group g).service = .out → 0 < (s.group g).measured → (t.group g).service = .removed) ∧
        ((s.group g).service = .out → (s.group g).measured = 0 → (t.group g).service = .out))

/-- LINK_TIMER_EXPIRY while the timer runs (R19): the group enters LINK_LOST with its ceilings 0 and its timers stopped,
the order of 0 with the block flag goes out at once outside ADOPTING, the other groups keep their records, and
GROUP_LINK_LOST becomes ACTIVE with the last measured current. A group that leaves the allocation set leaves GRACE (R69). -/
def Obligations.LinkTimerExpiryLosesTheGroup : Prop :=
  ∀ (s : State) (g : Group) (d : Nat), s.responsesAllowed → (s.group g).linkTimer = some d →
    (s.group g).service.member = true →
    ∃ t : State, exec (.linkTimerExpiry g) s = .next t ∧
      (t.group g).service = .linkLost ∧ (t.group g).joinCeiling = 0 ∧ (t.group g).leaveCeiling = 0 ∧
      (t.group g).linkTimer = none ∧ (t.group g).trackingTimer = none ∧
      (t.group g).lastFrame = (s.group g).lastFrame ∧ s.otherGroupsKept t g ∧
      (s.line.state ≠ some .adopting →
        t.out = [.order g 0 true (((s.group g).sequence + 1) % 256)] ∧ (t.group g).lastOrder = 0 ∧
          (t.group g).blockFlag = true) ∧
      (s.line.state = some .adopting → t.out = []) ∧
      (t.entry (.group .linkLost g)).state = .active ∧
      (t.entry (.group .linkLost g)).detail = some (.linkLost (s.group g).measured) ∧
      (∀ n : Fin 8, ((t.cool g).inputs.status.get n).count = 0) ∧
      (∀ n : Fin 4, ((t.cool g).inputs.trip.get n).count = 0) ∧ s.graceFollows t ∧
      s.keepsAllBut t [.line, .claims, .groups, .cooling, .faults, .stack, .ports, .out]

/-- TRACKING_TIMER_EXPIRY while the timer runs (R21): the timer stops and GROUP_TRACKING becomes ACTIVE with the measured
current and the last order sent. -/
def Obligations.TrackingTimerExpiryRaisesTracking : Prop :=
  ∀ (s : State) (g : Group) (d : Nat), s.responsesAllowed → (s.group g).trackingTimer = some d →
    ∃ t : State, exec (.trackingTimerExpiry g) s = .next t ∧
      (t.group g).trackingTimer = none ∧ (t.entry (.group .tracking g)).state = .active ∧
      (t.entry (.group .tracking g)).detail = some (.tracking (s.group g).measured (s.group g).lastOrder) ∧
      (t.entry (.group .tracking g)).last = s.timeBase ∧ t.line.iCmd = s.line.iCmd ∧ s.otherGroupsKept t g ∧
      s.keepsAllBut t [.line, .claims, .groups, .cooling, .faults, .stack, .ports, .out]

/-! ### The claims and the line target (chapter 2) -/

/-- The least active claim and the governing claim of a table whose SETPOINT is active: the value is the least that an
active slot holds, and the governing claim is the lowest-numbered active slot that holds it (R33). -/
def Obligations.GoverningClaimIsTheFirstOfLeastValue : Prop :=
  ∀ t : ClaimsTable, t.setpoint.active = true →
    (t.get t.least.1).active = true ∧ (t.get t.least.1).value = t.least.2 ∧
    ∀ k : ClaimSlot, (t.get k).active = true →
      t.least.2 ≤ (t.get k).value ∧ ((t.get k).value = t.least.2 → t.least.1.place ≤ k.place)

/-- SET_SETPOINT past the tests of R182 (R28). -/
def Obligations.SetpointTakesTheClampedValue : Prop :=
  ∀ (rq : Req) (value : Nat) (s : State),
    s.refusesOthers rq .setSetpoint (.setSetpoint rq value) [.substation] ∧
    (s.ready (.setSetpoint rq value) →
    (s.line.state = some .adopting →
      exec (.setSetpoint rq value) s = .next (s.answered rq .setSetpoint .badState [])) ∧
    (∀ l : LineState, s.line.state = some l → l ≠ .adopting →
      exec (.setSetpoint rq value) s = .next
        (({ s with claims := { s.claims with
              setpoint :=
                { active := true, value := min value 60000, writer := some rq.port
                  changed := if s.claims.setpoint.value = min value 60000 ∧ s.claims.adopted = false then
                    s.claims.setpoint.changed else s.timeBase }
              adopted := false } } : State).answered rq .setSetpoint
          (if 60000 < value then .okClamped else .ok) [])))

/-- SET and RELEASE of the CUTOUT and SERVICE slots past the tests of R182 (R29, R30). -/
def Obligations.CutoutAndServiceLimitsAreSetAndReleased : Prop :=
  ∀ (rq : Req) (value : Nat) (s : State),
    (s.ready (.setCutoutLimit rq value) →
      exec (.setCutoutLimit rq value) s = .next
        (({ s with claims := { s.claims with cutout :=
              { active := true, value := min value 60000, writer := some rq.port
                changed := if s.claims.cutout.active = true ∧ s.claims.cutout.value = min value 60000 then
                  s.claims.cutout.changed else s.timeBase } } } : State).answered rq .setCutoutLimit
          (if 60000 < value then .okClamped else .ok) [])) ∧
    (s.ready (.setServiceLimit rq value) →
      exec (.setServiceLimit rq value) s = .next
        (({ s with claims := { s.claims with service :=
              { active := true, value := min value 60000, writer := some rq.port
                changed := if s.claims.service.active = true ∧ s.claims.service.value = min value 60000 then
                  s.claims.service.changed else s.timeBase } } } : State).answered rq .setServiceLimit
          (if 60000 < value then .okClamped else .ok) [])) ∧
    (s.ready (.releaseCutoutLimit rq) →
      exec (.releaseCutoutLimit rq) s = .next
        (if s.claims.cutout.active then
          ({ s with claims := { s.claims with cutout := { s.claims.cutout with
              active := false, writer := some rq.port, changed := s.timeBase } } } : State).answered
            rq .releaseCutoutLimit .ok []
        else s.answered rq .releaseCutoutLimit .notSet [])) ∧
    (s.ready (.releaseServiceLimit rq) →
      exec (.releaseServiceLimit rq) s = .next
        (if s.claims.service.active then
          ({ s with claims := { s.claims with service := { s.claims.service with
              active := false, writer := some rq.port, changed := s.timeBase } } } : State).answered
            rq .releaseServiceLimit .ok []
        else s.answered rq .releaseServiceLimit .notSet [])) ∧
    s.refusesOthers rq .setCutoutLimit (.setCutoutLimit rq value) [.potline] ∧
    s.refusesOthers rq .releaseCutoutLimit (.releaseCutoutLimit rq) [.potline] ∧
    s.refusesOthers rq .setServiceLimit (.setServiceLimit rq value) [.service] ∧
    s.refusesOthers rq .releaseServiceLimit (.releaseServiceLimit rq) [.service]

/-- An expiry of the allocation timer in REGULATING (R32 to R34, R37 to R40): the least claim and the governing claim are those
of the table as the headroom step leaves it, the target is the greater of the floor and the least claim, the AE hold is set
exactly while the option is ON and the AE list is not empty, and I_cmd moves by the row of Table 2-3 that they give. That a
group which joins from OUT is in the allocation set when the headroom step is taken is deduced (log 11). -/
def Obligations.RegulatingRampFollowsTheTarget : Prop :=
  ∀ (s : State) (d : Nat), s.responsesAllowed → s.line.state = some .regulating → s.line.allocTimer = some d →
    ∃ t : State, exec .allocationTimerExpiry s = .next t ∧
      (t.line.governing, t.line.least) = s.expiryTable.least ∧ t.line.target = max s.config.floor t.line.least ∧
      (t.line.aeHold = true ↔ s.config.holdOnAe = true ∧ s.ae.list ≠ []) ∧
      (s.line.iCmd < t.line.target → t.line.aeHold = false →
        t.line.iCmd = s.line.iCmd + min s.config.upRate (t.line.target - s.line.iCmd)) ∧
      (s.line.iCmd < t.line.target → t.line.aeHold = true → t.line.iCmd = s.line.iCmd) ∧
      (s.line.iCmd = t.line.target → t.line.iCmd = s.line.iCmd) ∧
      (t.line.target < s.line.iCmd → t.line.governing ≠ .fault →
        t.line.iCmd = s.line.iCmd - min s.config.downRate (s.line.iCmd - t.line.target)) ∧
      (t.line.target < s.line.iCmd → t.line.governing = .fault → t.line.iCmd = t.line.target) ∧
      t.line.allocTimer = some (s.timeBase + 20)

/-- An expiry of the allocation timer in every line state derives the least claim, the governing claim, the target and the AE
hold (R32 to R34, R38). Outside REGULATING (R1, R3, R4, R6): in HOLD I_cmd is frozen, in STARTING it rises by
the start rate until it is at or above the floor, in STOPPING it falls by the stop rate until it is 0 and the line is in
STANDBY with every group blocked and a present CAPACITY_SHORT departed (R46), in a blocked state each group is sent 0 with the
block flag and nothing else moves, and in ADOPTING no order is sent (R22). At the entry to STANDBY every group leaves the
allocation set, and GRACE with it (R69). That a group which joins from OUT is in the allocation set when the headroom step is
taken is deduced (log 11); that the order frames of the eight links stand in ascending order of group is the model's choice
(log 35). -/
def Obligations.OwnStepsOfTheOtherStates : Prop :=
  (∀ (s : State) (d : Nat), s.responsesAllowed → s.line.allocTimer = some d →
    ∃ t : State, exec .allocationTimerExpiry s = .next t ∧
      (t.line.governing, t.line.least) = s.expiryTable.least ∧ t.line.target = max s.config.floor t.line.least ∧
      (t.line.aeHold = true ↔ s.config.holdOnAe = true ∧ s.ae.list ≠ []) ∧
      t.line.allocTimer = some (s.timeBase + 20) ∧
      (s.line.state = some .adopting →
        t.out = [] ∧ t.line.state = some .adopting ∧ t.line.iCmd = s.line.iCmd ∧ t.line.record = s.line.record ∧
        ∀ g : Group, (t.group g).lastOrder = (s.group g).lastOrder ∧ (t.group g).blockFlag = (s.group g).blockFlag ∧
          (t.group g).sequence = (s.group g).sequence)) ∧
  (∀ (s : State) (d : Nat), s.responsesAllowed → s.line.allocTimer = some d →
    (s.line.state = some .hold →
      ∃ t : State, exec .allocationTimerExpiry s = .next t ∧ t.line.iCmd = s.line.iCmd ∧ t.line.state = some .hold) ∧
    (s.line.state = some .starting →
      ∃ t : State, exec .allocationTimerExpiry s = .next t ∧
        t.line.iCmd = min 60000 (s.line.iCmd + s.config.startRate) ∧
        (t.line.iCmd < s.config.floor → t.line.state = some .starting) ∧
        (s.config.floor ≤ t.line.iCmd → s.holdStands = true → t.line.state = some .hold) ∧
        (s.config.floor ≤ t.line.iCmd → t.line.state = some .regulating ∨ t.line.state = some .hold)) ∧
    (s.line.state = some .stopping → s.config.stopRate < s.line.iCmd →
      ∃ t : State, exec .allocationTimerExpiry s = .next t ∧ t.line.state = some .stopping ∧
        t.line.iCmd = s.line.iCmd - s.config.stopRate) ∧
    (s.line.state = some .stopping → s.line.iCmd ≤ s.config.stopRate →
      ∃ t : State, exec .allocationTimerExpiry s = .next t ∧ t.line.state = some .standby ∧ t.line.iCmd = 0 ∧
        t.line.residual = 0 ∧ t.line.capacityShort = false ∧
        s.handed t (.line .capacityShort) s.line.capacityShort false none ∧ s.graceFollows t ∧
        t.out = allGroups.map (fun g => Sent.order g 0 true (((s.group g).sequence + 1) % 256)) ∧
        ∀ g : Group, (t.group g).lastOrder = 0 ∧ (t.group g).blockFlag = true ∧
          ((s.group g).service = .joining → (t.group g).service = .inService) ∧
          ((s.group g).service = .leaving → (t.group g).service = .out))) ∧
  (∀ (s : State) (d : Nat), s.responsesAllowed → s.line.allocTimer = some d → s.blocked = true →
    ∃ t : State, exec .allocationTimerExpiry s = .next t ∧ t.line.state = s.line.state ∧
      t.line.iCmd = s.line.iCmd ∧ t.line.record = s.line.record ∧ t.line.rotation = s.line.rotation ∧
      t.line.allocTimer = some (s.timeBase + 20) ∧
      t.out = allGroups.map (fun g => Sent.order g 0 true (((s.group g).sequence + 1) % 256)) ∧
      ∀ g : Group, (t.group g).service = (s.group g).service ∧ (t.group g).lastOrder = 0 ∧
        (t.group g).blockFlag = true ∧ (t.group g).sequence = ((s.group g).sequence + 1) % 256)

/-! ### The share allocation (chapter 3) -/

/-- An expiry that ends in a running state has taken the join and leave steps, run one allocation and sent its orders (R13,
R14, R43, R44, R46, R53): a join ceiling rises by the join-rate and a join ends at the rating, a leave ceiling falls by the
leave-rate and a leave ends at 0, the record is that of the share allocation of the I_cmd just formed over the allocation
set after those steps with the pointer held before, each group's last order and order frame are the record's, with the block
flag exactly for the groups outside, and CAPACITY_SHORT is handed where it changes. A group that enters the allocation set, or
leaves it at the end of its leave, enters or leaves GRACE (R68, R69). When a group that joins from OUT enters the set is deduced
(log 11); that the order frames of the eight links stand in ascending order of group is the model's choice (log 35). -/
def Obligations.RunningExpirySendsTheAllocatedOrders : Prop :=
  ∀ (s t : State) (d : Nat), s.responsesAllowed → s.line.allocTimer = some d → s.running = true →
    exec .allocationTimerExpiry s = .next t → t.running = true →
    (∀ g : Group,
      ((s.group g).service = .joining →
        let j := min 12000 ((s.group g).joinCeiling + (s.groupConfig g).joinRate)
        ((s.groupConfig g).rating ≤ j →
          (t.group g).service = .inService ∧ (t.group g).joinCeiling = 0 ∧
            s.hears t (.groupState g .inService .joining .ramp)) ∧
        (j < (s.groupConfig g).rating → (t.group g).service = .joining ∧ (t.group g).joinCeiling = j)) ∧
      ((s.group g).service = .leaving →
        let l := (s.group g).leaveCeiling - (s.groupConfig g).leaveRate
        (t.group g).leaveCeiling = l ∧ (0 < l → (t.group g).service = .leaving) ∧
        (l = 0 → (t.group g).service = .out ∧ s.hears t (.groupState g .out .leaving .ramp))) ∧
      ((s.group g).service ≠ .joining → (s.group g).service ≠ .leaving →
        (t.group g).service = (s.group g).service)) ∧
    s.graceFollows t ∧
    t.line.record = (allocate s.timeBase t.line.record.lineState t.line.iCmd s.line.rotation t.allocationSet).record ∧
    (t.line.state = some t.line.record.lineState ∨
      (t.line.state = some .hold ∧ t.line.record.lineState = .regulating)) ∧
    s.handed t (.line .capacityShort) s.line.capacityShort t.line.capacityShort
      (some (.capacity t.line.record.shortfall)) ∧
    t.line.record.time = s.timeBase ∧ t.line.record.iCmd = t.line.iCmd ∧
      t.line.residual = t.line.record.residual ∧ t.line.rotation = t.line.record.rotation ∧
      t.line.capacityShort = decide (t.line.record.total < t.line.record.iCmd) ∧
      t.out = allGroups.map (fun g =>
        Sent.order g (t.group g).lastOrder (t.group g).blockFlag (((s.group g).sequence + 1) % 256)) ∧
      ∀ g : Group,
        ((t.line.record.members.get g).isSome = t.inSet g) ∧
        (t.line.record.members.get g = none → (t.group g).lastOrder = 0 ∧ (t.group g).blockFlag = true) ∧
        (∀ m : AllocMember, t.line.record.members.get g = some m →
          (t.group g).lastOrder = m.order ∧ (t.group g).blockFlag = false)

/-- The share allocation over sound members (R45, R47 to R51): K is the sum of the ceilings and at most 96,000, T the
lesser of I_cmd and K, the shares and the leftover make up T, no share is above its ceiling, at most 8 passes are taken
and one member at least is never pinned, every order is a multiple of its resolution and at most its cap, and the
orders with the residual make up T. The shares are those of the weighted split: floor(R * W_g / W) of the last pass for
a member never pinned, the ceiling for a pinned one, pass by pass. The orders are those of the quantization, with the
carry going from the start group on in cyclic order. -/
def Obligations.AllocationDividesTheTotalExactly : Prop :=
  ∀ (now iCmd : Nat) (state : LineState) (p : Group) (a : List Member), membersSound a →
    let r := (allocate now state iCmd p a).record
    r.capacity = (a.map Member.ceiling).sum ∧ r.capacity ≤ 96000 ∧ r.total = min iCmd r.capacity ∧
    r.shortfall = iCmd - r.total ∧ r.passes ≤ 8 ∧ (a = [] → r.passes = 0 ∧ r.residual = 0) ∧
    (a ≠ [] → 1 ≤ r.passes ∧ ∃ m ∈ a, ∃ x : AllocMember,
      r.members.get m.group = some x ∧ x.pinned = none) ∧
    ((r.members.toList.filterMap id).map AllocMember.share).sum + r.leftover = r.total ∧
    ((r.members.toList.filterMap id).map AllocMember.order).sum + r.residual = r.total ∧
    (∀ g : Group, (∀ m ∈ a, m.group ≠ g) → r.members.get g = none) ∧
    (∀ m ∈ a, ∃ x : AllocMember, r.members.get m.group = some x ∧ x.ceiling = m.ceiling ∧
      x.weight = m.weight ∧ x.resolution = m.resolution ∧
      x.cap = m.ceiling / m.resolution * m.resolution ∧ x.share ≤ m.ceiling ∧ x.order % m.resolution = 0 ∧
      x.order ≤ x.cap) ∧
    r.splitByWeight ∧ r.quantized

/-- An allocation with exactly one member (R56). -/
def Obligations.SingleMemberTakesTheTotal : Prop :=
  ∀ (now iCmd : Nat) (state : LineState) (p : Group) (m : Member), 1 ≤ m.weight → 1 ≤ m.resolution →
    let r := (allocate now state iCmd p [m]).record
    let t := min iCmd m.ceiling
    r.capacity = m.ceiling ∧ r.total = t ∧ r.passes = 1 ∧ r.leftover = 0 ∧ r.residual < m.resolution ∧
    r.residual = t - t / m.resolution * m.resolution ∧
    t / m.resolution * m.resolution ≤ m.ceiling / m.resolution * m.resolution ∧ r.rotation = m.group ∧
    r.members.get m.group = some
      { ceiling := m.ceiling, cap := m.ceiling / m.resolution * m.resolution, weight := m.weight
        resolution := m.resolution, share := t, pinned := none, order := t / m.resolution * m.resolution }

/-- Rotation and the start of the visit (R49, R52): with no members the pointer stays and there is no start group;
otherwise the new pointer is the member met first counting upward cyclically from the group after the old pointer, and
the start group the one met first from the old pointer itself. -/
def Obligations.RotationMovesToTheNextMember : Prop :=
  ∀ (now iCmd : Nat) (state : LineState) (p : Group) (a : List Member),
    let r := (allocate now state iCmd p a).record
    (a = [] → r.rotation = p ∧ r.start = none) ∧
    (a ≠ [] →
      (∃ m ∈ a, r.rotation = m.group) ∧ (∃ m ∈ a, r.start = some m.group) ∧
      ∀ m ∈ a, (r.rotation.val + 7 - p.val) % 8 ≤ (m.group.val + 7 - p.val) % 8 ∧
        ∀ g : Group, r.start = some g → (g.val + 8 - p.val) % 8 ≤ (m.group.val + 8 - p.val) % 8)

/-! ### Cooling and group inputs (chapter 4) -/

/-- The filter of one input (R61). From a run count of 0 or a run of the other value, fewer than F frames of a value that is not
yet the settled filtered value only count their own run, and F of them make it the filtered value, settled, with a run count of
0. A run of that value that stands is counted on, and the value is taken once the count reaches F, which the next frame does
where the count is already at or above F, as after F has been lowered. A frame that repeats the settled filtered value sets the
run count to 0 and changes nothing else. -/
def Obligations.FilteredInputsFollowAfterFFrames : Prop :=
  ∀ (i : InputFilter) (f : Nat) (v : Bool), 1 ≤ f →
    let after (k : Nat) : InputFilter := (List.replicate k v).foldl (fun j raw => j.step f raw) i
    (¬ (i.settled = true ∧ i.filtered = v) → i.count = 0 ∨ i.run ≠ v →
      (∀ k : Nat, 1 ≤ k → k < f → after k = { i with run := v, count := k }) ∧
      after f = { filtered := v, settled := true, run := v, count := 0 }) ∧
    (¬ (i.settled = true ∧ i.filtered = v) → 0 < i.count → i.run = v →
      (∀ k : Nat, i.count + k < f → after k = { i with count := i.count + k }) ∧
      after (max 1 (f - i.count)) = { filtered := v, settled := true, run := v, count := 0 }) ∧
    (i.settled = true → i.filtered = v → i.step f v = { i with count := 0 })

/-- STATUS_FRAME (R18 to R21, R61, R72, R73, 00_scope.md 4.2): a bad frame and every frame during the load leave the state; a
good one becomes the group's last valid frame with its values saturated, restarts a running link timer (R19), takes a group out
of LINK_LOST (R20), is judged for tracking (R21), feeds the filters, the pattern test (R63, R64), the protection test (R66), the
pump test (R68 to R70), the derate step (R72), the warning latch (R76) and the overtemperature test (R78), the cooling ceiling
being formed of its parts. The ranges the temperatures and the flow saturate at are the model's choice (log 16), as is that the
trip test comes before the pump test (log 33). That a frame is judged by the tolerance in use, which a written item becomes at the
next allocation-timer expiry, is deduced from R9 (log 34). -/
def Obligations.StatusFrameIsStoredFilteredAndSupervised : Prop :=
  ∀ (s : State) (g : Group) (f : StatusFrame),
    exec (.statusFrame g .bad) s = .next { s with out := [] } ∧
    (s.loading = true → exec (.statusFrame g (.good f)) s = .next { s with out := [] }) ∧
    (s.loading = false →
      ∃ t : State, exec (.statusFrame g (.good f)) s = .next t ∧
        (∃ x : StatusFrame, (t.group g).lastFrame = some x ∧ x.current = min f.current 12000 ∧
          x.voltage = min f.voltage 30000 ∧ x.status = f.status ∧ x.trips = f.trips ∧ x.echo = f.echo ∧
          x.inlet = max (-400) (min 1500 f.inlet) ∧ x.outlet = max (-400) (min 1500 f.outlet) ∧
          (t.cool g).lastTemps = some { outlet := x.outlet, inlet := x.inlet, flow := min f.flow 10000 }) ∧
        (t.group g).service ≠ .linkLost ∧
        ((t.group g).service = (s.group g).service → (s.group g).linkTimer.isSome = true →
          (t.group g).linkTimer = some (s.timeBase + 50)) ∧
        ((s.group g).service = .linkLost →
          s.handed t (.group .linkLost g) true false none ∧
          ((s.removeStands g = true → (t.group g).service = .removed ∧
            s.hears t (.groupState g .removed .linkLost .link)) ∧
          (s.removeStands g = false → s.hears t (.groupState g .out .linkLost .link) ∧
            ((t.group g).service = .out ∨ (t.group g).service = .removed)))) ∧
        (let r := s.group g
         let far := (min f.current 12000 - r.lastOrder) + (r.lastOrder - min f.current 12000)
         (f.echo = r.sequence → far ≤ r.tolerance →
           (t.group g).trackingTimer = none ∧ s.handed t (.group .tracking g) true false none) ∧
         (f.echo ≠ r.sequence ∨ r.tolerance < far →
           s.handed t (.group .tracking g) true true none ∧
           (t.inSet g = true →
             (t.group g).trackingTimer =
               if f.echo = r.sequence ∧ r.trackingTimer = none ∧ (s.entry (.group .tracking g)).state ≠ .active then
                 some (s.timeBase + 2000) else r.trackingTimer))) ∧
        (∀ n : Fin 8, (t.cool g).inputs.status.get n =
          ((s.cool g).inputs.status.get n).step ((s.groupConfig g).filterCounts.status.get n)
            (f.status.getLsbD n.val)) ∧
        (∀ n : Fin 4, (t.cool g).inputs.trip.get n =
          ((s.cool g).inputs.trip.get n).step ((s.groupConfig g).filterCounts.trip.get n) (f.trips.getLsbD n.val)) ∧
        (t.cool g).ceiling = coolingCeiling (s.groupConfig g) (t.cool g).percent (t.cool g).pumpLoss ∧
        (let x := max (-400) (min 1500 f.outlet)
         let before := s.cool g
         let after := t.cool g
         let settled := after.settled
         let differ := (after.statusBits ^^^ (s.groupConfig g).expected) &&& (s.groupConfig g).enabled
         let tripped := after.tripBits &&& (s.groupConfig g).tripMask
         let bothLost := !after.inputs.status.m1.filtered && !after.inputs.status.m2.filtered
         (after.governing = (before.derateStep s.config.derate s.config.derateHysteresis x).governing ∧
           after.percent = (before.derateStep s.config.derate s.config.derateHysteresis x).percent) ∧
         (after.warning = (before.warning || decide (s.config.warnThreshold ≤ x)) ∧
           (before.warning = false → s.config.warnThreshold ≤ x →
             s.hears t (.warningTemperature g x s.config.warnThreshold)) ∧
           after.clearLevel = s.config.warnThreshold - (s.config.alarmHysteresis : Int)) ∧
         (after.overtemp = (if before.overtemp = true then
             !decide (x < s.config.tripThreshold - (s.config.alarmHysteresis : Int))
           else decide (s.config.tripThreshold ≤ x)) ∧
           s.handed t (.group .overtemp g) before.overtemp after.overtemp (some (.overtemp x))) ∧
         ((settled = true → after.protection = decide (tripped ≠ 0)) ∧
           (settled = false → after.protection = before.protection) ∧
           s.handed t (.group .protection g) before.protection after.protection (some (.protection tripped))) ∧
         (s.responsesAllowed →
           (settled = true → after.differing = differ ∧
             after.pattern = if differ = 0 then .matching else .mismatching) ∧
           (settled = false → after.pattern = before.pattern ∧ after.differing = before.differing) ∧
           after.adoptionSource = (before.adoptionSource && decide (min f.current 12000 ≠ 0)) ∧
           s.handed t (.group .mismatch g) (before.pattern == .mismatching || before.adoptionSource)
             (after.pattern == .mismatching || after.adoptionSource) (some (.mismatch after.differing))) ∧
         (before.pumpLoss = .none →
           (t.inSet g = true → settled = true → bothLost = true →
             after.pumpLoss = .grace ∧
             after.graceTimer = some (s.timeBase + (s.groupConfig g).graceTime * 1000) ∧
             s.hears t (.warningPumpLoss g (s.groupConfig g).graceTime)) ∧
           (t.inSet g = false ∨ settled = false ∨ bothLost = false → after.pumpLoss = .none)) ∧
         (before.pumpLoss = .grace →
           (settled = true → bothLost = false → after.pumpLoss = .none ∧ after.graceTimer = none) ∧
           (t.inSet g = true → settled = false ∨ bothLost = true →
             after.pumpLoss = .grace ∧ after.graceTimer = before.graceTimer)) ∧
         (before.pumpLoss = .expired →
           after.pumpLoss = (if settled = true ∧ bothLost = false then .none else .expired) ∧
           s.handed t (.group .coolingLost g) true (after.pumpLoss == .expired) none)) ∧
        (∀ h : Group, h ≠ g → (t.group h).lastFrame = (s.group h).lastFrame ∧
          (t.cool h).inputs = (s.cool h).inputs ∧ (t.cool h).percent = (s.cool h).percent) ∧
        s.keepsAllBut t [.line, .claims, .groups, .cooling, .faults, .stack, .ports, .out])

/-- The derate step (R72): the candidate is the highest breakpoint at or below T_out; a lower percent is taken at once, a
higher one only at or below the governing breakpoint less the hysteresis, and an equal one not at all. -/
def Obligations.DerateFallsAtOnceAndRisesWithHysteresis : Prop :=
  ∀ (c : GroupCooling) (table : Eight (Int × Nat)) (h : Nat) (t : Int) (k : Option (Fin 8)) (p : Nat),
    ((k = none ∧ p = 100 ∧ ∀ i : Fin 8, t < (table.get i).1) ∨
      ∃ i : Fin 8, k = some i ∧ p = (table.get i).2 ∧ (table.get i).1 ≤ t ∧
        ∀ j : Fin 8, i.val < j.val → t < (table.get j).1) →
    (p < c.percent → c.derateStep table h t = { c with governing := k, percent := p }) ∧
    (p = c.percent → c.derateStep table h t = c) ∧
    (∀ i : Fin 8, c.governing = some i → c.percent < p → t ≤ (table.get i).1 - (h : Int) →
      c.derateStep table h t = { c with governing := k, percent := p }) ∧
    (∀ i : Fin 8, c.governing = some i → c.percent < p → (table.get i).1 - (h : Int) < t →
      c.derateStep table h t = c)

/-- GRACE_TIMER_EXPIRY while the timer runs (R69): the group enters EXPIRED with its timer stopped and its cooling ceiling
kept, and COOLING_LOST becomes ACTIVE with no quantity. -/
def Obligations.GraceTimerExpiryLosesTheCooling : Prop :=
  ∀ (s : State) (g : Group) (d : Nat), s.timersAgree → (s.cool g).graceTimer = some d →
    ∃ t : State, exec (.graceTimerExpiry g) s = .next t ∧
      t.cool g = { s.cool g with pumpLoss := .expired, graceTimer := none } ∧
      (t.entry (.group .coolingLost g)).state = .active ∧ (t.entry (.group .coolingLost g)).detail = none ∧
      (t.entry (.group .coolingLost g)).last = s.timeBase ∧
      s.keepsAllBut t [.line, .claims, .groups, .cooling, .faults, .stack, .ports, .out]

/-! ### The pots and the scan link (chapter 5) -/

/-- SAMPLE_FRAME after the load (R89 to R91): a misaddressed sample sets the address flag and is kept as the last bad address; a
sample for a pot in IN_CIRCUIT or CUT_OUT is stored with its stamp, the swing being the distance from the sample before it, or 0
for a stale entry; the other entries keep all but their unlisted marks. An in-circuit pot is then tested against the band set
(R93, R94) and by the anode-effect unit: a run of samples at or above the AE-on threshold makes the onset and a run at or below
the AE-off threshold the end (R102, R103, R105 to R107, R115), and a freshened entry brings the stale count down with SCAN_STALE
evaluated (R90, R92). That the notice of an unlisted end gives the pot's section and position beside its index is the model's
choice (log 21). -/
def Obligations.SamplesAreStoredAtTheirPot : Prop :=
  ∀ (s : State) (sec pos v : Nat), s.loading = false →
    ((∀ k : Fin 4, k.val = sec → (s.config.sections.get k).length ≤ pos) →
      exec (.sampleFrame sec pos v) s = .next { s with
        out := [], scan := { s.scan with addressFlag := true, lastBadAddress := some (sec, pos) } }) ∧
    (∀ (k : Fin 4) (i : Nat), k.val = sec → pos < (s.config.sections.get k).length →
      i = (s.config.sections.get k).origin + pos → i < s.pots.length → v ≤ 65535 →
      ∃ t : State, exec (.sampleFrame sec pos v) s = .next t ∧
        (t.pot i).last = v ∧ (t.pot i).stamp = s.scan.stamp ∧ (t.pot i).circuit = (s.pot i).circuit ∧
        ((s.pot i).circuit = .inCircuit → (s.pot i).stale = true →
          (t.pot i).stale = false ∧ (t.pot i).previous = v ∧ (t.pot i).swing = 0) ∧
        ((s.pot i).circuit = .inCircuit → (s.pot i).stale = false →
          (t.pot i).stale = false ∧ (t.pot i).previous = (s.pot i).last ∧
          (t.pot i).swing = (v - (s.pot i).last) + ((s.pot i).last - v)) ∧
        ((s.pot i).circuit = .cutOut →
          t = { s with out := [], pots := s.pots.set i { s.pot i with
            last := v, previous := (s.pot i).last, stamp := s.scan.stamp
            swing := (v - (s.pot i).last) + ((s.pot i).last - v) } }) ∧
        (∀ j : Nat, j ≠ i → t.pot j = { s.pot j with unlisted := (t.pot j).unlisted }) ∧
        t.config = s.config ∧ t.timeBase = s.timeBase ∧ t.store = s.store ∧ t.pending = s.pending ∧
        ((s.pot i).circuit = .inCircuit →
          ((t.pot i).band = .inBand ↔ s.inBandNow (t.pot i)) ∧
          ((s.pot i).band = .inBand → (t.pot i).band = .outOfBand → s.hears t (s.watchNotice i (t.pot i))) ∧
          ((s.pot i).stale = true → t.scan.staleCount = t.countStale ∧
            (s.scan.armed = true → t.scan.scanStale = decide (s.config.staleLimit < t.scan.staleCount) ∧
              s.handed t (.line .scanStale) s.scan.scanStale t.scan.scanStale
                (some (.scanStale t.scan.staleCount)))) ∧
          (let d := s.config.detection
           let n := (s.pot i).run + 1
           ((s.pot i).aeState = .normal ∨ (s.pot i).aeState = .rising →
             (v < d.aeOn → (t.pot i).aeState = .normal ∧ (t.pot i).run = 0 ∧ t.ae = s.ae) ∧
             (d.aeOn ≤ v → n < d.nOn → (t.pot i).aeState = .rising ∧ (t.pot i).run = n ∧ t.ae = s.ae) ∧
             (d.aeOn ≤ v → d.nOn ≤ n →
               (t.pot i).aeState = .ae ∧ (t.pot i).run = 0 ∧
               (s.ae.list.length < 16 → t.ae.overflow = s.ae.overflow ∧
                 ∃ r : AeRecord, t.ae.list = s.ae.list ++ [r] ∧ r.pot = i ∧ r.peak = v ∧ r.onset = s.timeBase ∧
                   r.original = none ∧ r.state = .waitAck ∧ r.attempt = 1 ∧
                   s.hears t (.aeOnset (some r.id) i (s.place i).1 (s.place i).2 s.timeBase r.current v
                     t.ae.list.length none)) ∧
               (16 ≤ s.ae.list.length → t.ae.list = s.ae.list ∧ t.ae.storm = true ∧
                 t.ae.overflow = s.ae.overflow ++ [⟨i, s.timeBase⟩] ∧ (t.pot i).unlisted = true ∧
                 s.handed t (.line .aeStorm) s.ae.storm true (some (.storm t.ae.overflow.length))))) ∧
           ((s.pot i).aeState = .ae ∨ (s.pot i).aeState = .falling →
             (d.aeOff < v ∨ n < d.nOff →
               (t.pot i).aeState = (if d.aeOff < v then .ae else .falling) ∧
               (t.pot i).run = (if d.aeOff < v then 0 else n) ∧
               t.ae = { s.ae with list := s.ae.list.map fun r =>
                 if r.pot = i then { r with peak := max r.peak v } else r }) ∧
             (v ≤ d.aeOff → d.nOff ≤ n →
               (t.pot i).aeState = .normal ∧ (t.pot i).run = 0 ∧ s.aeEnded t i v .normal)))))

/-- CYCLE_MARKER, the expiry of the marker timer and a bad scan frame after the load (R86 to R88, R92): the cycle count
and the stamp move on with a marker, the timer starts again, the mapped in-circuit entries of age 4 or more, or all of
them at an expiry, become stale, and a bad frame sets the check flag alone. -/
def Obligations.MarkersAgeThePots : Prop :=
  (∀ s : State, s.loading = false → exec .scanFrameBad s = .next { s with
    out := [], scan := { s.scan with checkFlag := true } }) ∧
  (∀ s : State, s.loading = false →
    ∃ t : State, exec .cycleMarker s = .next t ∧
      t.scan.cycleCount = min 4294967295 (s.scan.cycleCount + 1) ∧ t.scan.stamp = (s.scan.stamp + 1) % 64 ∧
      t.scan.markerTimer = some (s.timeBase + 2000) ∧ t.scan.timeoutMark = false ∧ t.scan.armed = true ∧
      t.scan.staleCount = t.countStale ∧ t.scan.scanStale = decide (s.config.staleLimit < t.scan.staleCount) ∧
      s.handed t (.line .scanStale) s.scan.scanStale t.scan.scanStale (some (.scanStale t.scan.staleCount)) ∧
      (∀ i : Nat, i < s.pots.length →
        t.pot i = { s.pot i with
          stale := if s.mapped i = true ∧ (s.pot i).circuit = .inCircuit ∧
              4 ≤ ((s.scan.stamp + 1) % 64 + 64 - (s.pot i).stamp) % 64 then true else (s.pot i).stale }) ∧
      s.keepsAllBut t [.line, .claims, .groups, .cooling, .pots, .scan, .faults, .stack, .ports, .out]) ∧
  (∀ (s : State) (d : Nat), s.scan.markerTimer = some d →
    ∃ t : State, exec .markerTimerExpiry s = .next t ∧
      t.scan.cycleCount = s.scan.cycleCount ∧ t.scan.stamp = s.scan.stamp ∧
      t.scan.markerTimer = some (s.timeBase + 2000) ∧ t.scan.timeoutMark = true ∧ t.scan.armed = true ∧
      t.scan.staleCount = t.countStale ∧ t.scan.scanStale = decide (s.config.staleLimit < t.scan.staleCount) ∧
      s.handed t (.line .scanStale) s.scan.scanStale t.scan.scanStale (some (.scanStale t.scan.staleCount)) ∧
      (∀ i : Nat, i < s.pots.length →
        t.pot i = { s.pot i with
          stale := if s.mapped i = true ∧ (s.pot i).circuit = .inCircuit then true else (s.pot i).stale }) ∧
      s.keepsAllBut t [.line, .claims, .groups, .cooling, .pots, .scan, .faults, .stack, .ports, .out])

/-- CUT_OUT_POT and CUT_IN_POT past the tests of R182 (R95 to R97): the index, the mapping, the circuit and the interlock
are tested in turn, an accepted request moves the pot's circuit with its entry stale, in band and NORMAL, with SCAN_STALE
evaluated while it is armed, a cut-out ends the pot's anode effect with reason CUT_OUT (R107, R116), and the other entries keep
all but their unlisted marks. That the notice of an unlisted end gives the pot's section and position (log 21) and that the
interlock current takes 4 bytes (log 22) are the model's choices. -/
def Obligations.PotsAreCutOutAndInUnderTheInterlock : Prop :=
  ∀ (rq : Req) (i : Nat) (s : State) (goal : Circuit) (c : Instr) (kind : ReqKind),
    (goal = .cutOut ∧ c = .cutOutPot rq i ∧ kind = .cutOutPot) ∨
      (goal = .inCircuit ∧ c = .cutInPot rq i ∧ kind = .cutInPot) →
    s.ready c →
    (399 < i → exec c s = .next (s.answered rq kind .outOfRange [])) ∧
    (i ≤ 399 → s.mapped i = false → exec c s = .next (s.answered rq kind .notFound [])) ∧
    (i ≤ 399 → s.mapped i = true → (s.pot i).circuit = goal → exec c s = .next (s.answered rq kind .ok [])) ∧
    (i ≤ 399 → s.mapped i = true → (s.pot i).circuit ≠ goal → s.config.switchingLimit < s.interlockCurrent →
      exec c s = .next (s.answered rq kind .tooHigh [fFour s.interlockCurrent])) ∧
    (s.responsesAllowed → i ≤ 399 → i < s.pots.length → s.mapped i = true → (s.pot i).circuit ≠ goal →
      s.interlockCurrent ≤ s.config.switchingLimit →
      ∃ t : State, exec c s = .next t ∧ s.portsAnswer t rq kind .ok [] ∧
        (t.pot i).circuit = goal ∧ (t.pot i).stale = true ∧ (t.pot i).band = .inBand ∧
        (t.pot i).aeState = .normal ∧ (t.pot i).run = 0 ∧ (t.pot i).last = (s.pot i).last ∧
        t.scan.staleCount = t.countStale ∧
        (s.scan.armed = true → t.scan.scanStale = decide (s.config.staleLimit < t.scan.staleCount) ∧
          s.handed t (.line .scanStale) s.scan.scanStale t.scan.scanStale (some (.scanStale t.scan.staleCount))) ∧
        (s.scan.armed = false → t.scan.scanStale = s.scan.scanStale) ∧
        (goal = .cutOut → s.aeEnded t i 0 .cutOut) ∧ (goal = .inCircuit → t.ae = s.ae) ∧
        (∀ j : Nat, j ≠ i → t.pot j = { s.pot j with unlisted := (t.pot j).unlisted }) ∧
        t.config = s.config ∧ t.timeBase = s.timeBase ∧ t.groups = s.groups ∧ t.out = [] ∧ t.pending = s.pending)

/-! ### Anode effects (chapter 6) -/

/-- An onset while the AE list has room (R104, R105): a record at the tail with an id that no record holds and the values of
R105, the id after it next, the notices, one onset more in the interval, and, with the capture option ON, a frame pushed whose
body is that of the moment with the new record counted (R172, Table 10-1), or, with it OFF, nothing pushed. An onset while the
list is full (R106): an entry at the tail of the overflow list, the unlisted mark, the notice, one onset more in the interval,
and AE_STORM handed where the storm condition was absent. That the line current saturates is deduced (log 15), and the place a
notice gives for a pot that no section maps (log 28) and the 0 that a group with no valid frame counts (log 37) are the model's
choices. -/
def Obligations.OnsetOpensARecord : Prop :=
  (∀ (s : State) (pot peak : Nat), 16 ≤ s.ae.list.length →
    let t := s.takeOnset pot peak
    t.ae = { s.ae with overflow := s.ae.overflow ++ [⟨pot, s.timeBase⟩], storm := true } ∧
    (pot < s.pots.length → t.pot pot = { s.pot pot with unlisted := true }) ∧
    (∀ j : Nat, j ≠ pot → t.pot j = s.pot j) ∧
    s.hears t (.aeOnset none pot (s.place pot).1 (s.place pot).2 s.timeBase s.measuredCurrent peak
      (s.ae.overflow.length + 1) none) ∧
    (∀ i : Interval, s.metering.interval = some i → t.metering.interval =
      some { i with aeOnsets := min 65535 (i.aeOnsets + 1) }) ∧
    s.handed t (.line .aeStorm) s.ae.storm true (some (.storm (s.ae.overflow.length + 1))) ∧
    (s.ae.storm = true → t.stack = s.stack ∧ t.line = s.line) ∧
    s.keepsAllBut t [.line, .claims, .groups, .cooling, .pots, .ae, .metering, .faults, .stack, .ports, .out]) ∧
  ∀ (s : State) (pot peak : Nat), s.ae.list.length < 16 → 1 ≤ s.ae.nextId → s.ae.nextId ≤ 255 →
    ∃ r : AeRecord, 1 ≤ r.id ∧ r.id ≤ 255 ∧ (∀ x ∈ s.ae.list, x.id ≠ r.id) ∧
      r.pot = pot ∧ r.onset = s.timeBase ∧ r.original = none ∧ r.current = s.measuredCurrent ∧ r.peak = peak ∧
      r.state = .waitAck ∧ r.attempt = 1 ∧ r.exhausted = false ∧ r.reported = false ∧ r.energy = 0 ∧
      r.deadline = some (s.timeBase + s.config.quench.ack * 1000) ∧
      (s.takeOnset pot peak).ae = { s.ae with
        list := s.ae.list ++ [r]
        nextId := if r.id = 255 then 1 else r.id + 1
        recent := s.ae.recent.filter fun e => e.id != r.id } ∧
      s.hears (s.takeOnset pot peak) (.aeOnset (some r.id) pot (s.place pot).1 (s.place pot).2 s.timeBase r.current
        peak (s.ae.list.length + 1) none) ∧
      s.hears (s.takeOnset pot peak) (.quenchRequest r.id 1 pot (s.place pot).1 (s.place pot).2) ∧
      (∀ i : Interval, s.metering.interval = some i → (s.takeOnset pot peak).metering.interval =
        some { i with aeOnsets := min 65535 (i.aeOnsets + 1) }) ∧
      (s.config.aeCapture = false → (s.takeOnset pot peak).stack = s.stack) ∧
      (s.config.aeCapture = true → (s.takeOnset pot peak).stack = s.stack.push
        { cause := .ae false r.id 1 pot s.timeBase r.current peak, time := s.timeBase
          body := { s.captureBody with aeCount := s.ae.list.length + 1 } }) ∧
      s.keepsAllBut (s.takeOnset pot peak) [.ae, .metering, .stack, .ports]

/-- The end of a listed anode effect (R108, R115, R117): the record leaves the list and enters the recent ends, of which the
newest 16 are kept, its pot's count and last onset move, its energy goes to the interval, AE_UNQUENCHED departs where no record
left is exhausted (R114), the head of the overflow list, if there is one, takes a record of its own by steps 1, 2, 3, 5 and 6 of
R105 with its onset as the original one, its DEFERRED notice, its QUENCH_REQUEST and, with the capture option ON, a frame, and
AE_STORM departs where both lists then allow it (R109). The end of an unlisted one (R107): its entry leaves the overflow list,
its pot's count and last onset move, the notice, and AE_STORM departs where both lists then allow it (R109). That the notice of an
unlisted end gives the pot's section and position beside its index (log 21), the place given for a pot that no section maps
(log 28), and the 0 that a group with no valid frame counts in the line current (log 37) are the model's choices; that this
current saturates is deduced (log 15). -/
def Obligations.EndClosesARecordAndPromotes : Prop :=
  (∀ (s : State) (pot : Nat) (reason : EndReason) (o : Overflow), s.ae.ofPot pot = none →
    s.ae.overflow.find? (fun x => x.pot == pot) = some o → pot < s.pots.length →
    let t := s.endAe pot reason
    let left := s.ae.overflow.filter fun x => x.pot != pot
    t.ae = { s.ae with
      overflow := left, storm := s.ae.storm && !(left.isEmpty && decide (s.ae.list.length < 16)) } ∧
    t.pot pot = { s.pot pot with
      unlisted := false, aeCount := min 65535 ((s.pot pot).aeCount + 1), lastOnset := o.onset } ∧
    s.otherPotsKept t pot ∧
    s.hears t (.aeEndUnlisted pot (s.place pot).1 (s.place pot).2 reason o.onset (s.timeBase - o.onset)) ∧
    s.handed t (.line .aeStorm) s.ae.storm t.ae.storm none ∧
    s.keepsAllBut t [.pots, .ae, .faults, .ports]) ∧
  (∀ (s : State) (pot : Nat) (reason : EndReason), s.ae.ofPot pot = none →
    s.ae.overflow.find? (fun x => x.pot == pot) = none → s.endAe pot reason = s) ∧
  ∀ (s : State) (pot : Nat) (reason : EndReason) (r : AeRecord), s.ae.ofPot pot = some r → pot < s.pots.length →
    let t := s.endAe pot reason
    let ends := s.ae.recent ++ [⟨r.id, pot, s.timeBase, reason⟩]
    ((t.pot pot).aeCount = min 65535 ((s.pot pot).aeCount + 1) ∧ (t.pot pot).lastOnset = r.original.getD r.onset) ∧
    s.hears t (.aeEnd r.id pot (s.place pot).1 (s.place pot).2 reason r.onset r.original
      (s.timeBase - r.original.getD r.onset) r.peak (r.energy / 1000) r.attempt r.exhausted r.reported) ∧
    (∀ i : Interval, s.metering.interval = some i →
      t.metering.interval = some { i with aeEnergy := min 4294967295 (i.aeEnergy + r.energy / 1000) }) ∧
    t.ae.unquenched =
      (s.ae.unquenched && (s.ae.list.filter fun x => x.id != r.id).any AeRecord.exhausted) ∧
    s.handed t (.line .aeUnquenched) s.ae.unquenched t.ae.unquenched none ∧
    t.ae.storm = (s.ae.storm && !(t.ae.overflow.isEmpty && decide (t.ae.list.length < 16))) ∧
    s.handed t (.line .aeStorm) s.ae.storm t.ae.storm none ∧
    (∀ id : FaultId, id ≠ .line .aeUnquenched → id ≠ .line .aeStorm → t.entry id = s.entry id) ∧
    t.faults.lineA = s.faults.lineA ∧ t.faults.lineB = s.faults.lineB ∧ t.ae.headroom = s.ae.headroom ∧
    (s.ae.overflow = [] →
      t.ae.list = s.ae.list.filter (fun x => x.id != r.id) ∧ t.ae.overflow = [] ∧ t.ae.nextId = s.ae.nextId ∧
      (s.ae.recent.length ≤ 16 → t.ae.recent = ends.drop (ends.length - 16)) ∧ t.stack = s.stack ∧
      s.otherPotsKept t pot) ∧
    (∀ (o : Overflow) (os : List Overflow), s.ae.overflow = o :: os →
      t.ae.overflow = os ∧ ((t.pot o.pot).unlisted = false ∨ s.pots.length ≤ o.pot) ∧
      ∃ n : AeRecord, t.ae.list = s.ae.list.filter (fun x => x.id != r.id) ++ [n] ∧ n.pot = o.pot ∧
        n.onset = s.timeBase ∧ n.original = some o.onset ∧ n.current = s.measuredCurrent ∧
        n.peak = (s.pot o.pot).last ∧ n.state = .waitAck ∧ n.attempt = 1 ∧ n.exhausted = false ∧ n.reported = false ∧
        n.energy = 0 ∧ n.deadline = some (s.timeBase + s.config.quench.ack * 1000) ∧
        t.ae.nextId = (if n.id = 255 then 1 else n.id + 1) ∧
        (s.ae.list.length ≤ 16 → 1 ≤ s.ae.nextId → s.ae.nextId ≤ 255 →
          1 ≤ n.id ∧ n.id ≤ 255 ∧ ∀ x ∈ s.ae.list, x.id ≠ r.id → x.id ≠ n.id) ∧
        s.hears t (.aeOnset (some n.id) o.pot (s.place o.pot).1 (s.place o.pot).2 n.onset n.current n.peak
          t.ae.list.length (some o.onset)) ∧
        s.hears t (.quenchRequest n.id 1 o.pot (s.place o.pot).1 (s.place o.pot).2) ∧
        (∀ j : Nat, j ≠ pot → j ≠ o.pot → t.pot j = s.pot j) ∧
        (s.ae.recent.length ≤ 16 →
          t.ae.recent = (ends.drop (ends.length - 16)).filter fun e => e.id != n.id) ∧
        (s.config.aeCapture = false → t.stack = s.stack) ∧
        (s.config.aeCapture = true → t.stack = s.stack.push
          { cause := .ae true n.id 1 o.pot o.onset n.current n.peak, time := s.timeBase
            body := { s.captureBody with aeCount := t.ae.list.length } })) ∧
    s.keepsAllBut t [.pots, .ae, .metering, .faults, .stack, .ports]

/-- The quench protocol (R110 to R114): a reply is tested in turn, a start stops the ack timer, a failure or the expiry of the
record's timer below attempt 3 asks for the next attempt, and a failure or an expiry at attempt 3 exhausts the record, with
AE_UNQUENCHED then present. The place a request gives for a pot that no section maps is the model's choice (log 28). -/
def Obligations.QuenchRepliesAndTimersMoveTheAttempt : Prop :=
  (∀ (rq : Req) (id attempt : Nat) (s : State) (c : Instr) (kind : ReqKind),
    (c = .quenchStarted rq id attempt ∧ kind = .quenchStarted) ∨
      (c = .quenchFailed rq id attempt ∧ kind = .quenchFailed) →
    s.refusesOthers rq kind c [.potline] ∧
    (s.ready c →
    (id = 0 ∨ attempt = 0 ∨ 3 < attempt → exec c s = .next (s.answered rq kind .outOfRange [])) ∧
    (1 ≤ id → 1 ≤ attempt → attempt ≤ 3 →
      (s.ae.ofId id = none → (∃ e ∈ s.ae.recent, e.id = id) →
        exec c s = .next (s.answered rq kind .alreadyEnded [])) ∧
      (s.ae.ofId id = none → (∀ e ∈ s.ae.recent, e.id ≠ id) →
        exec c s = .next (s.answered rq kind .notFound [])) ∧
      ∀ r : AeRecord, s.ae.ofId id = some r →
        (r.attempt < attempt → exec c s = .next (s.answered rq kind .outOfRange [])) ∧
        (attempt < r.attempt → exec c s = .next (s.answered rq kind .moved [])) ∧
        (attempt = r.attempt → r.exhausted = true → exec c s = .next (s.answered rq kind .badState [])) ∧
        (attempt = r.attempt → r.exhausted = false → kind = .quenchStarted → r.state = .quenching →
          exec c s = .next (s.answered rq kind .ok [])) ∧
        (attempt = r.attempt → r.exhausted = false → kind = .quenchStarted → r.state = .waitAck →
          exec c s = .next (({ s with ae := { s.ae with list := s.ae.list.map fun x =>
            if x.id = id then { x with
              state := .quenching, reported := true
              deadline := some (s.timeBase + s.config.quench.quench * 1000) } else x } } : State).answered
            rq kind .ok [])) ∧
        (attempt = r.attempt → r.exhausted = false → kind = .quenchFailed → attempt < 3 →
          ∃ t : State, exec c s = .next t ∧ s.portsAnswer t rq kind .ok [] ∧ t.out = [] ∧
            t.ae = { s.ae with list := s.ae.list.map fun x =>
              if x.id = id then { x with
                attempt := attempt + 1, state := .waitAck
                deadline := some (s.timeBase + s.config.quench.ack * 1000) } else x } ∧
            s.hears t (.quenchRequest id (attempt + 1) r.pot (s.place r.pot).1 (s.place r.pot).2) ∧
            s.keepsAllBut t [.ae, .ports, .out]) ∧
        (attempt = r.attempt → r.exhausted = false → kind = .quenchFailed → attempt = 3 →
          ∃ t : State, exec c s = .next t ∧ s.portsAnswer t rq kind .ok [] ∧
            t.ae = { s.ae with
              list := s.ae.list.map fun x =>
                if x.id = id then { x with state := .quenching, exhausted := true, deadline := none } else x
              unquenched := true } ∧
            s.handed t (.line .aeUnquenched) s.ae.unquenched true (some (.unquenched id r.pot)) ∧
            s.keepsAllBut t [.line, .claims, .groups, .cooling, .ae, .faults, .stack, .ports, .out])))) ∧
  (∀ (s : State) (id d : Nat) (r : AeRecord) (c : Instr), s.ae.ofId id = some r → r.deadline = some d →
    (c = .ackTimerExpiry id ∧ r.state = .waitAck) ∨ (c = .quenchTimerExpiry id ∧ r.state = .quenching) →
    (r.attempt < 3 →
      ∃ t : State, exec c s = .next t ∧ t.out = [] ∧ s.portsQuiet t ∧
        t.ae = { s.ae with list := s.ae.list.map fun x =>
          if x.id = id then { x with
            attempt := r.attempt + 1, state := .waitAck
            deadline := some (s.timeBase + s.config.quench.ack * 1000) } else x } ∧
        s.hears t (.quenchRequest id (r.attempt + 1) r.pot (s.place r.pot).1 (s.place r.pot).2) ∧
        s.keepsAllBut t [.ae, .ports, .out]) ∧
    (3 ≤ r.attempt →
      ∃ t : State, exec c s = .next t ∧
        t.ae = { s.ae with
          list := s.ae.list.map fun x =>
            if x.id = id then { x with state := .quenching, exhausted := true, deadline := none } else x
          unquenched := true } ∧
        (s.ae.unquenched = false → (t.entry (.line .aeUnquenched)).state = .active ∧
          (t.entry (.line .aeUnquenched)).detail = some (.unquenched id r.pot)) ∧
        (s.ae.unquenched = true → t.faults = s.faults ∧ t.line = s.line) ∧
        s.keepsAllBut t [.line, .claims, .groups, .cooling, .ae, .faults, .stack, .ports, .out]))

/-- The headroom step (R119, R120): the table of R120, its last column going first where two apply. An expiry of the allocation
timer leaves the headroom condition present exactly while the claim so written is active, and hands HEADROOM_LOW where that
changes, with U and U_lim (R121). That a group which joins from OUT is in the allocation set at this step is deduced (log 11),
and that a group with no valid frame counts 0 in U is the model's choice (log 37). -/
def Obligations.HeadroomStepWritesItsSlot : Prop :=
  (∀ (s : State) (d : Nat), s.responsesAllowed → s.line.allocTimer = some d →
    ∃ t : State, exec .allocationTimerExpiry s = .next t ∧ t.claims.headroom = s.expiryTable.headroom ∧
      t.ae = { s.ae with headroom := s.expiryTable.headroom.active } ∧
      s.handed t (.line .headroomLow) s.ae.headroom s.expiryTable.headroom.active
        (some (.headroom s.expiryVoltage (s.config.headroom.uMax - s.config.headroom.margin)))) ∧
  ∀ s : State,
    let u := s.busVoltage
    let limit := s.config.headroom.uMax - s.config.headroom.margin
    let c := s.claims.headroom
    let d := s.headroomStep.claims.headroom
    (u ≤ limit - s.config.headroom.hysteresis → d.active = false ∧ d.value = c.value) ∧
    (limit - s.config.headroom.hysteresis < u → u < limit → d = c) ∧
    (limit - s.config.headroom.hysteresis < u → limit ≤ u → s.line.iCmd ≤ 60000 → c.value ≤ 60000 →
      d.active = true ∧ d.value = (if c.active then c.value else s.line.iCmd) - s.config.headroom.step) ∧
    (d.active = c.active → d.value = c.value → d.changed = c.changed) ∧
    (∀ k : ClaimSlot, k ≠ .headroom → s.headroomStep.claims.get k = s.claims.get k) ∧
    s.keepsAllBut s.headroomStep [.claims]

/-! ### Metering and demand (chapter 7) -/

/-- METERING_TIMER_EXPIRY (R127): the line current, bus voltage, powers and the account of the interval are formed as its
steps say, each listed record of a pot that is not stale accrues its energy (R118), DEMAND_EXCEEDED is handed where the
exceedance begins (R139), the CURTAIL slot is written while an order is ACTIVE (R150), the orders whose enforcement time has come
are enforced (R151), the compliance test is made against the least enforced ceiling (R152, R153), and the timer starts again.
Which order's tag CURTAIL_MISSED carries where several give that ceiling is a free value (log 29), that the line current
saturates is deduced (log 15), and that a group with no valid frame counts 0 in it and in the bus voltage is the model's choice
(log 37). -/
def Obligations.MeteringExpiryAccountsTheInterval : Prop :=
  ∀ (s : State) (d : Nat) (i : Interval), s.metering.timer = some d → s.metering.interval = some i →
    ∃ (t : State) (j : Interval), exec .meteringTimerExpiry s = .next t ∧ t.metering.interval = some j ∧
      t.metering.timer = some (s.timeBase + 100) ∧
      t.metering.iM = s.measuredCurrent ∧ t.metering.u = s.busVoltage ∧
      t.metering.pDc = s.measuredCurrent * s.busVoltage / 1000 ∧
      t.metering.pBill = min 2000000 (t.metering.pDc * i.efficiency / 10000) ∧
      j.accumulator = min (2 ^ 48 - 1) (i.accumulator + t.metering.pDc * 100) ∧
      j.eUsed = min 4294967295 (j.accumulator * i.efficiency / 10000000) ∧ j.peak = max i.peak t.metering.pDc ∧
      j.exceeded = (i.exceeded || (!s.metering.exceedance && decide (i.demand * (i.length * 60) < j.eUsed))) ∧
      t.metering.exceedance = (s.metering.exceedance || decide (i.demand * (i.length * 60) < j.eUsed)) ∧
      j.number = i.number ∧ j.start = i.start ∧ j.deadline = i.deadline ∧ j.efficiency = i.efficiency ∧
      j.demand = i.demand ∧ t.curtail.lastVoltage = s.busVoltage ∧
      t.ae = { s.ae with list := s.ae.list.map fun r =>
        if (s.pot r.pot).stale = true then r
        else { r with energy := min (2 ^ 48 - 1) (r.energy +
          ((s.pot r.pot).last - s.config.quench.nominal) * s.measuredCurrent / 100000 * 100) } } ∧
      s.handed t (.line .demandExceeded) s.metering.exceedance t.metering.exceedance
        (some (.demand j.eUsed (i.demand * (i.length * 60)))) ∧
      t.curtail.orders = s.curtail.orders.map (fun o =>
        { o with enforced := o.enforced ||
          (o.state == .active && o.enforcement.any fun e => decide (e ≤ s.timeBase)) }) ∧
      ((∃ o ∈ s.curtail.orders, o.state = .active) → s.curtailLaid t i.efficiency) ∧
      ((∀ o ∈ s.curtail.orders, o.state ≠ .active) → t.claims.curtail = s.claims.curtail ∧
        t.curtail.value = s.curtail.value ∧ t.curtail.holdMark = s.curtail.holdMark) ∧
      ((∀ o ∈ t.curtail.orders, ¬ (o.state = .active ∧ o.enforced = true)) →
        t.curtail.run = 0 ∧ t.curtail.compliance = s.curtail.compliance ∧ j.breaches = i.breaches ∧
        s.handed t (.line .curtailMissed) true true none) ∧
      (∀ x ∈ t.curtail.orders, x.state = .active → x.enforced = true →
        (∀ o ∈ t.curtail.orders, o.state = .active → o.enforced = true → x.ceiling ≤ o.ceiling) →
        (t.metering.pBill ≤ x.ceiling →
          t.curtail.run = 0 ∧ t.curtail.compliance = false ∧ j.breaches = i.breaches ∧
          s.handed t (.line .curtailMissed) s.curtail.compliance false none) ∧
        (x.ceiling < t.metering.pBill → s.curtail.compliance = true →
          t.curtail.run = s.curtail.run ∧ t.curtail.compliance = true ∧ j.breaches = i.breaches ∧
          s.handed t (.line .curtailMissed) true true none) ∧
        (x.ceiling < t.metering.pBill → s.curtail.compliance = false → s.curtail.run < 9 →
          t.curtail.run = s.curtail.run + 1 ∧ t.curtail.compliance = false ∧ j.breaches = i.breaches ∧
          s.handed t (.line .curtailMissed) true true none) ∧
        (x.ceiling < t.metering.pBill → s.curtail.compliance = false → 9 ≤ s.curtail.run →
          t.curtail.run = 0 ∧ t.curtail.compliance = true ∧ j.breaches = min 65535 (i.breaches + 1) ∧
          ∃ y ∈ t.curtail.orders, y.state = .active ∧ y.enforced = true ∧ y.ceiling = x.ceiling ∧
            s.handed t (.line .curtailMissed) false true
              (some (.curtail t.metering.pBill x.ceiling y.tag)))) ∧
      s.keepsAllBut t [.line, .claims, .groups, .cooling, .ae, .metering, .curtail, .faults, .stack, .ports, .out]

/-- The demand step (R137, R138): with demand control ON and the calendar valid the DEMAND slot takes the ceiling,
computed from the allowed energy left unless the guard time or the bus voltage holds it; otherwise the slot is
withdrawn. Where two grounds hold at once the hold reason is a free value (log 18). A metering expiry takes this step from the
account it has formed and the slot and ceiling held before it (R127). -/
def Obligations.DemandStepLaysTheDemandClaim : Prop :=
  (∀ (s : State) (d : Nat), s.metering.timer = some d →
    ∃ t : State, exec .meteringTimerExpiry s = .next t ∧
      let u := { t with claims := s.claims, metering := { t.metering with ceiling := s.metering.ceiling } }
      t.claims.demand = u.demandStep.claims.demand ∧ t.metering.ceiling = u.demandStep.metering.ceiling ∧
        t.metering.holdReason = u.demandStep.metering.holdReason) ∧
  ∀ (s : State) (i : Interval), s.metering.interval = some i →
    let t := s.demandStep
    let eAllow := i.demand * (10000 - s.config.demandMargin) / 10000 * (i.length * 60)
    (s.config.demandControl = true → s.metering.calendar ≠ none →
      t.claims.demand.active = true ∧
      (s.config.guardTime < i.deadline - s.timeBase → 1000 ≤ s.metering.u → 0 < i.efficiency →
        t.metering.holdReason = .none ∧
        t.claims.demand.value = min 60000
          ((eAllow - i.eUsed) * 1000 / (i.deadline - s.timeBase) * 10000 / i.efficiency * 1000 / s.metering.u)) ∧
      (i.deadline - s.timeBase ≤ s.config.guardTime ∨ s.metering.u < 1000 →
        t.claims.demand.value = min 60000 s.metering.ceiling ∧ t.metering.ceiling = s.metering.ceiling ∧
        (1000 ≤ s.metering.u → t.metering.holdReason = .guard) ∧
        (s.config.guardTime < i.deadline - s.timeBase → t.metering.holdReason = .voltage) ∧
        (t.metering.holdReason = .guard ∨ t.metering.holdReason = .voltage))) ∧
    (s.config.demandControl = false ∨ s.metering.calendar = none →
      t.claims.demand.active = false ∧ t.claims.demand.value = s.claims.demand.value ∧ t.metering.ceiling = 60000 ∧
      (s.metering.calendar ≠ none → t.metering.holdReason = .off) ∧
      (s.config.demandControl = true → t.metering.holdReason = .noCalendar) ∧
      (t.metering.holdReason = .off ∨ t.metering.holdReason = .noCalendar)) ∧
    s.keepsAllBut t [.claims, .metering]

/-- The interval deadline, the sync pulse and the sync window (R130 to R133): what each closes, marks, opens and reports. At a
close the record enters the ring (R140, R141), every HISTORY cursor keeps to its record (R185), a present exceedance departs
(R131, R139), and the next interval begins with its deadline, window and CURTAILED mark (R129, R131, R136). -/
def Obligations.PulsesAndDeadlinesCloseIntervals : Prop :=
  (∀ (s : State) (i : Interval), s.metering.interval = some i →
    ∃ (t : State) (j : Interval) (h : History), exec .intervalDeadlineExpiry s = .next t ∧
      i.closesAs h s.timeBase ∧ h.unsynced = true ∧ h.short = false ∧
      j.number = min 4294967295 (i.number + 1) ∧ j.begins s.config s.timeBase s.metering.calendar ∧
      (j.curtailed = true ↔ ∃ o ∈ s.curtail.orders, o.state = .active) ∧
      t.metering = { s.metering with
        ring := (h :: s.metering.ring).take 96, interval := some j, exceedance := false
        sync := some ⟨.afterTimer, s.timeBase + 2000⟩ } ∧
      s.handed t (.line .demandExceeded) s.metering.exceedance false none ∧ s.cursorsFollow t ∧ t.out = [] ∧
      s.keepsAllBut t [.metering, .faults, .ports, .out]) ∧
  (∀ (s : State) (i : Interval), s.metering.interval = some i → s.metering.sync = none →
    ∃ (t : State) (j : Interval) (h : History), exec .syncPulse s = .next t ∧
      i.closesAs h s.timeBase ∧ h.unsynced = false ∧ h.short = decide (s.timeBase + 2000 < i.deadline) ∧
      j.number = min 4294967295 (i.number + 1) ∧ j.begins s.config s.timeBase s.metering.calendar ∧
      (j.curtailed = true ↔ ∃ o ∈ s.curtail.orders, o.state = .active) ∧
      t.metering = { s.metering with
        ring := (h :: s.metering.ring).take 96, interval := some j, exceedance := false
        sync := some ⟨.afterPulse, s.timeBase + 2000⟩ } ∧
      s.hears t (.intervalClosed h 0) ∧
      s.handed t (.line .demandExceeded) s.metering.exceedance false none ∧ s.cursorsFollow t ∧ t.out = [] ∧
      s.keepsAllBut t [.metering, .faults, .ports, .out]) ∧
  (∀ (s : State) (w : SyncWindow), s.metering.sync = some w → w.kind = .afterPulse →
    exec .syncPulse s = .next { s with
      out := [], metering := { s.metering with repeated := min 65535 (s.metering.repeated + 1) } } ∧
    exec .syncWindowExpiry s = .next { s with out := [], metering := { s.metering with sync := none } }) ∧
  (∀ (s : State) (w : SyncWindow) (h : History) (rest : List History), s.metering.sync = some w →
    w.kind = .afterTimer → s.metering.ring = h :: rest →
    (∃ t : State, exec .syncPulse s = .next t ∧
      t.metering = { s.metering with sync := none, ring := { h with unsynced := false } :: rest } ∧
      s.hears t (.intervalClosed { h with unsynced := false } 0) ∧ s.portsQuiet t ∧
      s.keepsAllBut t [.metering, .ports, .out]) ∧
    ∃ t : State, exec .syncWindowExpiry s = .next t ∧ t.metering = { s.metering with sync := none } ∧
      s.hears t (.intervalClosed h 0) ∧ s.portsQuiet t ∧ s.keepsAllBut t [.metering, .ports, .out])

/-- SET_CLOCK past the tests of R182 (R125, R129): an impossible position is refused; otherwise the calendar takes it and
the interval's deadline moves to the first boundary more than 2,000 ms after it, saturating as a time base (00_scope.md 4.2). -/
def Obligations.SetClockMovesTheDeadlineToABoundary : Prop :=
  ∀ (rq : Req) (day tod : Nat) (s : State),
    s.refusesOthers rq .setClock (.setClock rq day tod) [.energy] ∧
    (s.ready (.setClock rq day tod) →
    (6 < day ∨ 86399999 < tod → exec (.setClock rq day tod) s = .next (s.answered rq .setClock .outOfRange [])) ∧
    (∀ i : Interval, day ≤ 6 → tod ≤ 86399999 → s.metering.interval = some i → 0 < i.length →
      ∃ distance : Nat, 2000 < distance ∧ distance ≤ 2000 + i.length * 60000 ∧
        (tod + distance) % (i.length * 60000) = 0 ∧
        exec (.setClock rq day tod) s = .next
          (({ s with metering := { s.metering with
                calendar := some ⟨day, tod⟩
                interval := some { i with deadline := min (2 ^ 40 - 1) (s.timeBase + distance) } } } : State).answered
            rq .setClock .ok [])))

/-! ### Curtailment (chapter 8) -/

/-- POST_ORDER past the tests of R182 (R145, R146, R148): the tests in turn, and an accepted order in the list in its place,
PENDING until its start, or ACTIVE at once for a delay of 0 with its ACTIVE notice, the CURTAILED mark of the interval and the
CURTAIL slot written (R150). Its times are time bases and saturate as such (00_scope.md 4.2; log 26). -/
def Obligations.PostedOrdersEnterTheList : Prop :=
  ∀ (rq : Req) (tag delay duration ceiling : Nat) (s : State),
    let c : Instr := .postOrder rq tag delay duration ceiling
    s.refusesOthers rq .postOrder c [.energy] ∧
    (s.ready c →
    (tag = 0 ∨ 255 < tag ∨ 86400 < delay ∨ duration < 60 ∨ 14400 < duration →
      exec c s = .next (s.answered rq .postOrder .outOfRange [])) ∧
    (1 ≤ tag → tag ≤ 255 → delay ≤ 86400 → 60 ≤ duration → duration ≤ 14400 →
      ((∃ o ∈ s.curtail.orders, o.tag = tag) → exec c s = .next (s.answered rq .postOrder .duplicate [])) ∧
      ((∀ o ∈ s.curtail.orders, o.tag ≠ tag) → 4 ≤ s.curtail.orders.length →
        exec c s = .next (s.answered rq .postOrder .full [])) ∧
      ((∀ o ∈ s.curtail.orders, o.tag ≠ tag) → s.curtail.orders.length < 4 →
        ∃ (t : State) (o : CurtailOrder) (before after : List CurtailOrder), exec c s = .next t ∧
          s.curtail.orders = before ++ after ∧ t.curtail.orders = before ++ o :: after ∧
          (∀ x ∈ before, s.curtail.orders.Pairwise (fun a b => a.start ≤ b.start) → x.start ≤ o.start) ∧
          (∀ x ∈ after.take 1, o.start < x.start) ∧
          o.tag = tag ∧ o.ceiling = min ceiling 2000000 ∧ o.start = min (2 ^ 40 - 1) (s.timeBase + delay * 1000) ∧
          s.hears t (.orderState tag .pending o.ceiling o.start o.stop (s.curtail.orders.length + 1)) ∧
          o.stop = min (2 ^ 40 - 1) (o.start + duration * 1000) ∧ o.duration = duration ∧ o.port = rq.port ∧
          o.enforced = false ∧
          s.portsAnswer t rq .postOrder (if 2000000 < ceiling then .okClamped else .ok) [] ∧ t.out = [] ∧
          (0 < delay → o.state = .pending ∧ t.claims = s.claims ∧ t.metering = s.metering) ∧
          (delay = 0 → o.state = .active ∧ o.activation = some s.timeBase ∧
            o.enforcement = some (min (2 ^ 40 - 1) (s.timeBase + s.config.curtailGrace * 1000)) ∧
            s.hears t (.orderState tag .active o.ceiling o.start o.stop (s.curtail.orders.length + 1)) ∧
            t.metering = { s.metering with
              interval := s.metering.interval.map fun i => { i with curtailed := true } } ∧
            t.curtail.lastVoltage = s.curtail.lastVoltage ∧ s.curtailLaid t s.efficiency ∧
            t.claims.curtail.active = true) ∧
          s.keepsAllBut t [.claims, .metering, .curtail, .ports, .out])))

/-- CANCEL_ORDER and the two deadlines of an order (R147 to R150, R153): what leaves or changes in the list, the CURTAIL claim
after it, and the departure of the compliance condition where the enforced set is left empty. An enforcement time saturates as a
time base (00_scope.md 4.2; log 26). -/
def Obligations.OrdersStartEndAndAreCancelled : Prop :=
  (∀ (rq : Req) (tag : Nat) (s : State), s.ready (.cancelOrder rq tag) →
    (tag = 0 ∨ 255 < tag → exec (.cancelOrder rq tag) s = .next (s.answered rq .cancelOrder .outOfRange [])) ∧
    (1 ≤ tag → tag ≤ 255 → (∀ o ∈ s.curtail.orders, o.tag ≠ tag) →
      exec (.cancelOrder rq tag) s = .next (s.answered rq .cancelOrder .notFound [])) ∧
    (∀ o : CurtailOrder, 1 ≤ tag → tag ≤ 255 → s.curtail.ofTag tag = some o → o.state = .pending →
      ∃ t : State, exec (.cancelOrder rq tag) s = .next t ∧
        t.curtail = { s.curtail with orders := s.curtail.orders.filter fun x => x.tag != tag } ∧
        s.portsAnswer t rq .cancelOrder .ok [] ∧
        s.hears t (.orderState tag .cancelled o.ceiling o.start o.stop t.curtail.orders.length) ∧
        s.keepsAllBut t [.curtail, .ports, .out]) ∧
    (∀ o : CurtailOrder, 1 ≤ tag → tag ≤ 255 → s.curtail.ofTag tag = some o → o.state = .active →
      ∃ t : State, exec (.cancelOrder rq tag) s = .next t ∧
        t.curtail.orders = s.curtail.orders.filter (fun x => x.tag != tag) ∧
        s.portsAnswer t rq .cancelOrder .ok [] ∧
        s.hears t (.orderState tag .cancelled o.ceiling o.start o.stop t.curtail.orders.length) ∧
        ((∀ x ∈ t.curtail.orders, x.state ≠ .active) → t.claims.curtail.active = false) ∧
        ((∃ x ∈ t.curtail.orders, x.state = .active) → t.claims.curtail.active = true) ∧
        s.curtailLaid t s.efficiency ∧ t.curtail.lastVoltage = s.curtail.lastVoltage ∧
        ((∀ x ∈ t.curtail.orders, ¬ (x.state = .active ∧ x.enforced = true)) →
          t.curtail.run = 0 ∧ t.curtail.compliance = false ∧
          s.handed t (.line .curtailMissed) s.curtail.compliance false none) ∧
        ((∃ x ∈ t.curtail.orders, x.state = .active ∧ x.enforced = true) →
          t.curtail.run = s.curtail.run ∧ t.curtail.compliance = s.curtail.compliance ∧
          s.handed t (.line .curtailMissed) true true none) ∧
        s.keepsAllBut t [.claims, .curtail, .faults, .ports, .out])) ∧
  (∀ (s : State) (tag : Nat) (o : CurtailOrder), s.curtail.ofTag tag = some o → o.state = .pending →
    ∃ t : State, exec (.orderStartDeadline tag) s = .next t ∧
      t.curtail.orders = s.curtail.orders.map (fun x => if x.tag = tag then { x with
        state := .active, activation := some s.timeBase
        enforcement := some (min (2 ^ 40 - 1) (s.timeBase + s.config.curtailGrace * 1000)) } else x) ∧
      t.curtail.lastVoltage = s.curtail.lastVoltage ∧ s.curtailLaid t s.efficiency ∧
      s.hears t (.orderState tag .active o.ceiling o.start o.stop s.curtail.orders.length) ∧
      (∀ i : Interval, s.metering.interval = some i →
        t.metering.interval = some { i with curtailed := true }) ∧
      t.claims.curtail.active = true ∧ s.portsQuiet t ∧
      s.keepsAllBut t [.claims, .metering, .curtail, .ports, .out]) ∧
  (∀ (s : State) (tag : Nat) (o : CurtailOrder), s.curtail.ofTag tag = some o → o.state = .active →
    ∃ t : State, exec (.orderEndDeadline tag) s = .next t ∧
      t.curtail.orders = s.curtail.orders.filter (fun x => x.tag != tag) ∧
      s.hears t (.orderState tag .done o.ceiling o.start o.stop t.curtail.orders.length) ∧
      ((∀ x ∈ t.curtail.orders, x.state ≠ .active) → t.claims.curtail.active = false) ∧
      ((∃ x ∈ t.curtail.orders, x.state = .active) → t.claims.curtail.active = true) ∧
      s.curtailLaid t s.efficiency ∧ t.curtail.lastVoltage = s.curtail.lastVoltage ∧
      ((∀ x ∈ t.curtail.orders, ¬ (x.state = .active ∧ x.enforced = true)) →
        t.curtail.run = 0 ∧ t.curtail.compliance = false ∧
        s.handed t (.line .curtailMissed) s.curtail.compliance false none) ∧
      ((∃ x ∈ t.curtail.orders, x.state = .active ∧ x.enforced = true) →
        t.curtail.run = s.curtail.run ∧ t.curtail.compliance = s.curtail.compliance ∧
        s.handed t (.line .curtailMissed) true true none) ∧
      s.keepsAllBut t [.claims, .curtail, .faults, .ports, .out])

/-! ### Faults (chapter 9) -/

/-- An onset (R158, R159): from CLEAR the entry is opened from its row with the response the row and the kind give, from LATCHED
it is reopened with the fields it holds, in ACTIVE only the count, the last time and the detail move. In the first two the lines
are evaluated, with the capture flag a frame of the entry after step 1 and the body of the moment before the response is pushed
(R172), the FAULT_ONSET notice is placed, and but for what the responses do nothing else changes; where the entry carries NOTE
alone and captures nothing, nothing else changes at all. That an opened entry holds its row's reduce percent whatever its
response is deduced (log 14); that the current of a group with no frame is absent in the body is the model's choice (log 21). -/
def Obligations.NoteOnsetRecordsDrivesAndReports : Prop :=
  principalsNamed ∧
  ∀ (s : State) (id : FaultId) (detail : Option Detail),
    ((s.entry id).state = .clear → s.responsesAllowed →
      let row := s.config.actions.get id.kind
      s.onsetTaken (s.onset id detail) id .clear detail
        { state := .active, first := s.timeBase, last := s.timeBase, count := 1
          response := some ⟨row.response, id.kind.forcesRemove⟩, route := row.route, capture := row.capture
          reducePercent := some row.percent, reduceValue := .absent, detail := detail } ∧
      (row.response ≠ .reduce → ((s.onset id detail).entry id).reduceValue = .absent)) ∧
    ((s.entry id).state = .latched → s.responsesAllowed →
      s.onsetTaken (s.onset id detail) id .latched detail
        { s.entry id with
          state := .active, count := min 255 ((s.entry id).count + 1), last := s.timeBase, detail := detail } ∧
      ((s.entry id).reduceValue ≠ .pending ∨ (s.entry id).carries .hold = false →
        ((s.onset id detail).entry id).reduceValue = (s.entry id).reduceValue)) ∧
    ((s.entry id).state = .clear → (s.config.actions.get id.kind).response = .note →
      (s.config.actions.get id.kind).capture = false → id.kind.forcesRemove = false →
      let t := s.onset id detail
      t.entry id =
        { state := .active, first := s.timeBase, last := s.timeBase, count := 1
          response := some ⟨.note, false⟩, route := (s.config.actions.get id.kind).route, capture := false
          reducePercent := some (s.config.actions.get id.kind).percent, reduceValue := .absent, detail := detail } ∧
      (∀ j : FaultId, j ≠ id → t.entry j = s.entry j) ∧
      t.faults.lineA = t.faults.table.drivenA ∧ t.faults.lineB = t.faults.table.drivenB ∧
      s.hears t (.faultOnset id .clear 1 s.timeBase s.timeBase (some ⟨.note, false⟩)
        (s.config.actions.get id.kind).route .absent detail t.faults.lineA t.faults.lineB) ∧
      s.keepsAllBut t [.faults, .ports]) ∧
    ((s.entry id).state = .latched → (s.entry id).response = some ⟨.note, false⟩ → (s.entry id).capture = false →
      let t := s.onset id detail
      t.entry id = { s.entry id with
        state := .active, count := min 255 ((s.entry id).count + 1), last := s.timeBase, detail := detail } ∧
      (∀ j : FaultId, j ≠ id → t.entry j = s.entry j) ∧
      t.faults.lineA = t.faults.table.drivenA ∧ t.faults.lineB = t.faults.table.drivenB ∧
      s.hears t (.faultOnset id .latched (min 255 ((s.entry id).count + 1)) (s.entry id).first s.timeBase
        (some ⟨.note, false⟩) (s.entry id).route (s.entry id).reduceValue detail t.faults.lineA t.faults.lineB) ∧
      s.keepsAllBut t [.faults, .ports]) ∧
    ((s.entry id).state = .active →
      s.onset id detail = s.setEntry id { s.entry id with
        count := min 255 ((s.entry id).count + 1), last := s.timeBase, detail := detail })

/-- What the responses do to the line at an onset from CLEAR (R4, R7, R15, R163 to R166): HOLD holds a regulating line, REDUCE
takes its value from I_m while the line regulates or holds, with the FAULT slot then at the least set reduce value that stands,
and leaves it PENDING otherwise, TRIP trips the line with every group blocked and sends the eight order frames of 0 with the
block flag at once, closing an open adopt window (R22) and ending CAPACITY_SHORT (R46), and a forced or configured REMOVE first
removes the group, with its ceilings 0, its tracking timer stopped and, in a running state, its order frame of 0 with the block
flag sent at once (R17). A group that leaves the allocation set leaves GRACE (R69). The ascending order of the frames of a TRIP
among the eight links is the model's choice (log 35). -/
def Obligations.ResponsesActOnTheLine : Prop :=
  ∀ (s : State) (id : FaultId) (detail : Option Detail), s.responsesAllowed → (s.entry id).state = .clear →
    let row := s.config.actions.get id.kind
    let removes := id.kind.forcesRemove = true ∨ row.response = .remove
    let first := s.orderedAtRemove id ⟨row.response, id.kind.forcesRemove⟩
    let t := s.onset id detail
    (t.entry id).state = .active ∧ s.graceFollows t ∧
    (row.response = .hold → s.line.state = some .regulating →
      t.line.state = some .hold ∧ t.line.iCmd = s.line.iCmd) ∧
    (row.response = .hold → s.line.state ≠ some .regulating → t.line.state = s.line.state) ∧
    (row.response = .reduce → s.regulates = true →
      (t.entry id).reduceValue = .set (s.metering.iM * row.percent / 100) ∧ t.claims.fault.active = true ∧
      s.faultLaid t ∧ t.line = s.line) ∧
    (row.response = .reduce → s.regulates = false →
      (t.entry id).reduceValue = .pending ∧ t.claims.fault = s.claims.fault) ∧
    (row.response = .trip → s.line.state ≠ none → s.line.state ≠ some .tripped →
      t.line.state = some .tripped ∧ t.line.iCmd = 0 ∧ t.line.residual = 0 ∧ t.line.capacityShort = false ∧
      (s.line.state = some .adopting → t.line.adoptDeadline = none) ∧
      s.hears t (.lineState .tripped s.line.state .fault) ∧
      s.handed t (.line .capacityShort) s.line.capacityShort false none ∧
      t.out = s.out ++ first.map (fun g => Sent.order g 0 true (((s.group g).sequence + 1) % 256)) ++
        allGroups.map (fun g =>
          Sent.order g 0 true (((s.group g).sequence + (if g ∈ first then 2 else 1)) % 256)) ∧
      ∀ g : Group, (t.group g).lastOrder = 0 ∧ (t.group g).blockFlag = true ∧
        (t.group g).service ≠ .joining ∧ (t.group g).service ≠ .leaving) ∧
    (row.response = .trip → s.line.state = none ∨ s.line.state = some .tripped → t.line = s.line) ∧
    (row.response ≠ .trip ∨ s.line.state = none ∨ s.line.state = some .tripped →
      t.out = s.out ++ first.map (fun g => Sent.order g 0 true (((s.group g).sequence + 1) % 256)) ∧
      ∀ g : Group, ¬ (removes ∧ id.group? = some g) → t.group g = s.group g) ∧
    (∀ g : Group, removes → id.group? = some g →
      ((s.group g).service ≠ .linkLost → (t.group g).service = .removed) ∧
      ((s.group g).service = .linkLost → (t.group g).service = .linkLost) ∧
      ((s.group g).service ≠ .linkLost → (s.group g).service ≠ .removed →
        (t.group g).joinCeiling = 0 ∧ (t.group g).leaveCeiling = 0 ∧ (t.group g).trackingTimer = none ∧
        (t.group g).linkTimer = none ∧ s.hears t (.groupState g .removed (s.group g).service .fault) ∧
        (s.running = true → (t.group g).lastOrder = 0 ∧ (t.group g).blockFlag = true) ∧
        (s.running = true → row.response ≠ .trip →
          (t.group g).sequence = ((s.group g).sequence + 1) % 256)) ∧
      (row.response ≠ .trip → (s.group g).service = .linkLost ∨ (s.group g).service = .removed →
        t.group g = s.group g))

/-- A departure (R160): an ACTIVE entry becomes LATCHED with every other field, the lines, the claims, the line and the
groups kept and a FAULT_LATCHED notice placed; for a CLEAR or LATCHED entry it changes nothing. -/
def Obligations.DepartureLatchesAnActiveEntry : Prop :=
  ∀ (s : State) (id : FaultId),
    ((s.entry id).state = .active →
      (s.departure id).entry id = { s.entry id with state := .latched } ∧
      (∀ j : FaultId, j ≠ id → (s.departure id).entry j = s.entry j) ∧
      (s.departure id).faults.lineA = s.faults.lineA ∧ (s.departure id).faults.lineB = s.faults.lineB ∧
      s.hears (s.departure id) (.faultLatched id (s.entry id).count s.timeBase) ∧ s.portsQuiet (s.departure id) ∧
      s.keepsAllBut (s.departure id) [.faults, .ports]) ∧
    ((s.entry id).state ≠ .active → s.departure id = s)

/-- CLEAR_FAULT past the tests of R182 (R161): the entry's name and state decide the answer, and a LATCHED entry takes its
CLEAR values, the lines follow, the FAULT claim is laid again from the entries that remain where the entry carried REDUCE (R164),
and a line held by it alone regulates again. -/
def Obligations.ClearFaultEndsALatchedEntry : Prop :=
  ∀ (rq : Req) (kind group : Nat) (s : State), s.ready (.clearFault rq kind group) →
    (12 < kind ∨ (kind < 6 ∧ 7 < group) →
      exec (.clearFault rq kind group) s = .next (s.answered rq .clearFault .outOfRange [])) ∧
    ∀ id : FaultId, id.kind.number = kind → (∀ g : Group, id.group? = some g → group = g.val) →
      ((s.entry id).state = .active →
        exec (.clearFault rq kind group) s = .next (s.answered rq .clearFault .conditionPresent [])) ∧
      ((s.entry id).state = .clear →
        exec (.clearFault rq kind group) s = .next (s.answered rq .clearFault .notSet [])) ∧
      ((s.entry id).state = .latched →
        ∃ t : State, exec (.clearFault rq kind group) s = .next t ∧ t.entry id = clearEntry ∧
          t.faults.lineA = t.faults.table.drivenA ∧ t.faults.lineB = t.faults.table.drivenB ∧
          s.portsAnswer t rq .clearFault .ok [] ∧ t.out = [] ∧
          s.hears t (.faultCleared id (s.entry id).count rq.port t.faults.lineA t.faults.lineB) ∧
          (s.line.state ≠ some .hold → t.line = s.line ∧ ∀ j : FaultId, j ≠ id → t.entry j = s.entry j) ∧
          (s.line.state = some .hold →
            (t.line.state = some .regulating ↔ (s.entry id).carries .hold = true ∧ t.holdStands = false) ∧
            t.line.iCmd = s.line.iCmd) ∧
          ((s.entry id).carries .reduce = true → s.faultLaid t) ∧
          ((s.entry id).carries .reduce = false →
            (s.line.state = some .hold → ∀ j : FaultId, (s.entry j).reduceValue ≠ .pending) → t.claims = s.claims) ∧
          (∀ k : ClaimSlot, k ≠ .fault → t.claims.get k = s.claims.get k) ∧ t.claims.adopted = s.claims.adopted ∧
          s.keepsAllBut t [.line, .claims, .faults, .ports, .out])

/-! ### The snapshot stack (chapter 10) -/

/-- A push request and the completion of a write (R173 to R175): with no write in progress and room the frame is placed below
the top with the next sequence and the missed count, behind a write it waits, or is counted as missed when 3 wait; at the
completion it is the newest on the stack, its notice is placed, and the write of the first waiting frame that fits starts with
the next sequence and the missed count, in which each waiting frame before it that did not fit is counted. What a frame's body
captures is the state of the moment (R172, Table 10-1). That frames are kept whole (log 20), and that the current of a group with
no valid frame is absent in them (log 21), are the model's choices. -/
def Obligations.FramesAreWrittenAndStacked : Prop :=
  (∀ (st : SnapshotStack) (c : Captured),
    (st.writing = none → st.waiting = [] → c.cause.length ≤ st.top →
      st.push c = { st with
        writing := some
          { address := st.top - c.cause.length, backLink := st.top, sequence := st.nextSequence
            missed := st.missed, length := c.cause.length, contents := c }
        nextSequence := (st.nextSequence + 1) % 65536, missed := 0 }) ∧
    (st.writing = none → st.waiting = [] → st.top < c.cause.length →
      st.push c = { st with missed := min 255 (st.missed + 1) }) ∧
    (st.writing ≠ none → st.waiting.length < 3 → st.push c = { st with waiting := st.waiting ++ [c] }) ∧
    (st.writing ≠ none → 3 ≤ st.waiting.length → st.push c = { st with missed := min 255 (st.missed + 1) })) ∧
  (∀ s : State,
    let b := s.captureBody
    b.lineState = s.line.state ∧ b.iCmd = s.line.iCmd ∧ b.target = s.line.target ∧ b.governing = s.line.governing ∧
    b.claims = ([ClaimSlot.fault, .headroom, .curtail, .demand, .cutout, .service, .setpoint].map fun k =>
      ((s.claims.get k).active, (s.claims.get k).value)) ∧
    b.iM = s.metering.iM ∧ b.u = s.metering.u ∧ b.rotation = s.line.rotation ∧ b.residual = s.line.residual ∧
    b.aeCount = s.ae.list.length ∧ b.aeHold = s.line.aeHold ∧
    (∀ i : Interval, s.metering.interval = some i → b.eUsed = i.eUsed) ∧
    ∀ g : Group, b.groups.get g =
      { service := (s.group g).service, order := (s.group g).lastOrder, block := (s.group g).blockFlag
        current := (s.group g).lastFrame.map StatusFrame.current }) ∧
  (∀ (s : State) (f : Frame), s.stack.writing = some f →
    ∃ t : State, exec .snapshotWriteComplete s = .next t ∧ t.stack.frames = f :: s.stack.frames ∧
      t.stack.top = f.address ∧
      s.hears t (.snapshotPushed f.sequence f.contents.cause f.address f.length f.missed (4096 - f.address)
        (s.stack.frames.length + 1)) ∧
      (s.stack.waiting = [] → t.stack.writing = none ∧ t.stack.waiting = [] ∧
        t.stack.nextSequence = s.stack.nextSequence ∧ t.stack.missed = s.stack.missed) ∧
      (∀ (c : Captured) (cs : List Captured), s.stack.waiting = c :: cs → c.cause.length ≤ f.address →
        t.stack.waiting = cs ∧ ∃ w : Frame, t.stack.writing = some w ∧ w.contents = c ∧
          w.address = f.address - c.cause.length ∧ w.length = c.cause.length ∧
          w.backLink = f.address ∧ w.sequence = s.stack.nextSequence ∧ w.missed = s.stack.missed ∧
          t.stack.nextSequence = (s.stack.nextSequence + 1) % 65536 ∧ t.stack.missed = 0) ∧
      (∀ (c : Captured) (cs : List Captured), s.stack.waiting = c :: cs → f.address < c.cause.length →
        exec .snapshotWriteComplete
            { s with stack := { s.stack with waiting := cs, missed := min 255 (s.stack.missed + 1) } } = .next t) ∧
      s.portsQuiet t ∧ s.keepsAllBut t [.stack, .ports, .out])

/-- DROP_TOP and DROP_ALL past the tests of R182, each with its whole next state (R177, R178). With frames pending
DROP_ALL writes the first of them at the top of the empty store with the missed count it has formed, and the start of that
write, not the drop, uses the next sequence and leaves the missed count at 0 (R174). -/
def Obligations.DropsTakeFramesFromTheTop : Prop :=
  (∀ (rq : Req) (n : Nat) (s : State),
    s.refusesOthers rq .dropTop (.dropTop rq n) [.substation, .service] ∧
    s.refusesOthers rq .dropAll (.dropAll rq) [.substation, .service]) ∧
  (∀ (rq : Req) (n : Nat) (s : State), s.ready (.dropTop rq n) →
    (65535 < n → exec (.dropTop rq n) s = .next (s.answered rq .dropTop .outOfRange [])) ∧
    (n ≤ 65535 → s.stack.frames = [] → s.stack.writing = none →
      exec (.dropTop rq n) s = .next (s.answered rq .dropTop .notFound [])) ∧
    (n ≤ 65535 → s.stack.writing ≠ none → exec (.dropTop rq n) s = .next (s.answered rq .dropTop .moved [])) ∧
    ∀ (f : Frame) (rest : List Frame), n ≤ 65535 → s.stack.writing = none → s.stack.frames = f :: rest →
      (n ≠ f.sequence → exec (.dropTop rq n) s = .next (s.answered rq .dropTop .moved [])) ∧
      (n = f.sequence → exec (.dropTop rq n) s = .next
        (({ s with stack := { s.stack with frames := rest, top := f.backLink } } : State).answered rq .dropTop .ok []))) ∧
  (∀ (rq : Req) (s : State), s.ready (.dropAll rq) →
    (s.stack.writing = none → exec (.dropAll rq) s = .next
      (({ s with stack := { s.stack with frames := [], top := 4096 } } : State).answered rq .dropAll .ok [])) ∧
    (∀ f : Frame, s.stack.writing = some f → s.stack.waiting = [] → exec (.dropAll rq) s = .next
      (({ s with stack := { s.stack with
          frames := [], top := 4096, writing := none, waiting := []
          missed := min 255 (s.stack.missed + (f.missed + 1)) } } : State).answered rq .dropAll .ok [])) ∧
    (∀ (f : Frame) (c : Captured) (cs : List Captured), s.stack.writing = some f → s.stack.waiting = c :: cs →
      exec (.dropAll rq) s = .next
        (({ s with stack := { s.stack with
            frames := [], top := 4096, waiting := cs, missed := 0
            nextSequence := (s.stack.nextSequence + 1) % 65536
            writing := some
              { address := 4096 - c.cause.length, backLink := 4096, sequence := s.stack.nextSequence
                missed := min 255 (s.stack.missed + (f.missed + 1)), length := c.cause.length, contents := c } } } :
            State).answered rq .dropAll .ok [])))

/-! ### The configuration store (chapter 11) -/

/-- WRITE_CONFIG past the tests of R182 (R187): the tests in turn, and every accepted write, which moves the generation by one,
is answered OK or OK_CLAMPED with the new generation and places CONFIG_CHANGED. Then what each item's own rule makes of the
write: the values that are only put in force with their clamp (R9, R35, R62, R70, R71, R75, R95, R101, R110, R119, R126, R134,
R135, R151, R157), the floor (R36), the rating and the loss fraction with the ceiling they form (R73), E and M (R65), T_M (R67),
the derate table (R71, R74), the thresholds (R75), the section descriptors (R83, R84), the band set (R93, R94) and the stale
limit (R92). That the eighth bit of a day mask names no day is the model's choice (log 30). -/
def Obligations.ConfigWritesAreTestedInTurnAndMoveTheGeneration : Prop :=
  (∀ (rq : Req) (index expected : Nat) (item : ItemWrite) (s : State),
    let c : Instr := .writeConfig rq index expected item
    s.ready c →
    (itemNamed item.code index = false → exec c s = .next (s.answered rq .writeConfig .outOfRange [])) ∧
    (itemNamed item.code index = true →
      (s.role rq.port ≠ itemRole item.code → s.role rq.port ≠ .service →
        exec c s = .next (s.answered rq .writeConfig .notPermitted [])) ∧
      (s.role rq.port ≠ itemRole item.code → s.role rq.port = .service → s.line.state ≠ some .standby →
        exec c s = .next (s.answered rq .writeConfig .badState [])) ∧
      (s.role rq.port = itemRole item.code ∨ (s.role rq.port = .service ∧ s.line.state = some .standby) →
        (expected ≠ s.store.generation → exec c s = .next (s.answered rq .writeConfig .staleGeneration [])) ∧
        (expected = s.store.generation →
          (∀ v : Nat, item = .upRate v →
            ∃ t : State, exec c s = .next t ∧ t.config = { s.config with upRate := max 1 (min 5000 v) } ∧
              t.store = { s.store with generation := (s.store.generation + 1) % 65536 } ∧
              s.portsAnswer t rq .writeConfig (if 1 ≤ v ∧ v ≤ 5000 then .ok else .okClamped)
                [.num 2 ((s.store.generation + 1) % 65536)] ∧
              s.hears t (.configChanged 2 0 ((s.store.generation + 1) % 65536) rq.port) ∧ t.out = [] ∧
              s.keepsAllBut t [.config, .store, .ports, .out]) ∧
          ∀ r : ResultCode, writeItem s index item = .refused r →
            exec c s = .next (s.answered rq .writeConfig r []))))) ∧
  (∀ (rq : Req) (v : Nat) (s : State),
    let c : Instr := .writeConfig rq 0 s.store.generation (.floor v)
    s.ready c → s.role rq.port = .substation →
    (s.regulates = true → s.line.iCmd < min 60000 v → exec c s = .next (s.answered rq .writeConfig .badState [])) ∧
    (s.regulates = false ∨ min 60000 v ≤ s.line.iCmd →
      ∃ t : State, exec c s = .next t ∧ t.config = { s.config with floor := min 60000 v } ∧
        t.store = { s.store with generation := (s.store.generation + 1) % 65536 } ∧
        s.portsAnswer t rq .writeConfig (if v ≤ 60000 then .ok else .okClamped)
          [.num 2 ((s.store.generation + 1) % 65536)] ∧
        s.keepsAllBut t [.config, .store, .ports, .out])) ∧
  -- every accepted write (R187)
  (∀ (rq : Req) (index : Nat) (item : ItemWrite) (s u : State) (clamped : Bool),
    let c : Instr := .writeConfig rq index s.store.generation item
    let gen := (s.store.generation + 1) % 65536
    s.ready c → itemNamed item.code index = true →
    s.role rq.port = itemRole item.code ∨ (s.role rq.port = .service ∧ s.line.state = some .standby) →
    writeItem (s.answering rq.port) index item = .accepted u clamped →
    ∃ t : State, exec c s = .next t ∧ u.keepsAllBut t [.store, .ports] ∧
      t.store = { s.store with generation := gen } ∧
      u.portsAnswer t rq .writeConfig (if clamped = true then .okClamped else .ok) [.num 2 gen] ∧
      s.hears t (.configChanged item.code index gen rq.port)) ∧
  -- the items of the part that are only put in force
  (∀ (s : State) (k v : Nat) (on : Bool),
    s.setsTo k (.upRate v) { s.config with upRate := max 1 (min 5000 v) } (v < 1 ∨ 5000 < v) ∧
    s.setsTo k (.downRate v) { s.config with downRate := max 1 (min 5000 v) } (v < 1 ∨ 5000 < v) ∧
    s.setsTo k (.startRate v) { s.config with startRate := max 1 (min 5000 v) } (v < 1 ∨ 5000 < v) ∧
    s.setsTo k (.stopRate v) { s.config with stopRate := max 1 (min 5000 v) } (v < 1 ∨ 5000 < v) ∧
    s.setsTo k (.derateHysteresis v) { s.config with derateHysteresis := min 200 v } (200 < v) ∧
    s.setsTo k (.alarmHysteresis v) { s.config with alarmHysteresis := min 200 v } (200 < v) ∧
    s.setsTo k (.switchingLimit v) { s.config with switchingLimit := min 60000 v } (60000 < v) ∧
    s.setsTo k (.efficiency v) { s.config with efficiency := max 10000 (min 11500 v) } (v < 10000 ∨ 11500 < v) ∧
    s.setsTo k (.demandMargin v) { s.config with demandMargin := min 1000 v } (1000 < v) ∧
    s.setsTo k (.guardTime v) { s.config with guardTime := min 300000 v } (300000 < v) ∧
    s.setsTo k (.defaultDemand v) { s.config with defaultDemand := min 2000000 v } (2000000 < v) ∧
    s.setsTo k (.curtailGrace v) { s.config with curtailGrace := min 3600 v } (3600 < v) ∧
    s.setsTo k (.holdOnAe on) { s.config with holdOnAe := on } False ∧
    s.setsTo k (.aeCapture on) { s.config with aeCapture := on } False ∧
    s.setsTo k (.demandControl on) { s.config with demandControl := on } False ∧
    (v = 5 ∨ v = 10 ∨ v = 15 ∨ v = 30 ∨ v = 60 →
      s.setsTo k (.intervalLength v) { s.config with intervalLength := v } False) ∧
    (v ≠ 5 ∧ v ≠ 10 ∧ v ≠ 15 ∧ v ≠ 30 ∧ v ≠ 60 → writeItem s k (.intervalLength v) = .refused .outOfRange) ∧
    (s.regulates = true ∧ s.line.iCmd < min 60000 v → writeItem s k (.floor v) = .refused .badState) ∧
    (s.regulates = false ∨ min 60000 v ≤ s.line.iCmd →
      s.setsTo k (.floor v) { s.config with floor := min 60000 v } (60000 < v))) ∧
  -- the sets, the thresholds, the tariff windows and the action rows
  (∀ (s : State) (k a b c d : Nat) (v : Int),
    (a ≤ b → writeItem s k (.detectionSet a b c d) = .refused .outOfOrder) ∧
    (b < a → s.setsTo k (.detectionSet a b c d)
      { s.config with detection := ⟨a, b, max 1 (min 15 c), max 1 (min 15 d)⟩ } (c < 1 ∨ 15 < c ∨ d < 1 ∨ 15 < d)) ∧
    s.setsTo k (.quenchSet a b c)
      { s.config with quench := ⟨max 1 (min 60 a), max 10 (min 1800 b), c⟩ } (a < 1 ∨ 60 < a ∨ b < 10 ∨ 1800 < b) ∧
    s.setsTo k (.headroomSet a b c d)
      { s.config with headroom := ⟨min 30000 a, min 5000 b, min 2000 c, max 1 (min 5000 d)⟩ }
      (30000 < a ∨ 5000 < b ∨ 2000 < c ∨ d < 1 ∨ 5000 < d) ∧
    (let x := max (-400) (min 1500 v)
     (s.config.tripThreshold ≤ x → writeItem s k (.warnThreshold v) = .refused .outOfOrder) ∧
     (x < s.config.tripThreshold →
       s.setsTo k (.warnThreshold v) { s.config with warnThreshold := x } (v < -400 ∨ 1500 < v)) ∧
     (x ≤ s.config.warnThreshold → writeItem s k (.tripThreshold v) = .refused .outOfOrder) ∧
     (s.config.warnThreshold < x →
       s.setsTo k (.tripThreshold v) { s.config with tripThreshold := x } (v < -400 ∨ 1500 < v)))) ∧
  (∀ (s : State) (k : Fin 8) (on : Bool) (a b demand price : Nat) (days : BitVec 8),
    (95 < a ∨ 95 < b ∨ 7 < price →
      writeItem s k.val (.tariffWindow on a b days demand price) = .refused .outOfRange) ∧
    (a ≤ 95 → b ≤ 95 → price ≤ 7 → s.setsTo k.val (.tariffWindow on a b days demand price)
      { s.config with windows := s.config.windows.set k ⟨on, a, b, days.setWidth 7, min 2000000 demand, price⟩ }
      (2000000 < demand))) ∧
  (∀ (s : State) (kind : FaultKind) (route response percent : Nat) (capture : Bool),
    (3 < route ∨ 4 < response →
      writeItem s kind.number (.actionRow route response percent capture) = .refused .outOfRange) ∧
    (∀ (r : Route) (a : Action), route = r.place → response = a.place →
      (kind.allows a = false →
        writeItem s kind.number (.actionRow route response percent capture) = .refused .outOfRange) ∧
      (kind.allows a = true → s.setsTo kind.number (.actionRow route response percent capture)
        { s.config with actions := s.config.actions.set kind ⟨r, a, max 10 (min 100 percent), capture⟩ }
        (percent < 10 ∨ 100 < percent)))) ∧
  -- the items of a group
  (∀ (s : State) (g : Group) (v : Nat) (f : Twelve Nat),
    let gc := s.groupConfig g
    let cooled (x : GroupConfig) : State := { s with
      config := s.configWith g x
      cooling := s.cooling.set g { s.cool g with ceiling := coolingCeiling x (s.cool g).percent (s.cool g).pumpLoss } }
    s.setsTo g.val (.weight v) (s.configWith g { gc with weight := max 1 (min 15 v) }) (v < 1 ∨ 15 < v) ∧
    s.setsTo g.val (.resolution v) (s.configWith g { gc with resolution := max 1 (min 100 v) }) (v < 1 ∨ 100 < v) ∧
    s.setsTo g.val (.joinRate v) (s.configWith g { gc with joinRate := max 1 (min 5000 v) }) (v < 1 ∨ 5000 < v) ∧
    s.setsTo g.val (.leaveRate v) (s.configWith g { gc with leaveRate := max 1 (min 5000 v) }) (v < 1 ∨ 5000 < v) ∧
    s.setsTo g.val (.trackingTolerance v) (s.configWith g { gc with tolerance := max 10 (min 12000 v) })
      (v < 10 ∨ 12000 < v) ∧
    s.setsTo g.val (.pumpGrace v) (s.configWith g { gc with graceTime := max 1 (min 300 v) }) (v < 1 ∨ 300 < v) ∧
    s.setsTo g.val (.filterCounts f) (s.configWith g { gc with filterCounts :=
        ⟨Eight.ofFn fun n => max 1 (min 25 (f.status.get n)), Four.ofFn fun n => max 1 (min 25 (f.trip.get n))⟩ })
      ((∃ n : Fin 8, f.status.get n < 1 ∨ 25 < f.status.get n) ∨ ∃ n : Fin 4, f.trip.get n < 1 ∨ 25 < f.trip.get n) ∧
    writeItem s g.val (.rating v) =
      .accepted (cooled { gc with rating := max 1 (min 12000 v) }) (decide (v < 1 ∨ 12000 < v)) ∧
    writeItem s g.val (.lossFraction v) =
      .accepted (cooled { gc with lossFraction := min 100 v }) (decide (100 < v))) ∧
  (∀ (s : State) (g : Group) (e : BitVec 8), s.responsesAllowed →
    (∃ u : State, writeItem s g.val (.expectedPattern e) = .accepted u false ∧
      s.patternRetested u g { s.groupConfig g with expected := e }) ∧
    (∃ u : State, writeItem s g.val (.enableMask e) = .accepted u false ∧
      s.patternRetested u g { s.groupConfig g with enabled := e }) ∧
    (∃ u : State, writeItem s g.val (.tripMask e) = .accepted u false ∧
      s.protectionRetested u g (e.setWidth 4))) ∧
  -- the derate table
  (∀ (s : State) (k : Nat) (w : Eight (Int × Nat)),
    let table : Eight (Int × Nat) :=
      Eight.ofFn fun i => (max (-400) (min 1500 (w.get i).1), min 100 (w.get i).2)
    ((∃ i j : Fin 8, i.val < j.val ∧ (table.get j).1 ≤ (table.get i).1) →
      writeItem s k (.derateTable w) = .refused .outOfOrder) ∧
    ((∀ i j : Fin 8, i.val < j.val → (table.get i).1 < (table.get j).1) →
      ∃ u : State, writeItem s k (.derateTable w) = .accepted u (decide (table ≠ w)) ∧
        u.config = { s.config with derate := table } ∧ s.keepsAllBut u [.config, .cooling] ∧
        ∀ g : Group, (s.cool g).rederived table (u.cool g).governing (u.cool g).percent ∧
          u.cool g = { s.cool g with
            governing := (u.cool g).governing, percent := (u.cool g).percent
            ceiling := coolingCeiling (s.groupConfig g) (u.cool g).percent (s.cool g).pumpLoss })) ∧
  -- the section descriptors
  (∀ (s : State) (k : Fin 4) (origin length : Nat),
    let x : ItemWrite := .sectionDescriptor origin length
    let sections := s.config.sections.set k ⟨origin, length⟩
    let covered := 0 < length ∧ (400 < origin + length ∨ ∃ j : Fin 4, j ≠ k ∧ ∃ i : Nat,
      origin ≤ i ∧ i < origin + length ∧ (s.config.sections.get j).origin ≤ i ∧
        i < (s.config.sections.get j).origin + (s.config.sections.get j).length)
    let moved := ∃ i : Nat, i < 400 ∧ ((s.pot i).aeState ≠ .normal ∨ (s.pot i).unlisted = true) ∧ s.mapped i = true ∧
      locateIn sections i ≠ locateIn s.config.sections i
    (s.line.state ≠ some .standby → writeItem s k.val x = .refused .badState) ∧
    (s.line.state = some .standby →
      (399 < origin ∨ 128 < length → writeItem s k.val x = .refused .outOfRange) ∧
      (origin ≤ 399 → length ≤ 128 →
        (covered → writeItem s k.val x = .refused .range) ∧
        (¬ covered → moved → writeItem s k.val x = .refused .badState) ∧
        (¬ covered → ¬ moved →
          ∃ u : State, writeItem s k.val x = .accepted u false ∧ u.config = { s.config with sections := sections } ∧
            u.pots.length = s.pots.length ∧
            (∀ i : Nat, i < s.pots.length → u.pot i = if s.mapped i = u.mapped i then s.pot i else freshPot) ∧
            u.scan = { s.scan with staleCount := u.countStale, scanStale := u.scan.scanStale } ∧
            (s.scan.armed = false → u.scan.scanStale = s.scan.scanStale ∧ s.keepsAllBut u [.config, .pots, .scan]) ∧
            (s.scan.armed = true → u.scan.scanStale = decide (s.config.staleLimit < u.countStale) ∧
              s.handed u (.line .scanStale) s.scan.scanStale u.scan.scanStale
                (some (.scanStale u.countStale))) ∧
            s.keepsAllBut u
              [.config, .line, .claims, .groups, .cooling, .pots, .scan, .faults, .stack, .ports, .out])))) ∧
  -- the band set and the stale limit
  (∀ (s : State) (k low high swing : Nat) (voltage checkSwing : Bool),
    (high < low → writeItem s k (.bandSet low high swing voltage checkSwing) = .refused .outOfOrder) ∧
    (low ≤ high →
      ∃ u : State, writeItem s k (.bandSet low high swing voltage checkSwing) = .accepted u false ∧
        u.config = { s.config with band := ⟨low, high, swing, voltage, checkSwing⟩ } ∧
        (∀ i : Nat, i < 400 → i < s.pots.length →
          let tested := s.mapped i = true ∧ (s.pot i).circuit = .inCircuit ∧ (s.pot i).stale = false
          u.pot i = { s.pot i with band := (u.pot i).band } ∧
          (¬ tested → (u.pot i).band = (s.pot i).band) ∧
          (tested → ((u.pot i).band = .inBand ↔ u.inBandNow (s.pot i)) ∧
            ((s.pot i).band = .inBand → (u.pot i).band = .outOfBand →
              s.hears u (u.watchNotice i (s.pot i))))) ∧
        s.portsQuiet u ∧ s.keepsAllBut u [.config, .pots, .ports])) ∧
  (∀ (s : State) (k v : Nat),
    ∃ u : State, writeItem s k (.staleLimit v) = .accepted u (decide (400 < v)) ∧
      u.config = { s.config with staleLimit := min 400 v } ∧
      (s.scan.armed = false → u = { s with config := u.config }) ∧
      (s.scan.armed = true →
        u.scan = { s.scan with scanStale := decide (min 400 v < s.scan.staleCount) } ∧
        s.handed u (.line .scanStale) s.scan.scanStale u.scan.scanStale (some (.scanStale s.scan.staleCount))) ∧
      s.keepsAllBut u [.config, .line, .claims, .groups, .cooling, .scan, .faults, .stack, .ports, .out])

/-- SAVE_CONFIG and SAVE_COMPLETE (R189): BUSY while a save runs; an accepted save puts its port in SAVING with nothing
answered and captures the configuration, the generation, the selections and the circuits; the completion writes them to
the image and answers OK with the captured generation. That no valid
image stands during the save is deduced (log 24). -/
def Obligations.SavesCaptureAndThenAnswer : Prop :=
  (∀ (rq : Req) (s : State), s.ready (.saveConfig rq) →
    (∀ v : Save, s.store.state = .saving v → exec (.saveConfig rq) s = .next (s.answered rq .saveConfig .busy [])) ∧
    (s.store.state = .idle →
      ∃ (t : State) (v : Save), exec (.saveConfig rq) s = .next t ∧
        t.store = { s.store with state := .saving v, image := none } ∧ v.port = rq.port ∧ v.tag = rq.tag ∧
        v.start = s.timeBase ∧ v.contents.config = s.config ∧ v.contents.generation = s.store.generation ∧
        v.contents.circuits = s.pots.map Pot.circuit ∧
        (∀ g : Group, v.contents.selected.get g = true ↔
          (s.group g).service = .joining ∨ (s.group g).service = .inService) ∧
        t.ports = s.ports.set rq.port { s.port rq.port with
          request := .saving, receiver := .hunting, gapTimer := none } ∧ t.out = [] ∧
        s.keepsAllBut t [.store, .ports, .out])) ∧
  (∀ (s : State) (v : Save), s.store.state = .saving v →
    exec .saveComplete s = .next { s with
      out := []
      store := { s.store with state := .idle, image := some v.contents }
      ports := s.ports.set v.port { s.port v.port with
        request := .answering, reply := some ⟨v.tag, 21, .ok, [.num 2 v.contents.generation]⟩ } })

/-! ### Ports (chapter 11) -/

/-- The receiver of a port (R181): bad frames, and a partial frame at the expiry of the gap timer, are discarded with the
bad-frame flag set and no response. Bytes that end inside a further frame leave the receiver there with the gap timer started
again, and any other bytes leave it hunting with the timer stopped. What bytes these two commands carry is the model's choice
(log 31). -/
def Obligations.BadFramesAreDiscardedAndFlagged : Prop :=
  ∀ (p : Port) (bytes : List Byte) (s : State),
    (∀ made : List Received, made ≠ [] → (∀ m ∈ made, m = .bad) →
      (receiveBytes (s.port p).receiver bytes = (.hunting, made) →
        exec (.badRequestFrame p bytes) s = .next { s with
          out := []
          ports := s.ports.set p { s.port p with receiver := .hunting, gapTimer := none, badFrame := true } }) ∧
      (∀ taken : List Byte, receiveBytes (s.port p).receiver bytes = (.inside taken, made) →
        exec (.badRequestFrame p bytes) s = .next { s with
          out := []
          ports := s.ports.set p { s.port p with
            receiver := .inside taken, gapTimer := some (s.timeBase + 5), badFrame := true } })) ∧
    (∀ (taken : List Byte) (made : List Received), (∀ m ∈ made, m = .bad) →
      receiveBytes (s.port p).receiver bytes = (.inside taken, made) →
      exec (.gapTimerExpiry p bytes) s = .next { s with
        out := []
        ports := s.ports.set p { s.port p with receiver := .hunting, gapTimer := none, badFrame := true } })

/-- RESPONSE_SENT and RESTART (R182, R191, R25, R42, R60, R80, R99, R123, R143, R155, R170, R179, R192): the response goes out,
then one BUSY response for each waiting tag, oldest first, and the port is IDLE; RESTART is answered BUSY during a save
and OK otherwise, and when its OK has been sent every block takes the RESTART values of its chapter and the line is in
ADOPTING. The order of BUSY responses and RESTART is the model's choice (log 9), that no GROUP_STATE notices stand beside
the LINE_STATE notice is deduced (log 17), and that a save begun after the RESTART's acceptance is abandoned is deduced
and leaves the store IDLE with its image as it stood (log 10). -/
def Obligations.ResponsesAreSentAndARestartIsTakenAfterIts : Prop :=
  (∀ (p : Port) (r : Reply) (s : State), (s.port p).request = .answering → (s.port p).reply = some r →
    ¬ (r.kind = 22 ∧ r.code = .ok) →
    exec (.responseSent p) s = .next { s with
      out := .response p r :: (s.port p).busy.map fun b => Sent.response p ⟨b.tag, b.kind, .busy, []⟩
      ports := s.ports.set p { s.port p with request := .idle, reply := none, busy := [] } }) ∧
  ((∀ (rq : Req) (s : State), s.ready (.restart rq) →
    (∀ v : Save, s.store.state = .saving v → exec (.restart rq) s = .next (s.answered rq .restart .busy [])) ∧
    (s.store.state = .idle → exec (.restart rq) s = .next (s.answered rq .restart .ok []))) ∧
  (∀ (p : Port) (tag : Nat) (s : State), (s.port p).request = .answering →
    (s.port p).reply = some ⟨tag, 22, .ok, []⟩ →
    ∃ t : State, exec (.responseSent p) s = .next t ∧
      t.line.state = some .adopting ∧ t.line.iCmd = 0 ∧ t.line.residual = 0 ∧ t.line.rotation = 0 ∧
      t.line.adoptDeadline = some (s.timeBase + 200) ∧ t.line.allocTimer = s.line.allocTimer ∧
      t.line.aeHold = false ∧ t.line.capacityShort = false ∧ t.line.target = s.config.floor ∧
      t.line.least = 0 ∧ t.line.governing = .setpoint ∧ t.line.record.unrun ∧
      (∀ k : ClaimSlot, (t.claims.get k).active = (k == .setpoint) ∧ (t.claims.get k).value = 0 ∧
        (t.claims.get k).writer = none ∧ (t.claims.get k).changed = s.timeBase) ∧ t.claims.adopted = false ∧
      (∀ g : Group, (t.group g).joinCeiling = 0 ∧ (t.group g).leaveCeiling = 0 ∧ (t.group g).lastOrder = 0 ∧
        (t.group g).blockFlag = true ∧ (t.group g).sequence = 0 ∧ (t.group g).lastFrame = none ∧
        (t.group g).trackingTimer = none ∧
        ((s.group g).service = .joining ∨ (s.group g).service = .inService →
          (t.group g).service = .inService ∧ (t.group g).linkTimer = some (s.timeBase + 50)) ∧
        ((s.group g).service ≠ .joining → (s.group g).service ≠ .inService →
          (t.group g).service = .out ∧ (t.group g).linkTimer = none)) ∧
      (∀ id : FaultId, t.entry id = clearEntry) ∧ t.faults.lineA = false ∧ t.faults.lineB = false ∧
      t.ae.list = [] ∧ t.ae.overflow = [] ∧ t.ae.nextId = s.ae.nextId ∧ t.ae.storm = false ∧
      t.ae.unquenched = false ∧ t.ae.headroom = false ∧
      (s.ae.recent.length ≤ 16 →
        let ends := s.ae.recent ++ s.ae.list.map fun r => ⟨r.id, r.pot, s.timeBase, .restart⟩
        t.ae.recent = ends.drop (ends.length - 16)) ∧
      (∀ i : Nat, i < s.pots.length →
        t.pot i = { s.pot i with aeState := .normal, run := 0, unlisted := false }) ∧
      t.scan.cycleCount = s.scan.cycleCount ∧ t.scan.stamp = s.scan.stamp ∧ t.scan.timeoutMark = s.scan.timeoutMark ∧
      t.scan.markerTimer = some (s.timeBase + 2000) ∧ t.scan.staleCount = t.countStale ∧ t.scan.armed = false ∧
      t.scan.scanStale = false ∧ t.scan.checkFlag = false ∧ t.scan.addressFlag = false ∧
      t.scan.lastBadAddress = none ∧
      (∀ g : Group, (t.cool g).inputs = (s.cool g).inputs ∧ (t.cool g).pattern = .matching ∧
        (t.cool g).adoptionSource = false ∧ (t.cool g).protection = false ∧ (t.cool g).pumpLoss = .none ∧
        (t.cool g).graceTimer = none ∧ (t.cool g).governing = (s.cool g).governing ∧
        (t.cool g).percent = (s.cool g).percent ∧ (t.cool g).lastTemps = (s.cool g).lastTemps ∧
        (t.cool g).ceiling = (s.groupConfig g).rating * (s.cool g).percent / 100 ∧
        (t.cool g).warning = (s.cool g).warning ∧ (t.cool g).overtemp = false) ∧
      t.metering = { s.metering with exceedance := false } ∧
      t.curtail = { s.curtail with compliance := false, run := 0 } ∧
      t.stack.top = s.stack.top ∧ t.stack.nextSequence = s.stack.nextSequence ∧
      t.stack.missed = min 255 (s.stack.missed + s.stack.waiting.length +
        (match s.stack.writing with | some f => f.missed + 1 | none => 0)) ∧
      (∀ q : Port, (t.port q).queue = [⟨s.timeBase, .lineState .adopting s.line.state .reset⟩] ∧
        (t.port q).request = .idle ∧ (t.port q).busy = [] ∧ (t.port q).overrun = false ∧
        (t.port q).role = s.role q ∧ (t.port q).cursor = (s.port q).cursor ∧
        (t.port q).badFrame = (s.port q).badFrame ∧ (t.port q).dropped = (s.port q).dropped) ∧
      t.config = s.config ∧ t.store = { s.store with state := .idle } ∧
      t.metering.calendar = s.metering.calendar ∧ t.timeBase = s.timeBase ∧ t.stack.frames = s.stack.frames ∧
      t.stack.writing = none ∧ t.stack.waiting = [] ∧ t.curtail.orders = s.curtail.orders))

/-- A power-on reset and the load that follows it (R190, R22, R25, R42, R60): the line is in ADOPTING at rest with SETPOINT alone
active, the configuration and generation are the image's or the defaults, a group is in IN_SERVICE exactly where the
image selects it, and the timers run from time base 0. CONFIG_LOAD_COMPLETE does the same in every state in which the store
loads, from the time base held then. What holds while the store loads is the model's choice (log 6), as is that the groups'
states place no GROUP_STATE notices (log 17), that the items in use are the loaded ones (log 34), and that
CONFIG_LOAD_COMPLETE changes nothing where the store is not loading (log 3). -/
def Obligations.PowerOnLoadsAndOpensTheWindow : Prop :=
  (∀ s : State, s.loading = true →
    ∃ t : State, exec .configLoadComplete s = .next t ∧ t.out = [] ∧ t.store.state = .idle ∧
      t.store.image = s.store.image ∧
      t.line = { s.line with
        state := some .adopting, target := t.config.floor, allocTimer := some (s.timeBase + 20)
        adoptDeadline := some (s.timeBase + 200) } ∧
      t.metering.timer = some (s.timeBase + 100) ∧ t.scan.markerTimer = some (s.timeBase + 2000) ∧
      t.scan.staleCount = t.countStale ∧
      (∀ i : Image, s.store.image = some i → t.config = i.config ∧ t.store.generation = i.generation ∧
        t.store.load = .loaded ∧
        (∀ g : Group, (t.group g).service = if i.selected.get g then .inService else .out) ∧
        ∀ n : Nat, n < 400 → t.pot n = { freshPot with
          circuit := if t.mapped n = true then i.circuits.getD n .inCircuit else .inCircuit }) ∧
      (s.store.image = none → t.config = defaultConfiguration ∧ t.store.generation = 0 ∧
        t.store.load = .defaulted ∧ s.hears t .configDefaulted ∧ (∀ g : Group, (t.group g).service = .out) ∧
        ∀ n : Nat, n < 400 → t.pot n = freshPot) ∧
      (∀ g : Group, t.group g = { powerOnGroup with
        service := (t.group g).service
        linkTimer := if (t.group g).service = .inService then some (s.timeBase + 50) else none
        tolerance := (t.groupConfig g).tolerance, resolution := (t.groupConfig g).resolution }) ∧
      (∃ i : Interval, t.metering.interval = some i ∧ i.number = 1 ∧ i.start = s.timeBase ∧ i.accumulator = 0 ∧
        i.startCalendar = s.metering.calendar ∧ i.length = t.config.intervalLength ∧
        i.efficiency = t.config.efficiency ∧
        i.begins t.config s.timeBase s.metering.calendar ∧
        (s.metering.calendar = none → i.window = none ∧
          i.deadline = min (2 ^ 40 - 1) (s.timeBase + i.length * 60000))) ∧
      s.hears t (.lineState .adopting s.line.state .reset) ∧ s.portsQuiet t ∧
      s.keepsAllBut t [.config, .line, .groups, .cooling, .pots, .scan, .metering, .ports, .store, .out]) ∧
  (∀ s : State, s.loading = false → exec .configLoadComplete s = .next { s with out := [] }) ∧
  ∀ (straps : Four Straps) (s : State),
    ∃ r t : State, exec (.powerOnReset straps) s = .next r ∧ exec .configLoadComplete r = .next t ∧
      r.timeBase = 0 ∧ r.line.state = none ∧ r.loading = true ∧ r.metering.interval = none ∧
      (∀ p : Port, r.role p = roleOfStraps (straps.get p) ∧ (r.port p).queue = [] ∧ (r.port p).request = .idle ∧
        (r.port p).cursor = { target := .pots, position := 0, direction := .ascending, skipped := false }) ∧
      t.timeBase = 0 ∧ t.line.state = some .adopting ∧ t.line.iCmd = 0 ∧ t.line.residual = 0 ∧ t.line.rotation = 0 ∧
      t.line.adoptDeadline = some 200 ∧ t.line.allocTimer = some 20 ∧ t.metering.timer = some 100 ∧
      t.line.least = 0 ∧ t.line.governing = .setpoint ∧ t.line.capacityShort = false ∧ t.line.record.unrun ∧
      t.scan.markerTimer = some 2000 ∧ t.metering.calendar = none ∧ t.store.image = s.store.image ∧
      (∀ k : ClaimSlot, (t.claims.get k).active = (k == .setpoint) ∧ (t.claims.get k).value = 0 ∧
        (t.claims.get k).writer = none ∧ (t.claims.get k).changed = 0) ∧
      (∀ i : Image, s.store.image = some i → t.config = i.config ∧ t.store.generation = i.generation ∧
        t.store.load = .loaded ∧
        ∀ g : Group, (t.group g).service = if i.selected.get g then .inService else .out) ∧
      (s.store.image = none → t.config = defaultConfiguration ∧ t.store.generation = 0 ∧
        t.store.load = .defaulted ∧ r.hears t .configDefaulted ∧ ∀ g : Group, (t.group g).service = .out) ∧
      (∀ i : Interval, t.metering.interval = some i → i.number = 1 ∧ i.start = 0 ∧ i.startCalendar = none ∧
        i.deadline = min (2 ^ 40 - 1) (i.length * 60000)) ∧ t.metering.interval ≠ none ∧
      r.hears t (.lineState .adopting none .reset)

/-- FETCH_NOTICES, SET_CURSOR and READ_NEXT past the tests of R182 (R184 to R186): at most the 8 oldest notices leave the queue
as records of the answer and the overrun flag is cleared, a cursor is set within its target's range, and a read gives 16 pots,
or up to 16 records of the history, from the cursor on with their positions, and steps it by as many with the wrap. The coding
of a record's values where R193 leaves it open (log 21) and a position in 2 bytes (log 22) are the model's choices. -/
def Obligations.PortsFetchNoticesAndWalkCursors : Prop :=
  (∀ (rq : Req) (s : State), s.ready (.fetchNotices rq) →
    exec (.fetchNotices rq) s = .next
      (({ s with ports := s.ports.set rq.port { s.port rq.port with
            queue := (s.port rq.port).queue.drop 8, overrun := false } } : State).answered rq .fetchNotices .ok
        ([.count (min 8 (s.port rq.port).queue.length), .mark (s.port rq.port).overrun
          , .num 1 ((s.port rq.port).queue.length - 8)]
          ++ (((s.port rq.port).queue.take 8).flatMap Notice.bytes).map fun b => Field.bits b.toNat))) ∧
  (∀ (rq : Req) (target position direction : Nat) (s : State), s.ready (.setCursor rq target position direction) →
    (1 < target ∨ 1 < direction ∨ (target = 0 ∧ 399 < position) ∨ (target = 1 ∧ 95 < position) →
      exec (.setCursor rq target position direction) s = .next (s.answered rq .setCursor .outOfRange [])) ∧
    (target = 1 → direction ≤ 1 → position ≤ 95 → s.metering.ring.length ≤ position →
      exec (.setCursor rq target position direction) s = .next (s.answered rq .setCursor .notFound [])) ∧
    ((target = 0 ∧ position ≤ 399) ∨ (target = 1 ∧ position ≤ 95 ∧ position < s.metering.ring.length) →
      direction ≤ 1 →
      exec (.setCursor rq target position direction) s = .next
        (({ s with ports := s.ports.set rq.port { s.port rq.port with cursor :=
              { target := if target = 0 then .pots else .history, position := position
                direction := if direction = 0 then .ascending else .descending, skipped := false } } } :
            State).answered rq .setCursor .ok []))) ∧
  (∀ (rq : Req) (s : State), s.ready (.readNext rq) →
    ((s.port rq.port).cursor.target = .history → s.metering.ring = [] →
      exec (.readNext rq) s = .next (s.answered rq .readNext .notFound [])) ∧
    ((s.port rq.port).cursor.target = .history → (s.port rq.port).cursor.position < s.metering.ring.length →
      let c := (s.port rq.port).cursor
      let total := s.metering.ring.length
      let n := min 16 total
      let place : Nat → Nat := fun k =>
        if c.direction = .ascending then (c.position + k) % total else (c.position + total - k) % total
      exec (.readNext rq) s = .next
        (({ s with ports := s.ports.set rq.port { s.port rq.port with cursor :=
              { c with skipped := false, position := place n } } } : State).answered rq .readNext .ok
          (.count n :: ((List.range n).flatMap fun k =>
              .num 2 (place k) :: (match s.metering.ring[place k]? with | some h => h.fields | none => []))
            ++ [.mark c.skipped]))) ∧
    ((s.port rq.port).cursor.target = .pots → (s.port rq.port).cursor.position ≤ 399 →
      let c := (s.port rq.port).cursor
      let place : Nat → Nat := fun k =>
        if c.direction = .ascending then (c.position + k) % 400 else (c.position + 400 - k) % 400
      exec (.readNext rq) s = .next
        (({ s with ports := s.ports.set rq.port { s.port rq.port with cursor :=
              { c with skipped := false, position := place 16 } } } : State).answered rq .readNext .ok
          (.count 16 :: ((List.range 16).flatMap fun k => .num 2 (place k) :: s.potFields (place k))
            ++ [.mark c.skipped]))))

/-- The reads past the tests of R182 that clear nothing (R24, R41, R59, R79, R98, R122, R142, R154, R168, R176, R188): out of
range they are refused, a frame that is not stacked is NOT_FOUND, and otherwise they are answered OK and change nothing but
the port's answer, each with the fields of what it reads; READ_CLAIMS returns the seven slots, the ADOPTED mark and the values of
the last expiry. Where R193 leaves the places or the widths of values in these payloads open, they are the model's choices (logs
21 and 22). The values of READ_LINE_STATUS and READ_METERING that are those of the last expiry that formed them are deduced
(logs 25 and 32), and which of several entries READ_FAULTS names is a free value (log 29). -/
def Obligations.ReadsAnswerAndChangeNothing : Prop :=
  ((∀ (rq : Req) (s : State) (c : Instr) (kind : ReqKind) (payload : List Field),
    (c, kind, payload) ∈ [(Instr.readLineStatus rq, ReqKind.readLineStatus, s.lineFields),
      (.readAllocation rq, .readAllocation, s.line.record.fields), (.readAeList rq, .readAeList, s.aeFields),
      (.readMetering rq, .readMetering, s.meteringFields), (.readOrders rq, .readOrders, s.orderFields),
      (.readFaults rq, .readFaults, s.faultFields),
      (.readStackStatus rq, .readStackStatus, s.stack.statusFields)] →
    s.ready c → exec c s = .next (s.answered rq kind .ok payload)) ∧
  (∀ (rq : Req) (s : State), s.ready (.readClaims rq) →
    exec (.readClaims rq) s = .next (s.answered rq .readClaims .ok
      (([ClaimSlot.fault, .headroom, .curtail, .demand, .cutout, .service, .setpoint].flatMap fun k =>
          [Field.mark (s.claims.get k).active, .num 2 (s.claims.get k).value]
            ++ (match (s.claims.get k).writer with
                | none => [Field.noValue 1 1]
                | some p => [Field.present, .num 1 p.val])
            ++ [.num 5 (s.claims.get k).changed])
        ++ [.mark s.claims.adopted, .num 2 s.line.least, .name s.line.governing.place, .num 2 s.line.target
          , .num 2 s.line.iCmd, .num 2 s.config.floor, .mark s.line.aeHold])))) ∧
  (∀ (rq : Req) (n m : Nat) (s : State),
    (s.ready (.readCooling rq n) →
      (7 < n → exec (.readCooling rq n) s = .next (s.answered rq .readCooling .outOfRange [])) ∧
      (∀ g : Group, g.val = n →
        exec (.readCooling rq n) s = .next (s.answered rq .readCooling .ok (s.coolingFields g)))) ∧
    (s.ready (.readPot rq n) →
      (399 < n → exec (.readPot rq n) s = .next (s.answered rq .readPot .outOfRange [])) ∧
      (n ≤ 399 → exec (.readPot rq n) s = .next (s.answered rq .readPot .ok (s.potFields n)))) ∧
    (s.ready (.readFault rq n m) →
      (12 < n ∨ (n < 6 ∧ 7 < m) → exec (.readFault rq n m) s = .next (s.answered rq .readFault .outOfRange [])) ∧
      (∀ id : FaultId, id.kind.number = n → (∀ g : Group, id.group? = some g → g.val = m) →
        exec (.readFault rq n m) s = .next (s.answered rq .readFault .ok ((s.entry id).fields id.kind)))) ∧
    (s.ready (.readConfig rq n m) →
      (itemNamed n m = false → exec (.readConfig rq n m) s = .next (s.answered rq .readConfig .outOfRange [])) ∧
      (itemNamed n m = true → exec (.readConfig rq n m) s = .next (s.answered rq .readConfig .ok
        (itemFields s.config n m ++ [.num 2 s.store.generation])))) ∧
    (s.ready (.readFrame rq .top) →
      (s.stack.frames = [] → exec (.readFrame rq .top) s = .next (s.answered rq .readFrame .notFound [])) ∧
      (∀ (f : Frame) (fs : List Frame), s.stack.frames = f :: fs →
        exec (.readFrame rq .top) s = .next (s.answered rq .readFrame .ok (f.fields ++ [.num 2 f.address])))) ∧
    (s.ready (.readFrame rq (.address n)) →
      (4096 < n → exec (.readFrame rq (.address n)) s = .next (s.answered rq .readFrame .outOfRange [])) ∧
      (n ≤ 4096 → (∀ f ∈ s.stack.frames, f.address ≠ n) →
        exec (.readFrame rq (.address n)) s = .next (s.answered rq .readFrame .notFound [])) ∧
      (∀ f ∈ s.stack.frames, n ≤ 4096 → f.address = n → s.stack.frames.Pairwise (fun a b => a.address ≠ b.address) →
        exec (.readFrame rq (.address n)) s = .next
          (s.answered rq .readFrame .ok (f.fields ++ [.num 2 f.address])))))

/-- The reads that clear something (R77, R98, R188), each with the fields it reports as they stood before: READ_GROUP_STATUS from
a SUBSTATION port clears a clearable warning latch and from any other port nothing, READ_SCAN_STATUS clears the check and
address flags, and READ_PORT_STATUS the bad-frame flag and the dropped-request count of its own port. READ_GROUP_STATUS reports
the latch as it was, last (log 23), and the places and widths of the values are the model's where R193 leaves them open (logs 21
and 22). -/
def Obligations.ClearingReadsClearWhatTheyReport : Prop :=
  (∀ (rq : Req) (n : Nat) (s : State), s.ready (.readGroupStatus rq n) → 7 < n →
    exec (.readGroupStatus rq n) s = .next (s.answered rq .readGroupStatus .outOfRange [])) ∧
  (∀ (rq : Req) (g : Group) (s : State), s.ready (.readGroupStatus rq g.val) →
    (s.role rq.port = .substation → s.clearable g = true →
      exec (.readGroupStatus rq g.val) s = .next
        (({ s with cooling := s.cooling.set g { s.cool g with warning := false } } : State).answered
          rq .readGroupStatus .ok (s.groupFields g))) ∧
    (s.role rq.port ≠ .substation ∨ s.clearable g = false →
      exec (.readGroupStatus rq g.val) s = .next (s.answered rq .readGroupStatus .ok (s.groupFields g))) ∧
    (s.groupFields g).getLast? = some (.mark (s.cool g).warning)) ∧
  (∀ (rq : Req) (s : State), s.ready (.readScanStatus rq) →
    exec (.readScanStatus rq) s = .next
      (({ s with scan := { s.scan with checkFlag := false, addressFlag := false } } : State).answered
        rq .readScanStatus .ok
        ([.num 4 s.scan.cycleCount, .num 1 s.scan.stamp, .mark s.scan.timeoutMark
            , .num 4 (s.scan.markerTimer.getD 0 - s.timeBase), .num 2 s.scan.staleCount, .num 2 s.config.staleLimit
            , .mark s.scan.armed, .mark s.scan.scanStale, .mark s.scan.checkFlag, .mark s.scan.addressFlag]
          ++ (match s.scan.lastBadAddress with
              | none => [.noValue 1 2]
              | some a => [.present, .num 1 a.1, .num 1 a.2])
          ++ (s.config.sections.toList.flatMap fun d => [.num 2 d.origin, .num 1 d.length])
          ++ [.num 2 s.config.switchingLimit, .num 4 s.interlockCurrent]))) ∧
  (∀ (rq : Req) (s : State), s.ready (.readPortStatus rq) →
    let q := s.port rq.port
    exec (.readPortStatus rq) s = .next
      (({ s with ports := s.ports.set rq.port { q with badFrame := false, dropped := 0 } } :
          State).answered rq .readPortStatus .ok
        [.num 1 rq.port.val, .name (s.role rq.port).place, .name RequestState.answering.place, .num 1 q.queue.length
        , .mark q.overrun, .mark q.badFrame, .num 1 q.dropped, .name q.cursor.target.place, .num 2 q.cursor.position
        , .name q.cursor.direction.place, .mark q.cursor.skipped, .num 2 s.store.generation
        , .name s.store.state.place]))

/-! ### Frames on the links -/

/-- Encode and decode agree on requests (Tables 11-5, 11-9 and 11-10): every well-formed request, with every operand at
every value its bytes allow, is what the receiver and the decoder make of its frame. -/
def Obligations.RequestFramesDecodeToTheirRequests : Prop :=
  ∀ (i : Instr) (rq : Req) (kind : ReqKind) (bytes : List Byte), i.wellFormed = true →
    i.request? = some (rq, kind) → rq.len = i.payload.length → encodeRequest i = some bytes →
    decodeRequestFrame rq.port bytes = some i

/-- Encode and decode agree on status frames, sample frames and the cycle marker (Tables 11-7 and 11-8), and a status
frame with any one byte of its check word changed is bad. After the load every such status frame is taken: it becomes the
group's last valid frame with its inputs and its echo as sent (R18). -/
def Obligations.LinkFramesDecodeToTheirContents : Prop :=
  (∀ f : StatusFrame, f.wellFormed = true → decodeStatusFrame (encodeStatusFrame f) = .good f) ∧
  (∀ sec pos v : Nat, sec < 256 → pos < 256 → v < 65536 →
    decodeScanFrame (encodeSampleFrame sec pos v) = .sampleFrame sec pos v) ∧
  decodeScanFrame encodeCycleMarker = .cycleMarker ∧
  (∀ (f : StatusFrame) (k : Nat) (b : Byte), f.wellFormed = true → k = 14 ∨ k = 15 →
    (encodeStatusFrame f)[k]? ≠ some b → decodeStatusFrame ((encodeStatusFrame f).set k b) = .bad) ∧
  (∀ (s : State) (g : Group) (f : StatusFrame), s.loading = false → f.wellFormed = true →
    ∃ (t : State) (x : StatusFrame),
      exec (.statusFrame g (decodeStatusFrame (encodeStatusFrame f))) s = .next t ∧
      (t.group g).lastFrame = some x ∧ x.status = f.status ∧ x.trips = f.trips ∧ x.echo = f.echo)

/-! ### What every step keeps -/

/-- Every step keeps the fault table sound: the responses are those Table 9-1 allows (R157, R158), and LINE_A and LINE_B are
exact with every entry in CLEAR empty (R161, R167). -/
def Obligations.StepsKeepTheFaultTableSound : Prop :=
  keptByStep State.responsesAllowed ∧ keptByStep fun s => s.linesExact ∧ s.clearEntriesEmpty

/-- Every step keeps I_cmd at or above the floor in REGULATING and HOLD. -/
def Obligations.StepsKeepTheFloor : Prop := keptByStep State.floorHeld

/-- Every step keeps the lists within their sizes, and the claims within their range with SETPOINT active (R26, R82, R100,
R141, R145, R171, R182, R183). -/
def Obligations.StepsKeepListsAndClaimsInRange : Prop :=
  keptByStep State.listsBounded ∧ keptByStep State.claimsInRange

/-- Every step keeps the canonical form of the frame store. The form is the model's (log 20). -/
def Obligations.StepsKeepTheFrameStore : Prop := keptByStep fun s => s.stack.wf

/-- Every step keeps the group timers where their rules have them. -/
def Obligations.StepsKeepTheTimersAgreed : Prop := keptByStep State.timersAgree

/-- Every step keeps a stopped line at rest. -/
def Obligations.StepsKeepAStoppedLineAtRest : Prop := keptByStep State.restsWhenStopped

/-- The state right after a power-on reset meets every condition the steps keep. Values there that are
the model's choice: logs 4, 5 and 6. -/
def Obligations.ResetMeetsEveryKeptCondition : Prop :=
  State.reset.responsesAllowed ∧ State.reset.floorHeld ∧ State.reset.linesExact ∧ State.reset.clearEntriesEmpty ∧
    State.reset.listsBounded ∧ State.reset.claimsInRange ∧ State.reset.stack.wf ∧ State.reset.timersAgree ∧
    State.reset.restsWhenStopped
end

