-- ==== Sys2Proof/Laws/State.lean ====
section
/-! SUPPORT. What each update of the state leaves and what it writes, one lemma for each field and update, and the laws of
the fixed-size tables. -/

namespace Sys2Proof

@[simp] theorem Eight.get_set_self {α : Type} (e : Eight α) (i : Fin 8) (a : α) : (e.set i a).get i = a := by
  fin_cases i <;> rfl

theorem Eight.get_set_ne {α : Type} (e : Eight α) {i j : Fin 8} (h : j ≠ i) (a : α) : (e.set i a).get j = e.get j := by
  fin_cases i <;> fin_cases j <;> first | rfl | exact absurd rfl h

@[simp] theorem Eight.set_set {α : Type} (e : Eight α) (i : Fin 8) (a b : α) : (e.set i a).set i b = e.set i b := by
  fin_cases i <;> rfl

@[simp] theorem Eight.get_ofFn {α : Type} (f : Fin 8 → α) (i : Fin 8) : (Eight.ofFn f).get i = f i := by
  fin_cases i <;> rfl

@[simp] theorem Eight.get_fill {α : Type} (a : α) (i : Fin 8) : (Eight.fill a).get i = a := by
  fin_cases i <;> rfl

theorem Eight.ext_get {α : Type} {a b : Eight α} (h : ∀ i : Fin 8, a.get i = b.get i) : a = b := by
  cases a; cases b
  simp only [Eight.mk.injEq]
  exact ⟨h 0, h 1, h 2, h 3, h 4, h 5, h 6, h 7⟩

@[simp] theorem Four.get_set_self {α : Type} (e : Four α) (i : Fin 4) (a : α) : (e.set i a).get i = a := by
  fin_cases i <;> rfl

theorem Four.get_set_ne {α : Type} (e : Four α) {i j : Fin 4} (h : j ≠ i) (a : α) : (e.set i a).get j = e.get j := by
  fin_cases i <;> fin_cases j <;> first | rfl | exact absurd rfl h

@[simp] theorem Four.set_set {α : Type} (e : Four α) (i : Fin 4) (a b : α) : (e.set i a).set i b = e.set i b := by
  fin_cases i <;> rfl

@[simp] theorem Four.get_ofFn {α : Type} (f : Fin 4 → α) (i : Fin 4) : (Four.ofFn f).get i = f i := by
  fin_cases i <;> rfl

theorem Four.ext_get {α : Type} {a b : Four α} (h : ∀ i : Fin 4, a.get i = b.get i) : a = b := by
  cases a; cases b
  simp only [Four.mk.injEq]
  exact ⟨h 0, h 1, h 2, h 3⟩

namespace Machine

/-! ### State.begin -/

@[simp] theorem State.begin_timeBase (s : State) :
    (s.begin).timeBase = s.timeBase := rfl
@[simp] theorem State.begin_config (s : State) :
    (s.begin).config = s.config := rfl
@[simp] theorem State.begin_line (s : State) :
    (s.begin).line = s.line := rfl
@[simp] theorem State.begin_claims (s : State) :
    (s.begin).claims = s.claims := rfl
@[simp] theorem State.begin_groups (s : State) :
    (s.begin).groups = s.groups := rfl
@[simp] theorem State.begin_cooling (s : State) :
    (s.begin).cooling = s.cooling := rfl
@[simp] theorem State.begin_pots (s : State) :
    (s.begin).pots = s.pots := rfl
@[simp] theorem State.begin_scan (s : State) :
    (s.begin).scan = s.scan := rfl
@[simp] theorem State.begin_ae (s : State) :
    (s.begin).ae = s.ae := rfl
@[simp] theorem State.begin_metering (s : State) :
    (s.begin).metering = s.metering := rfl
@[simp] theorem State.begin_curtail (s : State) :
    (s.begin).curtail = s.curtail := rfl
@[simp] theorem State.begin_faults (s : State) :
    (s.begin).faults = s.faults := rfl
@[simp] theorem State.begin_stack (s : State) :
    (s.begin).stack = s.stack := rfl
@[simp] theorem State.begin_ports (s : State) :
    (s.begin).ports = s.ports := rfl
@[simp] theorem State.begin_port (s : State) (p : Port) :
    (s.begin).port p = s.port p := rfl
@[simp] theorem State.begin_store (s : State) :
    (s.begin).store = s.store := rfl
@[simp] theorem State.begin_out (s : State) :
    (s.begin).out = [] := rfl
@[simp] theorem State.begin_pending (s : State) :
    (s.begin).pending = s.pending := rfl

/-! ### State.modGroup -/

@[simp] theorem State.modGroup_timeBase (s : State) (g : Group) (f : GroupRecord → GroupRecord) :
    (s.modGroup g f).timeBase = s.timeBase := rfl
@[simp] theorem State.modGroup_config (s : State) (g : Group) (f : GroupRecord → GroupRecord) :
    (s.modGroup g f).config = s.config := rfl
@[simp] theorem State.modGroup_line (s : State) (g : Group) (f : GroupRecord → GroupRecord) :
    (s.modGroup g f).line = s.line := rfl
@[simp] theorem State.modGroup_claims (s : State) (g : Group) (f : GroupRecord → GroupRecord) :
    (s.modGroup g f).claims = s.claims := rfl
@[simp] theorem State.modGroup_groups (s : State) (g : Group) (f : GroupRecord → GroupRecord) :
    (s.modGroup g f).groups = s.groups.set g (f (s.groups.get g)) := rfl
@[simp] theorem State.modGroup_cooling (s : State) (g : Group) (f : GroupRecord → GroupRecord) :
    (s.modGroup g f).cooling = s.cooling := rfl
@[simp] theorem State.modGroup_pots (s : State) (g : Group) (f : GroupRecord → GroupRecord) :
    (s.modGroup g f).pots = s.pots := rfl
@[simp] theorem State.modGroup_scan (s : State) (g : Group) (f : GroupRecord → GroupRecord) :
    (s.modGroup g f).scan = s.scan := rfl
@[simp] theorem State.modGroup_ae (s : State) (g : Group) (f : GroupRecord → GroupRecord) :
    (s.modGroup g f).ae = s.ae := rfl
@[simp] theorem State.modGroup_metering (s : State) (g : Group) (f : GroupRecord → GroupRecord) :
    (s.modGroup g f).metering = s.metering := rfl
@[simp] theorem State.modGroup_curtail (s : State) (g : Group) (f : GroupRecord → GroupRecord) :
    (s.modGroup g f).curtail = s.curtail := rfl
@[simp] theorem State.modGroup_faults (s : State) (g : Group) (f : GroupRecord → GroupRecord) :
    (s.modGroup g f).faults = s.faults := rfl
@[simp] theorem State.modGroup_stack (s : State) (g : Group) (f : GroupRecord → GroupRecord) :
    (s.modGroup g f).stack = s.stack := rfl
@[simp] theorem State.modGroup_ports (s : State) (g : Group) (f : GroupRecord → GroupRecord) :
    (s.modGroup g f).ports = s.ports := rfl
@[simp] theorem State.modGroup_store (s : State) (g : Group) (f : GroupRecord → GroupRecord) :
    (s.modGroup g f).store = s.store := rfl
@[simp] theorem State.modGroup_out (s : State) (g : Group) (f : GroupRecord → GroupRecord) :
    (s.modGroup g f).out = s.out := rfl
@[simp] theorem State.modGroup_pending (s : State) (g : Group) (f : GroupRecord → GroupRecord) :
    (s.modGroup g f).pending = s.pending := rfl

/-! ### State.modCool -/

@[simp] theorem State.modCool_timeBase (s : State) (g : Group) (f : GroupCooling → GroupCooling) :
    (s.modCool g f).timeBase = s.timeBase := rfl
@[simp] theorem State.modCool_config (s : State) (g : Group) (f : GroupCooling → GroupCooling) :
    (s.modCool g f).config = s.config := rfl
@[simp] theorem State.modCool_line (s : State) (g : Group) (f : GroupCooling → GroupCooling) :
    (s.modCool g f).line = s.line := rfl
@[simp] theorem State.modCool_claims (s : State) (g : Group) (f : GroupCooling → GroupCooling) :
    (s.modCool g f).claims = s.claims := rfl
@[simp] theorem State.modCool_groups (s : State) (g : Group) (f : GroupCooling → GroupCooling) :
    (s.modCool g f).groups = s.groups := rfl
@[simp] theorem State.modCool_cooling (s : State) (g : Group) (f : GroupCooling → GroupCooling) :
    (s.modCool g f).cooling = s.cooling.set g (f (s.cooling.get g)) := rfl
@[simp] theorem State.modCool_pots (s : State) (g : Group) (f : GroupCooling → GroupCooling) :
    (s.modCool g f).pots = s.pots := rfl
@[simp] theorem State.modCool_scan (s : State) (g : Group) (f : GroupCooling → GroupCooling) :
    (s.modCool g f).scan = s.scan := rfl
@[simp] theorem State.modCool_ae (s : State) (g : Group) (f : GroupCooling → GroupCooling) :
    (s.modCool g f).ae = s.ae := rfl
@[simp] theorem State.modCool_metering (s : State) (g : Group) (f : GroupCooling → GroupCooling) :
    (s.modCool g f).metering = s.metering := rfl
@[simp] theorem State.modCool_curtail (s : State) (g : Group) (f : GroupCooling → GroupCooling) :
    (s.modCool g f).curtail = s.curtail := rfl
@[simp] theorem State.modCool_faults (s : State) (g : Group) (f : GroupCooling → GroupCooling) :
    (s.modCool g f).faults = s.faults := rfl
@[simp] theorem State.modCool_stack (s : State) (g : Group) (f : GroupCooling → GroupCooling) :
    (s.modCool g f).stack = s.stack := rfl
@[simp] theorem State.modCool_ports (s : State) (g : Group) (f : GroupCooling → GroupCooling) :
    (s.modCool g f).ports = s.ports := rfl
@[simp] theorem State.modCool_store (s : State) (g : Group) (f : GroupCooling → GroupCooling) :
    (s.modCool g f).store = s.store := rfl
@[simp] theorem State.modCool_out (s : State) (g : Group) (f : GroupCooling → GroupCooling) :
    (s.modCool g f).out = s.out := rfl
@[simp] theorem State.modCool_pending (s : State) (g : Group) (f : GroupCooling → GroupCooling) :
    (s.modCool g f).pending = s.pending := rfl

/-! ### State.modPort -/

@[simp] theorem State.modPort_timeBase (s : State) (p : Port) (f : PortRecord → PortRecord) :
    (s.modPort p f).timeBase = s.timeBase := rfl
@[simp] theorem State.modPort_config (s : State) (p : Port) (f : PortRecord → PortRecord) :
    (s.modPort p f).config = s.config := rfl
@[simp] theorem State.modPort_line (s : State) (p : Port) (f : PortRecord → PortRecord) :
    (s.modPort p f).line = s.line := rfl
@[simp] theorem State.modPort_claims (s : State) (p : Port) (f : PortRecord → PortRecord) :
    (s.modPort p f).claims = s.claims := rfl
@[simp] theorem State.modPort_groups (s : State) (p : Port) (f : PortRecord → PortRecord) :
    (s.modPort p f).groups = s.groups := rfl
@[simp] theorem State.modPort_cooling (s : State) (p : Port) (f : PortRecord → PortRecord) :
    (s.modPort p f).cooling = s.cooling := rfl
@[simp] theorem State.modPort_pots (s : State) (p : Port) (f : PortRecord → PortRecord) :
    (s.modPort p f).pots = s.pots := rfl
@[simp] theorem State.modPort_scan (s : State) (p : Port) (f : PortRecord → PortRecord) :
    (s.modPort p f).scan = s.scan := rfl
@[simp] theorem State.modPort_ae (s : State) (p : Port) (f : PortRecord → PortRecord) :
    (s.modPort p f).ae = s.ae := rfl
@[simp] theorem State.modPort_metering (s : State) (p : Port) (f : PortRecord → PortRecord) :
    (s.modPort p f).metering = s.metering := rfl
@[simp] theorem State.modPort_curtail (s : State) (p : Port) (f : PortRecord → PortRecord) :
    (s.modPort p f).curtail = s.curtail := rfl
@[simp] theorem State.modPort_faults (s : State) (p : Port) (f : PortRecord → PortRecord) :
    (s.modPort p f).faults = s.faults := rfl
@[simp] theorem State.modPort_stack (s : State) (p : Port) (f : PortRecord → PortRecord) :
    (s.modPort p f).stack = s.stack := rfl
@[simp] theorem State.modPort_ports (s : State) (p : Port) (f : PortRecord → PortRecord) :
    (s.modPort p f).ports = s.ports.set p (f (s.ports.get p)) := rfl
@[simp] theorem State.modPort_store (s : State) (p : Port) (f : PortRecord → PortRecord) :
    (s.modPort p f).store = s.store := rfl
@[simp] theorem State.modPort_out (s : State) (p : Port) (f : PortRecord → PortRecord) :
    (s.modPort p f).out = s.out := rfl
@[simp] theorem State.modPort_pending (s : State) (p : Port) (f : PortRecord → PortRecord) :
    (s.modPort p f).pending = s.pending := rfl

/-! ### State.modPot -/

@[simp] theorem State.modPot_timeBase (s : State) (i : Nat) (f : Pot → Pot) :
    (s.modPot i f).timeBase = s.timeBase := rfl
@[simp] theorem State.modPot_config (s : State) (i : Nat) (f : Pot → Pot) :
    (s.modPot i f).config = s.config := rfl
@[simp] theorem State.modPot_line (s : State) (i : Nat) (f : Pot → Pot) :
    (s.modPot i f).line = s.line := rfl
@[simp] theorem State.modPot_claims (s : State) (i : Nat) (f : Pot → Pot) :
    (s.modPot i f).claims = s.claims := rfl
@[simp] theorem State.modPot_groups (s : State) (i : Nat) (f : Pot → Pot) :
    (s.modPot i f).groups = s.groups := rfl
@[simp] theorem State.modPot_cooling (s : State) (i : Nat) (f : Pot → Pot) :
    (s.modPot i f).cooling = s.cooling := rfl
@[simp] theorem State.modPot_pots (s : State) (i : Nat) (f : Pot → Pot) :
    (s.modPot i f).pots = s.pots.modify i f := rfl
@[simp] theorem State.modPot_scan (s : State) (i : Nat) (f : Pot → Pot) :
    (s.modPot i f).scan = s.scan := rfl
@[simp] theorem State.modPot_ae (s : State) (i : Nat) (f : Pot → Pot) :
    (s.modPot i f).ae = s.ae := rfl
@[simp] theorem State.modPot_metering (s : State) (i : Nat) (f : Pot → Pot) :
    (s.modPot i f).metering = s.metering := rfl
@[simp] theorem State.modPot_curtail (s : State) (i : Nat) (f : Pot → Pot) :
    (s.modPot i f).curtail = s.curtail := rfl
@[simp] theorem State.modPot_faults (s : State) (i : Nat) (f : Pot → Pot) :
    (s.modPot i f).faults = s.faults := rfl
@[simp] theorem State.modPot_stack (s : State) (i : Nat) (f : Pot → Pot) :
    (s.modPot i f).stack = s.stack := rfl
@[simp] theorem State.modPot_ports (s : State) (i : Nat) (f : Pot → Pot) :
    (s.modPot i f).ports = s.ports := rfl
@[simp] theorem State.modPot_store (s : State) (i : Nat) (f : Pot → Pot) :
    (s.modPot i f).store = s.store := rfl
@[simp] theorem State.modPot_out (s : State) (i : Nat) (f : Pot → Pot) :
    (s.modPot i f).out = s.out := rfl
@[simp] theorem State.modPot_pending (s : State) (i : Nat) (f : Pot → Pot) :
    (s.modPot i f).pending = s.pending := rfl

/-! ### State.notify -/

@[simp] theorem State.notify_timeBase (s : State) (b : NoticeBody) :
    (s.notify b).timeBase = s.timeBase := rfl
@[simp] theorem State.notify_config (s : State) (b : NoticeBody) :
    (s.notify b).config = s.config := rfl
@[simp] theorem State.notify_line (s : State) (b : NoticeBody) :
    (s.notify b).line = s.line := rfl
@[simp] theorem State.notify_claims (s : State) (b : NoticeBody) :
    (s.notify b).claims = s.claims := rfl
@[simp] theorem State.notify_groups (s : State) (b : NoticeBody) :
    (s.notify b).groups = s.groups := rfl
@[simp] theorem State.notify_cooling (s : State) (b : NoticeBody) :
    (s.notify b).cooling = s.cooling := rfl
@[simp] theorem State.notify_pots (s : State) (b : NoticeBody) :
    (s.notify b).pots = s.pots := rfl
@[simp] theorem State.notify_scan (s : State) (b : NoticeBody) :
    (s.notify b).scan = s.scan := rfl
@[simp] theorem State.notify_ae (s : State) (b : NoticeBody) :
    (s.notify b).ae = s.ae := rfl
@[simp] theorem State.notify_metering (s : State) (b : NoticeBody) :
    (s.notify b).metering = s.metering := rfl
@[simp] theorem State.notify_curtail (s : State) (b : NoticeBody) :
    (s.notify b).curtail = s.curtail := rfl
@[simp] theorem State.notify_faults (s : State) (b : NoticeBody) :
    (s.notify b).faults = s.faults := rfl
@[simp] theorem State.notify_stack (s : State) (b : NoticeBody) :
    (s.notify b).stack = s.stack := rfl
@[simp] theorem State.notify_store (s : State) (b : NoticeBody) :
    (s.notify b).store = s.store := rfl
@[simp] theorem State.notify_out (s : State) (b : NoticeBody) :
    (s.notify b).out = s.out := rfl
@[simp] theorem State.notify_pending (s : State) (b : NoticeBody) :
    (s.notify b).pending = s.pending := rfl

/-! ### State.sendOrder -/

@[simp] theorem State.sendOrder_timeBase (s : State) (g : Group) (o : Nat) (b : Bool) :
    (s.sendOrder g o b).timeBase = s.timeBase := rfl
@[simp] theorem State.sendOrder_config (s : State) (g : Group) (o : Nat) (b : Bool) :
    (s.sendOrder g o b).config = s.config := rfl
@[simp] theorem State.sendOrder_line (s : State) (g : Group) (o : Nat) (b : Bool) :
    (s.sendOrder g o b).line = s.line := rfl
@[simp] theorem State.sendOrder_claims (s : State) (g : Group) (o : Nat) (b : Bool) :
    (s.sendOrder g o b).claims = s.claims := rfl
@[simp] theorem State.sendOrder_cooling (s : State) (g : Group) (o : Nat) (b : Bool) :
    (s.sendOrder g o b).cooling = s.cooling := rfl
@[simp] theorem State.sendOrder_pots (s : State) (g : Group) (o : Nat) (b : Bool) :
    (s.sendOrder g o b).pots = s.pots := rfl
@[simp] theorem State.sendOrder_scan (s : State) (g : Group) (o : Nat) (b : Bool) :
    (s.sendOrder g o b).scan = s.scan := rfl
@[simp] theorem State.sendOrder_ae (s : State) (g : Group) (o : Nat) (b : Bool) :
    (s.sendOrder g o b).ae = s.ae := rfl
@[simp] theorem State.sendOrder_metering (s : State) (g : Group) (o : Nat) (b : Bool) :
    (s.sendOrder g o b).metering = s.metering := rfl
@[simp] theorem State.sendOrder_curtail (s : State) (g : Group) (o : Nat) (b : Bool) :
    (s.sendOrder g o b).curtail = s.curtail := rfl
@[simp] theorem State.sendOrder_faults (s : State) (g : Group) (o : Nat) (b : Bool) :
    (s.sendOrder g o b).faults = s.faults := rfl
@[simp] theorem State.sendOrder_stack (s : State) (g : Group) (o : Nat) (b : Bool) :
    (s.sendOrder g o b).stack = s.stack := rfl
@[simp] theorem State.sendOrder_ports (s : State) (g : Group) (o : Nat) (b : Bool) :
    (s.sendOrder g o b).ports = s.ports := rfl
@[simp] theorem State.sendOrder_store (s : State) (g : Group) (o : Nat) (b : Bool) :
    (s.sendOrder g o b).store = s.store := rfl
@[simp] theorem State.sendOrder_out (s : State) (g : Group) (o : Nat) (b : Bool) :
    (s.sendOrder g o b).out = s.out ++ [.order g o b (((s.group g).sequence + 1) % 256)] := rfl
@[simp] theorem State.sendOrder_pending (s : State) (g : Group) (o : Nat) (b : Bool) :
    (s.sendOrder g o b).pending = s.pending := rfl

/-! ### State.writeClaim -/

@[simp] theorem State.writeClaim_timeBase (s : State) (k : ClaimSlot) (v : Nat) :
    (s.writeClaim k v).timeBase = s.timeBase := rfl
@[simp] theorem State.writeClaim_config (s : State) (k : ClaimSlot) (v : Nat) :
    (s.writeClaim k v).config = s.config := rfl
@[simp] theorem State.writeClaim_line (s : State) (k : ClaimSlot) (v : Nat) :
    (s.writeClaim k v).line = s.line := rfl
@[simp] theorem State.writeClaim_claims (s : State) (k : ClaimSlot) (v : Nat) :
    (s.writeClaim k v).claims = s.claims.set k ((s.claims.get k).write s.timeBase v) := rfl
@[simp] theorem State.writeClaim_groups (s : State) (k : ClaimSlot) (v : Nat) :
    (s.writeClaim k v).groups = s.groups := rfl
@[simp] theorem State.writeClaim_cooling (s : State) (k : ClaimSlot) (v : Nat) :
    (s.writeClaim k v).cooling = s.cooling := rfl
@[simp] theorem State.writeClaim_pots (s : State) (k : ClaimSlot) (v : Nat) :
    (s.writeClaim k v).pots = s.pots := rfl
@[simp] theorem State.writeClaim_scan (s : State) (k : ClaimSlot) (v : Nat) :
    (s.writeClaim k v).scan = s.scan := rfl
@[simp] theorem State.writeClaim_ae (s : State) (k : ClaimSlot) (v : Nat) :
    (s.writeClaim k v).ae = s.ae := rfl
@[simp] theorem State.writeClaim_metering (s : State) (k : ClaimSlot) (v : Nat) :
    (s.writeClaim k v).metering = s.metering := rfl
@[simp] theorem State.writeClaim_curtail (s : State) (k : ClaimSlot) (v : Nat) :
    (s.writeClaim k v).curtail = s.curtail := rfl
@[simp] theorem State.writeClaim_faults (s : State) (k : ClaimSlot) (v : Nat) :
    (s.writeClaim k v).faults = s.faults := rfl
@[simp] theorem State.writeClaim_stack (s : State) (k : ClaimSlot) (v : Nat) :
    (s.writeClaim k v).stack = s.stack := rfl
@[simp] theorem State.writeClaim_ports (s : State) (k : ClaimSlot) (v : Nat) :
    (s.writeClaim k v).ports = s.ports := rfl
@[simp] theorem State.writeClaim_store (s : State) (k : ClaimSlot) (v : Nat) :
    (s.writeClaim k v).store = s.store := rfl
@[simp] theorem State.writeClaim_out (s : State) (k : ClaimSlot) (v : Nat) :
    (s.writeClaim k v).out = s.out := rfl
@[simp] theorem State.writeClaim_pending (s : State) (k : ClaimSlot) (v : Nat) :
    (s.writeClaim k v).pending = s.pending := rfl

/-! ### State.withdrawClaim -/

@[simp] theorem State.withdrawClaim_timeBase (s : State) (k : ClaimSlot) :
    (s.withdrawClaim k).timeBase = s.timeBase := rfl
@[simp] theorem State.withdrawClaim_config (s : State) (k : ClaimSlot) :
    (s.withdrawClaim k).config = s.config := rfl
@[simp] theorem State.withdrawClaim_line (s : State) (k : ClaimSlot) :
    (s.withdrawClaim k).line = s.line := rfl
@[simp] theorem State.withdrawClaim_claims (s : State) (k : ClaimSlot) :
    (s.withdrawClaim k).claims = s.claims.set k ((s.claims.get k).withdraw s.timeBase) := rfl
@[simp] theorem State.withdrawClaim_groups (s : State) (k : ClaimSlot) :
    (s.withdrawClaim k).groups = s.groups := rfl
@[simp] theorem State.withdrawClaim_cooling (s : State) (k : ClaimSlot) :
    (s.withdrawClaim k).cooling = s.cooling := rfl
@[simp] theorem State.withdrawClaim_pots (s : State) (k : ClaimSlot) :
    (s.withdrawClaim k).pots = s.pots := rfl
@[simp] theorem State.withdrawClaim_scan (s : State) (k : ClaimSlot) :
    (s.withdrawClaim k).scan = s.scan := rfl
@[simp] theorem State.withdrawClaim_ae (s : State) (k : ClaimSlot) :
    (s.withdrawClaim k).ae = s.ae := rfl
@[simp] theorem State.withdrawClaim_metering (s : State) (k : ClaimSlot) :
    (s.withdrawClaim k).metering = s.metering := rfl
@[simp] theorem State.withdrawClaim_curtail (s : State) (k : ClaimSlot) :
    (s.withdrawClaim k).curtail = s.curtail := rfl
@[simp] theorem State.withdrawClaim_faults (s : State) (k : ClaimSlot) :
    (s.withdrawClaim k).faults = s.faults := rfl
@[simp] theorem State.withdrawClaim_stack (s : State) (k : ClaimSlot) :
    (s.withdrawClaim k).stack = s.stack := rfl
@[simp] theorem State.withdrawClaim_ports (s : State) (k : ClaimSlot) :
    (s.withdrawClaim k).ports = s.ports := rfl
@[simp] theorem State.withdrawClaim_store (s : State) (k : ClaimSlot) :
    (s.withdrawClaim k).store = s.store := rfl
@[simp] theorem State.withdrawClaim_out (s : State) (k : ClaimSlot) :
    (s.withdrawClaim k).out = s.out := rfl
@[simp] theorem State.withdrawClaim_pending (s : State) (k : ClaimSlot) :
    (s.withdrawClaim k).pending = s.pending := rfl

/-! ### State.recool -/

@[simp] theorem State.recool_timeBase (s : State) (g : Group) :
    (s.recool g).timeBase = s.timeBase := rfl
@[simp] theorem State.recool_config (s : State) (g : Group) :
    (s.recool g).config = s.config := rfl
@[simp] theorem State.recool_line (s : State) (g : Group) :
    (s.recool g).line = s.line := rfl
@[simp] theorem State.recool_claims (s : State) (g : Group) :
    (s.recool g).claims = s.claims := rfl
@[simp] theorem State.recool_groups (s : State) (g : Group) :
    (s.recool g).groups = s.groups := rfl
@[simp] theorem State.recool_pots (s : State) (g : Group) :
    (s.recool g).pots = s.pots := rfl
@[simp] theorem State.recool_scan (s : State) (g : Group) :
    (s.recool g).scan = s.scan := rfl
@[simp] theorem State.recool_ae (s : State) (g : Group) :
    (s.recool g).ae = s.ae := rfl
@[simp] theorem State.recool_metering (s : State) (g : Group) :
    (s.recool g).metering = s.metering := rfl
@[simp] theorem State.recool_curtail (s : State) (g : Group) :
    (s.recool g).curtail = s.curtail := rfl
@[simp] theorem State.recool_faults (s : State) (g : Group) :
    (s.recool g).faults = s.faults := rfl
@[simp] theorem State.recool_stack (s : State) (g : Group) :
    (s.recool g).stack = s.stack := rfl
@[simp] theorem State.recool_ports (s : State) (g : Group) :
    (s.recool g).ports = s.ports := rfl
@[simp] theorem State.recool_store (s : State) (g : Group) :
    (s.recool g).store = s.store := rfl
@[simp] theorem State.recool_out (s : State) (g : Group) :
    (s.recool g).out = s.out := rfl
@[simp] theorem State.recool_pending (s : State) (g : Group) :
    (s.recool g).pending = s.pending := rfl

/-! ### State.endRamps -/

@[simp] theorem State.endRamps_timeBase (s : State) (g : Group) :
    (s.endRamps g).timeBase = s.timeBase := rfl
@[simp] theorem State.endRamps_config (s : State) (g : Group) :
    (s.endRamps g).config = s.config := rfl
@[simp] theorem State.endRamps_line (s : State) (g : Group) :
    (s.endRamps g).line = s.line := rfl
@[simp] theorem State.endRamps_claims (s : State) (g : Group) :
    (s.endRamps g).claims = s.claims := rfl
@[simp] theorem State.endRamps_cooling (s : State) (g : Group) :
    (s.endRamps g).cooling = s.cooling := rfl
@[simp] theorem State.endRamps_pots (s : State) (g : Group) :
    (s.endRamps g).pots = s.pots := rfl
@[simp] theorem State.endRamps_scan (s : State) (g : Group) :
    (s.endRamps g).scan = s.scan := rfl
@[simp] theorem State.endRamps_ae (s : State) (g : Group) :
    (s.endRamps g).ae = s.ae := rfl
@[simp] theorem State.endRamps_metering (s : State) (g : Group) :
    (s.endRamps g).metering = s.metering := rfl
@[simp] theorem State.endRamps_curtail (s : State) (g : Group) :
    (s.endRamps g).curtail = s.curtail := rfl
@[simp] theorem State.endRamps_faults (s : State) (g : Group) :
    (s.endRamps g).faults = s.faults := rfl
@[simp] theorem State.endRamps_stack (s : State) (g : Group) :
    (s.endRamps g).stack = s.stack := rfl
@[simp] theorem State.endRamps_ports (s : State) (g : Group) :
    (s.endRamps g).ports = s.ports := rfl
@[simp] theorem State.endRamps_store (s : State) (g : Group) :
    (s.endRamps g).store = s.store := rfl
@[simp] theorem State.endRamps_out (s : State) (g : Group) :
    (s.endRamps g).out = s.out := rfl
@[simp] theorem State.endRamps_pending (s : State) (g : Group) :
    (s.endRamps g).pending = s.pending := rfl

/-! ### State.push -/

@[simp] theorem State.push_timeBase (s : State) (c : FrameCause) :
    (s.push c).timeBase = s.timeBase := rfl
@[simp] theorem State.push_config (s : State) (c : FrameCause) :
    (s.push c).config = s.config := rfl
@[simp] theorem State.push_line (s : State) (c : FrameCause) :
    (s.push c).line = s.line := rfl
@[simp] theorem State.push_claims (s : State) (c : FrameCause) :
    (s.push c).claims = s.claims := rfl
@[simp] theorem State.push_groups (s : State) (c : FrameCause) :
    (s.push c).groups = s.groups := rfl
@[simp] theorem State.push_cooling (s : State) (c : FrameCause) :
    (s.push c).cooling = s.cooling := rfl
@[simp] theorem State.push_pots (s : State) (c : FrameCause) :
    (s.push c).pots = s.pots := rfl
@[simp] theorem State.push_scan (s : State) (c : FrameCause) :
    (s.push c).scan = s.scan := rfl
@[simp] theorem State.push_ae (s : State) (c : FrameCause) :
    (s.push c).ae = s.ae := rfl
@[simp] theorem State.push_metering (s : State) (c : FrameCause) :
    (s.push c).metering = s.metering := rfl
@[simp] theorem State.push_curtail (s : State) (c : FrameCause) :
    (s.push c).curtail = s.curtail := rfl
@[simp] theorem State.push_faults (s : State) (c : FrameCause) :
    (s.push c).faults = s.faults := rfl
@[simp] theorem State.push_stack (s : State) (c : FrameCause) :
    (s.push c).stack = s.stack.push { cause := c, time := s.timeBase, body := s.captureBody } := rfl
@[simp] theorem State.push_ports (s : State) (c : FrameCause) :
    (s.push c).ports = s.ports := rfl
@[simp] theorem State.push_store (s : State) (c : FrameCause) :
    (s.push c).store = s.store := rfl
@[simp] theorem State.push_out (s : State) (c : FrameCause) :
    (s.push c).out = s.out := rfl
@[simp] theorem State.push_pending (s : State) (c : FrameCause) :
    (s.push c).pending = s.pending := rfl

/-! ### State.setEntry -/

@[simp] theorem State.setEntry_timeBase (s : State) (id : FaultId) (e : Entry) :
    (s.setEntry id e).timeBase = s.timeBase := rfl
@[simp] theorem State.setEntry_config (s : State) (id : FaultId) (e : Entry) :
    (s.setEntry id e).config = s.config := rfl
@[simp] theorem State.setEntry_line (s : State) (id : FaultId) (e : Entry) :
    (s.setEntry id e).line = s.line := rfl
@[simp] theorem State.setEntry_claims (s : State) (id : FaultId) (e : Entry) :
    (s.setEntry id e).claims = s.claims := rfl
@[simp] theorem State.setEntry_groups (s : State) (id : FaultId) (e : Entry) :
    (s.setEntry id e).groups = s.groups := rfl
@[simp] theorem State.setEntry_cooling (s : State) (id : FaultId) (e : Entry) :
    (s.setEntry id e).cooling = s.cooling := rfl
@[simp] theorem State.setEntry_pots (s : State) (id : FaultId) (e : Entry) :
    (s.setEntry id e).pots = s.pots := rfl
@[simp] theorem State.setEntry_scan (s : State) (id : FaultId) (e : Entry) :
    (s.setEntry id e).scan = s.scan := rfl
@[simp] theorem State.setEntry_ae (s : State) (id : FaultId) (e : Entry) :
    (s.setEntry id e).ae = s.ae := rfl
@[simp] theorem State.setEntry_metering (s : State) (id : FaultId) (e : Entry) :
    (s.setEntry id e).metering = s.metering := rfl
@[simp] theorem State.setEntry_curtail (s : State) (id : FaultId) (e : Entry) :
    (s.setEntry id e).curtail = s.curtail := rfl
@[simp] theorem State.setEntry_faults (s : State) (id : FaultId) (e : Entry) :
    (s.setEntry id e).faults = { s.faults with table := s.faults.table.set id e } := rfl
@[simp] theorem State.setEntry_stack (s : State) (id : FaultId) (e : Entry) :
    (s.setEntry id e).stack = s.stack := rfl
@[simp] theorem State.setEntry_ports (s : State) (id : FaultId) (e : Entry) :
    (s.setEntry id e).ports = s.ports := rfl
@[simp] theorem State.setEntry_store (s : State) (id : FaultId) (e : Entry) :
    (s.setEntry id e).store = s.store := rfl
@[simp] theorem State.setEntry_out (s : State) (id : FaultId) (e : Entry) :
    (s.setEntry id e).out = s.out := rfl
@[simp] theorem State.setEntry_pending (s : State) (id : FaultId) (e : Entry) :
    (s.setEntry id e).pending = s.pending := rfl

/-! ### State.evaluateLines -/

@[simp] theorem State.evaluateLines_timeBase (s : State) :
    (s.evaluateLines).timeBase = s.timeBase := rfl
@[simp] theorem State.evaluateLines_config (s : State) :
    (s.evaluateLines).config = s.config := rfl
@[simp] theorem State.evaluateLines_line (s : State) :
    (s.evaluateLines).line = s.line := rfl
@[simp] theorem State.evaluateLines_claims (s : State) :
    (s.evaluateLines).claims = s.claims := rfl
@[simp] theorem State.evaluateLines_groups (s : State) :
    (s.evaluateLines).groups = s.groups := rfl
@[simp] theorem State.evaluateLines_cooling (s : State) :
    (s.evaluateLines).cooling = s.cooling := rfl
@[simp] theorem State.evaluateLines_pots (s : State) :
    (s.evaluateLines).pots = s.pots := rfl
@[simp] theorem State.evaluateLines_scan (s : State) :
    (s.evaluateLines).scan = s.scan := rfl
@[simp] theorem State.evaluateLines_ae (s : State) :
    (s.evaluateLines).ae = s.ae := rfl
@[simp] theorem State.evaluateLines_metering (s : State) :
    (s.evaluateLines).metering = s.metering := rfl
@[simp] theorem State.evaluateLines_curtail (s : State) :
    (s.evaluateLines).curtail = s.curtail := rfl
@[simp] theorem State.evaluateLines_faults (s : State) :
    (s.evaluateLines).faults = { s.faults with lineA := s.faults.table.drivenA, lineB := s.faults.table.drivenB } := rfl
@[simp] theorem State.evaluateLines_stack (s : State) :
    (s.evaluateLines).stack = s.stack := rfl
@[simp] theorem State.evaluateLines_ports (s : State) :
    (s.evaluateLines).ports = s.ports := rfl
@[simp] theorem State.evaluateLines_store (s : State) :
    (s.evaluateLines).store = s.store := rfl
@[simp] theorem State.evaluateLines_out (s : State) :
    (s.evaluateLines).out = s.out := rfl
@[simp] theorem State.evaluateLines_pending (s : State) :
    (s.evaluateLines).pending = s.pending := rfl

/-! ### State.respondOn -/

@[simp] theorem State.respondOn_timeBase (s : State) (p : Port) (r : Reply) :
    (s.respondOn p r).timeBase = s.timeBase := rfl
@[simp] theorem State.respondOn_config (s : State) (p : Port) (r : Reply) :
    (s.respondOn p r).config = s.config := rfl
@[simp] theorem State.respondOn_line (s : State) (p : Port) (r : Reply) :
    (s.respondOn p r).line = s.line := rfl
@[simp] theorem State.respondOn_claims (s : State) (p : Port) (r : Reply) :
    (s.respondOn p r).claims = s.claims := rfl
@[simp] theorem State.respondOn_groups (s : State) (p : Port) (r : Reply) :
    (s.respondOn p r).groups = s.groups := rfl
@[simp] theorem State.respondOn_cooling (s : State) (p : Port) (r : Reply) :
    (s.respondOn p r).cooling = s.cooling := rfl
@[simp] theorem State.respondOn_pots (s : State) (p : Port) (r : Reply) :
    (s.respondOn p r).pots = s.pots := rfl
@[simp] theorem State.respondOn_scan (s : State) (p : Port) (r : Reply) :
    (s.respondOn p r).scan = s.scan := rfl
@[simp] theorem State.respondOn_ae (s : State) (p : Port) (r : Reply) :
    (s.respondOn p r).ae = s.ae := rfl
@[simp] theorem State.respondOn_metering (s : State) (p : Port) (r : Reply) :
    (s.respondOn p r).metering = s.metering := rfl
@[simp] theorem State.respondOn_curtail (s : State) (p : Port) (r : Reply) :
    (s.respondOn p r).curtail = s.curtail := rfl
@[simp] theorem State.respondOn_faults (s : State) (p : Port) (r : Reply) :
    (s.respondOn p r).faults = s.faults := rfl
@[simp] theorem State.respondOn_stack (s : State) (p : Port) (r : Reply) :
    (s.respondOn p r).stack = s.stack := rfl
@[simp] theorem State.respondOn_store (s : State) (p : Port) (r : Reply) :
    (s.respondOn p r).store = s.store := rfl
@[simp] theorem State.respondOn_out (s : State) (p : Port) (r : Reply) :
    (s.respondOn p r).out = s.out := rfl
@[simp] theorem State.respondOn_pending (s : State) (p : Port) (r : Reply) :
    (s.respondOn p r).pending = s.pending := rfl

/-! ### State.setICmd -/

@[simp] theorem State.setICmd_timeBase (s : State) (i : Nat) :
    (s.setICmd i).timeBase = s.timeBase := rfl
@[simp] theorem State.setICmd_config (s : State) (i : Nat) :
    (s.setICmd i).config = s.config := rfl
@[simp] theorem State.setICmd_line (s : State) (i : Nat) :
    (s.setICmd i).line = { s.line with iCmd := i } := rfl
@[simp] theorem State.setICmd_claims (s : State) (i : Nat) :
    (s.setICmd i).claims = s.claims := rfl
@[simp] theorem State.setICmd_groups (s : State) (i : Nat) :
    (s.setICmd i).groups = s.groups := rfl
@[simp] theorem State.setICmd_cooling (s : State) (i : Nat) :
    (s.setICmd i).cooling = s.cooling := rfl
@[simp] theorem State.setICmd_pots (s : State) (i : Nat) :
    (s.setICmd i).pots = s.pots := rfl
@[simp] theorem State.setICmd_scan (s : State) (i : Nat) :
    (s.setICmd i).scan = s.scan := rfl
@[simp] theorem State.setICmd_ae (s : State) (i : Nat) :
    (s.setICmd i).ae = s.ae := rfl
@[simp] theorem State.setICmd_metering (s : State) (i : Nat) :
    (s.setICmd i).metering = s.metering := rfl
@[simp] theorem State.setICmd_curtail (s : State) (i : Nat) :
    (s.setICmd i).curtail = s.curtail := rfl
@[simp] theorem State.setICmd_faults (s : State) (i : Nat) :
    (s.setICmd i).faults = s.faults := rfl
@[simp] theorem State.setICmd_stack (s : State) (i : Nat) :
    (s.setICmd i).stack = s.stack := rfl
@[simp] theorem State.setICmd_ports (s : State) (i : Nat) :
    (s.setICmd i).ports = s.ports := rfl
@[simp] theorem State.setICmd_store (s : State) (i : Nat) :
    (s.setICmd i).store = s.store := rfl
@[simp] theorem State.setICmd_out (s : State) (i : Nat) :
    (s.setICmd i).out = s.out := rfl
@[simp] theorem State.setICmd_pending (s : State) (i : Nat) :
    (s.setICmd i).pending = s.pending := rfl

/-! ### State.modInterval -/

@[simp] theorem State.modInterval_timeBase (s : State) (f : Interval → Interval) :
    (s.modInterval f).timeBase = s.timeBase := rfl
@[simp] theorem State.modInterval_config (s : State) (f : Interval → Interval) :
    (s.modInterval f).config = s.config := rfl
@[simp] theorem State.modInterval_line (s : State) (f : Interval → Interval) :
    (s.modInterval f).line = s.line := rfl
@[simp] theorem State.modInterval_claims (s : State) (f : Interval → Interval) :
    (s.modInterval f).claims = s.claims := rfl
@[simp] theorem State.modInterval_groups (s : State) (f : Interval → Interval) :
    (s.modInterval f).groups = s.groups := rfl
@[simp] theorem State.modInterval_cooling (s : State) (f : Interval → Interval) :
    (s.modInterval f).cooling = s.cooling := rfl
@[simp] theorem State.modInterval_pots (s : State) (f : Interval → Interval) :
    (s.modInterval f).pots = s.pots := rfl
@[simp] theorem State.modInterval_scan (s : State) (f : Interval → Interval) :
    (s.modInterval f).scan = s.scan := rfl
@[simp] theorem State.modInterval_ae (s : State) (f : Interval → Interval) :
    (s.modInterval f).ae = s.ae := rfl
@[simp] theorem State.modInterval_curtail (s : State) (f : Interval → Interval) :
    (s.modInterval f).curtail = s.curtail := rfl
@[simp] theorem State.modInterval_faults (s : State) (f : Interval → Interval) :
    (s.modInterval f).faults = s.faults := rfl
@[simp] theorem State.modInterval_stack (s : State) (f : Interval → Interval) :
    (s.modInterval f).stack = s.stack := rfl
@[simp] theorem State.modInterval_ports (s : State) (f : Interval → Interval) :
    (s.modInterval f).ports = s.ports := rfl
@[simp] theorem State.modInterval_store (s : State) (f : Interval → Interval) :
    (s.modInterval f).store = s.store := rfl
@[simp] theorem State.modInterval_out (s : State) (f : Interval → Interval) :
    (s.modInterval f).out = s.out := rfl
@[simp] theorem State.modInterval_pending (s : State) (f : Interval → Interval) :
    (s.modInterval f).pending = s.pending := rfl

/-! ### State.setOrders -/

@[simp] theorem State.setOrders_timeBase (s : State) (l : List CurtailOrder) :
    (s.setOrders l).timeBase = s.timeBase := rfl
@[simp] theorem State.setOrders_config (s : State) (l : List CurtailOrder) :
    (s.setOrders l).config = s.config := rfl
@[simp] theorem State.setOrders_line (s : State) (l : List CurtailOrder) :
    (s.setOrders l).line = s.line := rfl
@[simp] theorem State.setOrders_claims (s : State) (l : List CurtailOrder) :
    (s.setOrders l).claims = s.claims := rfl
@[simp] theorem State.setOrders_groups (s : State) (l : List CurtailOrder) :
    (s.setOrders l).groups = s.groups := rfl
@[simp] theorem State.setOrders_cooling (s : State) (l : List CurtailOrder) :
    (s.setOrders l).cooling = s.cooling := rfl
@[simp] theorem State.setOrders_pots (s : State) (l : List CurtailOrder) :
    (s.setOrders l).pots = s.pots := rfl
@[simp] theorem State.setOrders_scan (s : State) (l : List CurtailOrder) :
    (s.setOrders l).scan = s.scan := rfl
@[simp] theorem State.setOrders_ae (s : State) (l : List CurtailOrder) :
    (s.setOrders l).ae = s.ae := rfl
@[simp] theorem State.setOrders_metering (s : State) (l : List CurtailOrder) :
    (s.setOrders l).metering = s.metering := rfl
@[simp] theorem State.setOrders_curtail (s : State) (l : List CurtailOrder) :
    (s.setOrders l).curtail = { s.curtail with orders := l } := rfl
@[simp] theorem State.setOrders_faults (s : State) (l : List CurtailOrder) :
    (s.setOrders l).faults = s.faults := rfl
@[simp] theorem State.setOrders_stack (s : State) (l : List CurtailOrder) :
    (s.setOrders l).stack = s.stack := rfl
@[simp] theorem State.setOrders_ports (s : State) (l : List CurtailOrder) :
    (s.setOrders l).ports = s.ports := rfl
@[simp] theorem State.setOrders_store (s : State) (l : List CurtailOrder) :
    (s.setOrders l).store = s.store := rfl
@[simp] theorem State.setOrders_out (s : State) (l : List CurtailOrder) :
    (s.setOrders l).out = s.out := rfl
@[simp] theorem State.setOrders_pending (s : State) (l : List CurtailOrder) :
    (s.setOrders l).pending = s.pending := rfl

/-! ### State.modConfig -/

@[simp] theorem State.modConfig_timeBase (s : State) (f : Configuration → Configuration) :
    (s.modConfig f).timeBase = s.timeBase := rfl
@[simp] theorem State.modConfig_config (s : State) (f : Configuration → Configuration) :
    (s.modConfig f).config = f s.config := rfl
@[simp] theorem State.modConfig_line (s : State) (f : Configuration → Configuration) :
    (s.modConfig f).line = s.line := rfl
@[simp] theorem State.modConfig_claims (s : State) (f : Configuration → Configuration) :
    (s.modConfig f).claims = s.claims := rfl
@[simp] theorem State.modConfig_groups (s : State) (f : Configuration → Configuration) :
    (s.modConfig f).groups = s.groups := rfl
@[simp] theorem State.modConfig_cooling (s : State) (f : Configuration → Configuration) :
    (s.modConfig f).cooling = s.cooling := rfl
@[simp] theorem State.modConfig_pots (s : State) (f : Configuration → Configuration) :
    (s.modConfig f).pots = s.pots := rfl
@[simp] theorem State.modConfig_scan (s : State) (f : Configuration → Configuration) :
    (s.modConfig f).scan = s.scan := rfl
@[simp] theorem State.modConfig_ae (s : State) (f : Configuration → Configuration) :
    (s.modConfig f).ae = s.ae := rfl
@[simp] theorem State.modConfig_metering (s : State) (f : Configuration → Configuration) :
    (s.modConfig f).metering = s.metering := rfl
@[simp] theorem State.modConfig_curtail (s : State) (f : Configuration → Configuration) :
    (s.modConfig f).curtail = s.curtail := rfl
@[simp] theorem State.modConfig_faults (s : State) (f : Configuration → Configuration) :
    (s.modConfig f).faults = s.faults := rfl
@[simp] theorem State.modConfig_stack (s : State) (f : Configuration → Configuration) :
    (s.modConfig f).stack = s.stack := rfl
@[simp] theorem State.modConfig_ports (s : State) (f : Configuration → Configuration) :
    (s.modConfig f).ports = s.ports := rfl
@[simp] theorem State.modConfig_store (s : State) (f : Configuration → Configuration) :
    (s.modConfig f).store = s.store := rfl
@[simp] theorem State.modConfig_out (s : State) (f : Configuration → Configuration) :
    (s.modConfig f).out = s.out := rfl
@[simp] theorem State.modConfig_pending (s : State) (f : Configuration → Configuration) :
    (s.modConfig f).pending = s.pending := rfl

/-! ### State.recount -/

@[simp] theorem State.recount_timeBase (s : State) :
    (s.recount).timeBase = s.timeBase := rfl
@[simp] theorem State.recount_config (s : State) :
    (s.recount).config = s.config := rfl
@[simp] theorem State.recount_line (s : State) :
    (s.recount).line = s.line := rfl
@[simp] theorem State.recount_claims (s : State) :
    (s.recount).claims = s.claims := rfl
@[simp] theorem State.recount_groups (s : State) :
    (s.recount).groups = s.groups := rfl
@[simp] theorem State.recount_cooling (s : State) :
    (s.recount).cooling = s.cooling := rfl
@[simp] theorem State.recount_pots (s : State) :
    (s.recount).pots = s.pots := rfl
@[simp] theorem State.recount_scan (s : State) :
    (s.recount).scan = { s.scan with staleCount := s.countStale } := rfl
@[simp] theorem State.recount_ae (s : State) :
    (s.recount).ae = s.ae := rfl
@[simp] theorem State.recount_metering (s : State) :
    (s.recount).metering = s.metering := rfl
@[simp] theorem State.recount_curtail (s : State) :
    (s.recount).curtail = s.curtail := rfl
@[simp] theorem State.recount_faults (s : State) :
    (s.recount).faults = s.faults := rfl
@[simp] theorem State.recount_stack (s : State) :
    (s.recount).stack = s.stack := rfl
@[simp] theorem State.recount_ports (s : State) :
    (s.recount).ports = s.ports := rfl
@[simp] theorem State.recount_store (s : State) :
    (s.recount).store = s.store := rfl
@[simp] theorem State.recount_out (s : State) :
    (s.recount).out = s.out := rfl
@[simp] theorem State.recount_pending (s : State) :
    (s.recount).pending = s.pending := rfl

/-! ### State.answered -/

@[simp] theorem State.answered_timeBase (s : State) (rq : Req) (k : ReqKind) (c : ResultCode) (p : List Field) :
    (s.answered rq k c p).timeBase = s.timeBase := rfl
@[simp] theorem State.answered_config (s : State) (rq : Req) (k : ReqKind) (c : ResultCode) (p : List Field) :
    (s.answered rq k c p).config = s.config := rfl
@[simp] theorem State.answered_line (s : State) (rq : Req) (k : ReqKind) (c : ResultCode) (p : List Field) :
    (s.answered rq k c p).line = s.line := rfl
@[simp] theorem State.answered_claims (s : State) (rq : Req) (k : ReqKind) (c : ResultCode) (p : List Field) :
    (s.answered rq k c p).claims = s.claims := rfl
@[simp] theorem State.answered_groups (s : State) (rq : Req) (k : ReqKind) (c : ResultCode) (p : List Field) :
    (s.answered rq k c p).groups = s.groups := rfl
@[simp] theorem State.answered_cooling (s : State) (rq : Req) (k : ReqKind) (c : ResultCode) (p : List Field) :
    (s.answered rq k c p).cooling = s.cooling := rfl
@[simp] theorem State.answered_pots (s : State) (rq : Req) (k : ReqKind) (c : ResultCode) (p : List Field) :
    (s.answered rq k c p).pots = s.pots := rfl
@[simp] theorem State.answered_scan (s : State) (rq : Req) (k : ReqKind) (c : ResultCode) (p : List Field) :
    (s.answered rq k c p).scan = s.scan := rfl
@[simp] theorem State.answered_ae (s : State) (rq : Req) (k : ReqKind) (c : ResultCode) (p : List Field) :
    (s.answered rq k c p).ae = s.ae := rfl
@[simp] theorem State.answered_metering (s : State) (rq : Req) (k : ReqKind) (c : ResultCode) (p : List Field) :
    (s.answered rq k c p).metering = s.metering := rfl
@[simp] theorem State.answered_curtail (s : State) (rq : Req) (k : ReqKind) (c : ResultCode) (p : List Field) :
    (s.answered rq k c p).curtail = s.curtail := rfl
@[simp] theorem State.answered_faults (s : State) (rq : Req) (k : ReqKind) (c : ResultCode) (p : List Field) :
    (s.answered rq k c p).faults = s.faults := rfl
@[simp] theorem State.answered_stack (s : State) (rq : Req) (k : ReqKind) (c : ResultCode) (p : List Field) :
    (s.answered rq k c p).stack = s.stack := rfl
@[simp] theorem State.answered_store (s : State) (rq : Req) (k : ReqKind) (c : ResultCode) (p : List Field) :
    (s.answered rq k c p).store = s.store := rfl
@[simp] theorem State.answered_out (s : State) (rq : Req) (k : ReqKind) (c : ResultCode) (p : List Field) :
    (s.answered rq k c p).out = [] := rfl
@[simp] theorem State.answered_pending (s : State) (rq : Req) (k : ReqKind) (c : ResultCode) (p : List Field) :
    (s.answered rq k c p).pending = s.pending := rfl

/-! ### One record read after one record written -/

@[simp] theorem State.group_modGroup_self (s : State) (g : Group) (f : GroupRecord → GroupRecord) :
    (s.modGroup g f).group g = f (s.group g) := by simp [State.group]

theorem State.group_modGroup_ne (s : State) {g h : Group} (hne : h ≠ g) (f : GroupRecord → GroupRecord) :
    (s.modGroup g f).group h = s.group h := by simp [State.group, Eight.get_set_ne _ hne]

@[simp] theorem State.cool_modCool_self (s : State) (g : Group) (f : GroupCooling → GroupCooling) :
    (s.modCool g f).cool g = f (s.cool g) := by simp [State.cool]

theorem State.cool_modCool_ne (s : State) {g h : Group} (hne : h ≠ g) (f : GroupCooling → GroupCooling) :
    (s.modCool g f).cool h = s.cool h := by simp [State.cool, Eight.get_set_ne _ hne]

@[simp] theorem State.port_modPort_self (s : State) (p : Port) (f : PortRecord → PortRecord) :
    (s.modPort p f).port p = f (s.port p) := by simp [State.port]

theorem State.port_modPort_ne (s : State) {p q : Port} (hne : q ≠ p) (f : PortRecord → PortRecord) :
    (s.modPort p f).port q = s.port q := by simp [State.port, Four.get_set_ne _ hne]

theorem State.port_notify (s : State) (b : NoticeBody) (p : Port) :
    (s.notify b).port p = if b.goesTo (s.role p) then (s.port p).place ⟨s.timeBase, b⟩ else s.port p := by
  simp only [State.notify, State.port, State.role, Four.get_ofFn]
  rfl

@[simp] theorem ClaimsTable.get_set_self (t : ClaimsTable) (k : ClaimSlot) (c : Claim) : (t.set k c).get k = c := by
  cases k <;> rfl

theorem ClaimsTable.get_set_ne (t : ClaimsTable) {j k : ClaimSlot} (h : j ≠ k) (c : Claim) :
    (t.set k c).get j = t.get j := by
  cases j <;> cases k <;> first | rfl | exact absurd rfl h

@[simp] theorem FaultTable.get_set_self (t : FaultTable) (id : FaultId) (e : Entry) : (t.set id e).get id = e := by
  match id with
  | .group k g => cases k <;> simp [FaultTable.get, FaultTable.set]
  | .line k => cases k <;> rfl

theorem FaultTable.get_set_ne (t : FaultTable) {i j : FaultId} (h : j ≠ i) (e : Entry) :
    (t.set i e).get j = t.get j := by
  match i, j with
  | .group k g, .group l m =>
    by_cases hg : m = g
    · subst hg
      cases k <;> cases l <;> first | rfl | exact absurd rfl h
    · cases k <;> cases l <;> first | rfl | exact Eight.get_set_ne _ hg _
  | .group k g, .line l => cases k <;> cases l <;> rfl
  | .line k, .group l m => cases k <;> cases l <;> rfl
  | .line k, .line l => cases k <;> cases l <;> first | rfl | exact absurd rfl h

@[simp] theorem State.entry_setEntry_self (s : State) (id : FaultId) (e : Entry) : (s.setEntry id e).entry id = e := by
  simp [State.entry]

theorem State.entry_setEntry_ne (s : State) {i j : FaultId} (h : j ≠ i) (e : Entry) :
    (s.setEntry i e).entry j = s.entry j := by simp [State.entry, FaultTable.get_set_ne _ h]

end Machine

end Sys2Proof
end

