-- ==== Sys2Proof/Laws/Ops.lean ====
section
/-! SUPPORT. What each shared operation can do, said once: how a request is taken, and the parts of the state that
notices, service and line changes, responses, onsets and departures leave. -/

namespace Sys2Proof.Machine

/-! ### Taking a request (R182) -/

/-- The port of a valid request once its frame has ended. -/
@[simp] theorem State.port_arrive_self (s : State) (p : Port) :
    (s.arrive p).port p = { s.port p with receiver := .hunting, gapTimer := none } := by
  simp [State.arrive, PortRecord.frameEnds]

theorem State.port_arrive_ne (s : State) {p q : Port} (hne : q ≠ p) : (s.arrive p).port q = s.port q :=
  State.port_modPort_ne s.begin hne _

/-- What the arrival of a valid request leaves (R181). -/
theorem State.arrive_keeps (s : State) (p : Port) : s.keepsAllBut (s.arrive p) [.ports, .out] := by
  intro part hp
  cases part <;> first | rfl | exact absurd (by simp) hp

/-- The state a request's own rule starts from. -/
theorem State.answering_eq (s : State) (p : Port) :
    s.answering p = (s.arrive p).modPort p fun q => { q with request := .answering } := by
  simp [State.answering, State.arrive, State.modPort, State.begin, PortRecord.frameEnds]; rfl

/-- A request that comes to its own rule runs it with the port ANSWERING. -/
theorem State.takeRequest_own {s : State} {rq : Req} {kind : ReqKind} {length : Option Nat}
    (body : State → State × Option Answer) (hload : s.loading = false) (hidle : (s.port rq.port).request = .idle)
    (hrole : requestPermits kind (s.role rq.port) = true) (hlen : length = some rq.len) :
    s.takeRequest rq kind length body =
      match body (s.answering rq.port) with
      | (s2, some a) => s2.respondOn rq.port ⟨rq.tag, kind.code, a.code, a.payload⟩
      | (s2, none) => s2 := by
  have h1 : ((s.arrive rq.port).port rq.port).request = .idle := by simpa using hidle
  have h2 : (s.arrive rq.port).loading = false := hload
  have h3 : (s.answering rq.port).role rq.port = s.role rq.port := by simp [State.role, State.answering, State.port]
  simp only [State.takeRequest, h1, h2, ← State.answering_eq, h3, hrole, hlen, not_true_eq_false, if_false, ne_eq,
    Bool.false_eq_true]
  all_goals rfl

/-- A request taken outside IDLE joins the busy list. -/
theorem State.takeRequest_busy {s : State} {rq : Req} {kind : ReqKind} {length : Option Nat}
    (body : State → State × Option Answer) (h : (s.port rq.port).request ≠ .idle) :
    s.takeRequest rq kind length body =
      (s.arrive rq.port).modPort rq.port fun q => q.queueBusy rq.tag kind.code := by
  have h1 : ((s.arrive rq.port).port rq.port).request = (s.port rq.port).request := by simp
  unfold State.takeRequest
  simp only [h1]
  revert h
  cases (s.port rq.port).request <;> simp

/-- A request taken during the load is answered BUSY. -/
theorem State.takeRequest_loading {s : State} {rq : Req} {kind : ReqKind} {length : Option Nat}
    (body : State → State × Option Answer) (hload : s.loading = true) (hidle : (s.port rq.port).request = .idle) :
    s.takeRequest rq kind length body = (s.arrive rq.port).respondOn rq.port ⟨rq.tag, kind.code, .busy, []⟩ := by
  have h1 : ((s.arrive rq.port).port rq.port).request = .idle := by simpa using hidle
  have h2 : (s.arrive rq.port).loading = true := hload
  simp only [State.takeRequest, h1, h2, if_true]

/-! ### Frames -/

theorem State.keepsAllBut_refl (s : State) (l : List Part) : s.keepsAllBut s l := by
  intro p _
  cases p <;> rfl

theorem State.keepsAllBut_trans {s t u : State} {l : List Part} (h1 : s.keepsAllBut t l) (h2 : t.keepsAllBut u l) :
    s.keepsAllBut u l := by
  intro p hp
  have a := h1 p hp
  have b := h2 p hp
  cases p <;> exact Eq.trans b a

theorem State.keepsAllBut_mono {s t : State} {l m : List Part} (h : s.keepsAllBut t l) (hl : ∀ p ∈ l, p ∈ m) :
    s.keepsAllBut t m := fun p hp => h p fun hm => hp (hl p hm)

/-- A step taken for each group keeps what it keeps for one. -/
theorem State.eachGroup_keeps {l : List Part} {f : State → Group → State}
    (h : ∀ (s : State) (g : Group), s.keepsAllBut (f s g) l) (s : State) : s.keepsAllBut (s.eachGroup f) l := by
  have fold : ∀ (gs : List Group) (t : State), t.keepsAllBut (gs.foldl f t) l := by
    intro gs
    induction gs with
    | nil => exact fun t => State.keepsAllBut_refl t l
    | cons g gs ih => exact fun t => State.keepsAllBut_trans (h t g) (ih (f t g))
  exact fold allGroups s

/-- What a change of one group's membership can touch. -/
def groupParts : List Part := [.groups, .cooling, .ports]

/-- What an onset and its responses can touch. -/
def responseParts : List Part := [.line, .claims, .groups, .cooling, .faults, .stack, .ports, .out]

theorem State.notify_keeps (s : State) (b : NoticeBody) : s.keepsAllBut (s.notify b) [.ports] := by
  intro p hp
  cases p <;> first | rfl | exact absurd (by simp) hp

theorem State.startGrace_keeps (s : State) (g : Group) : s.keepsAllBut (s.startGrace g) groupParts := by
  intro p hp
  cases p <;> first | rfl | exact absurd (by simp [groupParts]) hp

theorem State.enterSet_keeps (s : State) (g : Group) : s.keepsAllBut (s.enterSet g) groupParts := by
  unfold State.enterSet
  simp only
  split
  · exact s.startGrace_keeps g
  · exact s.keepsAllBut_refl _

theorem State.leaveSet_keeps (s : State) (g : Group) : s.keepsAllBut (s.leaveSet g) groupParts := by
  unfold State.leaveSet
  intro p hp
  simp only
  split <;> (cases p <;> first | rfl | exact absurd (by simp [groupParts]) hp)

theorem State.membership_keeps (before : Bool) (s : State) (g : Group) :
    s.keepsAllBut (State.membership before s g) groupParts := by
  unfold State.membership
  split
  · exact s.enterSet_keeps g
  · exact s.leaveSet_keeps g
  · exact s.keepsAllBut_refl _
  · exact s.keepsAllBut_refl _

theorem State.setService_keeps (s : State) (g : Group) (new : ServiceState) (cause : GroupCause) :
    s.keepsAllBut (s.setService g new cause) groupParts := by
  unfold State.setService
  refine State.keepsAllBut_trans ?_ (State.membership_keeps _ _ _)
  intro p hp
  cases p <;> first | rfl | exact absurd (by simp [groupParts]) hp

theorem State.sendBlocked_keeps (s : State) : s.keepsAllBut s.sendBlocked [.groups, .out] := by
  refine State.eachGroup_keeps (fun t g => ?_) s
  intro p hp
  cases p <;> first | rfl | exact absurd (by simp) hp

theorem State.settleGroup_keeps (s : State) (g : Group) : s.keepsAllBut (s.settleGroup g) groupParts := by
  unfold State.settleGroup
  have h : ∀ (c : GroupCause) (n : ServiceState),
      s.keepsAllBut ((s.modGroup g fun r => { r with joinCeiling := 0, leaveCeiling := 0 }).setService g n c)
        groupParts := by
    intro c n
    refine State.keepsAllBut_trans ?_ (State.setService_keeps _ g n c)
    intro p hp
    cases p <;> first | rfl | exact absurd (by simp [groupParts]) hp
  split
  · exact h _ _
  · exact h _ _
  all_goals exact s.keepsAllBut_refl _

theorem State.writeFaultClaim_keeps (s : State) : s.keepsAllBut s.writeFaultClaim [.claims] := by
  unfold State.writeFaultClaim
  intro p hp
  split <;> (cases p <;> first | rfl | exact absurd (by simp) hp)

theorem State.settlePending_keeps (s : State) : s.keepsAllBut s.settlePending [.claims, .faults] := by
  unfold State.settlePending
  split
  · refine State.keepsAllBut_trans ?_ (State.keepsAllBut_mono (State.writeFaultClaim_keeps _) (by simp))
    intro p hp
    cases p <;> first | rfl | exact absurd (by simp) hp
  · exact s.keepsAllBut_refl _

/-- What a change of the line state leaves (R1, R164). -/
theorem State.setLineState_keeps (s : State) (new : LineState) (cause : LineCause) :
    s.keepsAllBut (s.setLineState new cause) [.line, .claims, .groups, .cooling, .faults, .ports] := by
  have h2 : s.keepsAllBut
      ((({ s with line := { s.line with state := some new } } : State).notify
        (.lineState new s.line.state cause)).eachGroup fun t g =>
          State.membership ((Eight.ofFn s.inSet).get g) t g)
      [.line, .claims, .groups, .cooling, .faults, .ports] := by
    refine State.keepsAllBut_trans ?_ (State.eachGroup_keeps (fun t g =>
      State.keepsAllBut_mono (State.membership_keeps _ t g) (by simp [groupParts])) _)
    intro p hp
    cases p <;> first | rfl | exact absurd (by simp) hp
  unfold State.setLineState
  simp only
  split
  · exact State.keepsAllBut_trans h2 (State.keepsAllBut_mono (State.settlePending_keeps _) (by simp))
  · exact h2

theorem State.setLineState_keeps_response (s : State) (new : LineState) (cause : LineCause) :
    s.keepsAllBut (s.setLineState new cause) responseParts :=
  State.keepsAllBut_mono (s.setLineState_keeps new cause) (by simp [responseParts])

theorem State.enterBlocked_keeps (s : State) (new : LineState) (cause : LineCause) :
    s.keepsAllBut (s.enterBlocked new cause) responseParts := by
  unfold State.enterBlocked
  refine State.keepsAllBut_trans ?_ (State.keepsAllBut_trans (State.setLineState_keeps_response _ new cause)
    (State.keepsAllBut_trans (State.eachGroup_keeps (fun t g =>
      State.keepsAllBut_mono (State.settleGroup_keeps t g) (by simp [groupParts, responseParts])) _)
      (State.keepsAllBut_mono (State.sendBlocked_keeps _) (by simp [responseParts]))))
  intro p hp
  cases p <;> first | rfl | exact absurd (by simp [responseParts]) hp

/-- What a departure leaves (R160). -/
theorem State.departure_keeps (s : State) (id : FaultId) : s.keepsAllBut (s.departure id) [.faults, .ports] := by
  unfold State.departure
  intro p hp
  split <;> (cases p <;> first | rfl | exact absurd (by simp) hp)

theorem State.capacityDeparture_keeps (s : State) :
    s.keepsAllBut s.capacityDeparture [.line, .faults, .ports] := by
  unfold State.capacityDeparture
  split
  · refine State.keepsAllBut_trans ?_ (State.keepsAllBut_mono (State.departure_keeps _ _) (by simp))
    intro p hp
    cases p <;> first | rfl | exact absurd (by simp) hp
  · exact s.keepsAllBut_refl _

theorem State.removeGroup_keeps (s : State) (g : Group) : s.keepsAllBut (s.removeGroup g) responseParts := by
  have h : s.keepsAllBut ((s.endRamps g).setService g .removed .fault) responseParts := by
    refine State.keepsAllBut_trans ?_ (State.keepsAllBut_mono (State.setService_keeps _ _ _ _)
      (by simp [groupParts, responseParts]))
    intro p hp
    cases p <;> first | rfl | exact absurd (by simp [responseParts]) hp
  unfold State.removeGroup
  split
  · exact s.keepsAllBut_refl _
  · exact s.keepsAllBut_refl _
  all_goals
    simp only
    split
    · refine State.keepsAllBut_trans h ?_
      intro p hp
      cases p <;> first | rfl | exact absurd (by simp [responseParts]) hp
    · exact h

theorem State.holdLine_keeps (s : State) : s.keepsAllBut s.holdLine responseParts := by
  unfold State.holdLine
  split
  · exact s.setLineState_keeps_response _ _
  all_goals exact s.keepsAllBut_refl _

theorem State.reduceLine_keeps (s : State) (id : FaultId) (before : EntryState) :
    s.keepsAllBut (s.reduceLine id before) responseParts := by
  unfold State.reduceLine
  split
  · simp only
    split
    · refine State.keepsAllBut_trans ?_ (State.keepsAllBut_mono (State.writeFaultClaim_keeps _)
        (by simp [responseParts]))
      intro p hp
      cases p <;> first | rfl | exact absurd (by simp [responseParts]) hp
    · intro p hp
      cases p <;> first | rfl | exact absurd (by simp [responseParts]) hp
  · exact s.keepsAllBut_refl _
  · exact s.keepsAllBut_refl _

theorem State.captureFault_keeps (s : State) (id : FaultId) (before : EntryState) (detail : Option Detail) :
    s.keepsAllBut (s.captureFault id before detail) [.stack] := by
  unfold State.captureFault
  intro p hp
  simp only
  split <;> (cases p <;> first | rfl | exact absurd (by simp) hp)

theorem State.respond_keeps {trip : State → State} (ht : ∀ s : State, s.keepsAllBut (trip s) responseParts)
    (s : State) (id : FaultId) (before : EntryState) : s.keepsAllBut (s.respond trip id before) responseParts := by
  have h1 : ∀ c : Carried, s.keepsAllBut
      (match id with | .group _ g => if c.names .remove then s.removeGroup g else s | .line _ => s)
      responseParts := by
    intro c
    split
    · split
      · exact s.removeGroup_keeps _
      · exact s.keepsAllBut_refl _
    · exact s.keepsAllBut_refl _
  unfold State.respond
  split
  · exact s.keepsAllBut_refl _
  · rename_i c _
    simp only
    split
    · exact h1 c
    · exact State.keepsAllBut_trans (h1 c) (State.holdLine_keeps _)
    · exact State.keepsAllBut_trans (h1 c) (State.reduceLine_keeps _ _ _)
    · exact h1 c
    · exact State.keepsAllBut_trans (h1 c) (ht _)

theorem State.onsetSteps_keeps {trip : State → State} (ht : ∀ s : State, s.keepsAllBut (trip s) responseParts)
    (s : State) (id : FaultId) (before : EntryState) (detail : Option Detail) :
    s.keepsAllBut (s.onsetSteps trip id before detail) responseParts := by
  unfold State.onsetSteps State.noteOnset
  refine State.keepsAllBut_trans ?_ (State.keepsAllBut_trans
    (State.keepsAllBut_mono (State.captureFault_keeps _ id before detail) (by simp [responseParts]))
    (State.keepsAllBut_trans (State.respond_keeps ht _ id before)
      (State.keepsAllBut_mono (State.notify_keeps _ _) (by simp [responseParts]))))
  intro p hp
  cases p <;> first | rfl | exact absurd (by simp [responseParts]) hp

theorem State.setEntry_keeps (s : State) (id : FaultId) (e : Entry) :
    s.keepsAllBut (s.setEntry id e) responseParts := by
  intro p hp
  cases p <;> first | rfl | exact absurd (by simp [responseParts]) hp

theorem State.onsetWith_keeps {trip : State → State} (ht : ∀ s : State, s.keepsAllBut (trip s) responseParts)
    (s : State) (id : FaultId) (detail : Option Detail) :
    s.keepsAllBut (s.onsetWith trip id detail) responseParts := by
  unfold State.onsetWith
  simp only
  split
  · exact State.keepsAllBut_trans (s.setEntry_keeps _ _) (State.onsetSteps_keeps ht _ _ _ _)
  · exact State.keepsAllBut_trans (s.setEntry_keeps _ _) (State.onsetSteps_keeps ht _ _ _ _)
  · exact s.setEntry_keeps _ _

theorem State.classifyGroup_keeps (s : State) (g : Group) : s.keepsAllBut (s.classifyGroup g) responseParts := by
  have h1 : s.keepsAllBut ((s.setService g .removed .adoption).modCool g fun c => { c with adoptionSource := true })
      responseParts := by
    refine State.keepsAllBut_trans (State.keepsAllBut_mono (s.setService_keeps g .removed .adoption)
      (by simp [groupParts, responseParts])) ?_
    intro p hp
    cases p <;> first | rfl | exact absurd (by simp [responseParts]) hp
  unfold State.classifyGroup
  split
  · simp only
    split
    · exact h1
    · exact State.keepsAllBut_trans h1
        (State.onsetWith_keeps (fun t => t.keepsAllBut_refl _) _ _ _)
  · exact s.keepsAllBut_refl _

theorem State.closeWindow_keeps (s : State) : s.keepsAllBut s.closeWindow responseParts := by
  unfold State.closeWindow
  refine State.keepsAllBut_trans ?_ (State.eachGroup_keeps State.classifyGroup_keeps _)
  intro p hp
  cases p <;> first | rfl | exact absurd (by simp [responseParts]) hp

theorem State.tripLine_keeps (s : State) : s.keepsAllBut s.tripLine responseParts := by
  have h : ∀ t : State, t.keepsAllBut t.enterTripped responseParts := fun t =>
    State.keepsAllBut_trans (t.enterBlocked_keeps _ _)
      (State.keepsAllBut_mono (State.capacityDeparture_keeps _) (by simp [responseParts]))
  unfold State.tripLine
  split
  · exact s.keepsAllBut_refl _
  · exact s.keepsAllBut_refl _
  · exact State.keepsAllBut_trans s.closeWindow_keeps (h _)
  all_goals exact h _

/-- What an onset leaves (R159): the time base, the configuration, the pots, the scan, the anode effects, the metering,
the orders, the store and the waiting commands. -/
theorem State.onset_keeps (s : State) (id : FaultId) (detail : Option Detail) :
    s.keepsAllBut (s.onset id detail) responseParts :=
  State.onsetWith_keeps State.tripLine_keeps s id detail

/-- What the hand-over of a condition leaves. -/
theorem State.conditionChange_keeps (s : State) (id : FaultId) (before after : Bool) (detail : Option Detail) :
    s.keepsAllBut (s.conditionChange id before after detail) responseParts := by
  unfold State.conditionChange
  split
  · exact s.onset_keeps id detail
  · exact State.keepsAllBut_mono (s.departure_keeps id) (by simp [responseParts])
  all_goals exact s.keepsAllBut_refl _

/-! ### The start of an expiry, the stale count and the band test -/

/-- Taking a group's items into use changes its tolerance and resolution alone (R9). -/
theorem State.takeItems_eq (s : State) (g : Group) :
    s.takeItems g = { s with groups := s.groups.set g { s.groups.get g with
      tolerance := (s.groupConfig g).tolerance, resolution := (s.groupConfig g).resolution } } := rfl

theorem State.enrol_keeps (s : State) (g : Group) : s.keepsAllBut (s.enrol g) groupParts := by
  unfold State.enrol
  refine State.keepsAllBut_trans ?_ (State.membership_keeps _ _ _)
  intro p hp
  cases p <;> first | rfl | exact absurd (by simp [groupParts]) hp

theorem State.startExpiry_keeps (s : State) (g : Group) : s.keepsAllBut (s.startExpiry g) groupParts := by
  unfold State.startExpiry
  refine State.keepsAllBut_trans ?_ (State.enrol_keeps _ g)
  intro p hp
  cases p <;> first | rfl | exact absurd (by simp [groupParts]) hp

/-- The recount of the stale count and the evaluation of SCAN_STALE touch the scan receiver and what a response can
touch (R92). -/
theorem State.evaluateStale_keeps (s : State) : s.keepsAllBut s.evaluateStale (.scan :: responseParts) := by
  unfold State.evaluateStale
  split
  · refine State.keepsAllBut_trans ?_ (State.keepsAllBut_mono (State.conditionChange_keeps _ _ _ _ _)
      fun p hp => List.mem_cons_of_mem _ hp)
    intro p hp
    cases p <;> first | rfl | exact absurd (by simp [responseParts]) hp
  · exact s.keepsAllBut_refl _

theorem State.restale_keeps (s : State) : s.keepsAllBut s.restale (.scan :: responseParts) := by
  refine State.keepsAllBut_trans ?_ (State.evaluateStale_keeps s.recount)
  intro p hp
  cases p <;> first | rfl | exact absurd (by simp [responseParts]) hp

/-- A band test touches its pot and the ports (R94). -/
theorem State.bandTest_keeps (s : State) (i : Nat) : s.keepsAllBut (s.bandTest i) [.pots, .ports] := by
  unfold State.bandTest
  simp only
  split <;> (intro p hp; cases p <;> first | rfl | exact absurd (by simp) hp)

/-- A derived deadline lies within the range of the time base (R129, 00_scope.md 4.2). -/
theorem deriveDeadline_le (now : Nat) (calendar : Option Calendar) (minutes : Nat) :
    deriveDeadline now calendar minutes ≤ timeLimit := by
  cases calendar <;> simp [deriveDeadline, timeAfter, satAdd]

/-- What a close does to one cursor (R185). -/
theorem Cursor.shift_eq (c : Cursor) :
    c.shift = if c.target = .pots then c
      else if c.position < 95 then { c with position := c.position + 1 }
      else { c with position := 95, skipped := true } := by
  cases h : c.target <;> simp only [Cursor.shift, h, ringLimit, reduceCtorEq, if_true, if_false]
  by_cases hp : c.position < 95
  · rw [if_neg (by omega), if_pos hp]
  · rw [if_pos (by omega), if_neg hp]

/-! ### The members of an allocation record (R47, R59) -/

/-- A record's members are those it holds for some group. -/
theorem AllocRecord.mem_taking {r : AllocRecord} {x : AllocMember} :
    x ∈ r.taking ↔ ∃ g : Group, r.members.get g = some x := by
  simp only [AllocRecord.taking, Eight.toList, List.mem_filterMap, List.mem_cons, List.not_mem_nil, or_false, id,
    exists_eq_right]
  constructor
  · rintro (h | h | h | h | h | h | h | h)
    exacts [⟨0, h.symm⟩, ⟨1, h.symm⟩, ⟨2, h.symm⟩, ⟨3, h.symm⟩, ⟨4, h.symm⟩, ⟨5, h.symm⟩, ⟨6, h.symm⟩, ⟨7, h.symm⟩]
  · rintro ⟨g, h⟩
    fin_cases g <;> simp_all [Eight.get]

/-- A member is open in a pass exactly when no earlier pass has pinned it. -/
theorem AllocRecord.mem_openIn {r : AllocRecord} {k : Nat} {x : AllocMember} :
    x ∈ r.openIn k ↔ x ∈ r.taking ∧ ∀ n : Nat, x.pinned = some n → k ≤ n := by
  cases h : x.pinned <;> simp [AllocRecord.openIn, h]

/-- A member is fixed in a pass exactly when an earlier pass has pinned it. -/
theorem AllocRecord.mem_fixedIn {r : AllocRecord} {k : Nat} {x : AllocMember} :
    x ∈ r.fixedIn k ↔ x ∈ r.taking ∧ ∃ n : Nat, x.pinned = some n ∧ n < k := by
  cases h : x.pinned <;> simp [AllocRecord.fixedIn, h]

end Sys2Proof.Machine
end

