-- ==== Sys2Proof/Laws/Snapshot.lean ====
section
/-! SUPPORT. The canonical form of the frame store is kept by every operation of the snapshot stack, and the empty stack
has it. -/

namespace Sys2Proof.Machine

theorem FrameCause.length_pos (c : FrameCause) : 0 < c.length := by
  cases c <;> simp [FrameCause.length]

@[simp] theorem SnapshotStack.miss_frames (st : SnapshotStack) (n : Nat) : (st.miss n).frames = st.frames := rfl
@[simp] theorem SnapshotStack.miss_top (st : SnapshotStack) (n : Nat) : (st.miss n).top = st.top := rfl
@[simp] theorem SnapshotStack.miss_writing (st : SnapshotStack) (n : Nat) : (st.miss n).writing = st.writing := rfl
@[simp] theorem SnapshotStack.miss_waiting (st : SnapshotStack) (n : Nat) : (st.miss n).waiting = st.waiting := rfl
@[simp] theorem SnapshotStack.miss_nextSequence (st : SnapshotStack) (n : Nat) :
    (st.miss n).nextSequence = st.nextSequence := rfl

/-- Everything a start of the next write can do: the stacked frames and the top stay, and either nothing is written and
nothing waits, or the frame written lies just below the top and what waits is a later part of the list. -/
theorem SnapshotStack.startNext_spec (cs : List Captured) (st : SnapshotStack) :
    (st.startNext cs).frames = st.frames ∧ (st.startNext cs).top = st.top ∧
    (((st.startNext cs).writing = none ∧ (st.startNext cs).waiting = []) ∨
      ∃ f : Frame, (st.startNext cs).writing = some f ∧ f.backLink = st.top ∧ f.address + f.length = st.top ∧
        f.length = f.contents.cause.length ∧ ∃ before : List Captured,
          cs = before ++ f.contents :: (st.startNext cs).waiting) := by
  induction cs generalizing st with
  | nil => exact ⟨rfl, rfl, .inl ⟨rfl, rfl⟩⟩
  | cons c cs ih =>
    by_cases h : st.top < c.cause.length
    · simp only [SnapshotStack.startNext, h, if_true]
      obtain ⟨h1, h2, h3⟩ := ih (st.miss 1)
      refine ⟨h1, h2, ?_⟩
      rcases h3 with h3 | ⟨f, hf, hb, ha, hl, before, he⟩
      · exact .inl h3
      · exact .inr ⟨f, hf, hb, ha, hl, c :: before, congrArg (c :: ·) he⟩
    · simp only [SnapshotStack.startNext, h, if_false]
      refine ⟨trivial, trivial, .inr ⟨_, rfl, rfl, Nat.sub_add_cancel (Nat.le_of_not_lt h), rfl, [], rfl⟩⟩

/-- What waits after a start of the next write is no longer than what waited. -/
theorem SnapshotStack.startNext_waiting_length (cs : List Captured) (st : SnapshotStack) :
    (st.startNext cs).waiting.length ≤ cs.length - 1 := by
  obtain ⟨-, -, h⟩ := SnapshotStack.startNext_spec cs st
  rcases h with ⟨-, h⟩ | ⟨f, -, -, -, -, before, he⟩
  · simp [h]
  · have := congrArg List.length he
    simp at this
    omega

/-- A start of the next write gives the canonical form from stacked frames that fill the store from the top up. -/
theorem SnapshotStack.startNext_wf {st : SnapshotStack} (h : framesFrom st.top st.frames) (cs : List Captured) :
    (st.startNext cs).wf := by
  obtain ⟨h1, h2, h3⟩ := SnapshotStack.startNext_spec cs st
  refine ⟨by rw [h1, h2]; exact h, ?_, ?_⟩
  · intro f hf
    rcases h3 with ⟨hn, -⟩ | ⟨g, hg, hb, ha, hl, -⟩
    · rw [hn] at hf; cases hf
    · rw [hg] at hf; cases hf; rw [h2]; exact ⟨hb, ha, hl⟩
  · intro hn
    rcases h3 with ⟨-, hw⟩ | ⟨g, hg, -⟩
    · exact hw
    · rw [hg] at hn; cases hn

theorem SnapshotStack.miss_wf {st : SnapshotStack} (h : st.wf) (n : Nat) : (st.miss n).wf := h

theorem SnapshotStack.push_wf {st : SnapshotStack} (h : st.wf) (c : Captured) : (st.push c).wf := by
  unfold SnapshotStack.push
  split
  · exact SnapshotStack.startNext_wf h.1 _
  · rename_i f hw
    split
    · exact ⟨h.1, h.2.1, fun hn => by simp [hw] at hn⟩
    · exact SnapshotStack.miss_wf h 1

theorem SnapshotStack.complete_wf {st : SnapshotStack} (h : st.wf) {f : Frame} (hf : st.writing = some f) :
    (st.complete f).wf := by
  obtain ⟨hb, ha, hl⟩ := h.2.1 f hf
  refine SnapshotStack.startNext_wf ?_ _
  have hp := FrameCause.length_pos f.contents.cause
  exact ⟨rfl, by omega, by simp; omega, hl, by rw [hb]; exact h.1⟩

theorem SnapshotStack.dropFrame_wf {st : SnapshotStack} (h : st.wf) {f : Frame} {rest : List Frame}
    (hf : st.frames = f :: rest) (hw : st.writing = none) : (st.dropFrame f rest).wf := by
  have h1 := h.1
  rw [hf] at h1
  exact ⟨h1.2.2.2.2, fun g hg => by simp [SnapshotStack.dropFrame, hw] at hg, h.2.2⟩

theorem SnapshotStack.abandon_frames (st : SnapshotStack) :
    st.abandon.frames = st.frames ∧ st.abandon.top = st.top ∧ st.abandon.writing = none := by
  unfold SnapshotStack.abandon
  split
  · rename_i h; exact ⟨rfl, rfl, h⟩
  · exact ⟨rfl, rfl, rfl⟩

theorem SnapshotStack.dropAll_wf {st : SnapshotStack} (h : st.wf) : st.dropAll.wf := by
  unfold SnapshotStack.dropAll
  split
  · rename_i hw
    refine ⟨rfl, fun f hf => ?_, fun _ => ?_⟩
    · simp [SnapshotStack.abandon, hw] at hf
    · simp [SnapshotStack.abandon, hw, h.2.2 hw]
  · exact SnapshotStack.startNext_wf (show framesFrom 4096 [] from rfl) _

theorem SnapshotStack.restart_wf {st : SnapshotStack} (h : st.wf) : st.restart.wf := by
  obtain ⟨h1, h2, h3⟩ := SnapshotStack.abandon_frames st
  refine ⟨?_, fun f hf => ?_, fun _ => rfl⟩
  · show framesFrom st.abandon.top st.abandon.frames
    rw [h1, h2]; exact h.1
  · have hf' : st.abandon.writing = some f := hf
    rw [h3] at hf'; cases hf'

/-- The stack of the reset state has the canonical form. -/
theorem reset_stack_wf : State.reset.stack.wf :=
  SnapshotStack.startNext_wf (st := State.reset.stack) (show framesFrom 4096 [] from rfl) []

end Sys2Proof.Machine
end

