-- ==== Sys2Proof/Tests/Slice0.lean ====
section
/-! SUPPORT. Tests: ill-formed commands that each check of WellFormed refuses, frames written out byte by byte, worked
examples of the manual, and for each statement of Obligations.lean a witness that its hypotheses can be met. -/

namespace Sys2Proof.Tests

open Sys2Proof.Machine

set_option Elab.async false

/-! ### States to test on -/

/-- The state after a command. -/
def after (i : Instr) (s : State) : State :=
  match exec i s with
  | .next t => t
  | .fault _ => s
  | .refused _ => s

/-- The state after some commands. -/
def afterAll (is : List Instr) (s : State) : State := is.foldl (fun t i => after i t) s

/-- A request's own data, on a port and with a payload length. -/
def rq (p : Port) (len : Nat) : Req := ⟨p, 7, len⟩

/-- The state once a request's response has gone out. -/
def ask (i : Instr) (s : State) : State :=
  match i.request? with
  | some (r, _) => afterAll [i, .responseSent r.port] s
  | none => after i s

/-- Loaded from no image, in the adopt window; port 0 is SUBSTATION, 1 POTLINE, 2 ENERGY and 3 SERVICE. -/
def booted : State := after .configLoadComplete State.reset

/-- Past the adopt window, in STANDBY. -/
def standby : State := after .adoptWindowClose booted

/-- In STANDBY with every group selected. -/
def selected : State := allGroups.foldl (fun s g => ask (.setGroupService (rq 0 2) g.val 0) s) standby

/-- In STARTING with every group. -/
def starting : State := ask (.startLine (rq 0 0)) selected

/-- The line put in a state at a commanded current. -/
def lineAt (l : LineState) (iCmd : Nat) (s : State) : State :=
  { s with line := { s.line with state := some l, iCmd := iCmd } }

/-- In REGULATING at 30,000 cu with every group. -/
def regulating : State := lineAt .regulating 30000 starting

/-- In HOLD at 30,000 cu with every group. -/
def holding : State := lineAt .hold 30000 starting

/-- In TRIPPED. -/
def tripped : State := lineAt .tripped 0 selected

/-- A group put in a service state. -/
def serviceAt (g : Group) (v : ServiceState) (s : State) : State := s.modGroup g fun r => { r with service := v }

/-- A fault entry standing with one response. -/
def standing (st : EntryState) (a : Action) (forced : Bool) : Entry :=
  { clearEntry with state := st, count := 1, response := some ⟨a, forced⟩, reducePercent := some 90 }

/-- A port that is ANSWERING with `n` tags waiting. -/
def busyPort (p : Port) (n : Nat) (s : State) : State :=
  s.modPort p fun q => { q with
    request := .answering, reply := some ⟨1, 25, .ok, []⟩, busy := List.replicate n ⟨2, 25⟩ }

/-- A status frame of a healthy group (the expected pattern 1F hex, both pumps running). -/
def healthy (current voltage : Nat) (outlet : Int) (echo : Nat) : StatusFrame :=
  { current := current, voltage := voltage, inlet := 250, outlet := outlet, flow := 500, status := 0x1F#8
    trips := 0#4, echo := echo }

/-! ### The conditions of Safety.lean as tests -/

/-- `State.ready` as a test. -/
def readyNow (s : State) (i : Instr) : Bool :=
  match i.request? with
  | none => true
  | some (r, kind) =>
    !s.loading && decide ((s.port r.port).request = .idle) && requestPermits kind (s.role r.port)
      && decide (i.requiredLength = some r.len)

theorem ready_iff (s : State) (i : Instr) : s.ready i ↔ readyNow s i = true := by
  unfold State.ready readyNow
  cases i.request? with
  | none => simp
  | some r => simp [and_assoc]

/-- A condition on every fault entry is met where it is met along the list of their names. -/
theorem forall_ids (P : FaultId → Prop) : (∀ id, P id) ↔ ∀ id ∈ allFaultIds, P id := by
  refine ⟨fun h id _ => h id, fun h id => h id ?_⟩
  cases id with
  | group k g => cases k <;> (fin_cases g <;> decide)
  | line k => cases k <;> decide

theorem forall_kinds (P : FaultKind → Prop) : (∀ k, P k) ↔ ∀ k ∈ allFaultKinds, P k := by
  refine ⟨fun h k _ => h k, fun h k => h k ?_⟩
  rcases k with k | k <;> cases k <;> decide

/-- `Configuration.responsesAllowed` as a test. -/
def configAllowed (c : Configuration) : Bool := allFaultKinds.all fun k => k.allows (c.actions.get k).response

/-- `State.responsesAllowed` as a test, for a store that is not saving and has no image. -/
def allowedNow (s : State) : Bool :=
  configAllowed s.config && decide (s.store.image = none) && decide (s.store.state = .idle) && allFaultIds.all fun id =>
    match (s.entry id).response with
    | none => true
    | some c => id.kind.allows c.configured && decide (c.forced = id.kind.forcesRemove)

theorem allowed_of (s : State) (h : allowedNow s = true) : s.responsesAllowed := by
  simp only [allowedNow, configAllowed, Bool.and_eq_true, List.all_eq_true, decide_eq_true_eq] at h
  obtain ⟨⟨⟨hc, hi⟩, hs⟩, he⟩ := h
  refine ⟨(forall_kinds _).2 hc, by simp [hi], by simp [hs], (forall_ids _).2 fun id hid c hr => ?_⟩
  have := he id hid
  rw [hr] at this
  simpa using this

/-- Every entry stands in CLEAR where the list of names says so. -/
theorem none_stands (s : State) (h : (allFaultIds.all fun id => decide ((s.entry id).state = .clear)) = true) (id : FaultId) :
    (s.entry id).state = .clear :=
  (forall_ids fun id => (s.entry id).state = .clear).2 (by simpa using h) id

/-- A claim slot made active at a value. -/
def withClaim (k : ClaimSlot) (v : Nat) (s : State) : State :=
  { s with claims := s.claims.set k { s.claims.get k with active := true, value := v } }

/-- A group given a last valid frame. -/
def withFrame (g : Group) (f : StatusFrame) (s : State) : State := s.modGroup g fun r => { r with lastFrame := some f }

/-- In the adopt window with every group selected and measuring a current. -/
def windowAt (current : Nat) : State :=
  allGroups.foldl (fun s g => withFrame g (healthy current 9000 400 0) (serviceAt g .inService s)) booted

/-- The state one step later. -/
def stepped (s : State) : State :=
  match step s with
  | .next t => t
  | .fault _ => s
  | .refused _ => s

/-! ### Witnesses: the step, requests and notices -/

theorem witness_StepRunsTheFrontCommand :
    ({ standby with pending := [.cycleMarker, .syncPulse] } : State).pending = .cycleMarker :: [.syncPulse] := rfl

theorem witness_EmptyQueuePassesOneMillisecond :
    let s : State := { standby with timeBase := 2 ^ 40 - 2 }
    let c : State := { s with metering := { s.metering with calendar := some ⟨6, 86399999⟩ } }
    s.pending = [] ∧ s.timeBase < 2 ^ 40 - 1 ∧ s.metering.calendar = none ∧ c.pending = [] ∧
      (stepped c).metering.calendar = some ⟨0, 0⟩ ∧ (stepped c).timeBase = 2 ^ 40 - 1 := by decide +kernel

theorem witness_RequestsOutsideTheirOwnRule :
    let i : Instr := .startLine (rq 0 0)
    i.request? = some (rq 0 0, .startLine) ∧
    ((busyPort 0 3 standby).port 0).request ≠ .idle ∧ ((busyPort 0 3 standby).port 0).busy.length < 4 ∧
    ((busyPort 0 4 standby).port 0).request ≠ .idle ∧ 4 ≤ ((busyPort 0 4 standby).port 0).busy.length ∧
    (State.reset.port 0).request = .idle ∧ State.reset.loading = true ∧
    (standby.port 1).request = .idle ∧ standby.loading = false ∧ requestPermits .startLine (standby.role 1) = false ∧
    (standby.port 0).request = .idle ∧ requestPermits .startLine (standby.role 0) = true ∧
      (Instr.startLine (rq 0 1)).requiredLength ≠ some (rq 0 1).len := by decide +kernel

theorem witness_NoticesJoinQueuesOrOverrun :
    let full (n : Nat) : State := standby.modPort 0 fun q => { q with queue := List.replicate n ⟨0, .configDefaulted⟩ }
    (NoticeBody.quenchRequest 1 1 0 0 0).goesTo (standby.role 0) = false ∧
    NoticeBody.configDefaulted.goesTo ((full 31).role 0) = true ∧ ((full 31).port 0).queue.length < 32 ∧
    NoticeBody.configDefaulted.goesTo ((full 32).role 0) = true ∧ 32 ≤ ((full 32).port 0).queue.length := by
  decide +kernel

/-! ### Witnesses: the line and its groups -/

theorem witness_LineRequestsMoveTheLine :
    (regulating.ready (.startLine (rq 0 0)) ∧ regulating.line.state ≠ some .standby) ∧
    (standby.ready (.startLine (rq 0 0)) ∧ standby.line.state = some .standby ∧
      ∀ g : Group, (standby.group g).service ≠ .inService) ∧
    (selected.ready (.startLine (rq 0 0)) ∧ selected.line.state = some .standby ∧
      ∃ g : Group, (selected.group g).service = .inService) ∧
    (starting.ready (.stopLine (rq 0 0)) ∧ starting.line.state = some .starting) ∧
    (regulating.ready (.stopLine (rq 0 0)) ∧ regulating.line.state = some .regulating) ∧
    (holding.ready (.stopLine (rq 0 0)) ∧ holding.line.state = some .hold) ∧
    ((lineAt .stopping 1 starting).ready (.stopLine (rq 0 0)) ∧ (lineAt .stopping 1 starting).line.state = some .stopping) ∧
    (booted.ready (.stopLine (rq 0 0)) ∧ booted.line.state = some .adopting) ∧
    (standby.ready (.resetTrip (rq 0 0)) ∧ standby.line.state ≠ some .tripped) ∧
    (standby.loading = false ∧ (standby.port 3).request = .idle ∧ standby.role 3 ∉ [Role.substation]) := by
  simp only [ready_iff]; decide +kernel

theorem witness_ResetTripOfATrippedLine :
    let id : FaultId := .group .overtemp 3
    let s : State := tripped.setEntry id (standing .latched .trip true)
    (s.ready (.resetTrip (rq 0 0)) ∧ s.line.state = some .tripped ∧ (s.entry id).state ≠ .clear ∧
      (s.entry id).response = some ⟨.trip, true⟩) ∧
    (tripped.ready (.resetTrip (rq 0 0)) ∧ tripped.line.state = some .tripped) := by
  simp only [ready_iff]; decide +kernel

theorem witness_ResetTripWithNoTripEntry (id : FaultId) (c : Carried) (h : (tripped.entry id).state ≠ .clear)
    (_ : (tripped.entry id).response = some c) : c.configured ≠ .trip :=
  absurd (none_stands tripped (by decide +kernel) id) h

theorem witness_BlockedLineSelectsGroups :
    (standby.ready (.setGroupService (rq 0 2) 8 0) ∧ standby.ready (.setGroupService (rq 0 2) 7 2)) ∧
    (booted.ready (.setGroupService (rq 0 2) 7 1) ∧ booted.line.state = some .adopting) ∧
    standby.blocked = true ∧ standby.ready (.setGroupService (rq 0 2) 7 0) ∧
      standby.ready (.setGroupService (rq 0 2) 7 1) ∧ (standby.group 7).service = .out ∧
    selected.blocked = true ∧ selected.ready (.setGroupService (rq 0 2) 0 0) ∧
      selected.ready (.setGroupService (rq 0 2) 0 1) ∧ (selected.group 0).service = .inService ∧
    (serviceAt 1 .removed standby).ready (.setGroupService (rq 0 2) 1 0) ∧
      ((serviceAt 1 .removed standby).group 1).service = .removed ∧
    (serviceAt 1 .linkLost standby).ready (.setGroupService (rq 0 2) 1 1) ∧
      ((serviceAt 1 .linkLost standby).group 1).service = .linkLost := by
  simp only [ready_iff]; decide +kernel

/-- R12 and log 23: a join out of a leave goes on at the leave ceiling, and a leave starts at the last order. -/
theorem test_leave_and_join_ceilings :
    let at5 (v : ServiceState) : State :=
      serviceAt 5 v (regulating.modGroup 5 fun r => { r with joinCeiling := 40, leaveCeiling := 70, lastOrder := 55 })
    let ceilings (mode : Nat) (v : ServiceState) :=
      let r := (after (.setGroupService (rq 0 2) 5 mode) (at5 v)).group 5
      (r.service, r.joinCeiling, r.leaveCeiling)
    ceilings 0 .leaving = (.joining, 70, 0) ∧ ceilings 1 .joining = (.leaving, 0, 55) := by decide +kernel

theorem witness_RunningLineJoinsAndLeavesGroups :
    (∀ v : ServiceState, v ∈ [ServiceState.out, .joining, .inService, .leaving, .removed, .linkLost] →
      (serviceAt 5 v regulating).running = true ∧ ((serviceAt 5 v regulating).group 5).service = v ∧
        readyNow (serviceAt 5 v regulating) (.setGroupService (rq 0 2) 5 0) = true ∧
        readyNow (serviceAt 5 v regulating) (.setGroupService (rq 0 2) 5 1) = true) ∧
    (∃ h : Group, h ≠ 5 ∧ (regulating.group h).service = .inService) ∧
    (let s := allGroups.foldl (fun s g => serviceAt g (if g = 5 then .joining else .leaving) s) regulating
     (s.group 5).service = .joining ∧
       ∀ h : Group, h ≠ 5 → (s.group h).service ≠ .joining ∧ (s.group h).service ≠ .inService) := by
  decide +kernel

theorem witness_RestoreGroupReturnsToOut :
    let s : State := serviceAt 2 .removed regulating
    let id : FaultId := .group .protection 2
    let f : State := s.setEntry id (standing .active .note true)
    (standby.ready (.restoreGroup (rq 0 1) 8)) ∧
    (standby.ready (.restoreGroup (rq 0 1) 2) ∧ (standby.group 2).service ≠ .removed) ∧
    (f.ready (.restoreGroup (rq 0 1) 2) ∧ (f.group 2).service = .removed ∧ (f.entry id).state ≠ .clear ∧
      (f.entry id).response = some ⟨.note, true⟩) ∧
    (s.ready (.restoreGroup (rq 0 1) 2) ∧ (s.group 2).service = .removed) := by
  simp only [ready_iff]; decide +kernel

theorem witness_RestoreWithNoRemoveEntry (k : GroupKind) (c : Carried)
    (h : ((serviceAt 2 .removed regulating).entry (.group k 2)).state ≠ .clear)
    (_ : ((serviceAt 2 .removed regulating).entry (.group k 2)).response = some c) :
    c.configured ≠ .remove ∧ c.forced = false :=
  absurd (none_stands (serviceAt 2 .removed regulating) (by decide +kernel) _) h

theorem witness_AdoptWindowCloseAdoptsOrStandsBy :
    let sum (s : State) : Nat := (allGroups.map fun g =>
      if (s.group g).service = .inService then
        (s.group g).measured / (s.group g).resolution * (s.group g).resolution else 0).sum
    ((windowAt 3125).line.state = some .adopting ∧ sum (windowAt 3125) = (windowAt 3125).config.floor) ∧
    ((windowAt 7504).line.state = some .adopting ∧ sum (windowAt 7504) = 60000) ∧
    ((windowAt 7505).line.state = some .adopting ∧ 60000 < sum (windowAt 7505)) ∧
    ((windowAt 3124).line.state = some .adopting ∧ sum (windowAt 3124) < (windowAt 3124).config.floor) ∧
    (booted.line.state = some .adopting ∧ sum booted = 0) := by decide +kernel

theorem witness_LinkTimerExpiryLosesTheGroup :
    regulating.responsesAllowed ∧ (regulating.group 7).linkTimer = some 50 ∧
      (regulating.group 7).service.member = true :=
  ⟨allowed_of _ (by decide +kernel), by decide +kernel, by decide +kernel⟩

theorem witness_TrackingTimerExpiryRaisesTracking :
    let s := regulating.modGroup 0 fun r => { r with trackingTimer := some 2000 }
    s.responsesAllowed ∧ (s.group 0).trackingTimer = some 2000 :=
  ⟨allowed_of _ (by decide +kernel), by decide +kernel⟩

/-! ### Witnesses: the claims and the line target -/

theorem witness_GoverningClaimIsTheFirstOfLeastValue :
    let t := (withClaim .cutout 0 (withClaim .demand 0 standby)).claims
    t.setpoint.active = true ∧ t.cutout.active = true ∧ t.demand.active = true ∧ t.cutout.value = 0 ∧
      t.least = (.demand, 0) := by decide +kernel

theorem witness_SetpointTakesTheClampedValue :
    (booted.ready (.setSetpoint (rq 0 2) 60000) ∧ booted.line.state = some .adopting) ∧
    (standby.ready (.setSetpoint (rq 0 2) 60000) ∧ standby.ready (.setSetpoint (rq 0 2) 60001) ∧
      standby.line.state = some .standby) ∧
    (standby.loading = false ∧ (standby.port 1).request = .idle ∧ standby.role 1 ∉ [Role.substation]) ∧
    after (.setSetpoint (rq 0 2) 60001) standby =
      ({ standby with claims := { standby.claims with
          setpoint := { active := true, value := 60000, writer := some 0, changed := standby.timeBase } } } :
        State).answered (rq 0 2) .setSetpoint .okClamped [] := by
  simp only [ready_iff]; decide +kernel

theorem witness_CutoutAndServiceLimitsAreSetAndReleased :
    standby.ready (.setCutoutLimit (rq 1 2) 60000) ∧ standby.ready (.setServiceLimit (rq 3 2) 60001) ∧
    standby.ready (.releaseCutoutLimit (rq 1 0)) ∧ standby.claims.cutout.active = false ∧
    standby.ready (.releaseServiceLimit (rq 3 0)) ∧ (withClaim .service 5 standby).claims.service.active = true ∧
    (withClaim .service 5 standby).ready (.releaseServiceLimit (rq 3 0)) ∧
    (standby.loading = false ∧ (standby.port 0).request = .idle ∧ standby.role 0 ∉ [Role.potline] ∧
      standby.role 0 ∉ [Role.service]) := by
  simp only [ready_iff]; decide +kernel

/-- The expiry of the allocation timer in REGULATING at 30,000 cu with one claim beside SETPOINT at 60,000. -/
def ramped (k : ClaimSlot) (v : Nat) : State :=
  after .allocationTimerExpiry (withClaim k v (withClaim .setpoint 60000 regulating))

theorem witness_RegulatingRampFollowsTheTarget :
    (regulating.responsesAllowed ∧ regulating.line.state = some .regulating ∧ regulating.line.allocTimer = some 20) ∧
    ((ramped .demand 30019).line.target = 30019 ∧ (ramped .demand 30019).line.iCmd = 30019) ∧
    ((ramped .demand 30021).line.aeHold = false ∧ (ramped .demand 30021).line.iCmd = 30020) ∧
    ((ramped .demand 30000).line.target = 30000 ∧ (ramped .demand 30000).line.iCmd = 30000) ∧
    ((ramped .demand 29000).line.governing = .demand ∧ (ramped .demand 29000).line.iCmd = 29900) ∧
    ((ramped .fault 20000).line.governing = .fault ∧ (ramped .fault 20000).line.iCmd = 25000) :=
  ⟨⟨allowed_of _ (by decide +kernel), by decide +kernel, by decide +kernel⟩, by decide +kernel⟩

theorem witness_RampUnderTheAeHold :
    let s : State := withClaim .setpoint 60000 (regulating.takeOnset 3 8100)
    s.ae.list ≠ [] ∧ s.config.holdOnAe = true ∧ (after .allocationTimerExpiry s).line.aeHold = true ∧
      (after .allocationTimerExpiry s).line.target = 60000 ∧ (after .allocationTimerExpiry s).line.iCmd = 30000 := by
  decide +kernel

theorem witness_OwnStepsOfTheOtherStates :
    (holding.responsesAllowed ∧ starting.responsesAllowed ∧ standby.responsesAllowed) ∧
    (holding.line.allocTimer = some 20 ∧ holding.line.state = some .hold) ∧
    (starting.line.allocTimer = some 20 ∧ starting.line.state = some .starting ∧
      (after .allocationTimerExpiry (lineAt .starting 24949 starting)).line.iCmd = 24999 ∧
      (after .allocationTimerExpiry (lineAt .starting 24949 starting)).line.state = some .starting ∧
      (after .allocationTimerExpiry (lineAt .starting 24950 starting)).line.state = some .regulating) ∧
    ((lineAt .stopping 201 starting).line.state = some .stopping ∧
      (after .allocationTimerExpiry (lineAt .stopping 201 starting)).line.iCmd = 1) ∧
    ((lineAt .stopping 200 starting).line.state = some .stopping ∧
      (after .allocationTimerExpiry (lineAt .stopping 200 starting)).line.state = some .standby) ∧
    (standby.line.allocTimer = some 20 ∧ standby.blocked = true) :=
  ⟨⟨allowed_of _ (by decide +kernel), allowed_of _ (by decide +kernel), allowed_of _ (by decide +kernel)⟩, by
    decide +kernel⟩

/-! ### Witnesses: the share allocation and the group inputs -/

/-- Whether a command ends in a next state. -/
def ends (i : Instr) (s : State) : Bool :=
  match exec i s with
  | .next _ => true
  | .fault _ => false
  | .refused _ => false

theorem next_of (i : Instr) (s : State) (h : ends i s = true) : exec i s = .next (after i s) := by
  unfold ends at h
  unfold after
  split at h <;> simp_all

theorem witness_RunningExpirySendsTheAllocatedOrders :
    regulating.responsesAllowed ∧ regulating.line.allocTimer = some 20 ∧ regulating.running = true ∧
      exec .allocationTimerExpiry regulating = .next (after .allocationTimerExpiry regulating) ∧
      (after .allocationTimerExpiry regulating).running = true :=
  ⟨allowed_of _ (by decide +kernel), by decide +kernel, by decide +kernel, next_of _ _ (by decide +kernel), by
    decide +kernel⟩

/-- Members of an allocation at the ends of their ranges. -/
def someMembers : List Member :=
  [{ group := 0, ceiling := 0, weight := 1, resolution := 1 }, { group := 3, ceiling := 12000, weight := 8, resolution := 50 },
    { group := 7, ceiling := 11999, weight := 1, resolution := 7 }]

theorem witness_AllocationDividesTheTotalExactly : membersSound someMembers ∧ membersSound [] := by
  unfold membersSound; decide

/-- R47, R49 and R50 by hand, at T = 1001: pass 1 pins G1 alone (floor(1001 * 15 / 18) = 834, above 100), pass 2 leaves 300,
600 and a leftover of 1; from G3 on, 301 gives 280, 621 gives 620, and 101 gives 98 with a residual of 3. -/
theorem test_split_and_carry :
    let r := (allocate 0 .regulating 1001 2 [⟨1, 100, 15, 7⟩, ⟨3, 12000, 1, 70⟩, ⟨6, 12000, 2, 10⟩]).record
    r.taking.map AllocMember.share = [100, 300, 600] ∧ r.taking.map AllocMember.pinned = [some 1, none, none] ∧
      r.passes = 2 ∧ r.leftover = 1 ∧ r.start = some 3 ∧ r.rotation = 3 ∧
      r.taking.map AllocMember.order = [98, 280, 620] ∧ r.residual = 3 := by decide +kernel

theorem witness_SingleMemberTakesTheTotal :
    1 ≤ (⟨0, 0, 1, 1⟩ : Member).weight ∧ 1 ≤ (⟨0, 0, 1, 1⟩ : Member).resolution := by
  decide

theorem witness_RotationMovesToTheNextMember :
    someMembers ≠ [] ∧ (allocate 0 .regulating 100 7 someMembers).record.rotation = 0 ∧
      (allocate 0 .regulating 100 7 someMembers).record.start = some 7 := by decide +kernel

theorem witness_FilteredInputsFollowAfterFFrames :
    let i : InputFilter := powerOnFilter
    let j : InputFilter := { i with settled := true, filtered := true, run := true, count := 24 }
    ¬ (i.settled = true ∧ i.filtered = false) ∧ i.count = 0 ∧ j.settled = true ∧ j.filtered = true := by decide

/-- A run broken by the other value before the input is settled, a run that stands below F, and one that stands above an F that
has been lowered (R61, R62). -/
theorem witness_FilterRunsThatStand :
    let broken : InputFilter := { powerOnFilter with run := true, count := 2 }
    let below : InputFilter := { powerOnFilter with settled := true, filtered := true, run := false, count := 1 }
    let above : InputFilter := { below with count := 5 }
    (broken.run ≠ false ∧ broken.step 3 false = { broken with run := false, count := 1 }) ∧
    (0 < below.count ∧ below.run = false ∧ below.step 3 false = { below with count := 2 } ∧
      (below.step 3 false).step 3 false = ⟨false, true, false, 0⟩) ∧
    (max 1 (3 - above.count) = 1 ∧ above.step 3 false = ⟨false, true, false, 0⟩) := by decide

theorem witness_StatusFrameIsStoredFilteredAndSupervised :
    State.reset.loading = true ∧ standby.loading = false ∧
      ((after (.statusFrame 0 (.good (healthy 65535 65535 32767 0))) standby).group 0).lastFrame =
        some (healthy 12000 30000 1500 0) := by decide +kernel

theorem witness_DerateFallsAtOnceAndRisesWithHysteresis :
    (∀ i : Fin 8, (449 : Int) < (defaultDerate.get i).1) ∧
    ((defaultDerate.get 3).1 ≤ (600 : Int) ∧ ∀ j : Fin 8, 3 < j.val → (600 : Int) < (defaultDerate.get j).1) ∧
    (let c : GroupCooling := { powerOnCooling 12000 with governing := some 3, percent := 80 }
     (c.derateStep defaultDerate 20 581).percent = 80 ∧ (c.derateStep defaultDerate 20 580).percent = 90 ∧
       (c.derateStep defaultDerate 20 449).percent = 100 ∧ (c.derateStep defaultDerate 20 650).percent = 70) := by
  decide

/-- `State.timersAgree` in REGULATING with a group in GRACE. -/
def grace : State :=
  regulating.modCool 4 fun c => { c with pumpLoss := .grace, graceTimer := some 30000 }

theorem witness_GraceTimerExpiryLosesTheCooling : grace.timersAgree ∧ (grace.cool 4).graceTimer = some 30000 := by
  unfold State.timersAgree; decide +kernel

/-! ### Witnesses: the pots and the scan link -/

theorem witness_SamplesAreStoredAtTheirPot :
    let c : State := standby.modPot 399 fun p => { p with circuit := .cutOut }
    let f : State := standby.modPot 0 fun p => { p with stale := false, last := 4000 }
    standby.loading = false ∧ (∀ k : Fin 4, k.val = 3 → (standby.config.sections.get k).length ≤ 100) ∧
    (∀ k : Fin 4, k.val = 4 → (standby.config.sections.get k).length ≤ 0) ∧
    (99 < (standby.config.sections.get 3).length ∧ 399 = (standby.config.sections.get 3).origin + 99 ∧
      399 < standby.pots.length ∧ (standby.pot 399).circuit = .inCircuit ∧ (standby.pot 399).stale = true) ∧
    (c.loading = false ∧ (c.pot 399).circuit = .cutOut) ∧
    ((f.pot 0).circuit = .inCircuit ∧ (f.pot 0).stale = false) := by decide +kernel

/-- In STANDBY with three pots mapped, so that a whole marker evaluates quickly. -/
def threePots : State :=
  standby.modConfig fun c => { c with sections := ⟨⟨0, 3⟩, ⟨3, 0⟩, ⟨3, 0⟩, ⟨3, 0⟩⟩ }

theorem witness_MarkersAgeThePots :
    let s (stamp : Nat) : State := threePots.modPot 0 fun p => { p with stale := false, stamp := stamp }
    standby.loading = false ∧ standby.scan.markerTimer = some 2000 ∧
    ((after .cycleMarker (s 62)).pot 0).stale = false ∧ ((after .cycleMarker (s 61)).pot 0).stale = true ∧
    ((after .markerTimerExpiry (s 62)).pot 0).stale = true ∧
    (after .cycleMarker { threePots with scan := { threePots.scan with stamp := 63 } }).scan.stamp = 0 := by
  decide +kernel

theorem witness_PotsAreCutOutAndInUnderTheInterlock :
    let high (current : Nat) : State := withFrame 0 (healthy current 9000 400 0) standby
    standby.responsesAllowed ∧
    (standby.ready (.cutOutPot (rq 1 2) 400) ∧ standby.ready (.cutOutPot (rq 1 2) 399) ∧ standby.mapped 399 = true) ∧
    ((standby.modConfig fun c => { c with sections := { c.sections with m3 := ⟨300, 99⟩ } }).mapped 399 = false) ∧
    ((standby.pot 399).circuit = .inCircuit ∧ 399 < standby.pots.length) ∧
    (standby.ready (.cutInPot (rq 1 2) 0) ∧ (standby.pot 0).circuit ≠ .cutOut) ∧
    ((high 3001).ready (.cutOutPot (rq 1 2) 0) ∧ (high 3001).config.switchingLimit < (high 3001).interlockCurrent) ∧
    ((high 3000).ready (.cutOutPot (rq 1 2) 0) ∧ (high 3000).interlockCurrent ≤ (high 3000).config.switchingLimit) := by
  simp only [ready_iff]
  exact ⟨allowed_of _ (by decide +kernel), by decide +kernel⟩

/-! ### Witnesses: anode effects -/

/-- With `n` records in the AE list, the first of them for pot 0. -/
def withRecords (n : Nat) : State := (List.range n).foldl (fun s i => s.takeOnset i 8000) standby

theorem witness_OnsetOpensARecord :
    (withRecords 15).ae.list.length < 16 ∧ 1 ≤ (withRecords 15).ae.nextId ∧ (withRecords 15).ae.nextId ≤ 255 ∧
      (let s : State := { withRecords 1 with ae := { (withRecords 1).ae with nextId := 255 } }
       s.ae.list.length < 16 ∧ s.ae.nextId = 255 ∧ (s.takeOnset 9 8000).ae.nextId = 1) ∧
      (let off : State := { standby with config := { standby.config with aeCapture := false } }
       (off.takeOnset 9 8000).stack.writing = none ∧
         (standby.takeOnset 9 8000).stack.writing.map (fun f => f.contents.body.aeCount) = some 1) := by decide +kernel

theorem witness_EndClosesARecordAndPromotes :
    (((withRecords 1).ae.ofPot 0).isSome = true ∧ 0 < (withRecords 1).pots.length ∧ (withRecords 1).ae.overflow = []) ∧
    (((withRecords 17).ae.ofPot 0).isSome = true ∧ (withRecords 17).ae.overflow = [⟨16, 0⟩]) := by decide +kernel

/-- The last exhausted record ends, and a promotion gives its two notices and keeps the storm until a record ends with nothing
left to promote (R108, R109, R114). -/
theorem witness_EndsHandTheirDepartures :
    let s := withRecords 1
    let spent : State := { s with ae := { s.ae with
      list := s.ae.list.map fun r => { r with exhausted := true, attempt := 3, deadline := none }, unquenched := true } }
    let spent := spent.setEntry (.line .aeUnquenched) (standing .active .note false)
    let spill : State := (withRecords 17).modPort 1 fun q => { q with queue := [], overrun := false }
    let one := spill.endAe 0 .normal
    ((spent.ae.ofPot 0).isSome = true ∧ (spent.endAe 0 .normal).ae.unquenched = false ∧
      ((spent.endAe 0 .normal).entry (.line .aeUnquenched)).state = .latched) ∧
    ((one.port 1).queue.map (fun n => n.body)).drop 1 =
      [.aeOnset (some 17) 16 (one.place 16).1 (one.place 16).2 0 one.measuredCurrent 0 16 (some 0),
        .quenchRequest 17 1 16 (one.place 16).1 (one.place 16).2] ∧
    (one.ae.storm = true ∧ (one.entry (.line .aeStorm)).state = .active ∧
      (one.endAe 1 .normal).ae.storm = false ∧ ((one.endAe 1 .normal).entry (.line .aeStorm)).state = .latched) := by
  decide +kernel

theorem witness_QuenchRepliesAndTimersMoveTheAttempt :
    let s := withRecords 1
    let at3 : State := { s with ae := { s.ae with list := s.ae.list.map fun r => { r with attempt := 3 } } }
    let exhausted : State := { s with ae := { s.ae with list := s.ae.list.map fun r => { r with exhausted := true } } }
    let quenching : State := { s with ae := { s.ae with list := s.ae.list.map fun r => { r with state := .quenching } } }
    let ended := s.endAe 0 .normal
    (s.loading = false ∧ (s.port 0).request = .idle ∧ s.role 0 ∉ [Role.potline]) ∧
    s.ready (.quenchStarted (rq 1 2) 0 1) ∧ s.ready (.quenchStarted (rq 1 2) 1 0) ∧ s.ready (.quenchFailed (rq 1 2) 1 4) ∧
    (ended.ready (.quenchStarted (rq 1 2) 1 1) ∧ ended.ae.ofId 1 = none ∧ ended.ae.recent.any (fun e => e.id = 1) = true) ∧
    (s.ready (.quenchStarted (rq 1 2) 255 3) ∧ s.ae.ofId 255 = none ∧ s.ae.recent = []) ∧
    ((s.ae.ofId 1).map (fun r => (r.attempt, r.exhausted, r.state, r.deadline)) = some (1, false, .waitAck, some 5000)) ∧
    s.ready (.quenchStarted (rq 1 2) 1 2) ∧ s.ready (.quenchStarted (rq 1 2) 1 1) ∧ s.ready (.quenchFailed (rq 1 2) 1 1) ∧
    (at3.ready (.quenchStarted (rq 1 2) 1 2) ∧ (at3.ae.ofId 1).map AeRecord.attempt = some 3) ∧
    (exhausted.ready (.quenchStarted (rq 1 2) 1 1) ∧ (exhausted.ae.ofId 1).map AeRecord.exhausted = some true) ∧
    (quenching.ready (.quenchStarted (rq 1 2) 1 1) ∧ (quenching.ae.ofId 1).map AeRecord.state = some .quenching) ∧
    (at3.ae.unquenched = false ∧
      ((after (.ackTimerExpiry 1) at3).entry (.line .aeUnquenched)).detail = some (.unquenched 1 0)) := by
  simp only [ready_iff]; decide +kernel

theorem witness_HeadroomStepWritesItsSlot :
    let at_ (u : Nat) : State := withFrame 0 (healthy 3000 u 400 0) regulating
    let limit := standby.config.headroom.uMax - standby.config.headroom.margin
    ((at_ 17700).busVoltage = limit ∧ (at_ 17700).line.iCmd ≤ 60000 ∧ (at_ 17700).claims.headroom.value ≤ 60000 ∧
      (at_ 17700).headroomStep.claims.headroom.value = 29800) ∧
    ((at_ 17699).busVoltage < limit ∧ (at_ 17501).busVoltage = limit - standby.config.headroom.hysteresis + 1) ∧
    ((at_ 17500).busVoltage = limit - standby.config.headroom.hysteresis) := by decide +kernel

/-! ### Witnesses: metering, demand and curtailment -/

theorem witness_MeteringExpiryAccountsTheInterval :
    standby.metering.timer = some 100 ∧ standby.metering.interval.isSome = true ∧
    regulating.metering.timer = some 100 ∧ regulating.metering.interval.isSome = true := by decide +kernel

theorem witness_DemandStepLaysTheDemandClaim :
    let on (now u : Nat) : State := { standby with
      timeBase := now, config := { standby.config with demandControl := true }
      metering := { standby.metering with calendar := some ⟨1, 0⟩, u := u } }
    let remaining (s : State) : Option Nat := s.metering.interval.map fun i => i.deadline - s.timeBase
    ((on 879999 1000).config.demandControl = true ∧ (on 879999 1000).metering.calendar ≠ none ∧
      remaining (on 879999 1000) = some ((on 0 0).config.guardTime + 1) ∧ 1000 ≤ (on 879999 1000).metering.u) ∧
    (remaining (on 880000 1000) = some (on 0 0).config.guardTime) ∧ ((on 879999 999).metering.u < 1000) ∧
    (standby.config.demandControl = false ∧ standby.metering.interval.isSome = true) := by decide +kernel

theorem witness_PulsesAndDeadlinesCloseIntervals :
    let timed := after .intervalDeadlineExpiry standby
    let pulsed := after .syncPulse standby
    (standby.metering.interval.isSome = true ∧ standby.metering.sync = none) ∧
    (let s : State := { standby with metering := { standby.metering with exceedance := true } }
     let f : State := s.setEntry (.line .demandExceeded) (standing .active .note false)
     f.metering.interval.isSome = true ∧ f.metering.exceedance = true ∧ (f.entry (.line .demandExceeded)).state = .active) ∧
    (pulsed.metering.sync = some ⟨.afterPulse, 2000⟩) ∧
    (timed.metering.sync = some ⟨.afterTimer, 2000⟩ ∧ timed.metering.ring.length = 1) := by decide +kernel

theorem witness_SetClockMovesTheDeadlineToABoundary :
    (standby.loading = false ∧ (standby.port 0).request = .idle ∧ standby.role 0 ∉ [Role.energy]) ∧
    (standby.ready (.setClock (rq 2 5) 7 0) ∧ standby.ready (.setClock (rq 2 5) 6 86400000)) ∧
    (standby.ready (.setClock (rq 2 5) 6 86399999) ∧ standby.metering.interval.isSome = true ∧
      standby.metering.interval.map Machine.Interval.length = some 15 ∧
      (after (.setClock (rq 2 5) 6 86397999) standby).metering.interval.map Machine.Interval.deadline = some 2001 ∧
      (after (.setClock (rq 2 5) 6 86398000) standby).metering.interval.map Machine.Interval.deadline = some 902000) := by
  simp only [ready_iff]; decide +kernel

/-- With `n` orders posted, tags 1 to `n`, starting one second after another. -/
def withOrders (n : Nat) : State :=
  (List.range n).foldl (fun s i => ask (.postOrder (rq 2 11) (i + 1) (i + 1) 60 1000) s) standby

theorem witness_PostedOrdersEnterTheList :
    let p (tag delay duration ceiling : Nat) : Instr := .postOrder (rq 2 11) tag delay duration ceiling
    (standby.loading = false ∧ (standby.port 0).request = .idle ∧ standby.role 0 ∉ [Role.energy]) ∧
    (standby.ready (p 0 0 60 0) ∧ standby.ready (p 255 86401 60 0) ∧ standby.ready (p 1 0 59 0) ∧
      standby.ready (p 1 0 14401 0)) ∧
    ((withOrders 4).ready (p 4 0 60 0) ∧ (withOrders 4).curtail.orders.map CurtailOrder.tag = [1, 2, 3, 4]) ∧
    ((withOrders 4).ready (p 5 0 60 0)) ∧
    ((withOrders 3).ready (p 255 86400 14400 2000001) ∧ (withOrders 3).curtail.orders.length = 3) ∧
    (standby.ready (p 1 0 60 2000000) ∧ standby.curtail.orders = []) ∧
    (withOrders 3).curtail.orders.Pairwise (fun a b => a.start ≤ b.start) ∧
    ((after (p 9 2 60 1000) (withOrders 3)).curtail.orders.map CurtailOrder.tag = [1, 2, 9, 3]) := by
  simp only [ready_iff]; decide +kernel

theorem witness_OrdersStartEndAndAreCancelled :
    let s := withOrders 2
    let a := after (.orderStartDeadline 1) s
    let b := after (.orderStartDeadline 2) a
    (s.ready (.cancelOrder (rq 2 1) 0) ∧ s.ready (.cancelOrder (rq 2 1) 255) ∧ s.ready (.cancelOrder (rq 2 1) 1)) ∧
    ((s.curtail.ofTag 1).map CurtailOrder.state = some .pending) ∧
    (a.ready (.cancelOrder (rq 2 1) 1) ∧ (a.curtail.ofTag 1).map CurtailOrder.state = some .active) ∧
    ((after (.orderEndDeadline 1) a).claims.curtail.active = false ∧
      (after (.orderEndDeadline 1) b).claims.curtail.active = true) := by
  simp only [ready_iff]; decide +kernel

/-! ### Witnesses: faults -/

/-- A row of the action table set. -/
def withRow (k : FaultKind) (a : Action) (s : State) : State :=
  s.modConfig fun c => { c with actions := c.actions.set k { c.actions.get k with response := a } }

theorem witness_NoteOnsetRecordsDrivesAndReports :
    let id : FaultId := .line .headroomLow
    let l : State := standby.setEntry id (standing .latched .note false)
    let a : State := standby.setEntry id (standing .active .hold false)
    ((standby.entry id).state = .clear ∧ (standby.config.actions.get id.kind).response = .note ∧
      (standby.config.actions.get id.kind).capture = false ∧ id.kind.forcesRemove = false) ∧
    ((l.entry id).state = .latched ∧ (l.entry id).response = some ⟨.note, false⟩ ∧ (l.entry id).capture = false) ∧
    (a.entry id).state = .active := by decide +kernel

theorem witness_ResponsesActOnTheLine :
    let hold := withRow (.line .aeStorm) .hold
    let reduce := withRow (.line .demandExceeded) .reduce
    let trip := withRow (.group .overtemp) .trip
    ((hold regulating).responsesAllowed ∧ (hold standby).responsesAllowed ∧ (reduce regulating).responsesAllowed ∧
      (reduce standby).responsesAllowed ∧ (trip regulating).responsesAllowed) ∧
    ((hold regulating).entry (.line .aeStorm)).state = .clear ∧
    ((hold regulating).config.actions.get (.line .aeStorm)).response = .hold ∧
    (hold regulating).line.state = some .regulating ∧ (hold standby).line.state ≠ some .regulating ∧
    ((reduce regulating).config.actions.get (.line .demandExceeded)).response = .reduce ∧
    (reduce regulating).regulates = true ∧ (reduce standby).regulates = false ∧
    ((trip regulating).config.actions.get (.group .overtemp)).response = .trip ∧
    (trip regulating).line.state ≠ none ∧ (trip regulating).line.state ≠ some .tripped ∧
    (FaultKind.group .overtemp).forcesRemove = true ∧ (FaultId.group .overtemp 7).group? = some 7 ∧
    ((trip regulating).group 7).service ≠ .linkLost :=
  ⟨⟨allowed_of _ (by decide +kernel), allowed_of _ (by decide +kernel), allowed_of _ (by decide +kernel),
    allowed_of _ (by decide +kernel), allowed_of _ (by decide +kernel)⟩, by decide +kernel⟩

/-- In REGULATING with an overtemperature row that trips and captures. -/
def capturing : State := regulating.modConfig fun c =>
  { c with actions := c.actions.set (.group .overtemp) { route := .both, response := .trip, percent := 50, capture := true } }

/-- The same with the entry of G7 in LATCHED. -/
def capturingAgain : State :=
  capturing.setEntry (.group .overtemp 7) { standing .latched .trip true with capture := true, count := 255 }

/-- The cause, line state and I_cmd of the frame being written. -/
def frameWritten (s : State) : Option (FrameCause × Option LineState × Nat) :=
  s.stack.writing.map fun f => (f.contents.cause, f.contents.body.lineState, f.contents.body.iCmd)

/-- An onset with the capture flag, from CLEAR and from LATCHED, pushes the frame of its entry after step 1 and of the line before
the response (R159, R172). -/
theorem witness_OnsetCaptures :
    (capturing.responsesAllowed ∧ capturingAgain.responsesAllowed) ∧
    ((capturing.entry (.group .overtemp 7)).state = .clear ∧
      frameWritten (capturing.onset (.group .overtemp 7) (some (.overtemp (-5)))) =
        some (.fault (.group .overtemp 7) .clear 1 (some ⟨.trip, true⟩) .both .absent (-5), some .regulating, 30000)) ∧
    ((capturingAgain.entry (.group .overtemp 7)).state = .latched ∧
      frameWritten (capturingAgain.onset (.group .overtemp 7) none) =
        some (.fault (.group .overtemp 7) .latched 255 (some ⟨.trip, true⟩) .none .absent 0, some .regulating, 30000)) :=
  ⟨⟨allowed_of _ (by decide +kernel), allowed_of _ (by decide +kernel)⟩, by decide +kernel⟩

/-- A REMOVE sends its group's order at once in a running state alone, a TRIP sends the eight orders after it, and a REDUCE takes
the least value that stands (R15, R17, R7, R164). -/
theorem witness_ResponsesSendOrders :
    let id : FaultId := .group .overtemp 7
    let reduce : State := (withRow (.line .demandExceeded) .reduce regulating).setEntry (.line .aeStorm)
      { standing .active .reduce false with reduceValue := .set 0 }
    let trip : State := withRow id.kind .trip regulating.begin
    let note : State := withRow id.kind .note regulating.begin
    ((note.group 7).sequence = 1 ∧ (note.onset id none).out = [Sent.order 7 0 true 2] ∧
      ((note.onset id none).group 7).linkTimer = none ∧
      ((withRow id.kind .note standby.begin).onset id none).out = []) ∧
    ((trip.onset id none).out = Sent.order 7 0 true 2 ::
      ((allGroups.take 7).map (fun g => Sent.order g 0 true 2) ++ [Sent.order 7 0 true 3])) ∧
    (reduce.regulates = true ∧ (reduce.entry (.line .demandExceeded)).state = .clear ∧
      (reduce.onset (.line .demandExceeded) none).claims.fault.value = 0) ∧
    ((serviceAt 7 .linkLost note).onset id none).group 7 = (serviceAt 7 .linkLost note).group 7 := by decide +kernel

theorem witness_DepartureLatchesAnActiveEntry :
    let id : FaultId := .line .curtailMissed
    ((standby.setEntry id (standing .active .note false)).entry id).state = .active ∧ (standby.entry id).state ≠ .active := by
  decide +kernel

theorem witness_ClearFaultEndsALatchedEntry :
    let id : FaultId := .group .tracking 7
    let held : State := holding.setEntry (.line .aeStorm) (standing .latched .hold false)
    (standby.ready (.clearFault (rq 0 2) 13 0) ∧ standby.ready (.clearFault (rq 0 2) 5 8)) ∧
    (id.kind.number = 5 ∧ id.group? = some 7 ∧ (standby.entry id).state = .clear ∧
      standby.ready (.clearFault (rq 3 2) 5 7)) ∧
    ((standby.setEntry id (standing .active .note false)).ready (.clearFault (rq 3 2) 5 7)) ∧
    ((standby.setEntry id (standing .latched .note false)).ready (.clearFault (rq 3 2) 5 7)) ∧
    (held.ready (.clearFault (rq 0 2) 8 0) ∧ (FaultId.line .aeStorm).kind.number = 8 ∧
      held.line.state = some .hold ∧ (after (.clearFault (rq 0 2) 8 0) held).line.state = some .regulating) := by
  simp only [ready_iff]; decide +kernel

/-! ### Witnesses: the snapshot stack -/

/-- Frames pushed for `n` onsets, the first `k` of them written. -/
def pushed (n k : Nat) : State :=
  (List.range k).foldl (fun s _ => after .snapshotWriteComplete s) (withRecords n)

/-- A frame being written at an address, with one more pending. -/
def full (address : Nat) : State :=
  let s := pushed 2 0
  { s with stack := { s.stack with
      top := address + 52, writing := s.stack.writing.map fun f => { f with address := address, backLink := address + 52 } } }

theorem witness_FramesAreWrittenAndStacked :
    let c : Captured := { cause := .ae false 1 1 0 0 0 8000, time := 0, body := standby.captureBody }
    let low (top : Nat) : SnapshotStack := { emptyStack with top := top }
    (standby.stack.writing = none ∧ standby.stack.waiting = [] ∧ c.cause.length ≤ (low c.cause.length).top ∧
      (low (c.cause.length - 1)).top < c.cause.length) ∧
    ((pushed 3 0).stack.writing ≠ none ∧ (pushed 3 0).stack.waiting.length < 3 ∧
      (pushed 4 0).stack.waiting.length = 3) ∧
    ((pushed 1 0).stack.writing.isSome = true ∧ (pushed 1 0).stack.waiting = []) ∧
    (((pushed 2 0).stack.writing.map Frame.address, (pushed 2 0).stack.waiting.map fun w => w.cause.length) =
      (some (4096 - 52), [52])) ∧
    ((full 51).stack.writing.map Frame.address = some 51 ∧ (full 51).stack.waiting.length = 1 ∧
      (after .snapshotWriteComplete (full 51)).stack.missed = 1 ∧
      ((after .snapshotWriteComplete (full 52)).stack.writing.map Frame.missed) = some 0) ∧
    ((pushed 1 1).stack.writing = none ∧ (pushed 1 1).stack.frames.length = 1) := by decide +kernel

theorem witness_DropsTakeFramesFromTheTop :
    (standby.loading = false ∧ (standby.port 1).request = .idle ∧ standby.role 1 ∉ [Role.substation, .service]) ∧
    (standby.ready (.dropTop (rq 0 2) 65536) ∧ standby.ready (.dropTop (rq 3 2) 65535)) ∧
    (standby.stack.frames = [] ∧ standby.stack.writing = none) ∧
    ((pushed 1 0).ready (.dropTop (rq 0 2) 0) ∧ (pushed 1 0).stack.writing ≠ none) ∧
    ((pushed 1 1).ready (.dropTop (rq 0 2) 0) ∧ (pushed 1 1).stack.writing = none ∧
      (pushed 1 1).stack.frames.map Frame.sequence = [0]) ∧
    ((pushed 1 1).ready (.dropTop (rq 0 2) 1) ∧ (pushed 1 1).ready (.dropAll (rq 3 0))) ∧
    ((pushed 1 0).ready (.dropAll (rq 3 0)) ∧ (pushed 1 0).stack.waiting = []) ∧
    ((pushed 2 0).ready (.dropAll (rq 3 0)) ∧ (pushed 2 0).stack.waiting.length = 1) := by
  simp only [ready_iff]; decide +kernel

/-- R178 and R174 by hand: the abandoned frame counts as missed in the next one, which takes the next sequence. -/
theorem test_dropAll_with_a_frame_pending :
    let t := (after (.dropAll (rq 3 0)) (pushed 2 0)).stack
    t.writing.map (fun f => (f.address, f.backLink, f.sequence, f.missed)) = some (4096 - 52, 4096, 1, 1) ∧
      t.missed = 0 ∧ t.nextSequence = 2 ∧ t.waiting = [] ∧ t.frames = [] ∧ t.top = 4096 := by decide +kernel

/-! ### Witnesses: the configuration store and the ports -/

theorem witness_ConfigWritesAreTestedInTurnAndMoveTheGeneration :
    let w (p : Port) (index expected : Nat) (item : ItemWrite) : Instr := .writeConfig (rq p 6) index expected item
    let g : State := { standby with store := { standby.store with generation := 65535 } }
    (standby.ready (w 0 1 0 (.upRate 5)) ∧ itemNamed 2 1 = false ∧ itemNamed 2 0 = true) ∧
    (standby.ready (w 1 0 0 (.upRate 5)) ∧ standby.role 1 ≠ itemRole 2 ∧ standby.role 1 ≠ .service) ∧
    (regulating.ready (w 3 0 0 (.upRate 5)) ∧ regulating.role 3 ≠ itemRole 2 ∧ regulating.role 3 = .service ∧
      regulating.line.state ≠ some .standby) ∧
    (standby.ready (w 0 0 1 (.upRate 5)) ∧ standby.role 0 = itemRole 2 ∧ 1 ≠ standby.store.generation) ∧
    (g.ready (w 3 0 65535 (.upRate 0)) ∧ g.role 3 = .service ∧ g.line.state = some .standby ∧
      g.store.generation = 65535 ∧ (after (w 3 0 65535 (.upRate 0)) g).config.upRate = 1 ∧
      (after (w 3 0 65535 (.upRate 0)) g).store.generation = 0) ∧
    (regulating.ready (w 0 0 0 (.floor 30001)) ∧ regulating.regulates = true ∧
      regulating.line.iCmd < min 60000 30001) ∧
    (regulating.ready (w 0 0 0 (.floor 30000)) ∧ min 60000 30000 ≤ regulating.line.iCmd) ∧
    (standby.ready (w 0 0 0 (.floor 60001)) ∧ standby.regulates = false) := by
  simp only [ready_iff]; decide +kernel

theorem witness_ConfigWriteRefusedByItsItem :
    standby.ready (.writeConfig (rq 0 8) 8 0 (.actionRow 0 4 50 true)) ∧ standby.role 0 = itemRole 40 ∧
      itemNamed 40 8 = true ∧ writeItem standby 8 (.actionRow 4 4 50 true) = .refused .outOfRange := by
  simp only [ready_iff]; exact ⟨by decide +kernel, by decide +kernel, by decide +kernel, by decide +kernel⟩

/-- With a save in progress from port 3. -/
def saving : State := after (.saveConfig (rq 3 0)) standby

theorem witness_SavesCaptureAndThenAnswer :
    (standby.ready (.saveConfig (rq 0 0)) ∧ standby.store.state = .idle) ∧
    (saving.ready (.saveConfig (rq 0 0)) ∧ saving.store.state ≠ .idle ∧ saving.store.state ≠ .loading) := by
  simp only [ready_iff]; decide +kernel

theorem witness_BadFramesAreDiscardedAndFlagged :
    receiveBytes (standby.port 0).receiver [0xA5#8, 0#8, 1#8] = (.hunting, [.bad]) ∧
    receiveBytes (standby.port 0).receiver [0xA5#8, 4#8, 1#8] = (.hunting, [.bad]) ∧
    receiveBytes (standby.port 0).receiver [0xA5#8, 4#8, 0#8] = (.inside [4#8, 0#8], []) ∧
    receiveBytes (standby.port 0).receiver [0xA5#8, 0#8, 1#8, 0xA5#8, 4#8, 1#8] = (.hunting, [.bad, .bad]) ∧
    receiveBytes (standby.port 0).receiver [0xA5#8, 0#8, 1#8, 0xA5#8, 4#8] = (.inside [4#8], [.bad]) := by decide +kernel

/-- A port whose receiver is inside a frame. -/
def partialAt (p : Port) (s : State) : State :=
  s.modPort p fun q => { q with receiver := .inside [0#8, 2#8], gapTimer := some 3 }

/-- R181: a valid request, taken or not, has ended the frame that its receiver was inside, and two bad frames set the flag. -/
theorem test_requests_and_bad_frames_end_partial_frames :
    let ended (i : Instr) (s : State) : Bool :=
      let q := (after i (partialAt 1 s)).port 1
      q.receiver == .hunting && q.gapTimer.isNone
    ended (.readLineStatus (rq 1 0)) standby = true ∧ ended (.setSetpoint (rq 1 1) 5) standby = true ∧
    ended (.readLineStatus (rq 1 0)) (busyPort 1 4 standby) = true ∧
    ended (.requestWhileBusy 1 3 25) (busyPort 1 0 standby) = true ∧ ended (.unknownKindRequest 1 3 99) standby = true ∧
    (let q := (after (.badRequestFrame 0 [0xA5#8, 0#8, 1#8, 0xA5#8, 4#8, 1#8]) standby).port 0
     q.badFrame = true ∧ q.receiver = .hunting ∧ q.gapTimer = none) := by decide +kernel

theorem witness_ResponsesAreSentAndARestartIsTakenAfterIts :
    let r := after (.restart (rq 3 0)) standby
    (((busyPort 0 4 standby).port 0).request = .answering ∧
      ((busyPort 0 4 standby).port 0).reply = some ⟨1, 25, .ok, []⟩) ∧
    (saving.store.state ≠ .idle ∧ standby.ready (.restart (rq 3 0)) ∧ standby.store.state = .idle) ∧
    ((r.port 3).request = .answering ∧ (r.port 3).reply = some ⟨7, 22, .ok, []⟩) := by
  simp only [ready_iff]; decide +kernel

theorem test_restart_resets_the_record :
    let s : State := { regulating with line := { regulating.line with
      record := { regulating.line.record with time := 5, capacity := 9 }, governing := .demand, least := 7 } }
    let t := ask (.restart (rq 3 0)) s
    t.line.record.time = 0 ∧ t.line.record.capacity = 0 ∧ t.line.governing = .setpoint ∧ t.line.least = 0 := by
  decide +kernel

theorem witness_RestartDuringASave :
    let s := after (.saveConfig (rq 0 0)) standby
    s.ready (.restart (rq 3 0)) ∧ s.store.state ≠ .idle ∧ s.store.state ≠ .loading := by
  simp only [ready_iff]; decide +kernel

theorem witness_PowerOnLoadsAndOpensTheWindow :
    let i : Image := { standby.capture with selected := ⟨true, false, false, false, false, false, false, true⟩ }
    let s : State := { standby with store := { standby.store with image := some i } }
    s.store.image = some i ∧ standby.store.image = none ∧
      ((after .configLoadComplete (after (.powerOnReset resetStraps) s)).group 7).service = .inService := by
  decide +kernel

theorem witness_PortsFetchNoticesAndWalkCursors :
    (standby.ready (.fetchNotices (rq 1 0))) ∧
    (standby.ready (.setCursor (rq 1 4) 2 0 0) ∧ standby.ready (.setCursor (rq 1 4) 0 400 0) ∧
      standby.ready (.setCursor (rq 1 4) 1 96 0)) ∧
    (standby.ready (.setCursor (rq 1 4) 1 95 1) ∧ standby.metering.ring.length ≤ 95) ∧
    (standby.ready (.setCursor (rq 1 4) 0 399 1)) ∧
    (let s := after .intervalDeadlineExpiry standby
     s.ready (.setCursor (rq 1 4) 1 0 0) ∧ 0 < s.metering.ring.length) ∧
    (standby.ready (.readNext (rq 1 0)) ∧ (standby.port 1).cursor.target = .pots ∧
      (standby.port 1).cursor.position ≤ 399) ∧
    (let s := standby.modPort 1 fun q => { q with cursor := { q.cursor with target := .history } }
     s.ready (.readNext (rq 1 0)) ∧ (s.port 1).cursor.target = .history ∧ s.metering.ring = []) := by
  simp only [ready_iff]; decide +kernel

theorem witness_ReadsAnswerAndChangeNothing :
    standby.ready (.readLineStatus (rq 1 0)) ∧ standby.ready (.readAllocation (rq 1 0)) ∧
    standby.ready (.readAeList (rq 1 0)) ∧ standby.ready (.readMetering (rq 1 0)) ∧
    standby.ready (.readOrders (rq 1 0)) ∧ standby.ready (.readFaults (rq 1 0)) ∧
    standby.ready (.readStackStatus (rq 1 0)) ∧ standby.ready (.readClaims (rq 1 0)) ∧
    (standby.ready (.readCooling (rq 1 1) 7) ∧ standby.ready (.readCooling (rq 1 1) 8)) ∧
    (standby.ready (.readPot (rq 1 2) 399) ∧ standby.ready (.readPot (rq 1 2) 400)) ∧
    (standby.ready (.readFault (rq 1 2) 13 0) ∧ standby.ready (.readFault (rq 1 2) 5 8) ∧
      standby.ready (.readFault (rq 1 2) 12 8) ∧ standby.ready (.readFault (rq 1 2) 5 7)) ∧
    (standby.ready (.readConfig (rq 1 2) 7 8) ∧ itemNamed 7 8 = false ∧ itemNamed 7 7 = true) ∧
    (standby.ready (.readFrame (rq 1 2) .top) ∧ standby.stack.frames = []) ∧
    (standby.ready (.readFrame (rq 1 2) (.address 4097)) ∧ standby.ready (.readFrame (rq 1 2) (.address 4096))) ∧
    ((pushed 1 1).ready (.readFrame (rq 1 2) .top) ∧ (pushed 1 1).stack.frames ≠ [] ∧
      (pushed 1 1).stack.frames.Pairwise fun a b => a.address ≠ b.address) := by
  simp only [ready_iff]; decide +kernel

theorem witness_ClearingReadsClearWhatTheyReport :
    let warned : State := standby.modCool 7 fun c => { c with
      warning := true, lastTemps := some { outlet := 620, inlet := 250, flow := 500 } }
    (standby.ready (.readGroupStatus (rq 0 1) 8)) ∧
    (warned.ready (.readGroupStatus (rq 0 1) 7) ∧ warned.role 0 = .substation ∧ warned.clearable 7 = true ∧
      ((after (.readGroupStatus (rq 0 1) 7) warned).cool 7).warning = false) ∧
    (warned.ready (.readGroupStatus (rq 1 1) 7) ∧ warned.role 1 ≠ .substation ∧
      ((after (.readGroupStatus (rq 1 1) 7) warned).cool 7).warning = true) ∧
    (standby.ready (.readScanStatus (rq 1 0)) ∧ standby.ready (.readPortStatus (rq 1 0))) := by
  simp only [ready_iff]; decide +kernel

/-! ### Witnesses: the clauses of the wider statements -/

/-- A group whose inputs have settled at these values. -/
def settledAt (g : Group) (status : BitVec 8) (trips : BitVec 4) (s : State) : State :=
  s.modCool g fun c => { c with inputs :=
    { status := Eight.ofFn fun n => { c.inputs.status.get n with settled := true, filtered := status.getLsbD n.val }
      trip := Four.ofFn fun n => { c.inputs.trip.get n with settled := true, filtered := trips.getLsbD n.val } } }

/-- R68 and R69: a settled group with both pumps lost enters GRACE at START_LINE with the grace time of its items, and leaves it
with the allocation set. -/
theorem test_grace_follows_the_allocation_set :
    let s := settledAt 4 0x19#8 0#4 selected
    let t := after (.startLine (rq 0 0)) s
    let u := after .allocationTimerExpiry { t with line := { t.line with state := some .stopping } }
    (s.cool 4).pumpLoss = .none ∧ (t.cool 4).pumpLoss = .grace ∧
      (t.cool 4).graceTimer = some (s.timeBase + (s.groupConfig 4).graceTime * 1000) ∧
      (t.cool 4).ceiling < (s.cool 4).ceiling ∧ (t.cool 5) = s.cool 5 ∧
    u.line.state = some .standby ∧ (u.cool 4).pumpLoss = .none ∧ (u.cool 4).graceTimer = none ∧
      (u.cool 4).ceiling = (s.cool 4).ceiling := by decide +kernel

theorem witness_JoinAndLeaveSteps :
    let join (c : Nat) : State := serviceAt 5 .joining (regulating.modGroup 5 fun r => { r with joinCeiling := c })
    let leave (c : Nat) : State := serviceAt 5 .leaving (regulating.modGroup 5 fun r => { r with leaveCeiling := c })
    let t (s : State) : GroupRecord := (after .allocationTimerExpiry s).group 5
    ((t (join 11900)).service = .inService ∧ (t (join 11900)).joinCeiling = 0) ∧
    ((t (join 11899)).service = .joining ∧ (t (join 11899)).joinCeiling = 11999) ∧
    ((t (leave 100)).service = .out ∧ (t (leave 100)).leaveCeiling = 0) ∧
    ((t (leave 101)).service = .leaving ∧ (t (leave 101)).leaveCeiling = 1) := by decide +kernel

theorem witness_ExpiryInAdoptingAndAStopWithCapacityShort :
    let short : State := { lineAt .stopping 200 starting with
      line := { (lineAt .stopping 200 starting).line with capacityShort := true } }
    let id : FaultId := .line .capacityShort
    (booted.responsesAllowed ∧ booted.line.allocTimer = some 20 ∧ booted.line.state = some .adopting) ∧
    (short.line.allocTimer = some 20 ∧ short.line.capacityShort = true ∧
      ((after .allocationTimerExpiry (short.setEntry id (standing .active .note false))).entry id).state = .latched) :=
  ⟨⟨allowed_of _ (by decide +kernel), by decide +kernel, by decide +kernel⟩, by decide +kernel⟩

theorem witness_FrameMovesLinkAndTracking :
    let lost : State := serviceAt 4 .linkLost regulating
    let held : State := lost.setEntry (.group .protection 4) (standing .latched .note true)
    let frame (current echo : Nat) : Instr := .statusFrame 4 (.good (healthy current 14000 400 echo))
    let ordered : State := { regulating.modGroup 4 fun r => { r with lastOrder := 5000, sequence := 9 } with timeBase := 7 }
    let timer (i : Instr) : Option Nat := ((after i ordered).group 4).trackingTimer
    (regulating.loading = false ∧ (lost.group 4).service = .linkLost ∧ lost.removeStands 4 = false ∧
      ((after (frame 0 0) lost).group 4).service = .out) ∧
    (held.removeStands 4 = true ∧ ((after (frame 0 0) held).group 4).service = .removed) ∧
    ((ordered.group 4).linkTimer.isSome = true ∧ ((after (frame 5000 9) ordered).group 4).linkTimer = some 57) ∧
    (timer (frame 5300 9) = none ∧ timer (frame 5301 9) = some 2007 ∧ timer (frame 4699 9) = some 2007 ∧
      timer (frame 5301 8) = none) := by decide +kernel

theorem witness_FrameMovesTheCooling :
    let hot (outlet : Int) (s : State) : State := after (.statusFrame 4 (.good (healthy 5000 14000 outlet 0))) s
    let pumps (status : BitVec 8) (s : State) : State :=
      after (.statusFrame 4 (.good { healthy 5000 14000 400 0 with status := status })) s
    let stopped : State := settledAt 4 0x19#8 0#4 regulating
    let expired : State := stopped.modCool 4 fun c => { c with pumpLoss := .expired }
    regulating.responsesAllowed ∧
    (((hot 649 regulating).cool 4).warning = false ∧ ((hot 650 regulating).cool 4).warning = true) ∧
    (((hot 849 regulating).cool 4).overtemp = false ∧ ((hot 850 regulating).cool 4).overtemp = true ∧
      ((hot 821 (hot 850 regulating)).cool 4).overtemp = true ∧ ((hot 819 (hot 850 regulating)).cool 4).overtemp = false) ∧
    (((hot 700 regulating).cool 4).percent = 60 ∧ ((hot 700 regulating).cool 4).ceiling = 7200) ∧
    ((stopped.cool 4).settled = true ∧ (stopped.cool 4).pumpLoss = .none ∧ stopped.inSet 4 = true ∧
      ((pumps 0x19#8 stopped).cool 4).pumpLoss = .grace ∧ ((pumps 0x19#8 stopped).cool 4).graceTimer = some 30000 ∧
      ((pumps 0x19#8 (serviceAt 4 .out stopped)).cool 4).pumpLoss = .none) ∧
    (((pumps 0x1B#8 (settledAt 4 0x1B#8 0#4 grace)).cool 4).pumpLoss = .none ∧
      ((pumps 0x19#8 (settledAt 4 0x19#8 0#4 grace)).cool 4).graceTimer = some 30000) ∧
    ((expired.cool 4).pumpLoss = .expired ∧ ((pumps 0x19#8 expired).cool 4).pumpLoss = .expired ∧
      ((pumps 0x1B#8 (settledAt 4 0x1B#8 0#4 expired)).cool 4).pumpLoss = .none) :=
  ⟨allowed_of _ (by decide +kernel), by decide +kernel⟩

theorem witness_FrameTestsPatternAndTrips :
    let frame (status : BitVec 8) (trips : BitVec 4) (s : State) : State :=
      after (.statusFrame 4 (.good { healthy 5000 14000 400 0 with status := status, trips := trips })) s
    (((frame 0x5F#8 0#4 (settledAt 4 0x5F#8 0#4 regulating)).cool 4).differing = 0x40#8 ∧
      ((frame 0x5F#8 0#4 (settledAt 4 0x5F#8 0#4 regulating)).entry (.group .mismatch 4)).state = .active) ∧
    (((frame 0x1F#8 0#4 (settledAt 4 0x1F#8 0#4 regulating)).cool 4).pattern = .matching) ∧
    (((frame 0x1F#8 4#4 (settledAt 4 0x1F#8 4#4 regulating)).cool 4).protection = true ∧
      ((frame 0x1F#8 4#4 (settledAt 4 0x1F#8 4#4 regulating)).group 4).service = .removed) ∧
    ((regulating.cool 4).settled = false ∧
      ((frame 0x5F#8 4#4 regulating).cool 4).pattern = .matching) := by decide +kernel

theorem witness_SampleTestsBandAndDetects :
    let pot (a : AeState) (run : Nat) (s : State) : State :=
      s.modPot 0 fun p => { p with stale := false, last := 4200, aeState := a, run := run }
    let sample (v : Nat) (s : State) : State := after (.sampleFrame 0 0 v) s
    let armed : State := { standby with scan := { standby.scan with armed := true } }
    ((sample 4050 (pot .normal 0 standby)).pot 0).band = .inBand ∧
    ((sample 4049 (pot .normal 0 standby)).pot 0).band = .outOfBand ∧
    (((sample 8000 (pot .rising 1 standby)).pot 0).aeState = .rising ∧
      ((sample 7999 (pot .rising 2 standby)).pot 0).aeState = .normal ∧
      ((sample 8000 (pot .rising 2 standby)).pot 0).aeState = .ae ∧
      (sample 8000 (pot .rising 2 standby)).ae.list.length = 1) ∧
    ((sample 5501 (pot .falling 4 (withRecords 1))).pot 0).aeState = .ae ∧
    ((sample 5500 (pot .falling 3 (withRecords 1))).pot 0).aeState = .falling ∧
    ((sample 5500 (pot .falling 4 (withRecords 1))).pot 0).aeState = .normal ∧
    (sample 5500 (pot .falling 4 (withRecords 1))).ae.list = [] ∧
    (armed.scan.armed = true ∧ (armed.pot 0).stale = true ∧ (sample 4200 armed).scan.scanStale = true) := by
  decide +kernel

theorem witness_OverflowOnsetAndUnlistedEnd :
    let full : State := withRecords 16
    let spill : State := withRecords 17
    (full.ae.list.length = 16 ∧ (full.takeOnset 20 8000).ae.overflow = [⟨20, 0⟩] ∧
      ((full.takeOnset 20 8000).entry (.line .aeStorm)).state = .active) ∧
    (spill.ae.ofPot 16 = none ∧ spill.ae.overflow.find? (fun x => x.pot == 16) = some ⟨16, 0⟩ ∧ 16 < spill.pots.length ∧
      (spill.endAe 16 .normal).ae.overflow = []) ∧
    (spill.ae.ofPot 17 = none ∧ spill.ae.overflow.find? (fun x => x.pot == 17) = none) := by decide +kernel

theorem witness_CutOutEndsTheAnodeEffect :
    let listed : State := withRecords 1
    let spill : State := withRecords 17
    let cut (i : Nat) (s : State) : State := after (.cutOutPot (rq 1 2) i) s
    (listed.responsesAllowed ∧ spill.responsesAllowed) ∧
    (listed.ready (.cutOutPot (rq 1 2) 0) ∧ (cut 0 listed).ae.list = [] ∧
      (cut 0 listed).ae.recent.map RecentEnd.reason = [.cutOut]) ∧
    (spill.ready (.cutOutPot (rq 1 2) 16) ∧ (cut 16 spill).ae.overflow = [] ∧ ((cut 16 spill).pot 16).unlisted = false) := by
  simp only [ready_iff]
  exact ⟨⟨allowed_of _ (by decide +kernel), allowed_of _ (by decide +kernel)⟩, by decide +kernel⟩

theorem witness_QuenchFailsAtAttemptThree :
    let s := withRecords 1
    let at3 : State := { s with ae := { s.ae with list := s.ae.list.map fun r => { r with attempt := 3 } } }
    at3.ready (.quenchFailed (rq 1 2) 1 3) ∧ (at3.ae.ofId 1).map AeRecord.exhausted = some false ∧
      (after (.quenchFailed (rq 1 2) 1 3) at3).ae.unquenched = true ∧
      ((after (.quenchFailed (rq 1 2) 1 3) at3).entry (.line .aeUnquenched)).state = .active := by
  simp only [ready_iff]; decide +kernel

theorem witness_HeadroomLowAtAnExpiry :
    let at_ (u : Nat) : State := withFrame 0 (healthy 3000 u 400 0) regulating
    let low (s : State) : EntryState := ((after .allocationTimerExpiry s).entry (.line .headroomLow)).state
    (at_ 17700).responsesAllowed ∧ (at_ 17700).line.allocTimer = some 20 ∧ low (at_ 17700) = .active ∧
      low (at_ 17699) = .clear ∧
      low (withFrame 0 (healthy 3000 17500 400 0) (after .allocationTimerExpiry (at_ 17700))) = .latched :=
  ⟨allowed_of _ (by decide +kernel), by decide +kernel, by decide +kernel, by decide +kernel, by decide +kernel⟩

/-- In REGULATING with one enforced order of 100 kW, a run of `run` and a power far above it. -/
def overrun (run : Nat) : State :=
  let o : CurtailOrder :=
    { tag := 3, state := .active, ceiling := 100, start := 0, duration := 60, stop := 60000, port := 2, activation := some 0
      enforcement := some 0, enforced := false }
  withFrame 0 (healthy 12000 14000 400 0)
    { regulating with curtail := { regulating.curtail with orders := [o], run := run } }

theorem witness_MeteringEnforcesAndCountsTheRun :
    let t (run : Nat) : State := after .meteringTimerExpiry (overrun run)
    let record : State := withFrame 0 (healthy 10000 14000 400 0) (regulating.takeOnset 0 8000)
    let fresh : State := record.modPot 0 fun p => { p with stale := false, last := 8200 }
    (overrun 9).metering.timer = some 100 ∧
    ((t 8).curtail.orders.map CurtailOrder.enforced = [true] ∧ (t 8).curtail.run = 9 ∧ (t 8).curtail.compliance = false) ∧
    ((t 9).curtail.run = 0 ∧ (t 9).curtail.compliance = true ∧ ((t 9).entry (.line .curtailMissed)).state = .active ∧
      (t 9).metering.interval.map Machine.Interval.breaches = some 1) ∧
    (t 9).claims.curtail.value = 100 * 10000 / 10350 * 1000 / 14000 ∧
    (after .meteringTimerExpiry fresh).ae.list.map AeRecord.energy = [40000] ∧
    (after .meteringTimerExpiry record).ae.list.map AeRecord.energy = [0] := by decide +kernel

theorem witness_OrdersEndWithTheirCompliance :
    let a : State := after .meteringTimerExpiry (overrun 9)
    let gone : State := after (.orderEndDeadline 3) a
    a.curtail.orders.any (fun o => o.state == .active && o.enforced) = true ∧ a.curtail.compliance = true ∧
      (a.curtail.ofTag 3).map CurtailOrder.state = some .active ∧ a.ready (.cancelOrder (rq 2 1) 3) ∧
      gone.curtail.compliance = false ∧ (gone.entry (.line .curtailMissed)).state = .latched ∧
      (after (.cancelOrder (rq 2 1) 3) a).curtail.compliance = false := by
  simp only [ready_iff]; decide +kernel

theorem witness_OrderTimesSaturate :
    let s : State := { standby with timeBase := 2 ^ 40 - 30000 }
    let t : State := after (.postOrder (rq 2 11) 1 20 60 1000) s
    s.ready (.postOrder (rq 2 11) 1 20 60 1000) ∧
      t.curtail.orders.map (fun o => (o.start, o.stop)) = [(2 ^ 40 - 10000, 2 ^ 40 - 1)] := by
  simp only [ready_iff]; decide +kernel

theorem witness_AcceptedConfigWrites :
    let w (p : Port) (len index : Nat) (item : ItemWrite) : Instr := .writeConfig (rq p len) index 0 item
    let open_ (index : Nat) (item : ItemWrite) : Bool :=
      match writeItem (standby.answering 1) index item with
      | .accepted _ _ => true
      | .refused _ => false
    (standby.ready (w 1 7 3 (.sectionDescriptor 300 99)) ∧ open_ 3 (.sectionDescriptor 300 99) = true ∧
      standby.line.state = some .standby ∧ writeItem standby 3 (.sectionDescriptor 400 0) = .refused .outOfRange ∧
      writeItem standby 3 (.sectionDescriptor 299 100) = .refused .range ∧
      writeItem standby 3 (.sectionDescriptor 301 100) = .refused .range ∧
      writeItem (standby.modPot 0 fun p => { p with aeState := .ae }) 0 (.sectionDescriptor 1 99) = .refused .badState ∧
      writeItem regulating 3 (.sectionDescriptor 300 99) = .refused .badState) ∧
    (((after (w 1 7 3 (.sectionDescriptor 300 99)) standby).mapped 399) = false) ∧
    (open_ 0 (.bandSet 4200 4200 0 true false) = true ∧
      writeItem standby 0 (.bandSet 4201 4200 0 true false) = .refused .outOfOrder) ∧
    (writeItem standby 0 (.warnThreshold 850) = .refused .outOfOrder ∧ open_ 0 (.warnThreshold 849) = true ∧
      writeItem standby 0 (.tripThreshold 650) = .refused .outOfOrder ∧ open_ 0 (.tripThreshold 651) = true) ∧
    (open_ 7 (.tariffWindow true 95 95 0x7F#8 2000001 7) = true ∧
      writeItem standby 7 (.tariffWindow true 96 95 0x7F#8 0 7) = .refused .outOfRange) ∧
    (open_ 12 (.actionRow 3 2 9 true) = true ∧ writeItem standby 12 (.actionRow 3 3 9 true) = .refused .outOfRange) ∧
    (open_ 0 (.intervalLength 60) = true ∧ writeItem standby 0 (.intervalLength 61) = .refused .outOfRange) ∧
    (writeItem standby 0 (.detectionSet 8000 8000 1 1) = .refused .outOfOrder ∧
      open_ 0 (.detectionSet 8001 8000 0 16) = true) := by
  simp only [ready_iff]; decide +kernel

/-- What an item's own rule leaves. -/
def written (index : Nat) (item : ItemWrite) (s : State) : State :=
  match writeItem s index item with
  | .accepted u _ => u
  | .refused _ => s

theorem witness_WritesThatTestAtOnce :
    let s : State := settledAt 4 0x1F#8 4#4 regulating
    let hot : State := standby.modCool 4 fun c => { c with lastTemps := some { outlet := 600, inlet := 250, flow := 500 } }
    let table : Eight (Int × Nat) :=
      ⟨(450, 100), (500, 95), (550, 90), (600, 33), (650, 70), (700, 60), (750, 50), (800, 40)⟩
    let out : State := standby.modPot 7 fun p => { p with stale := false, last := 4500, swing := 0 }
    s.responsesAllowed ∧
    ((s.cool 4).settled = true ∧ ((written 4 (.enableMask 0x53#8) s).cool 4).pattern = .matching ∧
      ((written 4 (.expectedPattern 0x1E#8) s).entry (.group .mismatch 4)).state = .active) ∧
    ((s.cool 4).protection = false ∧ ((written 4 (.tripMask 0xB#8) s).cool 4).protection = false ∧
      ((written 4 (.tripMask 0xF#8) s).group 4).service = .removed) ∧
    ((regulating.cool 4).settled = false ∧
      (written 4 (.expectedPattern 0#8) regulating).cooling = regulating.cooling) ∧
    (((written 0 (.derateTable table) hot).cool 4).ceiling = 3960 ∧
      ((written 0 (.derateTable table) hot).cool 5).percent = 100 ∧
      writeItem hot 0 (.derateTable (Eight.fill (450, 100))) = .refused .outOfOrder) ∧
    ((written 4 (.rating 100) hot).cool 4).ceiling = 100 ∧
    (out.mapped 7 = true ∧ (out.pot 7).circuit = .inCircuit ∧ (out.pot 7).stale = false ∧ (out.pot 8).stale = true ∧
      ((out.bandTest 7).pot 7).band = .inBand ∧
      (((out.modConfig fun c => { c with band := { c.band with high := 4499 } }).bandTest 7).pot 7).band = .outOfBand) ∧
    (let armed : State := { standby with scan := { standby.scan with armed := true } }
     (written 0 (.staleLimit 400) armed).scan.scanStale = false ∧
       (written 0 (.staleLimit 399) armed).scan.scanStale = true) :=
  ⟨allowed_of _ (by decide +kernel), by decide +kernel⟩

theorem witness_LoadFromEveryLoadingState :
    let s : State := { State.reset with timeBase := 777 }
    let i : Image := { standby.capture with circuits := List.replicate 400 .cutOut }
    let u : State := { s with store := { s.store with image := some i } }
    s.loading = true ∧ s.store.image = none ∧ u.loading = true ∧ u.store.image = some i ∧ standby.loading = false ∧
      (after .configLoadComplete s).line.adoptDeadline = some 977 ∧
      ((after .configLoadComplete u).pot 399).circuit = .cutOut := by decide +kernel

theorem witness_ReadNextOnAHistory :
    let two : State := after .intervalDeadlineExpiry (after .intervalDeadlineExpiry standby)
    let s : State := two.modPort 1 fun q => { q with cursor := { q.cursor with target := .history, position := 1 } }
    s.ready (.readNext (rq 1 0)) ∧ (s.port 1).cursor.target = .history ∧ s.metering.ring.length = 2 ∧
      ((after (.readNext (rq 1 0)) s).port 1).cursor.position = 1 := by
  simp only [ready_iff]; decide +kernel

/-! ### Witnesses: frames on the links -/

theorem witness_RequestFramesDecodeToTheirRequests :
    let i : Instr := .postOrder ⟨2, 255, 11⟩ 255 4294967295 65535 4294967295
    i.wellFormed = true ∧ i.request? = some (⟨2, 255, 11⟩, .postOrder) ∧ (⟨2, 255, 11⟩ : Req).len = i.payload.length ∧
      (encodeRequest i).isSome = true := by decide +kernel

theorem witness_LinkFramesDecodeToTheirContents :
    let f : StatusFrame := { healthy 65535 65535 (-32768) 255 with inlet := 32767, flow := 65535 }
    f.wellFormed = true ∧ (encodeStatusFrame f)[14]? ≠ some (0#8 : Byte) ∧
      (encodeStatusFrame f)[15]? ≠ some (0#8 : Byte) ∧ standby.loading = false ∧
      ((((after (.statusFrame 7 (decodeStatusFrame (encodeStatusFrame f))) standby).group 7).lastFrame).map
        StatusFrame.echo) = some 255 := by decide +kernel

/-! ### Witnesses: what every step keeps -/

/-- `framesFrom` as a test. -/
def framesNow : Nat → List Frame → Bool
  | top, [] => decide (top = 4096)
  | top, f :: rest =>
    decide (f.address = top) && decide (0 < f.length) && decide (f.backLink = top + f.length)
      && decide (f.length = f.contents.cause.length) && framesNow f.backLink rest

theorem framesFrom_iff (top : Nat) (l : List Frame) : framesFrom top l ↔ framesNow top l = true := by
  induction l generalizing top with
  | nil => simp [framesFrom, framesNow]
  | cons f rest ih => simp [framesFrom, framesNow, ih, and_assoc]

/-- A step from each state the conditions are shown on. -/
theorem witness_StepOfThese : step regulating = .next regulating.tick ∧ step (pushed 1 1) = .next (pushed 1 1).tick :=
  ⟨by unfold step; rw [show regulating.pending = [] by decide +kernel], by
    unfold step; rw [show (pushed 1 1).pending = [] by decide +kernel]⟩

theorem witness_StepsKeepTheFaultTableSound :
    regulating.responsesAllowed ∧ regulating.linesExact ∧ regulating.clearEntriesEmpty := by
  have clear := none_stands regulating (by decide +kernel)
  refine ⟨allowed_of _ (by decide +kernel), ⟨?_, ?_⟩, (forall_ids _).2 (by decide +kernel)⟩
  · refine ⟨fun h => absurd h (by decide +kernel), fun ⟨id, h, _⟩ => ?_⟩
    rw [clear id] at h; simp at h
  · refine ⟨fun h => absurd h (by decide +kernel), fun ⟨id, h, _⟩ => ?_⟩
    rw [clear id] at h; simp at h

theorem witness_StepsKeepTheFloor :
    (lineAt .regulating 25000 starting).floorHeld ∧ (lineAt .regulating 25000 starting).regulates = true := by
  refine ⟨⟨by decide +kernel, by unfold Configuration.floorInRange; decide +kernel, fun i h => ?_, fun v h => ?_⟩, by
    decide +kernel⟩
  · rw [show (lineAt .regulating 25000 starting).store.image = none by decide +kernel] at h; simp at h
  · rw [show (lineAt .regulating 25000 starting).store.state = .idle by decide +kernel] at h; simp at h

theorem witness_StepsKeepListsAndClaimsInRange : (withRecords 16).listsBounded ∧ (withRecords 16).claimsInRange :=
  ⟨by unfold State.listsBounded; decide +kernel, fun k => by cases k <;> decide +kernel, by decide +kernel⟩

theorem witness_StepsKeepTheFrameStore : (pushed 1 1).stack.wf ∧ (pushed 1 1).stack.frames ≠ [] := by
  refine ⟨⟨(framesFrom_iff _ _).2 (by decide +kernel), fun f h => ?_, fun _ => by decide +kernel⟩, by decide +kernel⟩
  rw [show (pushed 1 1).stack.writing = none by decide +kernel] at h; simp at h

theorem witness_StepsKeepTheTimersAgreed : grace.timersAgree := by unfold State.timersAgree; decide +kernel

theorem witness_StepsKeepAStoppedLineAtRest : selected.restsWhenStopped ∧ selected.running = false := by
  unfold State.restsWhenStopped; decide +kernel

/-! ### WellFormed: one ill-formed command for each check -/

theorem test_tag_of_two_bytes_is_refused : (Instr.startLine ⟨0, 256, 0⟩).wellFormed = false := by decide

theorem test_payload_too_long_is_refused : (Instr.startLine ⟨0, 0, 1023⟩).wellFormed = false := by decide

theorem test_wide_fields_are_refused :
    [Instr.setGroupService (rq 0 2) 256 0, .restoreGroup (rq 0 1) 256, .setSetpoint (rq 0 2) 65536, .cutInPot (rq 1 2) 65536,
      .quenchFailed (rq 1 2) 1 256, .setClock (rq 2 5) 0 4294967296, .postOrder (rq 2 11) 1 0 65536 0,
      .cancelOrder (rq 2 1) 256, .clearFault (rq 0 2) 256 0, .dropTop (rq 0 2) 65536, .readConfig (rq 0 2) 0 256,
      .readFrame (rq 0 2) (.address 65535), .setCursor (rq 0 4) 0 65536 0, .unknownKindRequest 0 0 256,
      .requestWhileBusy 0 256 0, .sampleFrame 256 0 0, .orderStartDeadline 0, .ackTimerExpiry 256].all
      (fun i => !i.wellFormed) = true := by decide

theorem test_known_kind_is_no_unknown_kind : (Instr.unknownKindRequest 0 0 42).wellFormed = false := by decide

theorem test_wide_status_frame_is_refused :
    [{ healthy 65536 0 0 0 with flow := 0 }, healthy 0 65536 0 0, healthy 0 0 32768 0, healthy 0 0 (-32769) 0,
      healthy 0 0 0 256].all (fun f => !(Instr.statusFrame 0 (.good f)).wellFormed) = true := by decide

theorem test_wide_items_are_refused :
    [ItemWrite.floor 65536, .weight 256, .guardTime 4294967296, .filterCounts (Twelve.fill 256),
      .derateTable (Eight.fill (32768, 0)), .derateTable (Eight.fill (0, 256)), .warnThreshold 32768,
      .sectionDescriptor 0 256, .bandSet 65536 0 0 true true, .detectionSet 0 0 256 0, .quenchSet 256 0 0,
      .headroomSet 0 0 0 65536, .tariffWindow true 256 0 0 0 0, .actionRow 0 256 0 true, .unknown 40].all
      (fun w => !(Instr.writeConfig (rq 0 6) 0 0 w).wellFormed) = true := by decide

theorem test_these_are_well_formed :
    [Instr.startLine (rq 0 0), .postOrder (rq 2 11) 255 4294967295 65535 4294967295, .readFrame (rq 0 2) .top,
      .writeConfig (rq 0 6) 0 65535 (.warnThreshold (-32768)), .unknownKindRequest 0 0 43,
      .statusFrame 7 (.good (healthy 65535 65535 (-32768) 255))].all Instr.wellFormed = true := by decide

/-! ### Frames written out from Tables 11-5 and 11-7 to 11-10, with check words formed apart from the model -/

theorem test_crc_of_the_digits : crc16 [0x31, 0x32, 0x33, 0x34, 0x35, 0x36, 0x37, 0x38, 0x39] = 0x29B1#16 := by
  decide +kernel

theorem test_decode_start_line :
    decodeRequestFrame 2 [0xA5, 0x00, 0x02, 0x05, 0x01, 0x05, 0x74] = some (.startLine ⟨2, 5, 0⟩) := by decide +kernel

theorem test_decode_set_setpoint :
    decodeRequestFrame 0 [0xA5, 0x00, 0x04, 0x09, 0x06, 0xD6, 0xD8, 0x33, 0x35] = some (.setSetpoint ⟨0, 9, 2⟩ 55000) := by
  decide +kernel

theorem test_decode_post_order :
    decodeRequestFrame 1 [0xA5, 0x00, 0x0D, 0x01, 0x10, 0x0C, 0x00, 0x00, 0x01, 0x2C, 0x07, 0x08, 0x00, 0x0A, 0xAE, 0x60
      , 0x86, 0xA2] = some (.postOrder ⟨1, 1, 11⟩ 12 300 1800 700000) := by decide +kernel

theorem test_decode_write_of_a_negative_threshold :
    decodeRequestFrame 0 [0xA5, 0x00, 0x08, 0x02, 0x17, 0x15, 0x00, 0x00, 0x05, 0xFF, 0xF6, 0x57, 0x0C] =
      some (.writeConfig ⟨0, 2, 6⟩ 0 5 (.warnThreshold (-10))) := by decide +kernel

theorem test_decode_unknown_kind :
    decodeRequestFrame 3 [0xA5, 0x00, 0x02, 0x03, 0x2B, 0x2A, 0xFA] = some (.unknownKindRequest 3 3 43) := by
  decide +kernel

theorem test_decode_bad_crc :
    decodeRequestFrame 3 [0xA5, 0x00, 0x02, 0x03, 0x2B, 0x2A, 0xFB] =
      some (.badRequestFrame 3 [0xA5, 0x00, 0x02, 0x03, 0x2B, 0x2A, 0xFB]) := by decide +kernel

theorem test_decode_status_frame :
    decodeGroupFrame 6 [0x81, 0x2C, 0x13, 0x23, 0x28, 0xFF, 0x9C, 0x01, 0x90, 0x01, 0xF4, 0x1F, 0x02, 0xFE, 0xE6, 0x95] =
      .statusFrame 6 (.good { current := 11283, voltage := 9000, inlet := -100, outlet := 400, flow := 500
                              status := 0x1F#8, trips := 0x2#4, echo := 254 }) := by decide +kernel

theorem test_decode_scan_frames :
    decodeScanFrame [0x21, 0x03, 0x63, 0x1F, 0xA4, 0x0C, 0x2D] = .sampleFrame 3 99 8100 ∧
      decodeScanFrame [0x2F, 0x34, 0x7D] = .cycleMarker ∧ decodeScanFrame [0x2F, 0x34, 0x7C] = .scanFrameBad ∧
      encodeOrderFrame 11280 false 7 = [0x01, 0x2C, 0x10, 0x00, 0x07, 0xF0, 0xA5] := by decide +kernel

/-- SERVICE's cursor at a history position, with a valid calendar and tariff window 3 on slots 90 to 3 of days 0 to 2. -/
def evening (position day tod : Nat) : State :=
  let s : State := { standby with
    metering := { standby.metering with calendar := some ⟨day, tod⟩ }
    config := { standby.config with windows := standby.config.windows.set 3 ⟨true, 90, 3, 7#7, 500000, 2⟩ } }
  s.modPort 3 fun q => { q with cursor := { q.cursor with target := .history, position := position } }

theorem witness_ClosesMoveCursorsAndTakeWindows :
    let next (s : State) : Option (Option (Fin 8) × Nat × Nat × Nat) :=
      (after .intervalDeadlineExpiry s).metering.interval.map fun i => (i.window, i.demand, i.priceClass, i.deadline)
    let cursor (n : Nat) : Nat × Bool :=
      let c := ((after .syncPulse (evening n 0 0)).port 3).cursor
      (c.position, c.skipped)
    let late : State := { standby with timeBase := 2 ^ 40 - 5 }
    (cursor 94 = (95, false) ∧ cursor 95 = (95, true)) ∧
    (next (evening 0 2 81000000) = some (some 3, 500000, 2, 900000) ∧
      next (evening 0 0 3599999) = some (some 3, 500000, 2, 900001) ∧
      (next (evening 0 2 80999999)).map (fun x => x.1) = some none ∧
      (next (evening 0 3 81000000)).map (fun x => x.1) = some none) ∧
    (next late).map (fun x => x.2.2.2) = some (2 ^ 40 - 1) := by decide +kernel

theorem witness_ImmediateOrderMarksTheInterval :
    let t : State := after (.postOrder (rq 2 11) 1 0 60 1000) standby
    standby.ready (.postOrder (rq 2 11) 1 0 60 1000) ∧
      t.metering.interval.map (fun i => i.curtailed) = some true ∧
      (t.port 2).queue.map (fun n => n.body.code) = (standby.port 2).queue.map (fun n => n.body.code) ++ [12, 12] := by
  simp only [ready_iff]; decide +kernel

theorem witness_ClearedReduceLaysTheFaultClaimAgain :
    let with_ (a : FaultId) (v : Nat) (s : State) : State :=
      s.setEntry a { standing .latched .reduce false with reduceValue := .set v }
    let one : State := with_ (.line .aeStorm) 40000 regulating
    let two : State := with_ (.line .headroomLow) 50000 one
    let t (s : State) : Claim := (after (.clearFault (rq 0 2) 8 0) s).claims.fault
    one.ready (.clearFault (rq 0 2) 8 0) ∧ two.ready (.clearFault (rq 0 2) 8 0) ∧
      (one.entry (.line .aeStorm)).carries .reduce = true ∧
      (t one).active = false ∧ (t two).active = true ∧ (t two).value = 50000 := by
  simp only [ready_iff]; decide +kernel

theorem witness_RestartAbandonsASave :
    let s : State := saving.modPort 0 fun q => { q with request := .answering, reply := some ⟨7, 22, .ok, []⟩ }
    let t : State := after (.responseSent 0) s
    (s.port 0).reply = some ⟨7, 22, .ok, []⟩ ∧ s.store.state ≠ .idle ∧ t.store.state = .idle ∧
      t.store.image = none := by decide +kernel

/-! ### Values in use -/

/-- R9: a written tracking tolerance is used from the next allocation-timer expiry. -/
theorem test_written_tolerance_waits_for_the_expiry :
    let s : State := ask (.writeConfig (rq 0 6) 0 0 (.trackingTolerance 10)) regulating
    (s.groupConfig 0).tolerance = 10 ∧ (s.group 0).tolerance = 300 ∧
      ((after .allocationTimerExpiry s).group 0).tolerance = 10 := by decide +kernel

/-- R75: a written warn threshold is used from the group's next valid frame. -/
theorem test_written_warn_threshold_waits_for_the_frame :
    let s : State := after (.statusFrame 7 (.good (healthy 0 9000 650 0))) standby
    let t : State := ask (.writeConfig (rq 0 6) 0 0 (.warnThreshold 700)) s
    (s.cool 7).warning = true ∧ s.clearable 7 = false ∧ t.clearable 7 = false ∧
      (after (.statusFrame 7 (.good (healthy 0 9000 650 0))) t).clearable 7 = true := by decide +kernel

/-! ### Worked examples of the manual -/

/-- Section 1.4.1: the adopt window's last valid frames, with G3 at a resolution of 8 and G6 lost. -/
def liveWindow : State :=
  let sel (g : Group) (c : Nat) (s : State) : State := withFrame g (healthy c 9000 400 0) (serviceAt g .inService s)
  let s := (booted.modGroupConfig 3 fun c => { c with resolution := 8 }).modGroup 3 fun r => { r with resolution := 8 }
  let s := sel 3 8461 (sel 2 8998 (sel 1 11277 (sel 0 11283 s)))
  serviceAt 6 .linkLost (withFrame 5 (healthy 1204 9000 400 0) s)

theorem test_example_1_4_1_adoption :
    let t := after .adoptWindowClose liveWindow
    t.line.state = some .regulating ∧ t.line.iCmd = 40006 ∧ t.claims.setpoint.value = 40006 ∧ t.claims.adopted = true ∧
      allGroups.map (fun g => ((t.group g).service, (t.group g).lastOrder)) =
        [(.inService, 11280), (.inService, 11275), (.inService, 8995), (.inService, 8456), (.out, 0), (.removed, 0),
          (.linkLost, 0), (.out, 0)] ∧
      (t.entry (.group .mismatch 5)).state = .active := by decide +kernel

theorem test_example_3_9_1_pinning :
    let r := (allocate 0 .regulating 40013 1
      [⟨0, 12000, 4, 5⟩, ⟨1, 12000, 4, 5⟩, ⟨2, 9000, 4, 5⟩, ⟨3, 12000, 3, 8⟩]).record
    r.total = 40013 ∧ r.passes = 2 ∧ r.leftover = 1 ∧ r.start = some 1 ∧ r.residual = 2 ∧ r.rotation = 2 ∧
      (r.members.toList.filterMap id).map AllocMember.order = [11280, 11275, 9000, 8456] := by decide +kernel

theorem test_example_3_9_2_cascade :
    let r := (allocate 0 .regulating 35017 2
      [⟨0, 12000, 4, 5⟩, ⟨1, 12000, 4, 5⟩, ⟨2, 50, 4, 100⟩, ⟨3, 12000, 3, 8⟩]).record
    r.passes = 3 ∧ r.residual = 1 ∧ r.rotation = 3 ∧
      (r.members.toList.filterMap id).map AllocMember.pinned = [some 2, some 2, some 1, none] ∧
      (r.members.toList.filterMap id).map AllocMember.order = [12000, 12000, 0, 11016] := by decide +kernel

/-- Section 7.4.1: the interval numbered 412 at its deadline, with 10:15 standing there. -/
def atBoundary : State :=
  { standby with
    timeBase := 5000000
    metering := { standby.metering with
      calendar := some ⟨0, 36900000⟩
      interval := standby.metering.interval.map fun i => { i with number := 412, start := 4100000, deadline := 5000000 } } }

/-- Time passes, with the calendar. -/
def later (ms : Nat) (s : State) : State :=
  { s with
    timeBase := s.timeBase + ms
    metering := { s.metering with calendar := s.metering.calendar.map fun c => ⟨c.day, c.tod + ms⟩ } }

theorem test_example_7_4_1_closes :
    let a := after .intervalDeadlineExpiry atBoundary
    let b := after .syncPulse (later 800 a)
    let c := after .syncPulse (later 898400 b)
    let d := after .syncPulse (later 50 c)
    a.metering.sync = some ⟨.afterTimer, 5002000⟩ ∧ a.metering.interval.map Machine.Interval.deadline = some 5900000 ∧
    b.metering.sync = none ∧ b.metering.ring.map (fun h => (h.number, h.unsynced)) = [(412, false)] ∧
    c.metering.interval.map (fun i => (i.number, i.deadline)) = some (414, 6800000) ∧
    c.metering.ring.map (fun h => (h.number, h.short)) = [(413, false), (412, false)] ∧
    d.metering.repeated = 1 ∧ d.metering.sync = some ⟨.afterPulse, 5901200⟩ := by decide +kernel

/-- Section 7.6.1 at a time base and an E_used. -/
def demandCase (now eUsed : Nat) : State :=
  { standby with
    timeBase := now
    config := { standby.config with demandControl := true }
    metering := { standby.metering with
      calendar := some ⟨1, 0⟩, u := 14000, ceiling := 56309
      interval := standby.metering.interval.map fun i => { i with
        demand := 800000, efficiency := 10350, length := 15, eUsed := eUsed, deadline := 4500000 } } }

theorem test_example_7_6_1_demand :
    (demandCase 4200000 480000000).demandStep.claims.demand.value = 54382 ∧
    (demandCase 4200100 480078246).demandStep.claims.demand.value = 54382 ∧
    (demandCase 4479900 700000000).demandStep.claims.demand.value = 56309 ∧
    (demandCase 4480000 700078246).demandStep.metering.holdReason = .guard ∧
    (demandCase 4480000 700078246).demandStep.claims.demand.value = 56309 ∧
    (demandCase 4380000 716500000).demandStep.claims.demand.value = 0 := by decide +kernel

/-- Section 8.7 as far as the start of both orders, at a bus voltage of 14,000 dV. -/
def twoOrders : State :=
  let s := { standby with timeBase := 10000000, curtail := { standby.curtail with lastVoltage := 14000 } }
  let a := later 50000 (ask (.postOrder (rq 2 11) 12 300 1800 700000) s)
  let b := later 250000 (ask (.postOrder (rq 2 11) 13 600 600 300000) a)
  let c := (later 60000 (after (.orderStartDeadline 12) b)).curtailHandoff 14000 0
  later 60000 (after (.orderStartDeadline 13) (later 290000 c))

theorem test_example_8_7_claims :
    twoOrders.claims.curtail.value = 20703 ∧ twoOrders.curtail.complianceCeiling = some 700000 ∧
    (twoOrders.curtailHandoff 14000 362250).curtail.run = 1 ∧
    ((List.range 10).foldl (fun s _ => s.curtailHandoff 14000 362250) twoOrders).curtail.compliance = true ∧
    ((List.range 9).foldl (fun s _ => s.curtailHandoff 14000 362250) twoOrders).curtail.compliance = false ∧
    (after (.orderEndDeadline 13) twoOrders).claims.curtail.value = 48309 := by decide +kernel

end Sys2Proof.Tests
end

