-- ==== Sys2Proof/Proofs/Notices.lean ====
section
/-! What a run of operations does to the ports when it only places notices: the queues grow at the tail, so that a notice
once placed is still heard at the end. -/

namespace Sys2Proof.Machine

/-- `t` comes from `s` by the placing of notices: each queue has grown at its tail, and an overrun flag that was set is set. -/
def State.noticed (s t : State) : Prop :=
  ∀ p : Port, ∃ (more : List Notice) (lost : Bool),
    t.port p = { s.port p with queue := (s.port p).queue ++ more, overrun := (s.port p).overrun || lost }

theorem State.noticed_of_ports {s t : State} (h : t.ports = s.ports) : s.noticed t := by
  intro p
  refine ⟨[], false, ?_⟩
  simp [State.port, h]

theorem State.noticed_refl (s : State) : s.noticed s := State.noticed_of_ports rfl

theorem State.noticed_trans {s t u : State} (h1 : s.noticed t) (h2 : t.noticed u) : s.noticed u := by
  intro p
  obtain ⟨m1, l1, e1⟩ := h1 p
  obtain ⟨m2, l2, e2⟩ := h2 p
  exact ⟨m1 ++ m2, l1 || l2, by simp [e2, e1, Bool.or_assoc]⟩

/-- A change that keeps the ports places no notice. -/
theorem State.noticed_of_keeps {s t : State} {l : List Part} (h : s.keepsAllBut t l) (hp : Part.ports ∉ l) :
    s.noticed t := State.noticed_of_ports (h .ports hp)

theorem State.notify_noticed (s : State) (b : NoticeBody) : s.noticed (s.notify b) := by
  intro p
  rw [State.port_notify]
  split
  · unfold PortRecord.place
    split
    · exact ⟨[⟨s.timeBase, b⟩], false, by simp⟩
    · exact ⟨[], true, by simp⟩
  · exact ⟨[], false, by simp⟩

theorem State.eachGroup_noticed {f : State → Group → State} (h : ∀ (s : State) (g : Group), s.noticed (f s g))
    (s : State) : s.noticed (s.eachGroup f) := by
  have fold : ∀ (gs : List Group) (t : State), t.noticed (gs.foldl f t) := by
    intro gs
    induction gs with
    | nil => exact State.noticed_refl
    | cons g gs ih => exact fun t => State.noticed_trans (h t g) (ih (f t g))
  exact fold allGroups s

theorem State.noticed.role {s t : State} (h : s.noticed t) (p : Port) : t.role p = s.role p := by
  obtain ⟨m, l, e⟩ := h p
  simp [State.role, e]

/-- A notice just placed is heard (R183). -/
theorem State.hears_notify (s : State) (b : NoticeBody) : s.hears (s.notify b) b := by
  intro p hp
  rw [State.port_notify, if_pos hp]
  unfold PortRecord.place
  split
  · exact .inl (by simp)
  · exact .inr rfl

/-- A notice that has been heard still is after further ones. -/
theorem State.hears.later {s t u : State} {b : NoticeBody} (h : s.hears t b) (h2 : t.noticed u) : s.hears u b := by
  intro p hp
  obtain ⟨m, l, e⟩ := h2 p
  rcases h p hp with h | h
  · exact .inl (by rw [e]; exact List.mem_append_left _ h)
  · exact .inr (by simp [e, h])

/-- A notice heard after a part of a command is heard after the command: the time base and the roles are those of its
start. -/
theorem State.hears.since {r s t : State} {b : NoticeBody} (h : s.hears t b) (htime : s.timeBase = r.timeBase)
    (hrole : ∀ p : Port, s.role p = r.role p) : r.hears t b := by
  intro p hp
  rw [← htime]
  exact h p (by rw [hrole]; exact hp)

end Sys2Proof.Machine
end

