-- ==== Sys2Proof/Proofs/Groups.lean ====
section
/-! What the shared operations make of each group's record and of its inputs and cooling: one equation for the group that the
operation names and one for the others. -/

namespace Sys2Proof.Machine

/-! ### A step for each group -/

theorem mem_allGroups (g : Group) : g ∈ allGroups := by revert g; decide

/-- What the steps of the other groups keep holds when the step of `h` comes (`E`), and what that step brings stands at the end
when the steps of the other groups keep it (`F`). -/
theorem State.eachGroup_at {f : State → Group → State} {h : Group} (E F : State → Prop)
    (hE : ∀ (t : State) (g : Group), g ≠ h → E t → E (f t g)) (hF : ∀ (t : State) (g : Group), g ≠ h → F t → F (f t g))
    (hstep : ∀ t : State, E t → F (f t h)) {s : State} (hs : E s) : F (s.eachGroup f) := by
  have fold : ∀ (Q : State → Prop), (∀ (t : State) (g : Group), g ≠ h → Q t → Q (f t g)) →
      ∀ (gs : List Group) (t : State), h ∉ gs → Q t → Q (gs.foldl f t) := by
    intro Q hQ gs
    induction gs with
    | nil => exact fun t _ ht => ht
    | cons g gs ih =>
      intro t hm ht
      obtain ⟨hg, hgs⟩ := not_or.mp (mt List.mem_cons.mpr hm)
      exact ih _ hgs (hQ t g (Ne.symm hg) ht)
  obtain ⟨pre, post, hsplit⟩ := List.append_of_mem (mem_allGroups h)
  have hnd : allGroups.Nodup := by decide
  rw [hsplit, List.nodup_append, List.nodup_cons] at hnd
  obtain ⟨_, ⟨hpost, _⟩, hdisj⟩ := hnd
  have hpre : h ∉ pre := fun hm => hdisj h hm h (List.mem_cons_self ..) rfl
  unfold State.eachGroup
  rw [hsplit, List.foldl_append, List.foldl_cons]
  exact fold F hF post _ hpost (hstep _ (fold E hE pre s hpre hs))

/-- A step that reads and writes its own group alone, taken for each group, makes of each what it makes of one. `E` is what
the steps keep and read besides. -/
theorem State.eachGroup_each {β : Type} {f : State → Group → State} (view : State → Group → β) (φ : Group → β → β)
    (E : State → Prop) (keep : ∀ (t : State) (g : Group), E t → E (f t g))
    (self : ∀ (t : State) (g : Group), E t → view (f t g) g = φ g (view t g))
    (other : ∀ (t : State) (g h : Group), h ≠ g → E t → view (f t g) h = view t h)
    {s : State} (hs : E s) (h : Group) : view (s.eachGroup f) h = φ h (view s h) :=
  (State.eachGroup_at (fun t => E t ∧ view t h = view s h) (fun t => E t ∧ view t h = φ h (view s h))
    (fun t g hne ht => ⟨keep t g ht.1, (other t g h (Ne.symm hne) ht.1).trans ht.2⟩)
    (fun t g hne ht => ⟨keep t g ht.1, (other t g h (Ne.symm hne) ht.1).trans ht.2⟩)
    (fun t ht => ⟨keep t h ht.1, (self t h ht.1).trans (by rw [ht.2])⟩) ⟨hs, rfl⟩).2

/-- What each step keeps, a step for each group keeps. -/
theorem State.eachGroup_kept {f : State → Group → State} (E : State → Prop)
    (keep : ∀ (t : State) (g : Group), E t → E (f t g)) {s : State} (hs : E s) : E (s.eachGroup f) := by
  have fold : ∀ (gs : List Group) (t : State), E t → E (gs.foldl f t) := by
    intro gs
    induction gs with
    | nil => exact fun t ht => ht
    | cons g gs ih => exact fun t ht => ih _ (keep t g ht)
  exact fold allGroups s hs

/-! ### Writing one record -/

theorem State.group_modGroup (s : State) (g h : Group) (f : GroupRecord → GroupRecord) :
    (s.modGroup g f).group h = if h = g then f (s.group h) else s.group h := by
  by_cases hh : h = g
  · subst hh; simp
  · simp [hh, State.group_modGroup_ne]

theorem State.cool_modCool (s : State) (g h : Group) (f : GroupCooling → GroupCooling) :
    (s.modCool g f).cool h = if h = g then f (s.cool h) else s.cool h := by
  by_cases hh : h = g
  · subst hh; simp
  · simp [hh, State.cool_modCool_ne]

@[simp] theorem State.group_modCool (s : State) (g h : Group) (f : GroupCooling → GroupCooling) :
    (s.modCool g f).group h = s.group h := rfl
@[simp] theorem State.cool_modGroup (s : State) (g h : Group) (f : GroupRecord → GroupRecord) :
    (s.modGroup g f).cool h = s.cool h := rfl
@[simp] theorem State.group_notify (s : State) (b : NoticeBody) (h : Group) : (s.notify b).group h = s.group h := rfl
@[simp] theorem State.cool_notify (s : State) (b : NoticeBody) (h : Group) : (s.notify b).cool h = s.cool h := rfl
@[simp] theorem State.inSet_notify (s : State) (b : NoticeBody) (h : Group) : (s.notify b).inSet h = s.inSet h := rfl
@[simp] theorem State.groupConfig_notify (s : State) (b : NoticeBody) (h : Group) :
    (s.notify b).groupConfig h = s.groupConfig h := rfl
@[simp] theorem State.cool_recool (s : State) (g : Group) :
    (s.recool g).cool g =
      { s.cool g with ceiling := coolingCeiling (s.groupConfig g) (s.cool g).percent (s.cool g).pumpLoss } := by
  simp [State.recool]

/-- A group's place in the allocation set is a function of its record and of whether the line runs (R44, R68). -/
theorem State.inSet_eq (s : State) (g : Group) :
    s.inSet g = (s.running && (s.group g).service.member && !(s.group g).awaiting) := rfl

/-- Whether the line runs is read off the line alone. -/
theorem State.running_of_line {s t : State} (h : t.line.state = s.line.state) : t.running = s.running := by
  simp only [State.running, h]

theorem State.inSet_congr {s t : State} {g : Group} (hline : t.line.state = s.line.state)
    (hservice : (t.group g).service = (s.group g).service) (hawait : (t.group g).awaiting = (s.group g).awaiting) :
    t.inSet g = s.inSet g := by
  rw [State.inSet_eq, State.inSet_eq, State.running_of_line hline, hservice, hawait]

/-- The parts read one by one out of a frame. -/
theorem State.keepsAllBut.group {s t : State} {l : List Part} (h : s.keepsAllBut t l) (hl : Part.groups ∉ l) (g : Group) :
    t.group g = s.group g := congrArg (Eight.get · g) (h .groups hl)

theorem State.keepsAllBut.cool {s t : State} {l : List Part} (h : s.keepsAllBut t l) (hl : Part.cooling ∉ l) (g : Group) :
    t.cool g = s.cool g := congrArg (Eight.get · g) (h .cooling hl)

theorem State.keepsAllBut.groupConfig {s t : State} {l : List Part} (h : s.keepsAllBut t l) (hl : Part.config ∉ l)
    (g : Group) : t.groupConfig g = s.groupConfig g := congrArg (fun c : Configuration => c.groups.get g) (h .config hl)

theorem State.keepsAllBut.inSet {s t : State} {l : List Part} (h : s.keepsAllBut t l) (hl : Part.groups ∉ l)
    (hl' : Part.line ∉ l) (g : Group) : t.inSet g = s.inSet g :=
  State.inSet_congr (congrArg Line.state (h .line hl')) (by rw [h.group hl]) (by rw [h.group hl])

/-! ### Membership of the allocation set (R68, R69) -/

/-- What a change of membership from `before` to `after` makes of a group's inputs and cooling (R68, R69). -/
def GroupCooling.crossing (c : GroupCooling) (gc : GroupConfig) (now : Nat) (before after : Bool) : GroupCooling :=
  match before, after with
  | false, true => c.entering gc now
  | true, false => c.leaving gc
  | false, false => c
  | true, true => c

/-- What it makes of the group's record: leaving the set stops the tracking timer (R21). -/
def GroupRecord.crossing (r : GroupRecord) (before after : Bool) : GroupRecord :=
  if before = true ∧ after = false then { r with trackingTimer := none } else r

@[simp] theorem GroupCooling.crossing_same (c : GroupCooling) (gc : GroupConfig) (now : Nat) (b : Bool) :
    c.crossing gc now b b = c := by cases b <;> rfl

@[simp] theorem GroupRecord.crossing_same (r : GroupRecord) (b : Bool) : r.crossing b b = r := by cases b <;> rfl

@[simp] theorem GroupRecord.crossing_service (r : GroupRecord) (b a : Bool) : (r.crossing b a).service = r.service := by
  unfold GroupRecord.crossing; split <;> rfl

@[simp] theorem GroupRecord.crossing_awaiting (r : GroupRecord) (b a : Bool) : (r.crossing b a).awaiting = r.awaiting := by
  unfold GroupRecord.crossing; split <;> rfl

theorem State.enterSet_group (s : State) (g h : Group) : (s.enterSet g).group h = s.group h := by
  unfold State.enterSet; simp only; split <;> rfl

theorem State.enterSet_cool_self (s : State) (g : Group) :
    (s.enterSet g).cool g = (s.cool g).entering (s.groupConfig g) s.timeBase := by
  unfold State.enterSet GroupCooling.entering
  simp only
  split
  · simp [State.startGrace]; rfl
  · rfl

theorem State.enterSet_cool_ne (s : State) {g h : Group} (hne : h ≠ g) : (s.enterSet g).cool h = s.cool h := by
  unfold State.enterSet
  simp only
  split
  · simp [State.startGrace, State.recool, State.cool_modCool_ne _ hne]
  · rfl

theorem State.leaveSet_eq (s : State) (g : Group) :
    s.leaveSet g =
      if (s.cool g).pumpLoss = .grace then
        ((s.modGroup g fun r => { r with trackingTimer := none }).modCool g fun c =>
          { c with pumpLoss := .none, graceTimer := none }).recool g
      else s.modGroup g fun r => { r with trackingTimer := none } := rfl

theorem State.leaveSet_group (s : State) (g h : Group) :
    (s.leaveSet g).group h = if h = g then { s.group h with trackingTimer := none } else s.group h := by
  rw [← State.group_modGroup s g h fun r => { r with trackingTimer := none }, State.leaveSet_eq]
  split <;> rfl

theorem State.leaveSet_cool_self (s : State) (g : Group) :
    (s.leaveSet g).cool g = (s.cool g).leaving (s.groupConfig g) := by
  rw [State.leaveSet_eq, GroupCooling.leaving]
  split
  · simp; rfl
  · rfl

theorem State.leaveSet_cool_ne (s : State) {g h : Group} (hne : h ≠ g) : (s.leaveSet g).cool h = s.cool h := by
  rw [State.leaveSet_eq]
  split
  · simp [State.recool, State.cool_modCool_ne _ hne]
  · rfl

theorem State.membership_group (b : Bool) (s : State) (g h : Group) :
    (State.membership b s g).group h = if h = g then (s.group h).crossing b (s.inSet g) else s.group h := by
  unfold State.membership GroupRecord.crossing
  cases b <;> cases hset : s.inSet g <;> simp [State.enterSet_group, State.leaveSet_group]

theorem State.membership_cool_self (b : Bool) (s : State) (g : Group) :
    (State.membership b s g).cool g = (s.cool g).crossing (s.groupConfig g) s.timeBase b (s.inSet g) := by
  unfold State.membership GroupCooling.crossing
  cases b <;> cases hset : s.inSet g <;> simp [State.enterSet_cool_self, State.leaveSet_cool_self]

theorem State.membership_cool_ne (b : Bool) (s : State) {g h : Group} (hne : h ≠ g) :
    (State.membership b s g).cool h = s.cool h := by
  unfold State.membership
  cases b <;> cases hset : s.inSet g <;> simp [State.enterSet_cool_ne _ hne, State.leaveSet_cool_ne _ hne]

theorem State.membership_inSet (b : Bool) (s : State) (g h : Group) : (State.membership b s g).inSet h = s.inSet h := by
  refine State.inSet_congr (congrArg Line.state (State.membership_keeps b s g .line (by decide))) ?_ ?_ <;>
    rw [State.membership_group] <;> split <;> simp

theorem State.enterSet_noticed (s : State) (g : Group) : s.noticed (s.enterSet g) := by
  unfold State.enterSet
  simp only
  split
  · exact State.noticed_trans (State.noticed_of_ports rfl) (State.notify_noticed _ _)
  · exact s.noticed_refl

theorem State.leaveSet_noticed (s : State) (g : Group) : s.noticed (s.leaveSet g) := by
  unfold State.leaveSet
  simp only
  split <;> exact State.noticed_of_ports rfl

theorem State.membership_noticed (b : Bool) (s : State) (g : Group) : s.noticed (State.membership b s g) := by
  unfold State.membership
  split
  · exact s.enterSet_noticed g
  · exact s.leaveSet_noticed g
  · exact s.noticed_refl
  · exact s.noticed_refl

/-- A start of GRACE places its WARNING (R68). -/
theorem State.enterSet_hears (s : State) (g : Group) (h0 : (s.cool g).pumpLoss = .none)
    (h1 : ((s.enterSet g).cool g).pumpLoss = .grace) :
    s.hears (s.enterSet g) (.warningPumpLoss g (s.groupConfig g).graceTime) := by
  unfold State.enterSet at h1 ⊢
  simp only at h1 ⊢
  split at h1
  · rw [if_pos ‹_›]
    exact (State.hears_notify _ _).since rfl fun _ => rfl
  · rw [h0] at h1; cases h1

theorem State.membership_hears (b : Bool) (s : State) (g : Group) (h0 : (s.cool g).pumpLoss = .none)
    (h1 : ((State.membership b s g).cool g).pumpLoss = .grace) :
    s.hears (State.membership b s g) (.warningPumpLoss g (s.groupConfig g).graceTime) := by
  cases hb : b <;> cases hset : s.inSet g <;> simp only [State.membership, hb, hset] at h1 ⊢
  · simp [h0] at h1
  · exact s.enterSet_hears g h0 h1
  · rw [State.leaveSet_cool_self, GroupCooling.leaving] at h1
    simp [h0] at h1
  · simp [h0] at h1

/-- A start of GRACE in the step of a group is heard after the steps of all. -/
theorem State.eachGroup_hearsGrace {f : State → Group → State} {l : List Part}
    (hkeeps : ∀ (t : State) (g : Group), t.keepsAllBut (f t g) l) (hl : Part.timeBase ∉ l ∧ Part.config ∉ l)
    (hnotice : ∀ (t : State) (g : Group), t.noticed (f t g))
    (hother : ∀ (t : State) (g h : Group), h ≠ g → (f t g).cool h = t.cool h)
    (hself : ∀ (t : State) (g : Group), (t.cool g).pumpLoss = .none → ((f t g).cool g).pumpLoss = .grace →
      t.hears (f t g) (.warningPumpLoss g (t.groupConfig g).graceTime))
    (s : State) (h : Group) (h0 : (s.cool h).pumpLoss = .none) (h1 : ((s.eachGroup f).cool h).pumpLoss = .grace) :
    s.hears (s.eachGroup f) (.warningPumpLoss h (s.groupConfig h).graceTime) :=
  State.eachGroup_at (h := h) (fun t => s.noticed t ∧ s.keepsAllBut t l ∧ t.cool h = s.cool h)
    (fun t => (t.cool h).pumpLoss = .grace → s.hears t (.warningPumpLoss h (s.groupConfig h).graceTime))
    (fun t g hne ht => ⟨State.noticed_trans ht.1 (hnotice t g), State.keepsAllBut_trans ht.2.1 (hkeeps t g),
      (hother t g h (Ne.symm hne)).trans ht.2.2⟩)
    (fun t g hne ht h2 => (ht (by rwa [hother t g h (Ne.symm hne)] at h2)).later (hnotice t g))
    (fun t ht h2 => by
      have hear := hself t h (by rw [ht.2.2]; exact h0) h2
      rw [ht.2.1.groupConfig hl.2] at hear
      exact hear.since (ht.2.1 .timeBase hl.1) ht.1.role)
    ⟨s.noticed_refl, s.keepsAllBut_refl _, rfl⟩ h1

/-! ### Service states (R9, R19) -/

/-- A group's record after a change of its service state, membership aside (R9, R11, R19). -/
def GroupRecord.serve (r : GroupRecord) (now : Nat) (new : ServiceState) : GroupRecord :=
  { r with
    service := new, linkTimer := linkTimerAfter now r.service new r.linkTimer
    awaiting := awaitingAfter r.service new r.awaiting }

/-- The group's place in the allocation set after a change of its service state. -/
theorem State.setService_inSet_self (s : State) (g : Group) (new : ServiceState) (c : GroupCause) :
    (s.setService g new c).inSet g =
      (s.running && new.member && !(awaitingAfter (s.group g).service new (s.group g).awaiting)) := by
  unfold State.setService
  simp only
  rw [State.membership_inSet]
  simp [State.inSet_eq]
  rfl

theorem State.setService_group_self (s : State) (g : Group) (new : ServiceState) (c : GroupCause) :
    (s.setService g new c).group g =
      ((s.group g).serve s.timeBase new).crossing (s.inSet g) ((s.setService g new c).inSet g) := by
  rw [State.setService_inSet_self]
  unfold State.setService
  simp only
  rw [State.membership_group, if_pos rfl]
  simp [State.inSet_eq, GroupRecord.serve]
  rfl

theorem State.setService_group_ne (s : State) {g h : Group} (hne : h ≠ g) (new : ServiceState) (c : GroupCause) :
    (s.setService g new c).group h = s.group h := by
  unfold State.setService
  simp only
  rw [State.membership_group, if_neg hne, State.group_notify, State.group_modGroup_ne _ hne]

theorem State.setService_cool_self (s : State) (g : Group) (new : ServiceState) (c : GroupCause) :
    (s.setService g new c).cool g =
      (s.cool g).crossing (s.groupConfig g) s.timeBase (s.inSet g) ((s.setService g new c).inSet g) := by
  unfold State.setService
  simp only
  rw [State.membership_cool_self, State.membership_inSet]
  rfl

theorem State.setService_cool_ne (s : State) {g h : Group} (hne : h ≠ g) (new : ServiceState) (c : GroupCause) :
    (s.setService g new c).cool h = s.cool h := by
  unfold State.setService
  simp only
  rw [State.membership_cool_ne _ _ hne]
  rfl

@[simp] theorem State.setService_service_self (s : State) (g : Group) (new : ServiceState) (c : GroupCause) :
    ((s.setService g new c).group g).service = new := by
  rw [State.setService_group_self, GroupRecord.crossing_service]; rfl

theorem State.setService_line (s : State) (g : Group) (new : ServiceState) (c : GroupCause) :
    (s.setService g new c).line = s.line := s.setService_keeps g new c .line (by decide)

theorem State.setService_inSet_ne (s : State) {g h : Group} (hne : h ≠ g) (new : ServiceState) (c : GroupCause) :
    (s.setService g new c).inSet h = s.inSet h :=
  State.inSet_congr (congrArg Line.state (s.setService_line g new c)) (by rw [State.setService_group_ne _ hne])
    (by rw [State.setService_group_ne _ hne])

theorem State.setService_noticed (s : State) (g : Group) (new : ServiceState) (c : GroupCause) :
    s.noticed (s.setService g new c) := by
  unfold State.setService
  exact State.noticed_trans (State.noticed_trans (State.noticed_of_ports rfl) (State.notify_noticed _ _))
    (State.membership_noticed _ _ _)

/-- A change of service state places its GROUP_STATE notice (R9). -/
theorem State.setService_hears (s : State) (g : Group) (new : ServiceState) (c : GroupCause) :
    s.hears (s.setService g new c) (.groupState g new (s.group g).service c) := by
  unfold State.setService
  exact ((State.hears_notify _ _).later (State.membership_noticed _ _ _)).since rfl fun _ => rfl

/-! ### Order frames (R17) -/

theorem State.sendOrder_group (s : State) (g h : Group) (o : Nat) (b : Bool) :
    (s.sendOrder g o b).group h =
      if h = g then
        { s.group h with lastOrder := o, blockFlag := b, sequence := ((s.group h).sequence + 1) % 256 }
      else s.group h := by
  by_cases hh : h = g
  · subst hh
    simp [State.sendOrder, State.group]
  · simp [State.sendOrder, State.group, hh, Eight.get_set_ne _ hh]

theorem State.sendOrder_keeps (s : State) (g : Group) (o : Nat) (b : Bool) :
    s.keepsAllBut (s.sendOrder g o b) [.groups, .out] := by
  intro p hp
  cases p <;> first | rfl | exact absurd (by simp) hp

/-- The order frames of the eight groups sent one after the other: each group's record, and the frames in the order of the
groups (R17). -/
theorem State.sendAll_group (s : State) (order : Group → Nat) (block : Group → Bool) (h : Group) :
    (s.eachGroup fun t g => t.sendOrder g (order g) (block g)).group h =
      { s.group h with lastOrder := order h, blockFlag := block h, sequence := ((s.group h).sequence + 1) % 256 } :=
  State.eachGroup_each (f := fun t g => t.sendOrder g (order g) (block g)) State.group
    (fun g r => { r with lastOrder := order g, blockFlag := block g, sequence := (r.sequence + 1) % 256 })
    (fun _ => True) (fun _ _ _ => trivial) (fun t g _ => by simp [State.sendOrder_group])
    (fun t g h hne _ => by simp [State.sendOrder_group, hne]) trivial h

theorem State.sendAll_out (s : State) (order : Group → Nat) (block : Group → Bool) :
    (s.eachGroup fun t g => t.sendOrder g (order g) (block g)).out =
      s.out ++ allGroups.map fun g => Sent.order g (order g) (block g) (((s.group g).sequence + 1) % 256) := by
  have fold : ∀ (gs : List Group) (t : State), gs.Nodup →
      (gs.foldl (fun t g => t.sendOrder g (order g) (block g)) t).out =
        t.out ++ gs.map fun g => Sent.order g (order g) (block g) (((t.group g).sequence + 1) % 256) := by
    intro gs
    induction gs with
    | nil => intro t _; simp
    | cons g gs ih =>
      intro t hnd
      obtain ⟨hg, hgs⟩ := List.nodup_cons.mp hnd
      have hseq : ∀ x ∈ gs, (t.sendOrder g (order g) (block g)).group x = t.group x := by
        intro x hx
        rw [State.sendOrder_group, if_neg (fun e => hg (by rw [← e]; exact hx))]
      rw [List.foldl_cons, ih _ hgs, List.map_congr_left fun x hx => by rw [hseq x hx]]
      simp [State.sendOrder]
  exact fold allGroups s (by decide)

theorem State.sendAll_keeps (s : State) (order : Group → Nat) (block : Group → Bool) :
    s.keepsAllBut (s.eachGroup fun t g => t.sendOrder g (order g) (block g)) [.groups, .out] :=
  State.eachGroup_keeps (fun t g => t.sendOrder_keeps g (order g) (block g)) s

end Sys2Proof.Machine
end

