-- ==== Sys2Proof/Proofs/LineState.lean ====
section
/-! What a change of the line state and the entry to a blocked state make of the line, the groups, the cooling and the fault
entries (R1, R4, R6, R164). -/

namespace Sys2Proof.Machine

/-! ### The fault table changed entry by entry (R164) -/

theorem mem_allFaultIds (id : FaultId) : id ∈ allFaultIds := by
  match id with
  | .group k g => revert g; cases k <;> decide
  | .line k => cases k <;> decide

theorem FaultTable.get_map (f : Entry → Entry) (t : FaultTable) (id : FaultId) : (t.map f).get id = f (t.get id) := by
  have fold : ∀ (ids : List FaultId) (t : FaultTable), ids.Nodup →
      (ids.foldl (fun t id => t.set id (f (t.get id))) t).get id = if id ∈ ids then f (t.get id) else t.get id := by
    intro ids
    induction ids with
    | nil => intro t _; simp
    | cons i ids ih =>
      intro t hnd
      obtain ⟨hi, hids⟩ := List.nodup_cons.mp hnd
      rw [List.foldl_cons, ih _ hids]
      by_cases h : id = i
      · subst h
        simp [hi]
      · simp [h, FaultTable.get_set_ne _ h]
  have := fold allFaultIds t (by decide)
  rwa [if_pos (mem_allFaultIds id)] at this

/-- The entries in the order of R168 are those that the 55 names give. -/
theorem FaultTable.mem_entries (t : FaultTable) (e : Entry) : e ∈ t.entries ↔ ∃ id : FaultId, t.get id = e := by
  have eight : ∀ a : Eight Entry, e ∈ a.toList ↔ ∃ g : Group, a.get g = e := by
    intro a
    simp only [Eight.toList, List.mem_cons, List.not_mem_nil, or_false]
    constructor
    · rintro (h | h | h | h | h | h | h | h)
      exacts [⟨0, h.symm⟩, ⟨1, h.symm⟩, ⟨2, h.symm⟩, ⟨3, h.symm⟩, ⟨4, h.symm⟩, ⟨5, h.symm⟩, ⟨6, h.symm⟩, ⟨7, h.symm⟩]
    · rintro ⟨g, h⟩
      fin_cases g <;> simp_all [Eight.get]
  simp only [FaultTable.entries, List.mem_append, eight, List.mem_cons, List.not_mem_nil, or_false]
  constructor
  · rintro ((((((⟨g, h⟩ | ⟨g, h⟩) | ⟨g, h⟩) | ⟨g, h⟩) | ⟨g, h⟩) | ⟨g, h⟩) | h)
    · exact ⟨.group .linkLost g, h⟩
    · exact ⟨.group .protection g, h⟩
    · exact ⟨.group .overtemp g, h⟩
    · exact ⟨.group .mismatch g, h⟩
    · exact ⟨.group .coolingLost g, h⟩
    · exact ⟨.group .tracking g, h⟩
    · rcases h with h | h | h | h | h | h | h
      exacts [⟨.line .capacityShort, h.symm⟩, ⟨.line .headroomLow, h.symm⟩, ⟨.line .aeStorm, h.symm⟩,
        ⟨.line .aeUnquenched, h.symm⟩, ⟨.line .scanStale, h.symm⟩, ⟨.line .demandExceeded, h.symm⟩,
        ⟨.line .curtailMissed, h.symm⟩]
  · rintro ⟨id, h⟩
    match id with
    | .group k g => cases k <;> simp only [FaultTable.get] at h <;> simp [← h]
    | .line k => cases k <;> simp only [FaultTable.get] at h <;> simp [← h]

/-- What stands in an entry besides its reduce value. -/
def Entry.sameButReduce (e f : Entry) : Prop := f = { e with reduceValue := f.reduceValue }

theorem Entry.sameButReduce_refl (e : Entry) : e.sameButReduce e := rfl

theorem Entry.sameButReduce_trans {e f d : Entry} (h1 : e.sameButReduce f) (h2 : f.sameButReduce d) :
    e.sameButReduce d := by
  unfold Entry.sameButReduce at *
  rw [h2, h1]

theorem Entry.settle_sameButReduce (i : Nat) (e : Entry) : e.sameButReduce (Entry.settle i e) := by
  unfold Entry.settle
  split <;> rfl

/-- The writing of the FAULT slot leaves the fault entries. -/
theorem State.writeFaultClaim_entry (s : State) (id : FaultId) : s.writeFaultClaim.entry id = s.entry id :=
  congrArg (fun u : FaultUnit => u.table.get id) (s.writeFaultClaim_keeps .faults (by decide))

theorem State.settlePending_entry (s : State) (id : FaultId) : (s.entry id).sameButReduce (s.settlePending.entry id) := by
  unfold State.settlePending
  split
  · rw [State.writeFaultClaim_entry]
    simp only [State.entry, FaultTable.get_map]
    exact Entry.settle_sameButReduce _ _
  · exact Entry.sameButReduce_refl _

/-! ### A change of the line state (R1) -/

/-- The middle of a change of the line state: the state written and its notice placed. -/
def State.withLineState (s : State) (new : LineState) (cause : LineCause) : State :=
  ({ s with line := { s.line with state := some new } }).notify (.lineState new s.line.state cause)

theorem State.withLineState_noticed (s : State) (new : LineState) (c : LineCause) : s.noticed (s.withLineState new c) :=
  State.noticed_trans (t := { s with line := { s.line with state := some new } }) (State.noticed_of_ports rfl)
    (State.notify_noticed _ _)

theorem State.withLineState_hears (s : State) (new : LineState) (c : LineCause) :
    s.hears (s.withLineState new c) (.lineState new s.line.state c) :=
  State.hears.since (State.hears_notify { s with line := { s.line with state := some new } } _) rfl fun _ => rfl

/-- The memberships that a change of the line state brings about. -/
def State.crossAll (s : State) (before : Eight Bool) : State :=
  s.eachGroup fun t g => State.membership (before.get g) t g

theorem State.setLineState_eq (s : State) (new : LineState) (cause : LineCause) :
    s.setLineState new cause =
      if new.regulates then ((s.withLineState new cause).crossAll (Eight.ofFn s.inSet)).settlePending
      else (s.withLineState new cause).crossAll (Eight.ofFn s.inSet) := rfl

theorem State.crossAll_keeps (s : State) (before : Eight Bool) : s.keepsAllBut (s.crossAll before) groupParts :=
  State.eachGroup_keeps (fun t g => State.membership_keeps _ t g) s

theorem State.crossAll_noticed (s : State) (before : Eight Bool) : s.noticed (s.crossAll before) :=
  State.eachGroup_noticed (fun t g => State.membership_noticed _ t g) s

theorem State.crossAll_group (s : State) (before : Eight Bool) (h : Group) :
    (s.crossAll before).group h = (s.group h).crossing (before.get h) (s.inSet h) :=
  State.eachGroup_each (f := fun t g => State.membership (before.get g) t g) State.group
    (fun g r => r.crossing (before.get g) (s.inSet g)) (fun t => ∀ g : Group, t.inSet g = s.inSet g)
    (fun t g ht x => by rw [State.membership_inSet, ht])
    (fun t g ht => by rw [State.membership_group, if_pos rfl, ht])
    (fun t g x hne _ => by rw [State.membership_group, if_neg hne]) (fun _ => rfl) h

theorem State.crossAll_inSet (s : State) (before : Eight Bool) (h : Group) : (s.crossAll before).inSet h = s.inSet h :=
  State.inSet_congr (congrArg Line.state (s.crossAll_keeps before .line (by decide)))
    (by rw [State.crossAll_group]; simp) (by rw [State.crossAll_group]; simp)

theorem State.crossAll_cool (s : State) (before : Eight Bool) (h : Group) :
    (s.crossAll before).cool h =
      (s.cool h).crossing (s.groupConfig h) s.timeBase (before.get h) (s.inSet h) :=
  State.eachGroup_each (f := fun t g => State.membership (before.get g) t g) State.cool
    (fun g c => c.crossing (s.groupConfig g) s.timeBase (before.get g) (s.inSet g))
    (fun t => (∀ g : Group, t.inSet g = s.inSet g) ∧ t.config = s.config ∧ t.timeBase = s.timeBase)
    (fun t g ht => ⟨fun x => by rw [State.membership_inSet, ht.1 x],
      (State.membership_keeps _ t g .config (by decide)).trans ht.2.1,
      (State.membership_keeps _ t g .timeBase (by decide)).trans ht.2.2⟩)
    (fun t g ht => by
      rw [State.membership_cool_self, ht.1 g, ht.2.2]
      simp only [State.groupConfig, ht.2.1])
    (fun t g x hne _ => State.membership_cool_ne _ t hne) ⟨fun _ => rfl, rfl, rfl⟩ h

/-- The start of GRACE of a group that enters the set is heard after the memberships of all. -/
theorem State.crossAll_hears (s : State) (before : Eight Bool) (h : Group) (h0 : (s.cool h).pumpLoss = .none)
    (h1 : ((s.crossAll before).cool h).pumpLoss = .grace) :
    s.hears (s.crossAll before) (.warningPumpLoss h (s.groupConfig h).graceTime) :=
  State.eachGroup_hearsGrace (l := groupParts) (fun t g => State.membership_keeps _ t g) (by decide)
    (fun t g => State.membership_noticed _ t g) (fun t g x hne => State.membership_cool_ne _ t hne)
    (fun t g => State.membership_hears _ t g) s h h0 h1

/-- The place of a group in the set after a change of the line state. -/
theorem State.setLineState_inSet (s : State) (new : LineState) (c : LineCause) (h : Group) :
    (s.setLineState new c).inSet h = (new.running && (s.group h).service.member && !(s.group h).awaiting) := by
  have h2 : ((s.withLineState new c).crossAll (Eight.ofFn s.inSet)).inSet h =
      (new.running && (s.group h).service.member && !(s.group h).awaiting) := by
    rw [State.crossAll_inSet]; rfl
  rw [State.setLineState_eq]
  split
  · rw [(State.settlePending_keeps _).inSet (by decide) (by decide), h2]
  · exact h2

theorem State.setLineState_group (s : State) (new : LineState) (c : LineCause) (h : Group) :
    (s.setLineState new c).group h = (s.group h).crossing (s.inSet h) ((s.setLineState new c).inSet h) := by
  rw [State.setLineState_inSet, State.setLineState_eq]
  have h2 : ((s.withLineState new c).crossAll (Eight.ofFn s.inSet)).group h =
      (s.group h).crossing (s.inSet h) (new.running && (s.group h).service.member && !(s.group h).awaiting) := by
    rw [State.crossAll_group, Eight.get_ofFn]; rfl
  split
  · rw [(State.settlePending_keeps _).group (by decide), h2]
  · exact h2

theorem State.setLineState_cool (s : State) (new : LineState) (c : LineCause) (h : Group) :
    (s.setLineState new c).cool h =
      (s.cool h).crossing (s.groupConfig h) s.timeBase (s.inSet h) ((s.setLineState new c).inSet h) := by
  rw [State.setLineState_inSet, State.setLineState_eq]
  have h2 : ((s.withLineState new c).crossAll (Eight.ofFn s.inSet)).cool h =
      (s.cool h).crossing (s.groupConfig h) s.timeBase (s.inSet h)
        (new.running && (s.group h).service.member && !(s.group h).awaiting) := by
    rw [State.crossAll_cool, Eight.get_ofFn]; rfl
  split
  · rw [(State.settlePending_keeps _).cool (by decide), h2]
  · exact h2

theorem State.setLineState_line (s : State) (new : LineState) (c : LineCause) :
    (s.setLineState new c).line = { s.line with state := some new } := by
  have h2 : ((s.withLineState new c).crossAll (Eight.ofFn s.inSet)).line = { s.line with state := some new } :=
    State.crossAll_keeps (s.withLineState new c) (Eight.ofFn s.inSet) .line (by decide)
  rw [State.setLineState_eq]
  split
  · exact (State.settlePending_keeps _ .line (by decide)).trans h2
  · exact h2

theorem State.setLineState_noticed (s : State) (new : LineState) (c : LineCause) : s.noticed (s.setLineState new c) := by
  have h2 : s.noticed ((s.withLineState new c).crossAll (Eight.ofFn s.inSet)) :=
    State.noticed_trans (s.withLineState_noticed new c) (State.crossAll_noticed _ _)
  rw [State.setLineState_eq]
  split
  · exact State.noticed_trans h2 (State.noticed_of_keeps (State.settlePending_keeps _) (by decide))
  · exact h2

/-- A change of the line state places its LINE_STATE notice (R1). -/
theorem State.setLineState_hears (s : State) (new : LineState) (c : LineCause) :
    s.hears (s.setLineState new c) (.lineState new s.line.state c) := by
  have h2 : s.hears ((s.withLineState new c).crossAll (Eight.ofFn s.inSet)) (.lineState new s.line.state c) :=
    (s.withLineState_hears new c).later (State.crossAll_noticed _ _)
  rw [State.setLineState_eq]
  split
  · exact h2.later (State.noticed_of_keeps (State.settlePending_keeps _) (by decide))
  · exact h2

/-- A group that enters GRACE with a change of the line state places its WARNING (R68). -/
theorem State.setLineState_hearsGrace (s : State) (new : LineState) (c : LineCause) (h : Group)
    (h0 : (s.cool h).pumpLoss = .none) (h1 : ((s.setLineState new c).cool h).pumpLoss = .grace) :
    s.hears (s.setLineState new c) (.warningPumpLoss h (s.groupConfig h).graceTime) := by
  have h2 : (((s.withLineState new c).crossAll (Eight.ofFn s.inSet)).cool h).pumpLoss = .grace →
      s.hears ((s.withLineState new c).crossAll (Eight.ofFn s.inSet))
        (.warningPumpLoss h (s.groupConfig h).graceTime) := by
    intro hg
    have hear := (s.withLineState new c).crossAll_hears (Eight.ofFn s.inSet) h h0 hg
    exact hear.since rfl (s.withLineState_noticed new c).role
  rw [State.setLineState_eq] at h1 ⊢
  split at h1
  · rw [(State.settlePending_keeps _).cool (by decide)] at h1
    rw [if_pos ‹_›]
    exact (h2 h1).later (State.noticed_of_keeps (State.settlePending_keeps _) (by decide))
  · rw [if_neg ‹_›]
    exact h2 h1

theorem State.setLineState_entry (s : State) (new : LineState) (c : LineCause) (id : FaultId) :
    (s.entry id).sameButReduce ((s.setLineState new c).entry id) := by
  have h2 : ((s.withLineState new c).crossAll (Eight.ofFn s.inSet)).entry id = s.entry id :=
    congrArg (fun u : FaultUnit => u.table.get id)
      (State.crossAll_keeps (s.withLineState new c) (Eight.ofFn s.inSet) .faults (by decide))
  rw [State.setLineState_eq]
  split
  · rw [← h2]
    exact State.settlePending_entry _ _
  · exact h2 ▸ Entry.sameButReduce_refl _

/-- A change to a state that does not regulate leaves the claims and the fault unit. -/
theorem State.setLineState_keeps_stopped (s : State) {new : LineState} (c : LineCause) (h : new.regulates = false) :
    s.keepsAllBut (s.setLineState new c) [.line, .groups, .cooling, .ports] := by
  rw [State.setLineState_eq, if_neg (by simp [h])]
  refine State.keepsAllBut_trans ?_ (State.keepsAllBut_mono (State.crossAll_keeps _ _) (by simp [groupParts]))
  intro p hp
  cases p <;> first | rfl | exact absurd (by simp) hp

/-- A change between two states that both run, or neither of which runs, leaves the groups and the cooling. -/
theorem State.setLineState_keeps_units (s : State) {new : LineState} (c : LineCause) (h : new.running = s.running) :
    (s.setLineState new c).groups = s.groups ∧ (s.setLineState new c).cooling = s.cooling := by
  have hset : ∀ g : Group, (s.setLineState new c).inSet g = s.inSet g := by
    intro g
    rw [State.setLineState_inSet, h]
    rfl
  constructor
  · refine Eight.ext_get fun g => ?_
    have := s.setLineState_group new c g
    rwa [hset, GroupRecord.crossing_same] at this
  · refine Eight.ext_get fun g => ?_
    have := s.setLineState_cool new c g
    rwa [hset, GroupCooling.crossing_same] at this

end Sys2Proof.Machine
end

