-- ==== Sys2Proof/Proofs/Blocked.lean ====
section
/-! What a departure and the entry to a blocked state make of the state (R1, R6, R7, R46, R160). -/

namespace Sys2Proof.Machine

/-! ### Departures (R160) -/

@[simp] theorem State.entry_notify (s : State) (b : NoticeBody) (id : FaultId) : (s.notify b).entry id = s.entry id := rfl

theorem State.departure_entry_self (s : State) (id : FaultId) :
    (s.departure id).entry id =
      if (s.entry id).state = .active then { s.entry id with state := .latched } else s.entry id := by
  unfold State.departure
  cases h : (s.entry id).state
  · simp
  · simp
  · simp

theorem State.departure_entry_ne (s : State) {i j : FaultId} (hne : j ≠ i) : (s.departure i).entry j = s.entry j := by
  unfold State.departure
  cases h : (s.entry i).state
  · rfl
  · exact s.entry_setEntry_ne hne _
  · rfl

theorem State.departure_noticed (s : State) (id : FaultId) : s.noticed (s.departure id) := by
  unfold State.departure
  split
  · exact State.noticed_trans (State.noticed_of_ports rfl) (State.notify_noticed _ _)
  · exact s.noticed_refl
  · exact s.noticed_refl

theorem State.capacityDeparture_line (s : State) :
    s.capacityDeparture.line = { s.line with capacityShort := false } := by
  unfold State.capacityDeparture
  split
  · exact State.departure_keeps _ _ .line (by decide)
  · next h =>
    have h0 : s.line.capacityShort = false := by simpa using h
    rw [← h0]

theorem State.capacityDeparture_entry_ne (s : State) {id : FaultId} (hne : id ≠ .line .capacityShort) :
    s.capacityDeparture.entry id = s.entry id := by
  unfold State.capacityDeparture
  split
  · exact State.departure_entry_ne _ hne
  · rfl

theorem State.capacityDeparture_noticed (s : State) : s.noticed s.capacityDeparture := by
  unfold State.capacityDeparture
  split
  · exact State.noticed_trans (State.noticed_of_ports rfl) (State.departure_noticed _ _)
  · exact s.noticed_refl

/-! ### The settlement of the groups (R6) -/

/-- A group's record after its settlement at the entry to a blocked state (R6). -/
def GroupRecord.settled (r : GroupRecord) : GroupRecord :=
  match r.service with
  | .joining => { r with service := .inService, joinCeiling := 0, leaveCeiling := 0, awaiting := false }
  | .leaving => { r with service := .out, joinCeiling := 0, leaveCeiling := 0, linkTimer := none, awaiting := false }
  | .out => r
  | .inService => r
  | .removed => r
  | .linkLost => r

theorem State.setService_noticed_after (s : State) (g : Group) (f : GroupRecord → GroupRecord) (new : ServiceState)
    (c : GroupCause) : s.noticed ((s.modGroup g f).setService g new c) :=
  State.noticed_trans (State.noticed_of_ports rfl) (State.setService_noticed _ g new c)

theorem State.settleGroup_noticed (s : State) (g : Group) : s.noticed (s.settleGroup g) := by
  unfold State.settleGroup
  split
  · exact s.setService_noticed_after g _ _ _
  · exact s.setService_noticed_after g _ _ _
  all_goals exact s.noticed_refl

theorem State.settleGroup_group_ne (s : State) {g h : Group} (hne : h ≠ g) : (s.settleGroup g).group h = s.group h := by
  unfold State.settleGroup
  split
  · rw [State.setService_group_ne _ hne, State.group_modGroup_ne _ hne]
  · rw [State.setService_group_ne _ hne, State.group_modGroup_ne _ hne]
  all_goals rfl

theorem State.settleGroup_group_self (s : State) (g : Group) (hrun : s.running = false) :
    (s.settleGroup g).group g = (s.group g).settled := by
  have hset : ∀ (f : GroupRecord → GroupRecord) (n : ServiceState) (c : GroupCause),
      ((s.modGroup g f).setService g n c).group g = (f (s.group g)).serve s.timeBase n := by
    intro f n c
    have h1 : (s.modGroup g f).running = false := hrun
    rw [State.setService_group_self, State.setService_inSet_self, State.inSet_eq, h1]
    simp
  unfold State.settleGroup GroupRecord.settled
  cases h : (s.group g).service <;> simp only [hset] <;>
    simp [GroupRecord.serve, linkTimerAfter, awaitingAfter, ServiceState.member, h]

theorem State.settleGroup_cool (s : State) (g h : Group) (hrun : s.running = false) :
    (s.settleGroup g).cool h = s.cool h := by
  have hset : ∀ (f : GroupRecord → GroupRecord) (n : ServiceState) (c : GroupCause),
      ((s.modGroup g f).setService g n c).cool h = s.cool h := by
    intro f n c
    by_cases hh : h = g
    · subst hh
      have h1 : (s.modGroup h f).running = false := hrun
      rw [State.setService_cool_self, State.setService_inSet_self, State.inSet_eq, h1]
      simp
    · rw [State.setService_cool_ne _ hh]; rfl
  unfold State.settleGroup
  cases h : (s.group g).service <;> simp only [hset]

theorem State.settleGroup_line (s : State) (g : Group) : (s.settleGroup g).line = s.line :=
  s.settleGroup_keeps g .line (by decide)

/-! ### The entry to a blocked state (R1, R6) -/

/-- The blocked-state orders are the order frames of 0 with the block flag (R1). -/
theorem State.sendBlocked_eq (s : State) :
    s.sendBlocked = s.eachGroup fun t g => t.sendOrder g ((fun _ => 0 : Group → Nat) g) ((fun _ => true : Group → Bool) g) :=
  rfl

theorem State.sendBlocked_group (s : State) (h : Group) :
    s.sendBlocked.group h =
      { s.group h with lastOrder := 0, blockFlag := true, sequence := ((s.group h).sequence + 1) % 256 } := by
  rw [State.sendBlocked_eq, State.sendAll_group]

theorem State.sendBlocked_out (s : State) :
    s.sendBlocked.out = s.out ++ allGroups.map fun g => Sent.order g 0 true (((s.group g).sequence + 1) % 256) := by
  rw [State.sendBlocked_eq, State.sendAll_out]

/-- I_cmd and the residual at 0, the first effect of the entry to a blocked state (R1, R51). -/
def State.dropCurrent (s : State) : State := { s with line := { s.line with iCmd := 0, residual := 0 } }

theorem State.enterBlocked_eq (s : State) (new : LineState) (c : LineCause) :
    s.enterBlocked new c =
      ((s.dropCurrent.setLineState new c).eachGroup
        State.settleGroup).sendBlocked := rfl

theorem LineState.running_of_blocked {l : LineState} (h : l.blocked = true) : l.running = false ∧ l.regulates = false := by
  cases l <;> simp_all [LineState.blocked, LineState.running, LineState.regulates]

section Enter

variable {s : State} {new : LineState} {c : LineCause}

/-- The state in which the line has stopped and the groups are not yet settled does not run. -/
theorem State.stopped_running (h : new.blocked = true) :
    (s.dropCurrent.setLineState new c).running = false := by
  simp only [State.running, State.setLineState_line]
  exact (LineState.running_of_blocked h).1

theorem State.enterBlocked_line :
    (s.enterBlocked new c).line = { s.line with state := some new, iCmd := 0, residual := 0 } := by
  rw [State.enterBlocked_eq, State.sendBlocked_keeps _ .line (by decide),
    State.eachGroup_keeps State.settleGroup_keeps _ .line (by decide), State.setLineState_line]
  rfl

/-- The record of a group that has settled and not yet been ordered. -/
theorem State.settleAll_group {t : State} (h : t.running = false) (g : Group) :
    (t.eachGroup State.settleGroup).group g = (t.group g).settled :=
  State.eachGroup_each State.group (fun _ r => r.settled) (fun u => u.running = false)
    (fun u x hu => (State.running_of_line (congrArg Line.state (u.settleGroup_line x))).trans hu)
    (fun u x hu => u.settleGroup_group_self x hu) (fun u _ _ hne _ => u.settleGroup_group_ne hne) h g

theorem State.settleAll_cool {t : State} (h : t.running = false) (g : Group) :
    (t.eachGroup State.settleGroup).cool g = t.cool g :=
  State.eachGroup_each State.cool (fun _ c => c) (fun u => u.running = false)
    (fun u x hu => (State.running_of_line (congrArg Line.state (u.settleGroup_line x))).trans hu)
    (fun u x hu => u.settleGroup_cool x x hu) (fun u x y _ hu => u.settleGroup_cool x y hu) h g

theorem State.settled_sequence (r : GroupRecord) : r.settled.sequence = r.sequence := by
  unfold GroupRecord.settled; split <;> rfl

theorem GroupRecord.crossing_sequence (r : GroupRecord) (b a : Bool) : (r.crossing b a).sequence = r.sequence := by
  unfold GroupRecord.crossing; split <;> rfl

theorem State.enterBlocked_group (h : new.blocked = true) (g : Group) :
    (s.enterBlocked new c).group g =
      { ((s.group g).crossing (s.inSet g) false).settled with
        lastOrder := 0, blockFlag := true, sequence := ((s.group g).sequence + 1) % 256 } := by
  have hstop := State.stopped_running (s := s) (c := c) h
  have hset : (s.dropCurrent.setLineState new c).inSet g =
      false := by
    rw [State.inSet_eq, hstop]; rfl
  rw [State.enterBlocked_eq, State.sendBlocked_group, State.settleAll_group hstop, State.setLineState_group, hset,
    State.settled_sequence, GroupRecord.crossing_sequence]
  rfl

theorem State.enterBlocked_cool (h : new.blocked = true) (g : Group) :
    (s.enterBlocked new c).cool g =
      (s.cool g).crossing (s.groupConfig g) s.timeBase (s.inSet g) false := by
  have hstop := State.stopped_running (s := s) (c := c) h
  have hset : (s.dropCurrent.setLineState new c).inSet g =
      false := by
    rw [State.inSet_eq, hstop]; rfl
  rw [State.enterBlocked_eq, (State.sendBlocked_keeps _).cool (by decide), State.settleAll_cool hstop,
    State.setLineState_cool, hset]
  rfl

theorem State.enterBlocked_out (h : new.blocked = true) :
    (s.enterBlocked new c).out =
      s.out ++ allGroups.map fun g => Sent.order g 0 true (((s.group g).sequence + 1) % 256) := by
  have hstop := State.stopped_running (s := s) (c := c) h
  have hseq : ∀ g : Group, (((s.dropCurrent.setLineState new c).eachGroup State.settleGroup).group g).sequence = (s.group g).sequence := by
    intro g
    rw [State.settleAll_group hstop, State.settled_sequence, State.setLineState_group, GroupRecord.crossing_sequence]
    rfl
  rw [State.enterBlocked_eq, State.sendBlocked_out, State.eachGroup_keeps State.settleGroup_keeps _ .out (by decide),
    State.setLineState_keeps _ new c .out (by decide)]
  simp only [hseq]
  rfl

theorem State.enterBlocked_noticed : s.noticed (s.enterBlocked new c) := by
  rw [State.enterBlocked_eq]
  exact State.noticed_trans (t := s.dropCurrent) (State.noticed_of_ports rfl)
    (State.noticed_trans (State.setLineState_noticed _ _ _) (State.noticed_trans
      (State.eachGroup_noticed State.settleGroup_noticed _)
      (State.noticed_of_keeps (State.sendBlocked_keeps _) (by decide))))

/-- The entry to a blocked state leaves the claims and the fault unit. -/
theorem State.enterBlocked_keeps_stopped (h : new.blocked = true) :
    s.keepsAllBut (s.enterBlocked new c) [.line, .groups, .cooling, .ports, .out] := by
  rw [State.enterBlocked_eq]
  refine State.keepsAllBut_trans (t := s.dropCurrent) ?_
    (State.keepsAllBut_trans
      (State.keepsAllBut_mono (State.setLineState_keeps_stopped _ c (LineState.running_of_blocked h).2) (by simp))
      (State.keepsAllBut_trans
        (State.eachGroup_keeps (fun t g => State.keepsAllBut_mono (State.settleGroup_keeps t g) (by simp [groupParts])) _)
        (State.keepsAllBut_mono (State.sendBlocked_keeps _) (by simp))))
  intro p hp
  cases p <;> first | rfl | exact absurd (by simp) hp

end Enter

end Sys2Proof.Machine
end

