-- ==== Sys2Proof/Proofs/Reactions.lean ====
section
/-! What the responses of the fault unit can do to one group, whatever the responses are (R15, R22, R159, R163 to R166): said
once as a relation between the state before and the state after, and shown of every onset. -/

namespace Sys2Proof.Machine

/-- The order in which a fault response or the entry to a blocked state can move a group through its service states. -/
def ServiceState.rank : ServiceState → Nat
  | .joining => 0
  | .leaving => 0
  | .inService => 1
  | .out => 2
  | .removed => 3
  | .linkLost => 3

/-- What fault responses leave of group `h`, and how what they change hangs together: the service state only moves up its order,
the tracking timer only stops, the group only leaves the allocation set, and its GRACE ends when it does. -/
structure State.reacts (s t : State) (h : Group) : Prop where
  config : t.groupConfig h = s.groupConfig h
  frame : (t.group h).lastFrame = (s.group h).lastFrame
  service : ((t.group h).service = (s.group h).service ∧ (t.group h).linkTimer = (s.group h).linkTimer) ∨
    (s.group h).service.rank < (t.group h).service.rank
  lost : (t.group h).service = .linkLost → (s.group h).service = .linkLost
  link : (s.group h).linkTimer.isSome = (s.group h).service.member →
    (t.group h).linkTimer.isSome = (t.group h).service.member
  tracking : (t.group h).trackingTimer = (s.group h).trackingTimer ∨ (t.group h).trackingTimer = none
  cool : t.cool h = { s.cool h with
    pumpLoss := (t.cool h).pumpLoss, graceTimer := (t.cool h).graceTimer, ceiling := (t.cool h).ceiling
    adoptionSource := (t.cool h).adoptionSource }
  adoption : 3 ≤ (s.group h).service.rank → (t.cool h).adoptionSource = (s.cool h).adoptionSource
  formed : (s.cool h).ceiling = coolingCeiling (s.groupConfig h) (s.cool h).percent (s.cool h).pumpLoss →
    (t.cool h).ceiling = coolingCeiling (t.groupConfig h) (t.cool h).percent (t.cool h).pumpLoss
  outside : s.inSet h = false → t.inSet h = false ∧ (t.cool h).pump = (s.cool h).pump
  stays : t.inSet h = true →
    (t.group h).trackingTimer = (s.group h).trackingTimer ∧ (t.cool h).pump = (s.cool h).pump
  left : s.inSet h = true → t.inSet h = false →
    (t.group h).trackingTimer = none ∧ (t.cool h).pump = ((s.cool h).leaving (s.groupConfig h)).pump

theorem State.reacts.percent {s t : State} {h : Group} (r : s.reacts t h) : (t.cool h).percent = (s.cool h).percent := by
  rw [r.cool]

/-- What leaving the set makes of the pump-loss state, the grace timer and the ceiling follows from these and the percent. -/
theorem GroupCooling.leaving_pump_congr {c d : GroupCooling} (gc : GroupConfig) (h : c.pump = d.pump)
    (hp : c.percent = d.percent) : (c.leaving gc).pump = (d.leaving gc).pump := by
  simp only [GroupCooling.pump, Prod.mk.injEq] at h
  obtain ⟨h1, h2, h3⟩ := h
  unfold GroupCooling.leaving GroupCooling.pump
  rw [h1, hp]
  split <;> simp_all

theorem State.reacts_trans {s t u : State} {h : Group} (r : s.reacts t h) (q : t.reacts u h) : s.reacts u h where
  config := q.config.trans r.config
  frame := q.frame.trans r.frame
  service := by
    rcases r.service with ⟨h1, h2⟩ | h1 <;> rcases q.service with ⟨h3, h4⟩ | h3
    · exact .inl ⟨h3.trans h1, h4.trans h2⟩
    · exact .inr (h1 ▸ h3)
    · exact .inr (h3.symm ▸ h1)
    · exact .inr (h1.trans h3)
  lost := fun hu => r.lost (q.lost hu)
  link := fun hs => q.link (r.link hs)
  tracking := by
    rcases q.tracking with h1 | h1
    · rw [h1]; exact r.tracking
    · exact .inr h1
  cool := by rw [q.cool, r.cool]
  adoption := fun hs => by
    have h3 : 3 ≤ (t.group h).service.rank := by
      rcases r.service with ⟨h1, _⟩ | h1
      · rwa [h1]
      · omega
    exact (q.adoption h3).trans (r.adoption hs)
  formed := fun hs => q.formed (r.formed hs)
  outside := fun hs => by
    obtain ⟨h1, h2⟩ := r.outside hs
    obtain ⟨h3, h4⟩ := q.outside h1
    exact ⟨h3, h4.trans h2⟩
  stays := fun hu => by
    have ht : t.inSet h = true := by
      by_contra hn
      rw [(q.outside (by simpa using hn)).1] at hu
      cases hu
    exact ⟨(q.stays hu).1.trans (r.stays ht).1, (q.stays hu).2.trans (r.stays ht).2⟩
  left := fun hs hu => by
    cases ht : t.inSet h
    · obtain ⟨h1, h2⟩ := r.left hs ht
      refine ⟨?_, (q.outside ht).2.trans h2⟩
      rcases q.tracking with h3 | h3
      · rw [h3, h1]
      · exact h3
    · obtain ⟨h1, h2⟩ := q.left ht hu
      refine ⟨h1, h2.trans ?_⟩
      rw [r.config]
      exact GroupCooling.leaving_pump_congr _ (r.stays ht).2 r.percent

/-- A change that leaves the group's record, its cooling, its configuration and whether the line runs. -/
theorem State.reacts_of_eq {s t : State} {h : Group} (hg : t.group h = s.group h) (hc : t.cool h = s.cool h)
    (hgc : t.groupConfig h = s.groupConfig h) (hset : t.inSet h = s.inSet h) : s.reacts t h where
  config := hgc
  frame := by rw [hg]
  service := .inl (by rw [hg]; exact ⟨rfl, rfl⟩)
  lost := by rw [hg]; exact id
  link := by rw [hg]; exact id
  tracking := .inl (by rw [hg])
  cool := by rw [hc]
  adoption := fun _ => by rw [hc]
  formed := by rw [hc, hgc]; exact id
  outside := fun h0 => ⟨hset.trans h0, by rw [hc]⟩
  stays := fun _ => ⟨by rw [hg], by rw [hc]⟩
  left := fun h0 h1 => by rw [hset, h0] at h1; cases h1

theorem State.reacts_refl (s : State) (h : Group) : s.reacts s h := State.reacts_of_eq rfl rfl rfl rfl

theorem State.reacts_of_keeps {s t : State} {l : List Part} (k : s.keepsAllBut t l)
    (hl : Part.groups ∉ l ∧ Part.cooling ∉ l ∧ Part.config ∉ l ∧ Part.line ∉ l) (h : Group) : s.reacts t h :=
  State.reacts_of_eq (k.group hl.1 h) (k.cool hl.2.1 h) (k.groupConfig hl.2.2.1 h) (k.inSet hl.1 hl.2.2.2 h)

theorem State.reacts_eachGroup {f : State → Group → State} {h : Group}
    (hf : ∀ (t : State) (g : Group), t.reacts (f t g) h) (s : State) : s.reacts (s.eachGroup f) h :=
  State.eachGroup_kept (fun t => s.reacts t h) (fun t g ht => State.reacts_trans ht (hf t g)) (s.reacts_refl h)

/-! ### Crossing out of the set -/

/-- A group crosses the boundary of the set only outwards. -/
theorem State.reacts_of_crossing {s t : State} {h : Group} {r : GroupRecord}
    (hg : t.group h = r.crossing (s.inSet h) (t.inSet h))
    (hc : t.cool h = (s.cool h).crossing (s.groupConfig h) s.timeBase (s.inSet h) (t.inSet h))
    (hgc : t.groupConfig h = s.groupConfig h) (hin : t.inSet h = true → s.inSet h = true)
    (hframe : r.lastFrame = (s.group h).lastFrame)
    (htrack : r.trackingTimer = (s.group h).trackingTimer ∨ (r.trackingTimer = none ∧ t.inSet h = false))
    (hservice : (r.service = (s.group h).service ∧ r.linkTimer = (s.group h).linkTimer) ∨
      (s.group h).service.rank < r.service.rank)
    (hlost : r.service = .linkLost → (s.group h).service = .linkLost)
    (hlink : (s.group h).linkTimer.isSome = (s.group h).service.member → r.linkTimer.isSome = r.service.member) :
    s.reacts t h := by
  cases hs : s.inSet h <;> cases ht : t.inSet h <;> rw [hs, ht] at hg hc
  case false.true => exact absurd (hin ht) (by simp [hs])
  case true.false =>
    have hg' : t.group h = { r with trackingTimer := none } := hg
    have hc' : t.cool h = (s.cool h).leaving (s.groupConfig h) := hc
    refine ⟨hgc, by rw [hg', hframe], by rwa [hg'], by rwa [hg'], by rwa [hg'], .inr (by rw [hg']), ?_, ?_, ?_,
      fun h1 => absurd h1 (by simp [hs]), fun h1 => absurd h1 (by simp [ht]), fun _ _ => ⟨by rw [hg'], by rw [hc']⟩⟩
    · rw [hc']; unfold GroupCooling.leaving; split <;> rfl
    · rw [hc']; unfold GroupCooling.leaving; intro _; split <;> rfl
    · rw [hc', hgc]; unfold GroupCooling.leaving; intro h1; split
      · rfl
      · exact h1
  all_goals
    simp only [GroupRecord.crossing_same, GroupCooling.crossing_same] at hg hc
    refine ⟨hgc, by rw [hg, hframe], by rwa [hg], by rwa [hg], by rwa [hg], ?_, by rw [hc],
      fun _ => by rw [hc], by rw [hc, hgc]; exact id, fun h1 => ⟨ht.trans ?_, by rw [hc]⟩,
      fun h1 => ⟨?_, by rw [hc]⟩, fun h1 h2 => by simp_all⟩
    · rw [hg]; exact htrack.imp id And.left
  case false.false.refine_2 => rfl
  case false.false.refine_3 => exact absurd h1 (by simp [ht])
  case true.true.refine_2 => exact absurd h1 (by simp [hs])
  case true.true.refine_3 => rw [hg]; exact htrack.resolve_right (fun h2 => absurd h2.2 (by simp [ht]))

/-! ### The operations of the responses -/

theorem State.sendOrder_reacts (s : State) (g h : Group) (o : Nat) (b : Bool) : s.reacts (s.sendOrder g o b) h := by
  have hset : (s.sendOrder g o b).inSet h = s.inSet h :=
    State.inSet_congr rfl (by rw [State.sendOrder_group]; split <;> rfl) (by rw [State.sendOrder_group]; split <;> rfl)
  have hg := s.sendOrder_group g h o b
  by_cases hh : h = g
  · rw [if_pos hh] at hg
    refine State.reacts_of_crossing (r := (s.sendOrder g o b).group h) (by rw [hset]; simp) (by rw [hset]; simp; rfl) rfl
      (by rw [hset]; exact id) ?_ (.inl ?_) (.inl ?_) ?_ ?_ <;> rw [hg]
    · exact ⟨rfl, rfl⟩
    · exact id
    · exact id
  · rw [if_neg hh] at hg
    exact State.reacts_of_eq hg rfl rfl hset

/-- The link timer after a change of service state runs exactly in JOINING, IN_SERVICE and LEAVING, if it did before (R19). -/
theorem linkTimerAfter_isSome {now : Nat} {old new : ServiceState} {timer : Option Nat} (h : timer.isSome = old.member) :
    (linkTimerAfter now old new timer).isSome = new.member := by
  unfold linkTimerAfter
  cases ho : old.member <;> cases hn : new.member <;> simp_all

/-- A change of service state upwards, by a response or at the entry to a blocked state. -/
theorem State.setService_reacts {s : State} {g : Group} {new : ServiceState} {c : GroupCause}
    (hrank : (s.group g).service.rank < new.rank) (hnew : new ≠ .linkLost)
    (hin : (s.setService g new c).inSet g = true → s.inSet g = true) (h : Group) : s.reacts (s.setService g new c) h := by
  have hgc := (s.setService_keeps g new c).groupConfig (by decide) h
  by_cases hh : h = g
  · subst hh
    refine State.reacts_of_crossing (r := (s.group h).serve s.timeBase new) (s.setService_group_self h new c)
      (s.setService_cool_self h new c) hgc hin rfl (.inl rfl) (.inr hrank) (fun h1 => absurd h1 hnew) ?_
    exact linkTimerAfter_isSome
  · exact State.reacts_of_eq (State.setService_group_ne _ hh _ _) (State.setService_cool_ne _ hh _ _) hgc
      (State.setService_inSet_ne _ hh _ _)

/-- A REMOVE applied to a group (R15), the ramps, the state and the order. -/
theorem State.removeGroup_eq (s : State) (g : Group) :
    s.removeGroup g =
      if (s.group g).service = .removed ∨ (s.group g).service = .linkLost then s
      else
        let s1 := (s.endRamps g).setService g .removed .fault
        if s1.running then s1.sendOrder g 0 true else s1 := by
  unfold State.removeGroup
  cases (s.group g).service <;> simp

theorem State.removeGroup_line (s : State) (g : Group) : (s.removeGroup g).line = s.line := by
  rw [State.removeGroup_eq]
  have h1 : ((s.endRamps g).setService g .removed .fault).line = s.line := (s.endRamps g).setService_line g _ _
  split
  · rfl
  · simp only
    split
    · exact h1
    · exact h1

/-- A REMOVE leaves its group in REMOVED, unless its link is lost. -/
theorem State.removeGroup_rank (s : State) (g : Group) : 3 ≤ ((s.removeGroup g).group g).service.rank := by
  rw [State.removeGroup_eq]
  split
  · next h => rcases h with h | h <;> simp [h, ServiceState.rank]
  · have h1 : ((s.endRamps g).setService g .removed .fault |>.group g).service.rank = 3 := by
      rw [State.setService_service_self]; rfl
    simp only
    split
    · rw [State.sendOrder_group, if_pos rfl]; exact h1.ge
    · exact h1.ge

/-- The end of a group's ramps followed by its removal. -/
theorem State.endRamps_setService_reacts {s : State} {g : Group} {new : ServiceState} {c : GroupCause}
    (hrank : (s.group g).service.rank < new.rank) (hnew : new ≠ .linkLost) (hout : new.member = false) (h : Group) :
    s.reacts ((s.endRamps g).setService g new c) h := by
  have hgc := State.keepsAllBut.groupConfig ((s.endRamps g).setService_keeps g new c) (by decide) h
  by_cases hh : h = g
  · subst hh
    have hset : ((s.endRamps h).setService h new c).inSet h = false := by
      rw [State.setService_inSet_self, hout]; simp
    have hin : (s.endRamps h).inSet h = s.inSet h := by
      simp [State.inSet_eq, State.endRamps]; rfl
    have hg := (s.endRamps h).setService_group_self h new c
    have hc := (s.endRamps h).setService_cool_self h new c
    rw [hset, hin] at hg hc
    have hr : (((s.endRamps h).group h).serve (s.endRamps h).timeBase new) =
        { (s.group h).serve s.timeBase new with joinCeiling := 0, leaveCeiling := 0, trackingTimer := none } := by
      simp [State.endRamps, GroupRecord.serve]
    rw [hr] at hg
    rw [← hset] at hg hc
    exact State.reacts_of_crossing hg hc hgc (by rw [hset]; simp) rfl (.inr ⟨rfl, hset⟩) (.inr hrank)
      (fun h1 => absurd h1 hnew) linkTimerAfter_isSome
  · refine State.reacts_of_eq ?_ ?_ hgc ?_
    · rw [State.setService_group_ne _ hh]; exact State.group_modGroup_ne _ hh _
    · rw [State.setService_cool_ne _ hh]; rfl
    · rw [State.setService_inSet_ne _ hh]
      exact State.inSet_congr rfl (by rw [State.endRamps, State.group_modGroup_ne _ hh])
        (by rw [State.endRamps, State.group_modGroup_ne _ hh])

theorem State.removeGroup_reacts (s : State) (g h : Group) : s.reacts (s.removeGroup g) h := by
  rw [State.removeGroup_eq]
  split
  · exact s.reacts_refl h
  · next hne =>
    have hrank : (s.group g).service.rank < ServiceState.removed.rank := by
      cases hs : (s.group g).service <;> simp [hs] at hne <;> decide
    have h1 : s.reacts ((s.endRamps g).setService g .removed .fault) h :=
      State.endRamps_setService_reacts hrank (by decide) rfl h
    simp only
    split
    · exact State.reacts_trans h1 (State.sendOrder_reacts _ g h 0 true)
    · exact h1

/-- A change of the line state that does not start the line. -/
theorem State.setLineState_reacts {s : State} {new : LineState} (c : LineCause)
    (hrun : new.running = true → s.running = true) (h : Group) : s.reacts (s.setLineState new c) h := by
  refine State.reacts_of_crossing (s.setLineState_group new c h) (s.setLineState_cool new c h)
    ((s.setLineState_keeps new c).groupConfig (by decide) h) ?_ rfl (.inl rfl) (.inl ⟨rfl, rfl⟩) id id
  rw [State.setLineState_inSet, State.inSet_eq]
  simp only [Bool.and_eq_true]
  exact fun ⟨⟨h1, h2⟩, h3⟩ => ⟨⟨hrun h1, h2⟩, h3⟩

theorem State.settleGroup_reacts {s : State} (hrun : s.running = false) (g h : Group) : s.reacts (s.settleGroup g) h := by
  have hstep : ∀ (n : ServiceState) (c : GroupCause), (s.group g).service.rank < n.rank → n ≠ .linkLost →
      s.reacts ((s.modGroup g fun r => { r with joinCeiling := 0, leaveCeiling := 0 }).setService g n c) h := by
    intro n c hrank hn
    have hg := s.group_modGroup g h fun r => { r with joinCeiling := 0, leaveCeiling := 0 }
    have hset : (s.modGroup g fun r => { r with joinCeiling := 0, leaveCeiling := 0 }).inSet h = s.inSet h :=
      State.inSet_congr rfl (by rw [hg]; split <;> rfl) (by rw [hg]; split <;> rfl)
    refine State.reacts_trans ?_ (State.setService_reacts (by simpa using hrank) hn ?_ h)
    · refine State.reacts_of_crossing (t := s.modGroup g fun r => { r with joinCeiling := 0, leaveCeiling := 0 })
        (r := (s.modGroup g fun r => { r with joinCeiling := 0, leaveCeiling := 0 }).group h)
        (by rw [hset, GroupRecord.crossing_same]) (by rw [hset, GroupCooling.crossing_same]; rfl) rfl
        (by rw [hset]; exact id) ?_ (.inl ?_) (.inl ?_) ?_ ?_ <;> rw [hg] <;> split
      all_goals first | rfl | exact ⟨rfl, rfl⟩ | exact id
    · rw [State.setService_inSet_self]
      have : (s.modGroup g fun r => { r with joinCeiling := 0, leaveCeiling := 0 }).running = false := hrun
      simp [this]
  unfold State.settleGroup
  cases hs : (s.group g).service
  case joining => exact hstep _ _ (by rw [hs]; decide) (by decide)
  case leaving => exact hstep _ _ (by rw [hs]; decide) (by decide)
  all_goals exact s.reacts_refl h

/-- The entry to a blocked state. -/
theorem State.enterBlocked_reacts {s : State} {new : LineState} (c : LineCause) (hb : new.blocked = true) (h : Group) :
    s.reacts (s.enterBlocked new c) h := by
  have hstop := State.stopped_running (s := s) (c := c) hb
  rw [State.enterBlocked_eq]
  have h1 : s.reacts s.dropCurrent h := State.reacts_of_eq rfl rfl rfl rfl
  have h2 : s.dropCurrent.reacts (s.dropCurrent.setLineState new c) h :=
    State.setLineState_reacts c (by rw [(LineState.running_of_blocked hb).1]; simp) h
  have h3 := State.eachGroup_kept (f := State.settleGroup)
    (fun t => (s.dropCurrent.setLineState new c).reacts t h ∧ t.running = false)
    (fun t g ht => ⟨State.reacts_trans ht.1 (State.settleGroup_reacts ht.2 g h),
      (State.running_of_line (congrArg Line.state (t.settleGroup_line g))).trans ht.2⟩)
    ⟨State.reacts_refl _ h, hstop⟩
  exact State.reacts_trans h1 (State.reacts_trans h2 (State.reacts_trans h3.1
    (State.reacts_eachGroup (fun t g => t.sendOrder_reacts g h 0 true) _)))

theorem State.capacityDeparture_reacts (s : State) (h : Group) : s.reacts s.capacityDeparture h := by
  have k := s.capacityDeparture_keeps
  have hg := k.group (by decide) h
  exact State.reacts_of_eq hg (k.cool (by decide) h) (k.groupConfig (by decide) h)
    (State.inSet_congr (by rw [State.capacityDeparture_line]) (by rw [hg]) (by rw [hg]))

theorem State.enterTripped_reacts (s : State) (h : Group) : s.reacts s.enterTripped h :=
  State.reacts_trans (State.enterBlocked_reacts .fault rfl h) (State.capacityDeparture_reacts _ h)

/-! ### The steps of an onset (R159) -/

/-- The entry after step 1 of an onset, by the state it is taken in (R158, R159). -/
def State.stepOne (s : State) (id : FaultId) (detail : Option Detail) : Entry :=
  match (s.entry id).state with
  | .clear => Entry.openWith s.timeBase id.kind (s.config.actions.get id.kind) detail
  | .latched => (s.entry id).reopen s.timeBase detail
  | .active => (s.entry id).again s.timeBase detail

theorem State.onsetWith_eq (trip : State → State) (s : State) (id : FaultId) (detail : Option Detail) :
    s.onsetWith trip id detail =
      if (s.entry id).state = .active then s.setEntry id (s.stepOne id detail)
      else (s.setEntry id (s.stepOne id detail)).onsetSteps trip id (s.entry id).state detail := by
  unfold State.onsetWith State.stepOne
  simp only
  split <;> rename_i h <;> simp [h]

/-- The REMOVE of a response, which comes first (R165). -/
def State.applyRemove (s : State) (id : FaultId) (c : Carried) : State :=
  match id with
  | .group _ g => if c.names .remove then s.removeGroup g else s
  | .line _ => s

/-- The line-level response, which comes second (R165). -/
def State.applyLine (trip : State → State) (s : State) (id : FaultId) (before : EntryState) (a : Action) : State :=
  match a with
  | .note => s
  | .hold => s.holdLine
  | .reduce => s.reduceLine id before
  | .remove => s
  | .trip => trip s

theorem State.respond_eq (trip : State → State) (s : State) (id : FaultId) (before : EntryState) :
    s.respond trip id before =
      match (s.entry id).response with
      | none => s
      | some c => (s.applyRemove id c).applyLine trip id before c.configured := by
  unfold State.respond
  cases (s.entry id).response with
  | none => rfl
  | some c => cases c.configured <;> cases id <;> rfl

/-- The state in which an onset comes to its response: step 1, the lines and the capture are done. -/
def State.beforeResponse (s : State) (id : FaultId) (before : EntryState) (detail : Option Detail) (e : Entry) : State :=
  (s.setEntry id e).evaluateLines.captureFault id before detail

theorem State.onsetSteps_eq (trip : State → State) (s : State) (id : FaultId) (before : EntryState)
    (detail : Option Detail) (e : Entry) :
    (s.setEntry id e).onsetSteps trip id before detail =
      ((s.beforeResponse id before detail e).respond trip id before).noteOnset id before detail := rfl

/-- Up to its response an onset touches the faults and the stack alone. -/
theorem State.beforeResponse_keeps (s : State) (id : FaultId) (before : EntryState) (detail : Option Detail) (e : Entry) :
    s.keepsAllBut (s.beforeResponse id before detail e) [.faults, .stack] := by
  refine State.keepsAllBut_trans ?_ (State.keepsAllBut_mono (State.captureFault_keeps _ id before detail) (by simp))
  intro p hp
  cases p <;> first | rfl | exact absurd (by simp) hp

theorem State.beforeResponse_entry_self (s : State) (id : FaultId) (before : EntryState) (detail : Option Detail)
    (e : Entry) : (s.beforeResponse id before detail e).entry id = e := by
  have h := State.captureFault_keeps (s.setEntry id e).evaluateLines id before detail .faults (by decide)
  exact (congrArg (fun u : FaultUnit => u.table.get id) h).trans (s.entry_setEntry_self id e)

theorem State.beforeResponse_entry_ne (s : State) {id j : FaultId} (hne : j ≠ id) (before : EntryState)
    (detail : Option Detail) (e : Entry) : (s.beforeResponse id before detail e).entry j = s.entry j := by
  have h := State.captureFault_keeps (s.setEntry id e).evaluateLines id before detail .faults (by decide)
  exact (congrArg (fun u : FaultUnit => u.table.get j) h).trans (s.entry_setEntry_ne hne e)

theorem State.noteOnset_keeps (s : State) (id : FaultId) (before : EntryState) (detail : Option Detail) :
    s.keepsAllBut (s.noteOnset id before detail) [.ports] := State.notify_keeps _ _

theorem State.applyRemove_reacts (s : State) (id : FaultId) (c : Carried) (h : Group) :
    s.reacts (s.applyRemove id c) h := by
  unfold State.applyRemove
  split
  · split
    · exact s.removeGroup_reacts _ h
    · exact s.reacts_refl h
  · exact s.reacts_refl h

theorem State.holdLine_eq (s : State) :
    s.holdLine = if s.line.state = some .regulating then s.setLineState .hold .fault else s := by
  unfold State.holdLine
  split <;> simp_all

theorem State.holdLine_reacts (s : State) (h : Group) : s.reacts s.holdLine h := by
  rw [State.holdLine_eq]
  split
  · next hr => exact State.setLineState_reacts .fault (fun _ => by simp [State.running, hr, LineState.running]) h
  · exact s.reacts_refl h

/-- REDUCE touches the claims and the faults alone (R164). -/
theorem State.reduceLine_keeps_groups (s : State) (id : FaultId) (before : EntryState) :
    s.keepsAllBut (s.reduceLine id before) [.claims, .faults] := by
  unfold State.reduceLine
  split
  · simp only
    split
    · refine State.keepsAllBut_trans ?_ (State.keepsAllBut_mono (State.writeFaultClaim_keeps _) (by simp))
      intro p hp
      cases p <;> first | rfl | exact absurd (by simp) hp
    · intro p hp
      cases p <;> first | rfl | exact absurd (by simp) hp
  · exact s.keepsAllBut_refl _
  · exact s.keepsAllBut_refl _

theorem State.applyLine_reacts {trip : State → State} {h : Group} (ht : ∀ s : State, s.reacts (trip s) h) (s : State)
    (id : FaultId) (before : EntryState) (a : Action) : s.reacts (s.applyLine trip id before a) h := by
  cases a with
  | note => exact s.reacts_refl h
  | hold => exact s.holdLine_reacts h
  | reduce => exact State.reacts_of_keeps (s.reduceLine_keeps_groups id before) (by decide) h
  | remove => exact s.reacts_refl h
  | trip => exact ht s

theorem State.onsetWith_reacts {trip : State → State} {h : Group} (ht : ∀ s : State, s.reacts (trip s) h) (s : State)
    (id : FaultId) (detail : Option Detail) : s.reacts (s.onsetWith trip id detail) h := by
  rw [State.onsetWith_eq]
  split
  · exact State.reacts_of_eq rfl rfl rfl rfl
  · rw [State.onsetSteps_eq, State.respond_eq]
    refine State.reacts_trans (State.reacts_of_keeps (s.beforeResponse_keeps id (s.entry id).state detail
      (s.stepOne id detail)) (by decide) h)
      (State.reacts_trans ?_ (State.reacts_of_keeps (State.noteOnset_keeps _ id _ detail) (by decide) h))
    split
    · exact State.reacts_refl _ h
    · exact State.reacts_trans (State.applyRemove_reacts _ _ _ h) (State.applyLine_reacts ht _ _ _ _)

/-- The adoption source of a group that the close of the adopt window removes (R23). -/
theorem State.adopted_reacts (s : State) (g h : Group) (hr : (s.group g).service = .out) :
    s.reacts ((s.setService g .removed .adoption).modCool g fun c => { c with adoptionSource := true }) h := by
  have h1 : s.reacts (s.setService g .removed .adoption) h :=
    State.setService_reacts (by rw [hr]; decide) (by decide) (by
      rw [State.setService_inSet_self]; simp [ServiceState.member]) h
  have hc := State.cool_modCool (s.setService g .removed .adoption) g h fun c => { c with adoptionSource := true }
  refine ⟨h1.config, h1.frame, h1.service, h1.lost, h1.link, h1.tracking, ?_, ?_, ?_, ?_, ?_, ?_⟩
  · rw [hc, h1.cool]; split <;> rfl
  · intro h3
    have hne : h ≠ g := by rintro rfl; rw [hr] at h3; exact absurd h3 (by decide)
    rw [hc, if_neg hne]
    exact h1.adoption h3
  all_goals rw [hc]
  · intro h3
    have h4 := h1.formed h3
    split <;> exact h4
  · intro h3
    exact ⟨(h1.outside h3).1, by rw [← (h1.outside h3).2]; split <;> rfl⟩
  · intro h3
    exact ⟨(h1.stays h3).1, by rw [← (h1.stays h3).2]; split <;> rfl⟩
  · intro h3 h4
    exact ⟨(h1.left h3 h4).1, by rw [← (h1.left h3 h4).2]; split <;> rfl⟩

theorem State.classifyGroup_reacts (s : State) (g h : Group) : s.reacts (s.classifyGroup g) h := by
  unfold State.classifyGroup
  split
  · next hr =>
    simp only
    split
    · exact s.adopted_reacts g h hr.1
    · exact State.reacts_trans (s.adopted_reacts g h hr.1)
        (State.onsetWith_reacts (fun t => t.reacts_refl h) _ _ _)
  · exact s.reacts_refl h

theorem State.closeWindow_reacts (s : State) (h : Group) : s.reacts s.closeWindow h :=
  State.reacts_trans (t := { s with line := { s.line with adoptDeadline := none } }) (State.reacts_of_eq rfl rfl rfl rfl)
    (State.reacts_eachGroup (fun t g => t.classifyGroup_reacts g h) _)

theorem State.tripLine_reacts (s : State) (h : Group) : s.reacts s.tripLine h := by
  unfold State.tripLine
  split
  · exact s.reacts_refl h
  · exact s.reacts_refl h
  · exact State.reacts_trans (s.closeWindow_reacts h) (State.enterTripped_reacts _ h)
  all_goals exact s.enterTripped_reacts h

/-- Whatever response it carries, an onset does to a group no more than a response can (R159). -/
theorem State.onset_reacts (s : State) (id : FaultId) (detail : Option Detail) (h : Group) :
    s.reacts (s.onset id detail) h := State.onsetWith_reacts (fun t => t.tripLine_reacts h) s id detail

theorem State.conditionChange_reacts (s : State) (id : FaultId) (before after : Bool) (detail : Option Detail)
    (h : Group) : s.reacts (s.conditionChange id before after detail) h := by
  unfold State.conditionChange
  split
  · exact s.onset_reacts id detail h
  · exact State.reacts_of_keeps (s.departure_keeps id) (by decide) h
  all_goals exact s.reacts_refl h

end Sys2Proof.Machine
end

