-- ==== Sys2Proof/Proofs/Expiry.lean ====
section
/-! The parts of an expiry of the allocation timer (R13, R14, R32 to R40, R53): what each makes of the line and the groups. -/

namespace Sys2Proof.Machine

/-! ### The start of an expiry (R9, R11) -/

/-- A group's record at the start of an expiry: its items taken into use, its mark of awaiting cleared (R9, R11). -/
def GroupRecord.started (r : GroupRecord) (gc : GroupConfig) : GroupRecord :=
  { r with tolerance := gc.tolerance, resolution := gc.resolution, awaiting := false }

theorem State.enrol_eq (s : State) (g : Group) :
    s.enrol g = State.membership (s.inSet g) (s.modGroup g fun r => { r with awaiting := false }) g := rfl

theorem State.startExpiry_eq (s : State) (g : Group) :
    s.startExpiry g = State.membership (s.inSet g) (s.modGroup g fun r => r.started (s.groupConfig g)) g := by
  have hset : (s.takeItems g).inSet g = s.inSet g :=
    State.inSet_congr rfl (by simp [State.takeItems]) (by simp [State.takeItems])
  have hmod : (s.takeItems g).modGroup g (fun r => { r with awaiting := false }) =
      s.modGroup g fun r => r.started (s.groupConfig g) := by
    simp [State.takeItems, State.modGroup, GroupRecord.started]
  rw [State.startExpiry, State.enrol_eq, hset, hmod]

theorem State.startExpiry_inSet_self (s : State) (g : Group) :
    (s.startExpiry g).inSet g = (s.running && (s.group g).service.member) := by
  rw [State.startExpiry_eq, State.membership_inSet, State.inSet_eq]
  simp [GroupRecord.started]
  rfl

theorem State.inSet_le_startExpiry (s : State) (g : Group) (h : s.inSet g = true) : (s.startExpiry g).inSet g = true := by
  rw [State.startExpiry_inSet_self]
  rw [State.inSet_eq] at h
  simp only [Bool.and_eq_true] at h ⊢
  exact h.1

theorem State.startExpiry_group_self (s : State) (g : Group) :
    (s.startExpiry g).group g = (s.group g).started (s.groupConfig g) := by
  have hin := s.inSet_le_startExpiry g
  rw [State.startExpiry_eq, State.membership_inSet] at hin
  rw [State.startExpiry_eq, State.membership_group, if_pos rfl, State.group_modGroup_self, GroupRecord.crossing, if_neg]
  rintro ⟨h1, h2⟩
  rw [hin h1] at h2
  cases h2

theorem State.startExpiry_group_ne (s : State) {g h : Group} (hne : h ≠ g) : (s.startExpiry g).group h = s.group h := by
  rw [State.startExpiry_eq, State.membership_group, if_neg hne, State.group_modGroup_ne _ hne]

theorem State.startExpiry_cool_self (s : State) (g : Group) :
    (s.startExpiry g).cool g =
      (s.cool g).crossing (s.groupConfig g) s.timeBase (s.inSet g) (s.running && (s.group g).service.member) := by
  rw [← State.startExpiry_inSet_self, State.startExpiry_eq, State.membership_cool_self, State.membership_inSet]
  rfl

theorem State.startExpiry_cool_ne (s : State) {g h : Group} (hne : h ≠ g) : (s.startExpiry g).cool h = s.cool h := by
  rw [State.startExpiry_eq, State.membership_cool_ne _ _ hne]
  rfl

theorem State.startExpiry_noticed (s : State) (g : Group) : s.noticed (s.startExpiry g) := by
  rw [State.startExpiry_eq]
  exact State.noticed_trans (t := s.modGroup g fun r => r.started (s.groupConfig g)) (State.noticed_of_ports rfl)
    (State.membership_noticed _ _ _)

theorem State.startExpiry_hearsGrace (s : State) (g : Group) (h0 : (s.cool g).pumpLoss = .none)
    (h1 : ((s.startExpiry g).cool g).pumpLoss = .grace) :
    s.hears (s.startExpiry g) (.warningPumpLoss g (s.groupConfig g).graceTime) := by
  rw [State.startExpiry_eq] at h1 ⊢
  exact (State.membership_hears _ (s.modGroup g fun r => r.started (s.groupConfig g)) g h0 h1).since rfl fun _ => rfl

/-- The state of an expiry after every group's start. -/
def State.expiryStart (s : State) : State := s.eachGroup State.startExpiry

section Start

variable (s : State)

theorem State.expiryStart_keeps : s.keepsAllBut s.expiryStart groupParts := State.eachGroup_keeps State.startExpiry_keeps s

theorem State.expiryStart_noticed : s.noticed s.expiryStart := State.eachGroup_noticed State.startExpiry_noticed s

theorem State.expiryStart_running : s.expiryStart.running = s.running :=
  State.running_of_line (congrArg Line.state (s.expiryStart_keeps .line (by decide)))

theorem State.expiryStart_group (h : Group) : s.expiryStart.group h = (s.group h).started (s.groupConfig h) :=
  State.eachGroup_each State.group (fun g r => r.started (s.groupConfig g)) (fun t => t.config = s.config)
    (fun t g ht => (t.startExpiry_keeps g .config (by decide)).trans ht)
    (fun t g ht => by rw [State.startExpiry_group_self, State.groupConfig, State.groupConfig, ht])
    (fun t g x hne _ => t.startExpiry_group_ne hne) rfl h

theorem State.expiryStart_inSet (h : Group) : s.expiryStart.inSet h = (s.running && (s.group h).service.member) := by
  rw [State.inSet_eq, State.expiryStart_running, State.expiryStart_group]
  simp [GroupRecord.started]

theorem State.expiryStart_cool (h : Group) :
    s.expiryStart.cool h =
      (s.cool h).crossing (s.groupConfig h) s.timeBase (s.inSet h) (s.running && (s.group h).service.member) :=
  (State.eachGroup_at (h := h)
    (fun t => s.keepsAllBut t groupParts ∧ t.group h = s.group h ∧ t.cool h = s.cool h)
    (fun t => t.cool h = (s.cool h).crossing (s.groupConfig h) s.timeBase (s.inSet h)
      (s.running && (s.group h).service.member))
    (fun t g hne ht => ⟨State.keepsAllBut_trans ht.1 (t.startExpiry_keeps g),
      (t.startExpiry_group_ne (Ne.symm hne)).trans ht.2.1, (t.startExpiry_cool_ne (Ne.symm hne)).trans ht.2.2⟩)
    (fun t g hne ht => (t.startExpiry_cool_ne (Ne.symm hne)).trans ht)
    (fun t ⟨hk, hg, hc⟩ => by
      have hline : t.line.state = s.line.state := congrArg Line.state (hk .line (by decide))
      rw [State.startExpiry_cool_self, hc, hg, hk.groupConfig (by decide), hk .timeBase (by decide),
        State.running_of_line hline, State.inSet_congr hline (by rw [hg]) (by rw [hg])])
    ⟨s.keepsAllBut_refl _, rfl, rfl⟩)

theorem State.expiryStart_hearsGrace (h : Group) (h0 : (s.cool h).pumpLoss = .none)
    (h1 : (s.expiryStart.cool h).pumpLoss = .grace) :
    s.hears s.expiryStart (.warningPumpLoss h (s.groupConfig h).graceTime) :=
  State.eachGroup_hearsGrace State.startExpiry_keeps (by decide) State.startExpiry_noticed
    (fun t _ _ hne => t.startExpiry_cool_ne hne) State.startExpiry_hearsGrace s h h0 h1

end Start

/-! ### The target step (R32 to R34, R38) -/

theorem State.headroomStep_keeps (s : State) : s.keepsAllBut s.headroomStep [.claims] := by
  intro p hp
  unfold State.headroomStep
  simp only
  split
  · split <;> (cases p <;> first | rfl | exact absurd (by simp) hp)
  · split
    · split <;> (cases p <;> first | rfl | exact absurd (by simp) hp)
    · cases p <;> rfl

theorem State.targetStep_keeps (s : State) : s.keepsAllBut s.targetStep [.claims, .line] := by
  refine State.keepsAllBut_trans (State.keepsAllBut_mono s.headroomStep_keeps (by simp)) ?_
  intro p hp
  cases p <;> first | rfl | exact absurd (by simp) hp

/-- The line after the target step: the least claim, the governing claim, the target and the AE hold are formed, from the
claims as the headroom step leaves them. -/
theorem State.targetStep_line (s : State) :
    s.targetStep.line = { s.line with
      least := s.headroomStep.claims.least.2, governing := s.headroomStep.claims.least.1
      target := max s.config.floor s.headroomStep.claims.least.2, aeHold := s.config.holdOnAe && !s.ae.list.isEmpty } := by
  have hk := s.headroomStep_keeps
  have hline : s.headroomStep.line = s.line := hk .line (by decide)
  have hconfig : s.headroomStep.config = s.config := hk .config (by decide)
  have hae : s.headroomStep.ae = s.ae := hk .ae (by decide)
  simp only [State.targetStep, State.updateAeHold, State.deriveTarget, hline, hconfig, hae]

/-! ### The join and leave steps (R13, R14) -/

/-- A group's record after its join or leave step, its membership aside (R13, R14). -/
def GroupRecord.ramped (r : GroupRecord) (gc : GroupConfig) : GroupRecord :=
  match r.service with
  | .joining =>
    if gc.rating ≤ min 12000 (r.joinCeiling + gc.joinRate) then
      { r with joinCeiling := 0, service := .inService, awaiting := false }
    else { r with joinCeiling := min 12000 (r.joinCeiling + gc.joinRate) }
  | .leaving =>
    if r.leaveCeiling - min gc.leaveRate r.leaveCeiling = 0 then
      { r with leaveCeiling := 0, service := .out, linkTimer := none, awaiting := false }
    else { r with leaveCeiling := r.leaveCeiling - min gc.leaveRate r.leaveCeiling }
  | .out => r
  | .inService => r
  | .removed => r
  | .linkLost => r

theorem State.rampGroup_keeps (s : State) (g : Group) : s.keepsAllBut (s.rampGroup g) groupParts := by
  have hmod : ∀ f : GroupRecord → GroupRecord, s.keepsAllBut (s.modGroup g f) groupParts := by
    intro f p hp
    cases p <;> first | rfl | exact absurd (by simp [groupParts]) hp
  unfold State.rampGroup
  simp only
  split
  · split
    · exact State.keepsAllBut_trans (hmod _) (State.setService_keeps _ _ _ _)
    · exact hmod _
  · split
    · exact State.keepsAllBut_trans (hmod _) (State.setService_keeps _ _ _ _)
    · exact hmod _
  all_goals exact s.keepsAllBut_refl _

theorem State.rampGroup_line (s : State) (g : Group) : (s.rampGroup g).line = s.line := s.rampGroup_keeps g .line (by decide)

theorem State.rampGroup_noticed (s : State) (g : Group) : s.noticed (s.rampGroup g) := by
  unfold State.rampGroup
  simp only
  split
  · split
    · exact s.setService_noticed_after g _ _ _
    · exact State.noticed_of_ports rfl
  · split
    · exact s.setService_noticed_after g _ _ _
    · exact State.noticed_of_ports rfl
  all_goals exact s.noticed_refl

theorem State.rampGroup_group_ne (s : State) {g h : Group} (hne : h ≠ g) : (s.rampGroup g).group h = s.group h := by
  unfold State.rampGroup
  simp only
  split
  · split
    · rw [State.setService_group_ne _ hne, State.group_modGroup_ne _ hne]
    · exact State.group_modGroup_ne _ hne _
  · split
    · rw [State.setService_group_ne _ hne, State.group_modGroup_ne _ hne]
    · exact State.group_modGroup_ne _ hne _
  all_goals rfl

theorem State.rampGroup_cool_ne (s : State) {g h : Group} (hne : h ≠ g) : (s.rampGroup g).cool h = s.cool h := by
  unfold State.rampGroup
  simp only
  split
  · split
    · rw [State.setService_cool_ne _ hne]; rfl
    · rfl
  · split
    · rw [State.setService_cool_ne _ hne]; rfl
    · rfl
  all_goals rfl

/-! ### The orders of an expiry (R53) -/

theorem State.handOrders_keeps (s : State) : s.keepsAllBut s.handOrders [.groups, .out] :=
  s.sendAll_keeps (fun g => (s.line.record.orderOf g).1) (fun g => (s.line.record.orderOf g).2)

theorem State.handOrders_group (s : State) (h : Group) :
    s.handOrders.group h =
      { s.group h with
        lastOrder := (s.line.record.orderOf h).1, blockFlag := (s.line.record.orderOf h).2
        sequence := ((s.group h).sequence + 1) % 256 } :=
  s.sendAll_group (fun g => (s.line.record.orderOf g).1) (fun g => (s.line.record.orderOf g).2) h

theorem State.handOrders_out (s : State) :
    s.handOrders.out = s.out ++ allGroups.map fun g =>
      Sent.order g (s.line.record.orderOf g).1 (s.line.record.orderOf g).2 (((s.group g).sequence + 1) % 256) :=
  s.sendAll_out (fun g => (s.line.record.orderOf g).1) (fun g => (s.line.record.orderOf g).2)

theorem State.handOrders_line (s : State) : s.handOrders.line = s.line := s.handOrders_keeps .line (by decide)

/-! ### The expiry (R32) -/

/-- The allocation timer restarted, the first thing an expiry does (R1). -/
def State.restartAlloc (s : State) : State :=
  { s with line := { s.line with allocTimer := some (s.timeBase + allocTime) } }

/-- The state of an expiry that has taken its target step. -/
def State.aimed (s : State) : State := s.restartAlloc.expiryStart.targetStep

theorem State.allocationExpiry_eq (s : State) :
    s.allocationExpiry =
      ((s.aimed.ownStep.1).headroomEvent s.restartAlloc.expiryStart.busVoltage).finishExpiry s.aimed.ownStep.2 := rfl

/-- The line when the expiry comes to its ramp or own step. -/
theorem State.aimed_line (s : State) :
    s.aimed.line = { s.line with
      allocTimer := some (s.timeBase + 20)
      least := s.restartAlloc.expiryStart.headroomStep.claims.least.2
      governing := s.restartAlloc.expiryStart.headroomStep.claims.least.1
      target := max s.config.floor s.restartAlloc.expiryStart.headroomStep.claims.least.2
      aeHold := s.config.holdOnAe && !s.ae.list.isEmpty } := by
  have hk := s.restartAlloc.expiryStart_keeps
  rw [State.aimed, State.targetStep_line, hk .line (by decide), hk .config (by decide), hk .ae (by decide)]
  rfl

theorem State.aimed_keeps (s : State) : s.keepsAllBut s.aimed [.line, .claims, .groups, .cooling, .ports] := by
  refine State.keepsAllBut_trans (t := s.restartAlloc) ?_ (State.keepsAllBut_trans
    (State.keepsAllBut_mono (State.expiryStart_keeps _) (by simp [groupParts]))
    (State.keepsAllBut_mono (State.targetStep_keeps _) (by simp)))
  intro p hp
  cases p <;> first | rfl | exact absurd (by simp) hp

end Sys2Proof.Machine
end

