-- ==== Sys2Proof/Proofs/Kept.lean ====
section
/-! A condition on the line, the groups, the cooling and the load that the few operations below keep is kept by the shared
operations of every command. -/

namespace Sys2Proof.Machine

/-! ### Two readings of a frame -/

theorem State.keepsAllBut.loading {s t : State} {l : List Part} (h : s.keepsAllBut t l) (hl : Part.store ∉ l) :
    t.loading = s.loading := by
  simp only [State.loading, show t.store = s.store from h .store hl]

/-- An onset that cannot trip leaves the line, unless its response is a HOLD in REGULATING. -/
theorem State.onsetWith_id_line (s : State) (id : FaultId) (detail : Option Detail) (h : s.line.state ≠ some .regulating) :
    (s.onsetWith (fun t => t) id detail).line = s.line := by
  rw [State.onsetWith_eq]
  split
  · rfl
  · have h1 : (s.beforeResponse id (s.entry id).state detail (s.stepOne id detail)).line = s.line :=
      State.beforeResponse_keeps _ _ _ _ _ .line (by decide)
    have hrem : ∀ (t : State) (c : Carried), (t.applyRemove id c).line = t.line := by
      intro t c
      unfold State.applyRemove
      split
      · split
        · exact State.removeGroup_line t _
        · rfl
      · rfl
    have hline : ∀ (t : State) (b : EntryState) (a : Action), t.line.state ≠ some .regulating →
        (t.applyLine (fun t => t) id b a).line = t.line := by
      intro t b a ht
      cases a with
      | hold => simp [State.applyLine, State.holdLine_eq, ht]
      | reduce => exact t.reduceLine_keeps_groups id b .line (by decide)
      | note | remove | trip => rfl
    rw [State.onsetSteps_eq, State.respond_eq, State.noteOnset_keeps _ _ _ _ .line (by decide)]
    split
    · exact h1
    · rw [hline _ _ _ (by rw [hrem, h1]; exact h), hrem, h1]

/-- The close of the adopt window leaves the line but for the deadline of the window. -/
theorem State.closeWindow_line {s : State} (h : s.line.state = some .adopting) :
    s.closeWindow.line = { s.line with adoptDeadline := none } := by
  refine State.eachGroup_kept (fun t => t.line = { s.line with adoptDeadline := none }) (fun t g ht => ?_) rfl
  unfold State.classifyGroup
  split
  · have h1 : ((t.setService g .removed .adoption).modCool g fun c => { c with adoptionSource := true }).line =
        { s.line with adoptDeadline := none } := (t.setService_line g _ _).trans ht
    simp only
    split
    · exact h1
    · rw [State.onsetWith_id_line _ _ _ (by rw [h1]; simp [h]), h1]
  · exact ht

/-- A condition that reads the line, the groups, the cooling and whether the store loads, and that each elementary operation on
them keeps. Every step keeps such a condition, but for what a stopped line and a reset do. -/
structure Kept (P : State → Prop) : Prop where
  /-- The other parts are not read. -/
  quiet : ∀ {s t : State}, P s → t.line = s.line → t.groups = s.groups → t.cooling = s.cooling → t.loading = s.loading → P t
  /-- The line's state is kept; outside the running states nothing rises. -/
  lineWrite : ∀ {s : State} (l : Line), l.state = s.line.state →
    (s.running = false → l.iCmd ≤ s.line.iCmd ∧ l.residual ≤ s.line.residual ∧
      (l.capacityShort = true → s.line.capacityShort = true)) → P s → P { s with line := l }
  /-- A change of the line state after the load that does not stop the line. -/
  line : ∀ {s : State} {new : LineState} (c : LineCause), s.line.state ≠ none →
    (new.running = true ∨ (new = .standby ∧ s.running = false)) → P s → P (s.setLineState new c)
  /-- A join or a leave begins only in a running state. -/
  service : ∀ {s : State} {g : Group} {new : ServiceState} (c : GroupCause),
    (new = .joining ∨ new = .leaving → s.running = true) → P s → P (s.setService g new c)
  group : ∀ {s : State} {g : Group} (f : GroupRecord → GroupRecord), (f (s.group g)).service = (s.group g).service →
    (f (s.group g)).awaiting = (s.group g).awaiting → (f (s.group g)).linkTimer.isSome = (s.group g).linkTimer.isSome →
    ((f (s.group g)).trackingTimer.isSome = true → (s.group g).trackingTimer.isSome = true ∨ s.inSet g = true) →
    P s → P (s.modGroup g f)
  enrol : ∀ {s : State} (g : Group), P s → P (s.enrol g)
  cool : ∀ {s : State} {g : Group} (f : GroupCooling → GroupCooling),
    (((s.cool g).graceTimer.isSome = true ↔ (s.cool g).pumpLoss = .grace) →
      ((f (s.cool g)).graceTimer.isSome = true ↔ (f (s.cool g)).pumpLoss = .grace)) →
    ((f (s.cool g)).pumpLoss = .grace → (s.cool g).pumpLoss = .grace ∨ s.inSet g = true) → P s → P (s.modCool g f)
  tripped : ∀ {s : State}, s.line.state ≠ none → P s → P s.enterTripped

namespace Kept

variable {P : State → Prop} (k : Kept P) {s : State}
include k

theorem quiet_of_keeps {s t : State} {l : List Part} (h : s.keepsAllBut t l)
    (hl : Part.line ∉ l ∧ Part.groups ∉ l ∧ Part.cooling ∉ l ∧ Part.store ∉ l) (hs : P s) : P t :=
  k.quiet hs (h .line hl.1) (h .groups hl.2.1) (h .cooling hl.2.2.1) (h.loading hl.2.2.2)

theorem notify (b : NoticeBody) (hs : P s) : P (s.notify b) := k.quiet hs rfl rfl rfl rfl

theorem departure (id : FaultId) (hs : P s) : P (s.departure id) :=
  k.quiet_of_keeps (s.departure_keeps id) (by decide) hs

theorem writeFaultClaim (hs : P s) : P s.writeFaultClaim := k.quiet_of_keeps s.writeFaultClaim_keeps (by decide) hs

theorem sendOrder (g : Group) (o : Nat) (b : Bool) (hs : P s) : P (s.sendOrder g o b) := by
  have h1 : P (s.modGroup g fun r =>
      { r with lastOrder := o, blockFlag := b, sequence := ((s.group g).sequence + 1) % 256 }) :=
    k.group _ rfl rfl rfl .inl hs
  exact k.quiet h1 rfl rfl rfl rfl

theorem sendBlocked (hs : P s) : P s.sendBlocked := State.eachGroup_kept P (fun _ _ ht => k.sendOrder _ _ _ ht) hs

theorem endRamps (g : Group) (hs : P s) : P (s.endRamps g) := k.group _ rfl rfl rfl (fun h => by cases h) hs

theorem recool (g : Group) (hs : P s) : P (s.recool g) := k.cool _ id .inl hs

theorem capacityDeparture (hs : P s) : P s.capacityDeparture := by
  unfold State.capacityDeparture
  split
  · exact k.departure _ (k.lineWrite _ rfl (fun _ => ⟨le_rfl, le_rfl, fun h => by cases h⟩) hs)
  · exact hs

theorem removeGroup (g : Group) (hs : P s) : P (s.removeGroup g) := by
  rw [State.removeGroup_eq]
  split
  · exact hs
  · have h1 : P ((s.endRamps g).setService g .removed .fault) :=
      k.service _ (by rintro (h | h) <;> cases h) (k.endRamps g hs)
    simp only
    split
    · exact k.sendOrder _ _ _ h1
    · exact h1

theorem holdLine (hs : P s) : P s.holdLine := by
  rw [State.holdLine_eq]
  split
  · next h =>
    exact k.line _ (by simp [h]) (.inl rfl) hs
  · exact hs

theorem reduceLine (id : FaultId) (before : EntryState) (hs : P s) : P (s.reduceLine id before) :=
  k.quiet_of_keeps (s.reduceLine_keeps_groups id before) (by decide) hs

theorem onsetWith {trip : State → State} (ht : ∀ s : State, P s → P (trip s)) (id : FaultId) (detail : Option Detail)
    (hs : P s) : P (s.onsetWith trip id detail) := by
  rw [State.onsetWith_eq]
  split
  · exact k.quiet hs rfl rfl rfl rfl
  · rw [State.onsetSteps_eq, State.respond_eq]
    have h1 : P (s.beforeResponse id (s.entry id).state detail (s.stepOne id detail)) :=
      k.quiet_of_keeps (State.beforeResponse_keeps _ _ _ _ _) (by decide) hs
    refine k.notify _ ?_
    split
    · exact h1
    · next c _ =>
      have h2 : P ((s.beforeResponse id (s.entry id).state detail (s.stepOne id detail)).applyRemove id c) := by
        unfold State.applyRemove
        split
        · split
          · exact k.removeGroup _ h1
          · exact h1
        · exact h1
      cases c.configured with
      | note => exact h2
      | hold => exact k.holdLine h2
      | reduce => exact k.reduceLine _ _ h2
      | remove => exact h2
      | trip => exact ht _ h2

theorem classifyGroup (g : Group) (hs : P s) : P (s.classifyGroup g) := by
  unfold State.classifyGroup
  split
  · have h1 : P ((s.setService g .removed .adoption).modCool g fun c => { c with adoptionSource := true }) :=
      k.cool _ id .inl (k.service _ (by rintro (h | h) <;> cases h) hs)
    simp only
    split
    · exact h1
    · exact k.onsetWith (fun _ ht => ht) _ _ h1
  · exact hs

theorem closeWindow (hs : P s) : P s.closeWindow :=
  State.eachGroup_kept P (fun _ _ ht => k.classifyGroup _ ht) (k.lineWrite _ rfl (fun _ => ⟨le_rfl, le_rfl, id⟩) hs)

theorem tripLine (hs : P s) : P s.tripLine := by
  unfold State.tripLine
  split
  · exact hs
  · exact hs
  · next h => exact k.tripped (by simp [State.closeWindow_line h, h]) (k.closeWindow hs)
  all_goals next h => exact k.tripped (by simp [h]) hs

theorem onset (id : FaultId) (detail : Option Detail) (hs : P s) : P (s.onset id detail) :=
  k.onsetWith (fun _ ht => k.tripLine ht) id detail hs

theorem conditionChange (id : FaultId) (before after : Bool) (detail : Option Detail) (hs : P s) :
    P (s.conditionChange id before after detail) := by
  unfold State.conditionChange
  split
  · exact k.onset _ _ hs
  · exact k.departure _ hs
  · exact hs
  · exact hs

end Kept

end Sys2Proof.Machine
end

