-- ==== Sys2Proof/Proofs/KeptCommands.lean ====
section
/-! A condition of the kind of `Kept` is kept by every command but the two resets, the expiry of the allocation timer and the
close of the adopt window. -/

namespace Sys2Proof.Machine

/-- The derate step moves the governing breakpoint and the percent alone (R72). -/
theorem GroupCooling.derateStep_frame (c : GroupCooling) (table : Eight (Int × Nat)) (h : Nat) (t : Int) :
    c.derateStep table h t =
      { c with governing := (c.derateStep table h t).governing, percent := (c.derateStep table h t).percent } := by
  unfold GroupCooling.derateStep
  simp only
  split
  · rfl
  · split <;> split <;> rfl

namespace Kept

variable {P : State → Prop} (k : Kept P) {s : State}
include k

/-! ### Requests -/

theorem begin (hs : P s) : P s.begin := k.quiet hs rfl rfl rfl rfl

theorem modPort (p : Port) (f : PortRecord → PortRecord) (hs : P s) : P (s.modPort p f) := k.quiet hs rfl rfl rfl rfl

theorem takeRequest {rq : Req} {kind : ReqKind} {length : Option Nat} {body : State → State × Option Answer}
    (hbody : ∀ t : State, P t → P (body t).1) (hs : P s) : P (s.takeRequest rq kind length body) := by
  unfold State.takeRequest
  have h0 : P (s.arrive rq.port) := k.modPort _ _ (k.begin hs)
  simp only
  split
  · exact k.modPort _ _ h0
  · exact k.modPort _ _ h0
  · split
    · exact k.modPort _ _ h0
    · split
      · exact k.modPort _ _ (k.modPort _ _ h0)
      · split
        · exact k.modPort _ _ (k.modPort _ _ h0)
        · have h1 := hbody _ (k.modPort rq.port (fun q => { q with request := .answering }) h0)
          split
          · next he => rw [he] at h1; exact k.modPort _ _ h1
          · next he => rw [he] at h1; exact h1

/-! ### The anode-effect unit -/

theorem modInterval (f : Interval → Interval) (hs : P s) : P (s.modInterval f) := k.quiet hs rfl rfl rfl rfl

theorem modPot (i : Nat) (f : Pot → Pot) (hs : P s) : P (s.modPot i f) := k.quiet hs rfl rfl rfl rfl

theorem ae (u : AeUnit) (hs : P s) : P { s with ae := u } := k.quiet hs rfl rfl rfl rfl

theorem captureAe (r : AeRecord) (hs : P s) : P (s.captureAe r) := by
  unfold State.captureAe
  split
  · exact k.quiet hs rfl rfl rfl rfl
  · exact hs

theorem createRecord (pot peak : Nat) (original : Option Nat) (hs : P s) : P (s.createRecord pot peak original) := by
  unfold State.createRecord
  simp only
  refine k.captureAe _ ?_
  have h1 := k.notify (.quenchRequest (s.newRecord pot peak original).id (s.newRecord pot peak original).attempt pot
    (s.place pot).1 (s.place pot).2) (k.notify (.aeOnset (some (s.newRecord pot peak original).id) pot (s.place pot).1
    (s.place pot).2 (s.newRecord pot peak original).onset (s.newRecord pot peak original).current
    (s.newRecord pot peak original).peak (s.ae.enter (s.newRecord pot peak original)).list.length original)
    (k.ae (s.ae.enter (s.newRecord pot peak original)) hs))
  cases original with
  | none => exact k.modInterval _ h1
  | some _ => exact h1

theorem overflowOnset (pot peak : Nat) (hs : P s) : P (s.overflowOnset pot peak) := by
  unfold State.overflowOnset
  simp only
  split
  · exact k.modInterval _ (k.notify _ (k.modPot _ _ (k.ae _ hs)))
  · exact k.onset _ _ (k.ae _ (k.modInterval _ (k.notify _ (k.modPot _ _ (k.ae _ hs)))))

theorem takeOnset (pot peak : Nat) (hs : P s) : P (s.takeOnset pot peak) := by
  unfold State.takeOnset
  split
  · exact k.createRecord _ _ _ hs
  · exact k.overflowOnset _ _ hs

theorem evaluateStorm (hs : P s) : P s.evaluateStorm := by
  unfold State.evaluateStorm
  split
  · exact k.departure _ (k.ae _ hs)
  · exact hs

theorem evaluateUnquenched (hs : P s) : P s.evaluateUnquenched := by
  unfold State.evaluateUnquenched
  split
  · exact k.departure _ (k.ae _ hs)
  · exact hs

theorem promote (hs : P s) : P s.promote := by
  unfold State.promote
  split
  · exact hs
  · exact k.createRecord _ _ _ (k.modPot _ _ (k.ae _ hs))

theorem endListed (r : AeRecord) (reason : EndReason) (hs : P s) : P (s.endListed r reason) :=
  k.evaluateStorm (k.promote (k.evaluateUnquenched (k.ae _ (k.modInterval _ (k.notify _ (k.modPot _ _ hs))))))

theorem endUnlisted (o : Overflow) (reason : EndReason) (hs : P s) : P (s.endUnlisted o reason) :=
  k.evaluateStorm (k.notify _ (k.modPot _ _ (k.modPot _ _ (k.ae _ hs))))

theorem endAe (pot : Nat) (reason : EndReason) (hs : P s) : P (s.endAe pot reason) := by
  unfold State.endAe
  split
  · exact k.endListed _ _ hs
  · split
    · exact k.endUnlisted _ _ hs
    · exact hs

theorem detectOnset (pot : Nat) (hs : P s) : P (s.detectOnset pot) := by
  unfold State.detectOnset
  simp only
  split
  · split
    · exact k.takeOnset _ _ (k.modPot _ _ hs)
    · exact k.modPot _ _ hs
  · exact k.modPot _ _ hs

theorem detectEnd (pot : Nat) (hs : P s) : P (s.detectEnd pot) := by
  unfold State.detectEnd
  have h1 : P (s.raisePeak pot) := k.ae _ hs
  simp only
  split
  · split
    · exact k.endAe _ _ (k.modPot _ _ h1)
    · exact k.modPot _ _ h1
  · exact k.modPot _ _ h1

theorem evaluateAe (pot : Nat) (hs : P s) : P (s.evaluateAe pot) := by
  unfold State.evaluateAe
  split
  · exact k.detectOnset _ hs
  · exact k.detectOnset _ hs
  · exact k.detectEnd _ hs
  · exact k.detectEnd _ hs

theorem nextAttempt (r : AeRecord) (hs : P s) : P (s.nextAttempt r) := by
  unfold State.nextAttempt State.exhaust
  split
  · exact k.notify _ (k.ae _ hs)
  · simp only
    split
    · exact k.ae _ hs
    · exact k.onset _ _ (k.ae _ (k.ae _ hs))

omit k in
theorem quenchReply (id attempt : Nat) {accept : AeRecord → State → State × Option Answer}
    (ha : ∀ (r : AeRecord) (t : State), P t → P (accept r t).1) (hs : P s) :
    P (Machine.quenchReply id attempt accept s).1 := by
  unfold Machine.quenchReply refuse
  split
  · exact hs
  · split
    · exact hs
    · split
      · exact hs
      · split
        · exact hs
        · split
          · exact hs
          · exact ha _ _ hs

theorem startQuench (r : AeRecord) (hs : P s) : P (Machine.startQuench r s).1 := by
  unfold Machine.startQuench answer
  split
  · exact k.ae _ hs
  · exact hs

/-! ### The scan receiver -/

theorem evaluateStale (hs : P s) : P s.evaluateStale := by
  unfold State.evaluateStale
  split
  · exact k.conditionChange _ _ _ _ (k.quiet hs rfl rfl rfl rfl)
  · exact hs

theorem restale (hs : P s) : P s.restale := k.evaluateStale (k.quiet hs rfl rfl rfl rfl)

theorem bandTest (i : Nat) (hs : P s) : P (s.bandTest i) :=
  k.quiet_of_keeps (s.bandTest_keeps i) (by decide) hs

theorem sample (sectionNo position voltage : Nat) (hs : P s) : P (s.sample sectionNo position voltage) := by
  unfold State.sample
  split
  · exact k.quiet hs rfl rfl rfl rfl
  · simp only
    split
    · unfold State.sampleInCircuit
      simp only
      refine k.evaluateAe _ (k.bandTest _ ?_)
      split
      · exact k.restale (k.modPot _ _ hs)
      · exact k.modPot _ _ hs
    · exact k.modPot _ _ hs

omit k in
theorem switchPot (goal : Circuit) {apply : State → Nat → State} (ha : ∀ (t : State) (i : Nat), P t → P (apply t i))
    (i : Nat) (hs : P s) : P (Machine.switchPot goal apply i s).1 := by
  unfold Machine.switchPot refuse answer
  split
  · exact hs
  · split
    · exact hs
    · split
      · exact hs
      · split
        · exact hs
        · exact ha _ _ hs

theorem cutOut (i : Nat) (hs : P s) : P (s.cutOut i) := k.restale (k.modPot _ _ (k.endAe _ _ (k.modPot _ _ hs)))

theorem cutIn (i : Nat) (hs : P s) : P (s.cutIn i) := k.restale (k.modPot _ _ hs)

/-! ### Curtailment and metering -/

theorem writeClaim (slot : ClaimSlot) (v : Nat) (hs : P s) : P (s.writeClaim slot v) := k.quiet hs rfl rfl rfl rfl

theorem withdrawClaim (slot : ClaimSlot) (hs : P s) : P (s.withdrawClaim slot) := k.quiet hs rfl rfl rfl rfl

theorem curtail (c : Curtailment) (hs : P s) : P { s with curtail := c } := k.quiet hs rfl rfl rfl rfl

theorem metering (m : Metering) (hs : P s) : P { s with metering := m } := k.quiet hs rfl rfl rfl rfl

theorem writeCurtail (hs : P s) : P s.writeCurtail := by
  unfold State.writeCurtail
  split
  · exact k.withdrawClaim _ hs
  · split
    · exact k.writeClaim _ _ (k.curtail _ hs)
    · exact k.writeClaim _ _ (k.curtail _ hs)

theorem activateOrder (o : CurtailOrder) (hs : P s) : P (s.activateOrder o) :=
  k.writeCurtail (k.modInterval _ (k.notify _ (k.curtail _ hs)))

theorem emptyEnforced (hs : P s) : P s.emptyEnforced := by
  unfold State.emptyEnforced
  split
  · exact k.conditionChange _ _ _ _ (k.curtail _ hs)
  · exact hs

theorem removeOrder (o : CurtailOrder) (state : OrderState) (hs : P s) : P (s.removeOrder o state) := by
  unfold State.removeOrder
  have h1 : P ((s.setOrders (s.curtail.orders.filter fun x => x.tag != o.tag)).noteOrder o state) :=
    k.notify _ (k.curtail _ hs)
  simp only
  split
  · exact k.emptyEnforced (k.writeCurtail h1)
  all_goals exact h1

theorem postOrder (p : Port) (tag delay duration ceiling : Nat) (hs : P s) :
    P (Machine.postOrder p tag delay duration ceiling s).1 := by
  unfold Machine.postOrder refuse answer
  split
  · exact hs
  · split
    · exact hs
    · split
      · exact hs
      · simp only
        split
        · exact k.activateOrder _ (k.notify _ (k.curtail _ hs))
        · exact k.notify _ (k.curtail _ hs)

theorem cancelOrder (tag : Nat) (hs : P s) : P (Machine.cancelOrder tag s).1 := by
  unfold Machine.cancelOrder refuse answer
  split
  · exact hs
  · split
    · exact hs
    · exact k.removeOrder _ _ hs

theorem complianceTest (pBill : Nat) (hs : P s) : P (s.complianceTest pBill) := by
  unfold State.complianceTest State.breach
  split
  · exact k.curtail _ hs
  · split
    · split
      · exact hs
      · split
        · exact k.modInterval _ (k.onset _ _ (k.curtail _ hs))
        · exact k.curtail _ hs
    · split
      · exact k.departure _ (k.curtail _ hs)
      · exact k.curtail _ hs

theorem curtailHandoff (u pBill : Nat) (hs : P s) : P (s.curtailHandoff u pBill) := by
  unfold State.curtailHandoff
  simp only
  refine k.complianceTest _ (k.curtail _ ?_)
  split
  · exact k.curtail _ hs
  · exact k.writeCurtail (k.curtail _ hs)

theorem closeInterval (i : Interval) (short unsynced : Bool) (hs : P s) : P (s.closeInterval i short unsynced) := by
  unfold State.closeInterval State.endExceedance
  simp only
  refine k.metering _ ?_
  have h1 : P ({ s with metering := { s.metering with
      ring := enterRing s.metering.ring (i.record s.timeBase short unsynced) } } : State).shiftCursors :=
    k.quiet hs rfl rfl rfl rfl
  split
  · exact k.departure _ (k.metering _ h1)
  · exact h1

theorem noteClosed (hs : P s) : P s.noteClosed := by
  unfold State.noteClosed
  split
  · exact k.notify _ hs
  · exact hs

theorem exceedanceTest (hs : P s) : P s.exceedanceTest := by
  unfold State.exceedanceTest
  split
  · exact hs
  · simp only
    split
    · exact k.onset _ _ (k.modInterval _ (k.metering _ (k.metering _ hs)))
    · exact k.metering _ hs

theorem demandStep (hs : P s) : P s.demandStep := by
  unfold State.demandStep State.demandCompute
  split
  · exact hs
  · split
    · exact k.writeClaim _ _ (k.metering _ hs)
    · exact k.withdrawClaim _ (k.metering _ hs)

theorem meteringExpiry (hs : P s) : P s.meteringExpiry :=
  k.curtailHandoff _ _ (k.demandStep (k.exceedanceTest (k.metering _ (k.modInterval _ (k.ae _ (k.metering _
    (k.metering _ hs)))))))

/-! ### The input monitor and the cooling supervisor -/

/-- A change of a group's inputs and cooling that leaves its pump-loss state and grace timer. -/
theorem coolSame {g : Group} (f : GroupCooling → GroupCooling) (hp : ∀ c : GroupCooling, (f c).pumpLoss = c.pumpLoss)
    (ht : ∀ c : GroupCooling, (f c).graceTimer = c.graceTimer) (hs : P s) : P (s.modCool g f) :=
  k.cool f (by rw [hp, ht]; exact id) (by rw [hp]; exact .inl) hs

theorem testPattern (g : Group) (hs : P s) : P (s.modCool g fun c => c.testPattern (s.groupConfig g)) :=
  k.coolSame _ (fun _ => rfl) (fun _ => rfl) hs

theorem retestPattern (g : Group) (hs : P s) : P (s.retestPattern g) := by
  unfold State.retestPattern
  simp only
  split
  · exact k.conditionChange _ _ _ _ (k.testPattern g hs)
  · exact hs

theorem frameMismatch (g : Group) (current : Nat) (hs : P s) : P (s.frameMismatch g current) := by
  unfold State.frameMismatch
  simp only
  refine k.conditionChange _ _ _ _ ?_
  have h1 : P (if (s.cool g).settled = true then s.modCool g fun c => c.testPattern (s.groupConfig g) else s) := by
    split
    · exact k.testPattern g hs
    · exact hs
  split
  · exact k.coolSame _ (fun _ => rfl) (fun _ => rfl) h1
  · exact h1

theorem protectionTest (g : Group) (hs : P s) : P (s.protectionTest g) := by
  unfold State.protectionTest
  split
  · exact k.conditionChange _ _ _ _ (k.coolSame _ (fun _ => rfl) (fun _ => rfl) hs)
  · exact hs

theorem startGrace {g : Group} (hset : s.inSet g = true) (hs : P s) : P (s.startGrace g) := by
  have h1 : P (s.modCool g fun c =>
      { c with pumpLoss := .grace, graceTimer := some (s.timeBase + (s.groupConfig g).graceTime * 1000) }) :=
    k.cool _ (fun _ => by simp) (fun _ => .inr hset) hs
  exact k.notify _ (k.recool g h1)

theorem pumpTest (g : Group) (hs : P s) : P (s.pumpTest g) := by
  unfold State.pumpTest
  split
  · split
    · split
      · next h => exact k.startGrace h.1 hs
      · exact hs
    · split
      · exact hs
      · exact k.recool g (k.cool _ (fun _ => by simp) (fun h => by cases h) hs)
    · next hp =>
      split
      · exact hs
      · refine k.recool g (k.departure _ (k.cool _ (fun h => ?_) (fun h => by cases h) hs))
        rw [hp] at h
        simpa using h
  · exact hs

theorem graceExpired (g : Group) (hs : P s) : P (s.graceExpired g) :=
  k.onset _ _ (k.cool _ (fun _ => by simp) (fun h => by cases h) hs)

theorem rederive (g : Group) (hs : P s) : P (s.rederive g) :=
  k.recool g (k.coolSame _ (fun c => by cases c.lastTemps <;> rfl) (fun c => by cases c.lastTemps <;> rfl) hs)

theorem takeTemperatures (g : Group) (f : StatusFrame) (hs : P s) : P (s.takeTemperatures g f) :=
  k.recool g (k.coolSame _ (fun c => by rw [c.derateStep_frame]) (fun c => by rw [c.derateStep_frame]) hs)

theorem warningTest (g : Group) (outlet : Int) (hs : P s) : P (s.warningTest g outlet) := by
  unfold State.warningTest
  split
  · exact k.notify _ (k.coolSame _ (fun _ => rfl) (fun _ => rfl) hs)
  · exact hs

theorem overtempTest (g : Group) (outlet : Int) (hs : P s) : P (s.overtempTest g outlet) :=
  k.conditionChange _ _ _ _ (k.coolSame _ (fun _ => rfl) (fun _ => rfl) hs)

/-! ### The group interfaces -/

theorem linkReturn (g : Group) (hs : P s) : P (s.linkReturn g) := by
  unfold State.linkReturn
  split
  · simp only
    refine k.service _ ?_ (k.departure _ hs)
    split <;> simp
  all_goals exact hs

theorem trackingCheck (g : Group) (f : StatusFrame) (hs : P s) : P (s.trackingCheck g f) := by
  unfold State.trackingCheck
  simp only
  split
  · exact hs
  · split
    · split
      · next h => exact k.group _ rfl rfl rfl (fun _ => .inr h.2.1) hs
      · exact hs
    · exact k.departure _ (k.group _ rfl rfl rfl (fun h => by cases h) hs)

theorem takeFrame (g : Group) (f : StatusFrame) (hs : P s) : P (s.takeFrame g f) := by
  have h0 : P (s.storeFrame g f) :=
    k.group _ rfl rfl (by cases (s.group g).linkTimer <;> rfl) .inl hs
  have h1 := k.trackingCheck g f (k.linkReturn g h0)
  have h2 : P ((((s.storeFrame g f).linkReturn g).trackingCheck g f).monitorFrame g f) :=
    k.pumpTest g (k.protectionTest g (k.frameMismatch g f.current (k.coolSame _ (fun _ => rfl) (fun _ => rfl) h1)))
  exact k.overtempTest g f.outlet (k.warningTest g f.outlet (k.takeTemperatures g f h2))

theorem linkLoss (g : Group) (hs : P s) : P (s.linkLoss g) := by
  unfold State.linkLoss
  simp only
  refine k.onset _ _ ?_
  have h1 : P (((s.endRamps g).setService g .linkLost .link).modCool g GroupCooling.breakRuns) :=
    k.coolSame _ (fun _ => rfl) (fun _ => rfl) (k.service _ (by rintro (h | h) <;> cases h) (k.endRamps g hs))
  split
  · exact h1
  · exact k.sendOrder _ _ _ h1

theorem setGroupService (group mode : Nat) (hs : P s) : P (Machine.setGroupService group mode s).1 := by
  unfold Machine.setGroupService refuse
  split
  · exact hs
  · next g _ =>
    split
    · exact hs
    · split
      · next hrun =>
        have hrun' : ∀ f : GroupRecord → GroupRecord, (s.modGroup g f).running = true := fun _ => hrun
        split
        · unfold State.join answer refuse
          split
          · exact k.service _ (fun _ => hrun' _) (k.group _ rfl rfl rfl .inl hs)
          · exact k.service _ (fun _ => hrun' _) (k.group _ rfl rfl rfl .inl hs)
          all_goals exact hs
        · unfold State.leave answer refuse
          split
          · split
            · exact k.service _ (fun _ => hrun' _) (k.group _ rfl rfl rfl .inl hs)
            · exact hs
          · split
            · exact k.service _ (fun _ => hrun' _) (k.group _ rfl rfl rfl .inl hs)
            · exact hs
          all_goals exact hs
      · split
        · unfold State.select answer refuse
          split <;> first | exact hs | exact k.service _ (by rintro (h | h) <;> cases h) hs
        · exact hs

theorem restoreGroup (group : Nat) (hs : P s) : P (Machine.restoreGroup group s).1 := by
  unfold Machine.restoreGroup refuse answer
  split
  · exact hs
  · split
    · exact hs
    · split
      · exact hs
      · exact k.service _ (by rintro (h | h) <;> cases h) hs

end Kept

end Sys2Proof.Machine
end

