-- ==== Sys2Proof/Proofs/KeptSteps.lean ====
section
/-! A condition of the kind of `Kept` is kept by every step, once the resets, the expiry of the allocation timer and the close of
the adopt window keep it. -/

namespace Sys2Proof.Machine

/-! ### What the timed commands can do -/

section Timed

variable {s t : State}

theorem execLinkTimerExpiry_cases (g : Group) (h : execLinkTimerExpiry g s = .next t) :
    t = s.begin ∨ t = s.begin.linkLoss g := by
  unfold execLinkTimerExpiry at h
  dsimp only at h
  split at h <;> cases h
  · exact .inl rfl
  · exact .inr rfl

theorem execTrackingTimerExpiry_cases (g : Group) (h : execTrackingTimerExpiry g s = .next t) :
    t = s.begin ∨ t = s.begin.trackingExpired g := by
  unfold execTrackingTimerExpiry at h
  dsimp only at h
  split at h <;> cases h
  · exact .inl rfl
  · exact .inr rfl

theorem execGraceTimerExpiry_cases (g : Group) (h : execGraceTimerExpiry g s = .next t) :
    t = s.begin ∨ t = s.begin.graceExpired g := by
  unfold execGraceTimerExpiry at h
  dsimp only at h
  split at h <;> cases h
  · exact .inl rfl
  · exact .inr rfl

theorem execMarkerTimerExpiry_cases (h : execMarkerTimerExpiry s = .next t) :
    t = s.begin ∨ t = s.begin.markerTimeout := by
  unfold execMarkerTimerExpiry at h
  dsimp only at h
  split at h <;> cases h
  · exact .inl rfl
  · exact .inr rfl

theorem execMeteringTimerExpiry_cases (h : execMeteringTimerExpiry s = .next t) :
    t = s.begin ∨ t = s.begin.meteringExpiry := by
  unfold execMeteringTimerExpiry at h
  dsimp only at h
  split at h <;> cases h
  · exact .inl rfl
  · exact .inr rfl

theorem execAllocationTimerExpiry_cases (h : execAllocationTimerExpiry s = .next t) :
    t = s.begin ∨ t = s.begin.allocationExpiry := by
  unfold execAllocationTimerExpiry at h
  dsimp only at h
  split at h <;> cases h
  · exact .inl rfl
  · exact .inr rfl

theorem execIntervalDeadlineExpiry_cases (h : execIntervalDeadlineExpiry s = .next t) :
    t = s.begin ∨ ∃ i : Interval, t = (s.begin.closeInterval i false true).openSync .afterTimer := by
  unfold execIntervalDeadlineExpiry at h
  dsimp only at h
  split at h <;> cases h
  · exact .inl rfl
  · exact .inr ⟨_, rfl⟩

theorem execAckTimerExpiry_cases (id : Nat) (h : execAckTimerExpiry id s = .next t) :
    t = s.begin ∨ ∃ r : AeRecord, t = s.begin.nextAttempt r := by
  unfold execAckTimerExpiry at h
  dsimp only at h
  split at h <;> cases h
  · exact .inr ⟨_, rfl⟩
  · exact .inl rfl

theorem execQuenchTimerExpiry_cases (id : Nat) (h : execQuenchTimerExpiry id s = .next t) :
    t = s.begin ∨ ∃ r : AeRecord, t = s.begin.nextAttempt r := by
  unfold execQuenchTimerExpiry at h
  dsimp only at h
  split at h <;> cases h
  · exact .inr ⟨_, rfl⟩
  · exact .inl rfl

theorem execOrderStartDeadline_cases (tag : Nat) (h : execOrderStartDeadline tag s = .next t) :
    t = s.begin ∨ ∃ o : CurtailOrder, t = s.begin.activateOrder o := by
  unfold execOrderStartDeadline at h
  dsimp only at h
  split at h <;> cases h
  · exact .inl rfl
  · exact .inr ⟨_, rfl⟩

theorem execOrderEndDeadline_cases (tag : Nat) (h : execOrderEndDeadline tag s = .next t) :
    t = s.begin ∨ ∃ o : CurtailOrder, t = s.begin.removeOrder o .done := by
  unfold execOrderEndDeadline at h
  dsimp only at h
  split at h <;> cases h
  · exact .inl rfl
  · exact .inr ⟨_, rfl⟩

theorem execSnapshotWriteComplete_cases (h : execSnapshotWriteComplete s = .next t) :
    t = s.begin ∨ ∃ f : Frame, t = ({ s.begin with stack := s.begin.stack.complete f }).notify
        (pushedNotice f (s.begin.stack.frames.length + 1)) := by
  unfold execSnapshotWriteComplete at h
  dsimp only at h
  split at h <;> cases h
  · exact .inl rfl
  · exact .inr ⟨_, rfl⟩

theorem execPowerOnReset_cases (straps : Four Straps) (h : execPowerOnReset straps s = .next t) : t = powerOn straps s :=
  (Host.Outcome.next.inj h).symm

theorem execConfigLoadComplete_cases (h : execConfigLoadComplete s = .next t) :
    (s.begin.loading = true ∧ t = s.begin.loadDone) ∨ t = s.begin := by
  unfold execConfigLoadComplete at h
  dsimp only at h
  split at h
  · exact .inl ⟨‹_›, (Host.Outcome.next.inj h).symm⟩
  · exact .inr (Host.Outcome.next.inj h).symm

theorem execAdoptWindowClose_cases (h : execAdoptWindowClose s = .next t) :
    (s.begin.line.state = some .adopting ∧ t = s.begin.adoptClose) ∨ t = s.begin := by
  unfold execAdoptWindowClose at h
  dsimp only at h
  split at h
  · exact .inl ⟨‹_›, (Host.Outcome.next.inj h).symm⟩
  all_goals exact .inr (Host.Outcome.next.inj h).symm

end Timed

/-- An item's own rule keeps a condition: the state it accepts meets it. -/
def ItemResult.meets (P : State → Prop) : ItemResult → Prop
  | .refused _ => True
  | .accepted s _ => P s

namespace Kept

variable {P : State → Prop} (k : Kept P) {s : State}
include k

/-! ### WRITE_CONFIG (R187) -/

theorem modConfig (f : Configuration → Configuration) (hs : P s) : P (s.modConfig f) := k.quiet hs rfl rfl rfl rfl

omit k in
theorem groupItem {index : Nat} {clamped : Bool} {f : State → Group → State}
    (hf : ∀ (t : State) (g : Group), P t → P (f t g)) (hs : P s) : (Machine.groupItem s index clamped f).meets P := by
  unfold Machine.groupItem
  cases groupOf index with
  | none => trivial
  | some g => exact hf _ _ hs

theorem clampedGroupItem {index lo hi v : Nat} {f : GroupConfig → Nat → GroupConfig} {after : State → Group → State}
    (ha : ∀ (t : State) (g : Group), P t → P (after t g)) (hs : P s) :
    (Machine.clampedGroupItem s index lo hi v f after).meets P :=
  groupItem (fun _ _ ht => ha _ _ (k.modConfig _ ht)) hs

theorem writeDerate (t : Eight (Int × Nat)) (hs : P s) : (Machine.writeDerate s t).meets P := by
  unfold Machine.writeDerate
  simp only
  split
  · exact State.eachGroup_kept P (fun _ _ ht => k.rederive _ ht) (k.modConfig _ hs)
  · trivial

theorem writeSection (index origin length : Nat) (hs : P s) : (Machine.writeSection s index origin length).meets P := by
  unfold Machine.writeSection
  split
  · simp only
    split
    · trivial
    · split
      · trivial
      · split
        · trivial
        · split
          · trivial
          · exact k.restale (k.quiet hs rfl rfl rfl rfl)
  · trivial

theorem bandRetest (hs : P s) : P s.bandRetest := by
  have fold : ∀ (is : List Nat) (t : State), P t → P (is.foldl (fun t i =>
      if t.mapped i && (t.pot i).circuit == .inCircuit && !(t.pot i).stale then t.bandTest i else t) t) := by
    intro is
    induction is with
    | nil => exact fun t ht => ht
    | cons i is ih =>
      intro t ht
      refine ih _ ?_
      dsimp only
      split
      · exact k.bandTest _ ht
      · exact ht
  exact fold _ _ hs

theorem writeItem (index : Nat) (item : ItemWrite) (hs : P s) : (Machine.writeItem s index item).meets P := by
  have hcfg : ∀ (f : Configuration → Configuration) (b : Bool), (ItemResult.accepted (s.modConfig f) b).meets P :=
    fun f _ => k.modConfig f hs
  cases item <;> simp only [Machine.writeItem]
  case floor v => unfold writeFloor; dsimp only; split <;> [trivial; exact hcfg _ _]
  case rating v => exact k.clampedGroupItem (fun _ _ ht => k.recool _ ht) hs
  case lossFraction v => exact k.clampedGroupItem (fun _ _ ht => k.recool _ ht) hs
  case weight | resolution | joinRate | leaveRate | trackingTolerance | pumpGrace =>
    exact k.clampedGroupItem (fun _ _ ht => ht) hs
  case filterCounts t => unfold writeFilterCounts; exact groupItem (fun _ _ ht => k.modConfig _ ht) hs
  case expectedPattern | enableMask => exact groupItem (fun _ _ ht => k.retestPattern _ (k.modConfig _ ht)) hs
  case tripMask m => exact groupItem (fun _ _ ht => k.protectionTest _ (k.modConfig _ ht)) hs
  case derateTable t => exact k.writeDerate t hs
  case warnThreshold v => unfold writeWarn; dsimp only; split <;> [trivial; exact hcfg _ _]
  case tripThreshold v => unfold writeTrip; dsimp only; split <;> [trivial; exact hcfg _ _]
  case sectionDescriptor o l => exact k.writeSection _ _ _ hs
  case bandSet => unfold writeBand; split <;> [trivial; exact k.bandRetest (k.modConfig _ hs)]
  case staleLimit v => exact k.evaluateStale (k.modConfig _ hs)
  case detectionSet => unfold writeDetection; split <;> [trivial; exact hcfg _ _]
  case intervalLength v => unfold writeIntervalLength; split <;> [exact hcfg _ _; trivial]
  case tariffWindow =>
    unfold writeWindow
    split <;> [(split <;> [trivial; exact hcfg _ _]); trivial]
  case actionRow =>
    unfold writeAction
    split <;> [(split <;> [exact hcfg _ _; trivial]); trivial]
  case unknown => trivial
  all_goals exact hcfg _ _

theorem writeConfig (p : Port) (index expected : Nat) (item : ItemWrite) (hs : P s) :
    P (Machine.writeConfig p index expected item s).1 := by
  have hitem := k.writeItem index item hs
  unfold Machine.writeConfig refuse
  split
  · exact hs
  · split
    · exact hs
    · split
      · exact hs
      · split
        · exact hs
        · next s1 c heq =>
          rw [heq] at hitem
          exact k.quiet hitem rfl rfl rfl rfl

/-! ### The other requests -/

theorem startLine (hs : P s) : P (Machine.startLine s).1 := by
  unfold Machine.startLine refuse answer
  split
  · exact hs
  · next h =>
    split
    · exact hs
    · have h1 : P { s with line := { s.line with iCmd := 0 } } :=
        k.lineWrite { s.line with iCmd := 0 } rfl (fun _ => ⟨Nat.zero_le _, le_rfl, id⟩) hs
      exact k.line (new := .starting) _ (by simp [not_not.mp h]) (.inl rfl) h1

theorem stopLine (hs : P s) : P (Machine.stopLine s).1 := by
  unfold Machine.stopLine refuse answer
  split
  all_goals first
    | exact hs
    | next h => exact k.line (new := .stopping) _ (by simp [h]) (.inl rfl) hs

theorem resetTrip (hs : P s) : P (Machine.resetTrip s).1 := by
  unfold Machine.resetTrip refuse answer
  split
  · exact hs
  · next h =>
    have h : s.line.state = some .tripped := by simpa using h
    split
    · exact hs
    · exact k.line _ (by simp [h]) (.inr ⟨rfl, by simp [State.running, h, LineState.running]⟩) hs

theorem endResponses (e : Entry) (hs : P s) : P (s.endResponses e) := by
  unfold State.endResponses
  have h1 : P (if e.carries .reduce = true then s.evaluateLines.writeFaultClaim else s.evaluateLines) := by
    have h2 : P s.evaluateLines := k.quiet hs rfl rfl rfl rfl
    split <;> [exact k.writeFaultClaim h2; exact h2]
  dsimp only
  generalize (if e.carries .reduce = true then s.evaluateLines.writeFaultClaim else s.evaluateLines) = t at h1 ⊢
  split
  · next h => exact k.line (new := .regulating) _ (by simp [h.2.2]) (.inl rfl) h1
  · exact h1

theorem clearFault (p : Port) (kind group : Nat) (hs : P s) : P (Machine.clearFault p kind group s).1 := by
  unfold Machine.clearFault refuse answer
  split
  · exact hs
  · next id _ =>
    split
    · have h1 : P ((s.setEntry id clearEntry).endResponses (s.entry id)) :=
        k.endResponses _ (k.quiet hs rfl rfl rfl rfl)
      exact k.notify _ h1
    · exact hs
    · exact hs

theorem saveConfig (rq : Req) (hs : P s) : P (Machine.saveConfig rq s).1 := by
  unfold Machine.saveConfig refuse
  split
  · exact hs
  · exact hs
  · next h => exact k.quiet hs rfl rfl rfl (by simp [State.loading, State.modPort, h])

theorem setClock (day tod : Nat) (hs : P s) : P (Machine.setClock day tod s).1 := by
  unfold Machine.setClock refuse answer
  split
  · exact hs
  · exact k.modInterval _ (k.metering _ hs)

theorem setSetpoint (p : Port) (v : Nat) (hs : P s) : P (Machine.setSetpoint p v s).1 := by
  unfold Machine.setSetpoint refuse answer
  split <;> first | exact hs | exact k.quiet hs rfl rfl rfl rfl

theorem releaseLimit (slot : ClaimSlot) (p : Port) (hs : P s) : P (Machine.releaseLimit slot p s).1 := by
  unfold Machine.releaseLimit refuse answer
  split <;> [exact k.quiet hs rfl rfl rfl rfl; exact hs]

theorem dropTop (n : Nat) (hs : P s) : P (Machine.dropTop n s).1 := by
  unfold Machine.dropTop refuse answer
  split
  · exact hs
  · split
    · exact hs
    · exact hs
    · split <;> [exact hs; exact k.quiet hs rfl rfl rfl rfl]

theorem setCursorOn (p : Port) (c : Cursor) (hs : P s) : P (s.setCursor p c) := k.modPort _ _ hs

theorem setCursor (p : Port) (target position direction : Nat) (hs : P s) :
    P (Machine.setCursor p target position direction s).1 := by
  unfold Machine.setCursor refuse answer
  split
  · simp only
    split
    · split <;> [exact hs; exact k.setCursorOn _ _ hs]
    · split
      · exact hs
      · split <;> [exact hs; exact k.setCursorOn _ _ hs]
  · exact hs

theorem readNext (p : Port) (hs : P s) : P (Machine.readNext p s).1 := by
  unfold Machine.readNext refuse answerWith
  simp only
  split <;> [exact hs; exact k.setCursorOn _ _ hs]

theorem readGroupStatus (p : Port) (n : Nat) (hs : P s) : P (Machine.readGroupStatus p n s).1 := by
  unfold Machine.readGroupStatus refuse answerWith
  split
  · exact hs
  · simp only
    split <;> [exact k.coolSame _ (fun _ => rfl) (fun _ => rfl) hs; exact hs]

/-! ### The expiry of the allocation timer (R32) -/

theorem startExpiry (g : Group) (hs : P s) : P (s.startExpiry g) := k.enrol g (k.group _ rfl rfl rfl .inl hs)

theorem headroomStep (hs : P s) : P s.headroomStep := by
  unfold State.headroomStep
  simp only
  split
  · split <;> [exact k.withdrawClaim _ hs; exact hs]
  · split
    · split <;> exact k.writeClaim _ _ hs
    · exact hs

theorem targetStep (hs : P s) : P s.targetStep := by
  have h1 : P s.headroomStep.deriveTarget := k.lineWrite _ rfl (fun _ => ⟨le_rfl, le_rfl, id⟩) (k.headroomStep hs)
  exact k.lineWrite _ rfl (fun _ => ⟨le_rfl, le_rfl, id⟩) h1

/-- An expiry up to its target step. -/
theorem aimed (hs : P s) : P s.aimed := by
  have h1 : P s.restartAlloc := k.lineWrite _ rfl (fun _ => ⟨le_rfl, le_rfl, id⟩) hs
  exact k.targetStep (State.eachGroup_kept P (fun _ _ ht => k.startExpiry _ ht) h1)

theorem setICmd (i : Nat) (hrun : s.running = true) (hs : P s) : P (s.setICmd i) :=
  k.lineWrite _ rfl (fun h => by rw [hrun] at h; cases h) hs

/-- The own step of a state, but for the end of the stop descent. -/
theorem ownStep (hstop : s.line.state = some .stopping → s.line.iCmd - min s.config.stopRate s.line.iCmd ≠ 0)
    (hs : P s) : P s.ownStep.1 := by
  unfold State.ownStep
  have hrun : ∀ l : LineState, s.line.state = some l → l.running = true → s.running = true := by
    intro l h1 h2
    simp [State.running, h1, h2]
  split
  · next h => exact k.setICmd _ (hrun _ h rfl) hs
  · next h =>
    have h1 : P (s.setICmd (min 60000 (s.line.iCmd + s.config.startRate))) := k.setICmd _ (hrun _ h rfl) hs
    unfold State.startRise
    simp only
    split
    · refine k.line _ (by simp [State.setICmd, h]) (.inl ?_) h1
      unfold State.regulatingOrHold
      split <;> rfl
    · exact h1
  · next h =>
    unfold State.stopDescent
    simp only [if_neg (hstop h)]
    exact k.setICmd _ (hrun _ h rfl) hs
  all_goals exact hs

theorem headroomEvent (u : Nat) (hs : P s) : P (s.headroomEvent u) :=
  k.conditionChange _ _ _ _ (k.ae _ hs)

theorem rampGroup (g : Group) (hs : P s) : P (s.rampGroup g) := by
  unfold State.rampGroup
  simp only
  split
  · split
    · exact k.service _ (by rintro (h | h) <;> cases h) (k.group _ rfl rfl rfl .inl hs)
    · exact k.group _ rfl rfl rfl .inl hs
  · split
    · exact k.service _ (by rintro (h | h) <;> cases h) (k.group _ rfl rfl rfl .inl hs)
    · exact k.group _ rfl rfl rfl .inl hs
  all_goals exact hs

theorem runAllocation (l : LineState) (hrun : s.running = true) (hs : P s) : P (s.runAllocation l) := by
  have h1 : P (s.eachGroup State.rampGroup) ∧ (s.eachGroup State.rampGroup).running = true :=
    State.eachGroup_kept (fun t => P t ∧ t.running = true)
      (fun t g ht => ⟨k.rampGroup g ht.1, (State.running_of_line (by rw [State.rampGroup_line])).trans ht.2⟩) ⟨hs, hrun⟩
  have hnot : ∀ {t : State} {q : Prop}, t.running = true → t.running = false → q := fun h h' => by rw [h] at h'; cases h'
  have h2 : P ((s.eachGroup State.rampGroup).allocate l) := k.lineWrite _ rfl (hnot h1.2) h1.1
  have h3 : P ((s.eachGroup State.rampGroup).allocate l).handOrders :=
    State.eachGroup_kept P (fun _ _ ht => k.sendOrder _ _ _ ht) h2
  have h4 : ((s.eachGroup State.rampGroup).allocate l).handOrders.running = true :=
    (State.running_of_line (by rw [State.handOrders_line]; rfl)).trans h1.2
  exact k.conditionChange _ _ _ _ (k.lineWrite _ rfl (hnot h4) h3)

theorem finishExpiry (sent : Bool) (hs : P s) : P (s.finishExpiry sent) := by
  unfold State.finishExpiry
  split
  case h_1 h | h_2 h | h_3 h | h_4 h => exact k.runAllocation _ (by simp [State.running, h, LineState.running]) hs
  · split <;> [exact k.capacityDeparture hs; exact k.sendBlocked hs]
  · exact k.sendBlocked hs
  · exact hs
  · exact hs

/-- An expiry that does not end the stop descent. -/
theorem allocationExpiry (hstop : s.line.state = some .stopping → s.line.iCmd - min s.config.stopRate s.line.iCmd ≠ 0)
    (hs : P s) : P s.allocationExpiry := by
  rw [State.allocationExpiry_eq]
  refine k.finishExpiry _ (k.headroomEvent _ (k.ownStep (fun h => ?_) (k.aimed hs)))
  rw [State.aimed_line] at h ⊢
  rw [s.aimed_keeps .config (by decide)]
  exact hstop h

/-! ### Every step -/

/-- The commands that a condition of this kind does not keep by itself. -/
def special : Instr → Bool
  | .powerOnReset _ | .configLoadComplete | .responseSent _ | .allocationTimerExpiry | .adoptWindowClose => true
  | _ => false

/-- A request, whatever its own rule does among the operations above. -/
theorem request {rq : Req} {kind : ReqKind} {body : State → State × Option Answer}
    (hbody : ∀ t : State, P t → P (body t).1) (hs : P s) {t : State}
    (h : (Host.Outcome.next (s.take rq kind body) : Host.Outcome State Fault Refusal) = .next t) : P t := by
  cases h
  exact k.takeRequest hbody hs

theorem read {rq : Req} {kind : ReqKind} {body : State → State × Option Answer} (hbody : ∀ t : State, (body t).1 = t)
    (hs : P s) {t : State}
    (h : (Host.Outcome.next (s.take rq kind body) : Host.Outcome State Fault Refusal) = .next t) : P t :=
  k.request (fun u hu => by rw [hbody]; exact hu) hs h

theorem badRequestFrame (p : Port) (bytes : List Byte) (hs : P s) {t : State}
    (h : execBadRequestFrame p bytes s = .next t) : P t := by
  unfold execBadRequestFrame at h
  simp only at h
  split at h <;> cases h
  · exact k.modPort _ _ (k.begin hs)
  · exact k.begin hs

theorem gapTimerExpiry (p : Port) (bytes : List Byte) (hs : P s) {t : State}
    (h : execGapTimerExpiry p bytes s = .next t) : P t := by
  unfold execGapTimerExpiry at h
  simp only at h
  split at h <;> cases h
  · exact k.modPort _ _ (k.begin hs)
  · exact k.begin hs

theorem requestWhileBusy (p : Port) (tag kind : Nat) (hs : P s) {t : State}
    (h : execRequestWhileBusy p tag kind s = .next t) : P t := by
  have h0 : P (s.arrive p) := k.modPort _ _ (k.begin hs)
  unfold execRequestWhileBusy at h
  simp only at h
  split at h
  · cases h; exact k.modPort _ _ h0
  · cases h; exact k.modPort _ _ h0
  · split at h <;> cases h
    · exact k.modPort _ _ h0
    · exact k.begin hs

theorem unknownKindRequest (p : Port) (tag kind : Nat) (hs : P s) {t : State}
    (h : execUnknownKindRequest p tag kind s = .next t) : P t := by
  have h0 : P (s.arrive p) := k.modPort _ _ (k.begin hs)
  unfold execUnknownKindRequest at h
  simp only at h
  split at h <;> cases h <;> exact k.modPort _ _ h0

/-- A frame that is discarded during the load (R190). -/
theorem unlessLoading {f : State → State} (hf : ∀ u : State, P u → P (f u)) (hs : P s) {t : State}
    (h : (if s.begin.loading then Host.Outcome.next s.begin else .next (f s.begin) : Host.Outcome State Fault Refusal) =
      .next t) : P t := by
  split at h <;> cases h
  · exact k.begin hs
  · exact hf _ (k.begin hs)

theorem saveComplete (hs : P s) {t : State} (h : execSaveComplete s = .next t) : P t := by
  unfold execSaveComplete at h
  simp only at h
  split at h <;> cases h
  · next v hv => exact k.quiet hs rfl rfl rfl (by
      simp only [State.begin_store] at hv
      simp [State.saveDone, State.respondOn, State.modPort, State.loading, hv])
  · exact k.begin hs
  · exact k.begin hs

theorem syncPulse (hs : P s) {t : State} (h : execSyncPulse s = .next t) : P t := by
  have h0 := k.begin hs
  unfold execSyncPulse at h
  simp only at h
  split at h
  · split at h <;> cases h
    · exact k.noteClosed (k.metering _ (k.metering _ h0))
    · exact k.metering _ h0
  · split at h <;> cases h
    · exact h0
    · exact k.metering _ (k.noteClosed (k.closeInterval _ _ _ h0))

theorem syncWindowExpiry (hs : P s) {t : State} (h : execSyncWindowExpiry s = .next t) : P t := by
  have h0 := k.begin hs
  unfold execSyncWindowExpiry at h
  simp only at h
  split at h
  · cases h; exact h0
  · split at h <;> cases h
    · exact k.noteClosed (k.metering _ h0)
    · exact k.metering _ h0

/-- Every command but the special ones keeps the condition. -/
theorem exec {c : Instr} (hc : special c = false) (hs : P s) {t : State} (h : Machine.exec c s = .next t) : P t := by
  cases c with
  | powerOnReset | configLoadComplete | responseSent | allocationTimerExpiry | adoptWindowClose => cases hc
  | badRequestFrame p bytes => exact k.badRequestFrame p bytes hs h
  | gapTimerExpiry p bytes => exact k.gapTimerExpiry p bytes hs h
  | requestWhileBusy p tag kind => exact k.requestWhileBusy p tag kind hs h
  | unknownKindRequest p tag kind => exact k.unknownKindRequest p tag kind hs h
  | startLine rq => exact k.request (fun _ => k.startLine) hs h
  | stopLine rq => exact k.request (fun _ => k.stopLine) hs h
  | resetTrip rq => exact k.request (fun _ => k.resetTrip) hs h
  | setGroupService rq group mode => exact k.request (fun _ => k.setGroupService group mode) hs h
  | restoreGroup rq group => exact k.request (fun _ => k.restoreGroup group) hs h
  | setSetpoint rq v => exact k.request (fun _ => k.setSetpoint rq.port v) hs h
  | setCutoutLimit rq v => exact k.request (fun _ hu => k.quiet hu rfl rfl rfl rfl) hs h
  | setServiceLimit rq v => exact k.request (fun _ hu => k.quiet hu rfl rfl rfl rfl) hs h
  | releaseCutoutLimit rq => exact k.request (fun _ => k.releaseLimit .cutout rq.port) hs h
  | releaseServiceLimit rq => exact k.request (fun _ => k.releaseLimit .service rq.port) hs h
  | cutOutPot rq i => exact k.request (fun _ => switchPot _ (apply := State.cutOut) (fun _ i => k.cutOut i) i) hs h
  | cutInPot rq i => exact k.request (fun _ => switchPot _ (apply := State.cutIn) (fun _ i => k.cutIn i) i) hs h
  | quenchStarted rq id n => exact k.request (fun _ => quenchReply id n (fun r _ => k.startQuench r)) hs h
  | quenchFailed rq id n => exact k.request (fun _ => quenchReply id n (fun r _ => k.nextAttempt r)) hs h
  | setClock rq day tod => exact k.request (fun _ => k.setClock day tod) hs h
  | postOrder rq tag delay duration ceiling =>
    exact k.request (fun _ => k.postOrder rq.port tag delay duration ceiling) hs h
  | cancelOrder rq tag => exact k.request (fun _ => k.cancelOrder tag) hs h
  | clearFault rq kind group => exact k.request (fun _ => k.clearFault rq.port kind group) hs h
  | dropTop rq n => exact k.request (fun _ => k.dropTop n) hs h
  | dropAll rq => exact k.request (fun _ hu => k.quiet hu rfl rfl rfl rfl) hs h
  | saveConfig rq => exact k.request (fun _ => k.saveConfig rq) hs h
  | saveComplete => exact k.saveComplete hs h
  | restart rq =>
    exact k.read (body := requestRestart) (fun u => by unfold requestRestart; split <;> rfl) hs h
  | writeConfig rq index expected item =>
    cases h
    exact k.takeRequest (fun _ => k.writeConfig rq.port index expected item) hs
  | readConfig rq code index =>
    exact k.read (body := readConfig code index) (fun u => by unfold readConfig; split <;> rfl) hs h
  | readLineStatus | readClaims | readAllocation | readAeList | readMetering | readOrders | readFaults | readStackStatus =>
    exact k.read (fun _ => rfl) hs h
  | readGroupStatus rq n => exact k.request (fun _ => k.readGroupStatus rq.port n) hs h
  | readCooling rq n => exact k.read (body := readCooling n) (fun u => by unfold readCooling; split <;> rfl) hs h
  | readScanStatus rq => exact k.request (fun _ hu => k.quiet hu rfl rfl rfl rfl) hs h
  | readPot rq i => exact k.read (body := readPot i) (fun u => by unfold readPot; split <;> rfl) hs h
  | readFault rq a b => exact k.read (body := readFault a b) (fun u => by unfold readFault; split <;> rfl) hs h
  | readFrame rq sel =>
    refine k.read (body := readFrame sel) (fun u => ?_) hs h
    unfold readFrame
    split <;> split <;> first | rfl | (split <;> rfl)
  | readPortStatus rq => exact k.request (fun _ hu => k.quiet hu rfl rfl rfl rfl) hs h
  | fetchNotices rq => exact k.request (fun _ hu => k.quiet hu rfl rfl rfl rfl) hs h
  | setCursor rq a b d => exact k.request (fun _ => k.setCursor rq.port a b d) hs h
  | readNext rq => exact k.request (fun _ => k.readNext rq.port) hs h
  | linkTimerExpiry g =>
    obtain rfl | rfl := execLinkTimerExpiry_cases g h
    exacts [k.begin hs, k.linkLoss g (k.begin hs)]
  | trackingTimerExpiry g =>
    obtain rfl | rfl := execTrackingTimerExpiry_cases g h
    exacts [k.begin hs, k.onset _ _ (k.group _ rfl rfl rfl (fun h => by cases h) (k.begin hs))]
  | graceTimerExpiry g =>
    obtain rfl | rfl := execGraceTimerExpiry_cases g h
    exacts [k.begin hs, k.graceExpired g (k.begin hs)]
  | statusFrame g frame =>
    cases frame with
    | bad => cases h; exact k.begin hs
    | good f => exact k.unlessLoading (fun _ => k.takeFrame g (saturateFrame f)) hs h
  | sampleFrame a b v => exact k.unlessLoading (fun _ => k.sample a b v) hs h
  | scanFrameBad =>
    exact k.unlessLoading (f := fun u => { u with scan := { u.scan with checkFlag := true } })
      (fun _ hu => k.quiet hu rfl rfl rfl rfl) hs h
  | cycleMarker =>
    exact k.unlessLoading (f := State.marker) (fun _ hu => k.restale (k.quiet hu rfl rfl rfl rfl)) hs h
  | markerTimerExpiry =>
    obtain rfl | rfl := execMarkerTimerExpiry_cases h
    exacts [k.begin hs, k.restale (k.quiet hs rfl rfl rfl rfl)]
  | meteringTimerExpiry =>
    obtain rfl | rfl := execMeteringTimerExpiry_cases h
    exacts [k.begin hs, k.meteringExpiry (k.begin hs)]
  | intervalDeadlineExpiry =>
    obtain rfl | ⟨i, rfl⟩ := execIntervalDeadlineExpiry_cases h
    exacts [k.begin hs, k.metering _ (k.closeInterval i _ _ (k.begin hs))]
  | syncPulse => exact k.syncPulse hs h
  | syncWindowExpiry => exact k.syncWindowExpiry hs h
  | ackTimerExpiry id =>
    obtain rfl | ⟨r, rfl⟩ := execAckTimerExpiry_cases id h
    exacts [k.begin hs, k.nextAttempt r (k.begin hs)]
  | quenchTimerExpiry id =>
    obtain rfl | ⟨r, rfl⟩ := execQuenchTimerExpiry_cases id h
    exacts [k.begin hs, k.nextAttempt r (k.begin hs)]
  | orderStartDeadline tag =>
    obtain rfl | ⟨o, rfl⟩ := execOrderStartDeadline_cases tag h
    exacts [k.begin hs, k.activateOrder o (k.begin hs)]
  | orderEndDeadline tag =>
    obtain rfl | ⟨o, rfl⟩ := execOrderEndDeadline_cases tag h
    exacts [k.begin hs, k.removeOrder o _ (k.begin hs)]
  | snapshotWriteComplete =>
    obtain rfl | ⟨f, rfl⟩ := execSnapshotWriteComplete_cases h
    exacts [k.begin hs, k.quiet hs rfl rfl rfl rfl]

/-- The sending of responses, and the restart that an accepted RESTART brings (R182, R191). -/
theorem responseSent (hrestart : ∀ u : State, P u → P u.restart) (p : Port) (hs : P s) {t : State}
    (h : execResponseSent p s = .next t) : P t := by
  have h1 : P (s.begin.sendResponses p) := k.quiet hs rfl rfl rfl rfl
  unfold execResponseSent at h
  dsimp only at h
  split at h
  · split at h
    · split at h <;> cases h
      · exact hrestart _ h1
      · exact h1
    · cases h; exact h1
  · cases h; exact k.begin hs
  · cases h; exact k.begin hs

section Special

variable (hpower : ∀ (straps : Four Straps) (u : State), P (powerOn straps u))
  (hload : ∀ u : State, u.loading = true → P u → P u.loadDone) (hrestart : ∀ u : State, P u → P u.restart)
  (hexpiry : ∀ u : State, P u → P u.allocationExpiry)
  (hadopt : ∀ u : State, u.line.state = some .adopting → P u → P u.adoptClose)
include hpower hload hrestart hexpiry hadopt

theorem execSpecial {c : Instr} (hc : special c = true) (hs : P s) {t : State} (h : Machine.exec c s = .next t) : P t := by
  unfold special at hc
  split at hc
  · next straps => exact execPowerOnReset_cases straps h ▸ hpower straps s
  · rcases execConfigLoadComplete_cases h with ⟨hl, ht⟩ | ht <;> rw [ht]
    exacts [hload _ hl (k.begin hs), k.begin hs]
  · exact k.responseSent hrestart _ hs h
  · rcases execAllocationTimerExpiry_cases h with ht | ht <;> rw [ht]
    exacts [k.begin hs, hexpiry _ (k.begin hs)]
  · rcases execAdoptWindowClose_cases h with ⟨hl, ht⟩ | ht <;> rw [ht]
    exacts [hadopt _ hl (k.begin hs), k.begin hs]
  · cases hc

/-- A condition of this kind is kept by every step, if the resets, the expiry of the allocation timer and the close of the adopt
window keep it. -/
theorem keptByStep : Machine.keptByStep P := by
  intro s t hs h
  unfold step at h
  split at h
  · cases h
    unfold State.tick
    split <;> exact k.quiet hs rfl rfl rfl rfl
  · next c rest _ =>
    have hs' : P { s with pending := rest } := k.quiet hs rfl rfl rfl rfl
    cases hc : special c with
    | true => exact k.execSpecial hpower hload hrestart hexpiry hadopt hc hs' h
    | false => exact k.exec hc hs' h

end Special

end Kept

end Sys2Proof.Machine
end

