-- ==== Sys2Proof/Proofs/TimersAgreed.lean ====
section
/-! The group timers stand where their rules have them after every step (R19, R21, R68, R69). -/

namespace Sys2Proof.Machine

/-- What `State.timersAgree` says of one group, from its record, its cooling and its place in the allocation set. -/
def GroupRecord.timed (r : GroupRecord) (c : GroupCooling) (member : Bool) : Prop :=
  r.linkTimer.isSome = r.service.member ∧ (r.trackingTimer.isSome = true → member = true) ∧
    (c.graceTimer.isSome = true ↔ c.pumpLoss = .grace) ∧ (c.pumpLoss = .grace → member = true)

/-- A crossing of the boundary of the set keeps the timers agreed: GRACE begins and ends with its timer. -/
theorem GroupRecord.timed_crossing {r r' : GroupRecord} {c : GroupCooling} {before : Bool} (h : r.timed c before)
    (gc : GroupConfig) (now : Nat) (after : Bool) (hlink : r'.linkTimer.isSome = r'.service.member)
    (htrack : r'.trackingTimer = r.trackingTimer) :
    (r'.crossing before after).timed (c.crossing gc now before after) after := by
  obtain ⟨-, ht, hg, hm⟩ := h
  cases before <;> cases after
  · exact ⟨hlink, fun h => ht (htrack ▸ h), hg, hm⟩
  · refine ⟨hlink, fun _ => rfl, ?_, fun _ => rfl⟩
    unfold GroupCooling.crossing GroupCooling.entering
    dsimp only
    split
    · simp
    · exact hg
  · refine ⟨hlink, fun h => by simp [GroupRecord.crossing] at h, ?_⟩
    unfold GroupCooling.crossing GroupCooling.leaving
    dsimp only
    split
    · simp
    · next hn => exact ⟨hg, fun h => absurd h hn⟩
  · exact ⟨hlink, fun _ => rfl, hg, fun _ => rfl⟩

theorem State.timersAgree_of_reacts {s t : State} (hs : s.timersAgree) (hr : ∀ g : Group, s.reacts t g) : t.timersAgree := by
  intro g
  have r := hr g
  obtain ⟨hl, ht, hg, hm⟩ := hs g
  refine ⟨r.link hl, ?_⟩
  cases ha : t.inSet g
  · cases hb : s.inSet g
    · obtain ⟨-, hp⟩ := r.outside hb
      simp only [GroupCooling.pump, Prod.mk.injEq] at hp
      obtain ⟨hp, hq, -⟩ := hp
      rw [hb] at ht hm
      refine ⟨fun h => ?_, by rw [hp, hq]; exact hg, by rw [hp]; exact hm⟩
      rcases r.tracking with h1 | h1 <;> rw [h1] at h
      exacts [ht h, nomatch h]
    · obtain ⟨h1, hp⟩ := r.left hb ha
      simp only [GroupCooling.pump, Prod.mk.injEq] at hp
      obtain ⟨hp, hq, -⟩ := hp
      refine ⟨fun h => (by rw [h1] at h; exact nomatch h), ?_⟩
      rw [hp, hq]
      unfold GroupCooling.leaving
      split
      · simp
      · next hn => exact ⟨hg, fun h => absurd h hn⟩
  · obtain ⟨-, hp⟩ := r.stays ha
    simp only [GroupCooling.pump, Prod.mk.injEq] at hp
    obtain ⟨hp, hq, -⟩ := hp
    exact ⟨fun _ => rfl, by rw [hp, hq]; exact hg, fun _ => rfl⟩

theorem State.timersAgree_congr {s t : State} (hs : s.timersAgree) (hline : t.line.state = s.line.state)
    (hgroups : t.groups = s.groups) (hcool : t.cooling = s.cooling) : t.timersAgree := by
  intro g
  have hg : t.group g = s.group g := congrArg (Eight.get · g) hgroups
  have hc : t.cool g = s.cool g := congrArg (Eight.get · g) hcool
  have hin : t.inSet g = s.inSet g := State.inSet_congr hline (by rw [hg]) (by rw [hg])
  rw [hg, hc, hin]
  exact hs g

/-- The timers stay agreed under a change of the line state, whatever it is. -/
theorem State.timersAgree_setLineState {s : State} (hs : s.timersAgree) (new : LineState) (c : LineCause) :
    (s.setLineState new c).timersAgree := by
  intro g
  have h := GroupRecord.timed_crossing (r' := s.group g) (hs g) (s.groupConfig g) s.timeBase
    ((s.setLineState new c).inSet g) (hs g).1 rfl
  rwa [← State.setLineState_group, ← State.setLineState_cool] at h

theorem keptTimers : Kept State.timersAgree where
  quiet hs hl hg hc _ := State.timersAgree_congr hs (congrArg Line.state hl) hg hc
  lineWrite l hl _ hs := State.timersAgree_congr hs hl rfl rfl
  line c _ _ hs := State.timersAgree_setLineState hs _ c
  service {s g new} c _ hs := by
    intro h
    by_cases hh : h = g
    · subst hh
      rw [State.setService_group_self, State.setService_cool_self]
      refine GroupRecord.timed_crossing (hs h) _ _ _ ?_ rfl
      exact linkTimerAfter_isSome (hs h).1
    · rw [State.setService_group_ne _ hh, State.setService_cool_ne _ hh, State.setService_inSet_ne _ hh]
      exact hs h
  group {s g} f hservice hawait hlink htrack hs := by
    intro h
    have hin : (s.modGroup g f).inSet h = s.inSet h := by
      refine State.inSet_congr rfl ?_ ?_ <;> rw [State.group_modGroup] <;> split
      all_goals first | rfl | (subst_vars; assumption)
    rw [hin, State.group_modGroup, State.cool_modGroup]
    split
    · next hh =>
      subst hh
      obtain ⟨h1, h2, h3⟩ := hs h
      exact ⟨by rw [hlink, hservice]; exact h1, fun h => (htrack h).elim h2 id, h3⟩
    · exact hs h
  enrol {s} g hs := by
    intro h
    rw [State.enrol_eq, State.membership_inSet]
    by_cases hh : h = g
    · subst hh
      rw [State.membership_group, if_pos rfl, State.membership_cool_self]
      exact GroupRecord.timed_crossing (r := s.group h) (hs h) _ _ _ (by simpa using (hs h).1) (by simp)
    · rw [State.membership_group, if_neg hh, State.membership_cool_ne _ _ hh, State.group_modGroup_ne _ hh]
      rw [show (s.modGroup g _).inSet h = s.inSet h from State.inSet_congr rfl
        (by rw [State.group_modGroup_ne _ hh]) (by rw [State.group_modGroup_ne _ hh])]
      exact hs h
  cool {s g} f hgrace hmember hs := by
    intro h
    have hin : (s.modCool g f).inSet h = s.inSet h := rfl
    rw [hin, State.cool_modCool, State.group_modCool]
    split
    · next hh =>
      subst hh
      obtain ⟨h1, h2, h3, h4⟩ := hs h
      exact ⟨h1, h2, hgrace h3, fun h => (hmember h).elim h4 id⟩
    · exact hs h
  tripped _ hs := State.timersAgree_of_reacts hs fun g => State.enterTripped_reacts _ g

/-! ### The resets, the load, the adopt window and the end of the stop descent -/

theorem State.timersAgree_of_opened {s : State}
    (hlink : ∀ g : Group, (s.group g).linkTimer.isSome = (s.group g).service.member ∧ (s.group g).trackingTimer = none)
    (hcool : ∀ g : Group, (s.cool g).graceTimer = none ∧ (s.cool g).pumpLoss = .none) : s.timersAgree := by
  intro g
  obtain ⟨hl, ht⟩ := hlink g
  obtain ⟨hg, hp⟩ := hcool g
  simp [hl, ht, hg, hp]

theorem windowGroup_timers (now : Nat) (selected : Bool) (tol res : Nat) :
    (windowGroup now selected tol res).linkTimer.isSome = (windowGroup now selected tol res).service.member ∧
      (windowGroup now selected tol res).trackingTimer = none := by
  cases selected <;> exact ⟨rfl, rfl⟩

theorem powerOn_timersAgree (straps : Four Straps) (s : State) : (powerOn straps s).timersAgree := by
  refine State.timersAgree_of_opened (fun g => ?_) fun g => ?_
  · rw [show (powerOn straps s).group g = powerOnGroup from Eight.get_fill _ g]
    exact ⟨rfl, rfl⟩
  · rw [show (powerOn straps s).cool g = powerOnCooling defaultGroupConfig.rating from Eight.get_fill _ g]
    exact ⟨rfl, rfl⟩

theorem restart_timersAgree (s : State) : s.restart.timersAgree := by
  refine State.timersAgree_of_opened (fun g => ?_) fun g => ?_
  · rw [show s.restart.group g = windowGroup s.timeBase (s.group g).service.selected (s.group g).tolerance
      (s.group g).resolution from Eight.get_ofFn _ g]
    exact windowGroup_timers _ _ _ _
  · rw [show s.restart.cool g = (s.cool g).restart (s.groupConfig g) from Eight.get_ofFn _ g]
    exact ⟨rfl, rfl⟩

/-- The state of the load before the entry to ADOPTING. -/
def State.taken (s : State) : State :=
  (if s.store.image.isSome then s.takeImage else s.takeImage.notify .configDefaulted).recount.startTimers

/-- The state before the entry to ADOPTING is that of the image, but for the timers, the stale count and a notice. -/
theorem State.taken_keeps (s : State) : s.takeImage.keepsAllBut s.taken [.line, .scan, .metering, .ports] := by
  intro p hp
  unfold State.taken
  split <;> (cases p <;> first | rfl | exact absurd (by simp) hp)

theorem loadDone_timersAgree (s : State) : s.loadDone.timersAgree := by
  have h1 : s.taken.timersAgree := by
    refine State.timersAgree_of_opened (fun g => ?_) fun g => ?_
    · rw [s.taken_keeps.group (by decide), show s.takeImage.group g = windowGroup _ _ _ _ from Eight.get_ofFn _ g]
      exact windowGroup_timers _ _ _ _
    · rw [s.taken_keeps.cool (by decide), show s.takeImage.cool g = powerOnCooling _ from Eight.get_ofFn _ g]
      exact ⟨rfl, rfl⟩
  exact State.timersAgree_congr (State.timersAgree_setLineState h1 .adopting .reset) rfl rfl rfl

theorem enterBlocked_timersAgree {s : State} {new : LineState} (c : LineCause) (hb : new.blocked = true)
    (hs : s.timersAgree) : (s.enterBlocked new c).timersAgree :=
  State.timersAgree_of_reacts hs fun g => State.enterBlocked_reacts c hb g

/-- The line and SETPOINT take the adoption sum (R23). -/
def State.adoptSum (s : State) (sum : Nat) : State :=
  ({ s with line := { s.line with iCmd := min sum claimLimit } }).adoptSetpoint sum

/-- The first orders sent, before the line enters its state (R23). -/
def State.adoptOrders (s : State) (sum : Nat) : State :=
  (s.adoptSum sum).eachGroup fun t g => t.sendOrder g (s.firstOrder g) ((s.group g).service != .inService)

theorem State.adoptLine_eq (s : State) (sum : Nat) :
    s.adoptLine sum = (s.adoptOrders sum).setLineState (s.adoptOrders sum).regulatingOrHold .adoption := rfl

theorem State.adoptSum_keeps (s : State) (sum : Nat) : s.keepsAllBut (s.adoptSum sum) [.line, .claims] := by
  intro p hp
  cases p <;> first | rfl | exact absurd (by simp) hp

theorem State.adoptSum_line (s : State) (sum : Nat) : (s.adoptSum sum).line = { s.line with iCmd := min sum 60000 } := rfl

theorem State.adoptOrders_keeps (s : State) (sum : Nat) :
    s.keepsAllBut (s.adoptOrders sum) [.line, .claims, .groups, .out] :=
  State.keepsAllBut_trans (State.keepsAllBut_mono (s.adoptSum_keeps sum) (by simp))
    (State.keepsAllBut_mono (State.sendAll_keeps (s.adoptSum sum) s.firstOrder fun g => (s.group g).service != .inService)
      (by simp))

theorem adoptLine_timersAgree {s : State} (hs : s.timersAgree) (sum : Nat) : (s.adoptLine sum).timersAgree := by
  have h1 : (s.adoptSum sum).timersAgree :=
    State.timersAgree_congr hs (by rw [State.adoptSum_line]) (s.adoptSum_keeps sum .groups (by decide))
      (s.adoptSum_keeps sum .cooling (by decide))
  have h2 : (s.adoptOrders sum).timersAgree :=
    State.eachGroup_kept State.timersAgree (fun t g ht => keptTimers.sendOrder g _ _ ht) h1
  rw [State.adoptLine_eq]
  exact State.timersAgree_setLineState h2 _ _

theorem adoptClose_timersAgree {s : State} (hs : s.timersAgree) : s.adoptClose.timersAgree := by
  have h1 := keptTimers.closeWindow hs
  unfold State.adoptClose
  simp only
  split
  · exact adoptLine_timersAgree h1 _
  · exact keptTimers.capacityDeparture (enterBlocked_timersAgree _ rfl h1)

/-- The own step of a line keeps the timers agreed, the end of the stop descent included. -/
theorem ownStep_timersAgree {s : State} (hs : s.timersAgree) : s.ownStep.1.timersAgree := by
  by_cases hend : s.line.state = some .stopping ∧ s.line.iCmd - min s.config.stopRate s.line.iCmd = 0
  · obtain ⟨h1, h2⟩ := hend
    have h3 : s.ownStep.1 = s.enterBlocked .standby .ramp := by
      simp [State.ownStep, h1, State.stopDescent, h2]
    rw [h3]
    exact enterBlocked_timersAgree _ rfl hs
  · exact keptTimers.ownStep (fun h h2 => hend ⟨h, h2⟩) hs

theorem allocationExpiry_timersAgree {s : State} (hs : s.timersAgree) : s.allocationExpiry.timersAgree := by
  rw [State.allocationExpiry_eq]
  exact keptTimers.finishExpiry _ (keptTimers.headroomEvent _ (ownStep_timersAgree (keptTimers.aimed hs)))

/-- Settles O58: every elementary operation keeps what the rules say of one group's timers, and so does each command. -/
theorem stepsKeepTheTimersAgreed : Obligations.StepsKeepTheTimersAgreed :=
  keptTimers.keptByStep powerOn_timersAgree (fun u _ _ => loadDone_timersAgree u) (fun u _ => restart_timersAgree u)
    (fun _ hu => allocationExpiry_timersAgree hu) fun _ _ hu => adoptClose_timersAgree hu

end Sys2Proof.Machine
end

