-- ==== Sys2Proof/Proofs/StoppedLine.lean ====
section
/-! A stopped line is at rest after every step (R1, R6, R46, R51, R190). -/

namespace Sys2Proof.Machine

/-- `State.restsWhenStopped`, but that with `late` a line in STANDBY may still hold CAPACITY_SHORT, as it does between its entry at
the end of the stop descent and the end of that expiry. -/
def State.restsBut (late : Bool) (s : State) : Prop :=
  (s.line.state = none ↔ s.loading = true) ∧
  (s.running = false →
    s.line.iCmd = 0 ∧ s.line.residual = 0 ∧ (s.line.capacityShort = true → late = true ∧ s.line.state = some .standby) ∧
      ∀ g : Group, (s.group g).service ≠ .joining ∧ (s.group g).service ≠ .leaving)

theorem State.restsBut_false_iff (s : State) : s.restsBut false ↔ s.restsWhenStopped := by
  simp [State.restsBut, State.restsWhenStopped]

theorem State.restsBut_of_running {s : State} (late : Bool) (hstate : s.line.state ≠ none) (hload : s.loading = false)
    (hrun : s.running = true) : s.restsBut late :=
  ⟨⟨fun h => absurd h hstate, fun h => by rw [hload] at h; cases h⟩, fun h => by rw [hrun] at h; cases h⟩

/-- The line as an entry to a blocked state leaves it (R6). -/
theorem GroupRecord.settled_service (r : GroupRecord) : r.settled.service ≠ .joining ∧ r.settled.service ≠ .leaving := by
  unfold GroupRecord.settled
  cases h : r.service <;> simp [h]

theorem State.restsBut_services {late : Bool} {s t : State} (hs : s.restsBut late) (hline : t.line.state = s.line.state)
    (hle : s.running = false → t.line.iCmd ≤ s.line.iCmd ∧ t.line.residual ≤ s.line.residual ∧
      (t.line.capacityShort = true → s.line.capacityShort = true))
    (hload : t.loading = s.loading)
    (hservice : s.running = false → ∀ g : Group, (t.group g).service = (s.group g).service ∨
      ((t.group g).service ≠ .joining ∧ (t.group g).service ≠ .leaving)) : t.restsBut late := by
  obtain ⟨h1, h2⟩ := hs
  refine ⟨by rw [hline, hload]; exact h1, fun hrun => ?_⟩
  rw [State.running_of_line hline] at hrun
  obtain ⟨hi, hr, hc, hg⟩ := h2 hrun
  obtain ⟨hi', hr', hc'⟩ := hle hrun
  refine ⟨by omega, by omega, fun h => by rw [hline]; exact hc (hc' h), fun g => ?_⟩
  rcases hservice hrun g with h | h
  · rw [h]; exact hg g
  · exact h

/-- The entry to a blocked state leaves a line at rest, CAPACITY_SHORT aside (R1, R6). -/
theorem State.restsBut_enterBlocked {s : State} {new : LineState} (c : LineCause) (hb : new.blocked = true)
    (hload : s.loading = false) (hcap : s.line.capacityShort = true → new = .standby) :
    (s.enterBlocked new c).restsBut true := by
  have hl : (s.enterBlocked new c).loading = s.loading := (State.enterBlocked_keeps_stopped hb).loading (by decide)
  rw [State.restsBut, State.enterBlocked_line]
  refine ⟨by simp [hl, hload], fun _ => ⟨rfl, rfl, fun h => ⟨rfl, by rw [hcap h]⟩, fun g => ?_⟩⟩
  rw [State.enterBlocked_group hb]
  exact GroupRecord.settled_service _

/-- The departure of CAPACITY_SHORT brings a stopped line to rest. -/
theorem State.rests_capacityDeparture {s : State} (hs : s.restsBut true) : s.capacityDeparture.restsBut false := by
  obtain ⟨h1, h2⟩ := hs
  have hk := s.capacityDeparture_keeps
  have hstate : s.capacityDeparture.line.state = s.line.state := by rw [State.capacityDeparture_line]
  refine ⟨by rw [hstate, hk.loading (by decide)]; exact h1, fun hrun => ?_⟩
  rw [State.running_of_line hstate] at hrun
  obtain ⟨hi, hr, -, hg⟩ := h2 hrun
  rw [State.capacityDeparture_line]
  exact ⟨hi, hr, fun h => (nomatch h), fun g => by rw [hk.group (by decide)]; exact hg g⟩

theorem State.restsBut_mono {s : State} (hs : s.restsBut false) : s.restsBut true := by
  obtain ⟨h1, h2⟩ := hs
  refine ⟨h1, fun hrun => ?_⟩
  obtain ⟨hi, hr, hc, hg⟩ := h2 hrun
  exact ⟨hi, hr, fun h => (nomatch (hc h).1), hg⟩

theorem State.restsBut_tripped {s : State} (hr : s.loading = false) :
    s.enterTripped.restsBut false := by
  have hl : s.enterTripped.loading = s.loading := by
    rw [show s.enterTripped.loading = (s.enterBlocked .tripped .fault).loading from
      (State.capacityDeparture_keeps _).loading (by decide)]
    exact (State.enterBlocked_keeps_stopped rfl).loading (by decide)
  rw [State.restsBut, show s.enterTripped.line = _ from State.capacityDeparture_line _, State.enterBlocked_line]
  refine ⟨by simp [hl, hr], fun _ => ⟨rfl, rfl, fun h => (nomatch h), fun g => ?_⟩⟩
  rw [show s.enterTripped.group g = _ from (State.capacityDeparture_keeps _).group (by decide) g,
    State.enterBlocked_group rfl]
  exact GroupRecord.settled_service _

theorem State.restsBut.loaded {late : Bool} {s : State} (h : s.restsBut late) (hs : s.line.state ≠ none) :
    s.loading = false := by
  rw [← Bool.not_eq_true, ← h.1]
  exact hs

theorem keptRests (late : Bool) : Kept (State.restsBut late) where
  quiet hs hl hg _ hload := State.restsBut_services hs (by rw [hl]) (fun _ => by rw [hl]; exact ⟨le_rfl, le_rfl, id⟩) hload
    fun _ g => .inl (congrArg (fun e : Eight GroupRecord => (e.get g).service) hg)
  lineWrite l hl hle hs := State.restsBut_services hs hl hle rfl fun _ _ => .inl rfl
  line {s new} c hne hnew hs := by
    have hload : (s.setLineState new c).loading = false :=
      ((s.setLineState_keeps new c).loading (by decide)).trans (hs.loaded hne)
    rcases hnew with hrun | ⟨rfl, hrun⟩
    · refine State.restsBut_of_running late ?_ hload ?_ <;> simp [State.running, State.setLineState_line, hrun]
    · obtain ⟨hi, hr, hc, hg⟩ := hs.2 hrun
      rw [State.restsBut, State.setLineState_line]
      refine ⟨by simp [hload], fun _ => ⟨hi, hr, fun h => ⟨(hc h).1, rfl⟩, fun g => ?_⟩⟩
      rw [State.setLineState_group, GroupRecord.crossing_service]
      exact hg g
  service {s g new} c hnew hs := by
    have hk := s.setService_keeps g new c
    refine State.restsBut_services hs (by rw [State.setService_line])
      (fun _ => by rw [State.setService_line]; exact ⟨le_rfl, le_rfl, id⟩) (hk.loading (by decide)) fun hrun h => ?_
    by_cases hh : h = g
    · subst hh
      refine .inr ?_
      rw [State.setService_service_self]
      constructor <;> rintro rfl
      · have := hnew (.inl rfl); simp [hrun] at this
      · have := hnew (.inr rfl); simp [hrun] at this
    · exact .inl (by rw [State.setService_group_ne _ hh])
  group {s g} f hservice _ _ _ hs := by
    refine State.restsBut_services hs rfl (fun _ => ⟨le_rfl, le_rfl, id⟩) rfl fun _ h => .inl ?_
    rw [State.group_modGroup]
    split
    · next hh => subst hh; exact hservice
    · rfl
  enrol {s} g hs := by
    have hk : s.keepsAllBut (s.enrol g) groupParts := s.enrol_keeps g
    have hline : (s.enrol g).line = s.line := hk .line (by decide)
    refine State.restsBut_services hs (by rw [hline]) (fun _ => by rw [hline]; exact ⟨le_rfl, le_rfl, id⟩)
      (hk.loading (by decide)) fun _ h => .inl ?_
    rw [State.enrol_eq, State.membership_group, State.group_modGroup]
    by_cases hh : h = g <;> simp [hh]
  cool f _ _ hs := State.restsBut_services hs rfl (fun _ => ⟨le_rfl, le_rfl, id⟩) rfl fun _ _ => .inl rfl
  tripped {s} hne hs := by
    have h := State.restsBut_tripped (hs.loaded hne)
    cases late
    exacts [h, State.restsBut_mono h]

/-! ### The resets, the load, the adopt window and the end of the stop descent -/

theorem powerOn_rests (straps : Four Straps) (s : State) : (powerOn straps s).restsBut false := by
  refine ⟨⟨fun _ => rfl, fun _ => rfl⟩, fun _ => ⟨rfl, rfl, fun h => (nomatch h), fun g => ?_⟩⟩
  rw [show (powerOn straps s).group g = powerOnGroup from Eight.get_fill _ g]
  decide

theorem windowGroup_service (now : Nat) (selected : Bool) (tol res : Nat) :
    (windowGroup now selected tol res).service ≠ .joining ∧ (windowGroup now selected tol res).service ≠ .leaving := by
  cases selected <;> exact ⟨fun h => (nomatch h), fun h => (nomatch h)⟩

theorem restart_rests (s : State) : s.restart.restsBut false := by
  refine ⟨⟨fun h => (nomatch h), fun h => (nomatch h)⟩, fun _ => ⟨rfl, rfl, fun h => (nomatch h), fun g => ?_⟩⟩
  rw [show s.restart.group g = windowGroup s.timeBase (s.group g).service.selected (s.group g).tolerance
    (s.group g).resolution from Eight.get_ofFn _ g]
  exact windowGroup_service _ _ _ _

theorem loadDone_rests {s : State} (hload : s.loading = true) (hs : s.restsBut false) : s.loadDone.restsBut false := by
  have hnone : s.line.state = none := hs.1.mpr hload
  obtain ⟨hi, hr, hc, -⟩ := hs.2 (by simp [State.running, hnone])
  have hstay : s.taken.line.iCmd = s.line.iCmd ∧ s.taken.line.residual = s.line.residual ∧
      s.taken.line.capacityShort = s.line.capacityShort := by
    unfold State.taken
    split <;> exact ⟨rfl, rfl, rfl⟩
  obtain ⟨hi', hr', hc'⟩ := hstay
  have hl : s.loadDone.loading = false := by
    rw [show s.loadDone.loading = (s.taken.setLineState .adopting .reset).loading from rfl,
      (State.setLineState_keeps _ _ _).loading (by decide), s.taken_keeps.loading (by decide)]
    rfl
  rw [State.restsBut, hl, show s.loadDone.line = _ from State.setLineState_line s.taken .adopting .reset]
  refine ⟨by simp, fun _ => ⟨hi'.trans hi, hr'.trans hr, fun h => ?_, fun g => ?_⟩⟩
  · cases (hc (hc'.symm.trans h)).1
  · rw [show s.loadDone.group g = (s.taken.setLineState .adopting .reset).group g from rfl, State.setLineState_group,
      GroupRecord.crossing_service, s.taken_keeps.group (by decide),
      show s.takeImage.group g = windowGroup _ _ _ _ from Eight.get_ofFn _ g]
    exact windowGroup_service _ _ _ _

theorem State.regulatingOrHold_running (s : State) : s.regulatingOrHold.running = true := by
  unfold State.regulatingOrHold
  split <;> rfl

theorem adoptLine_rests {s : State} (hload : s.loading = false) (sum : Nat) : (s.adoptLine sum).restsBut false := by
  rw [State.adoptLine_eq]
  refine State.restsBut_of_running false ?_ ?_ ?_
  · simp [State.setLineState_line]
  · rw [(State.setLineState_keeps _ _ _).loading (by decide), (s.adoptOrders_keeps sum).loading (by decide)]
    exact hload
  · simp [State.running, State.setLineState_line, State.regulatingOrHold_running]

theorem adoptClose_rests {s : State} (h0 : s.line.state = some .adopting) (hs : s.restsBut false) :
    s.adoptClose.restsBut false := by
  have h1 := (keptRests false).closeWindow hs
  have hload : s.closeWindow.loading = false := h1.loaded (by simp [State.closeWindow_line h0, h0])
  unfold State.adoptClose
  simp only
  split
  · exact adoptLine_rests hload _
  · exact State.rests_capacityDeparture (State.restsBut_enterBlocked _ rfl hload fun _ => rfl)

/-- The end of an expiry whose line may still hold CAPACITY_SHORT in STANDBY. -/
theorem finishExpiry_rests {s : State} (hs : s.restsBut true) : (s.finishExpiry true).restsBut false := by
  by_cases h : s.line.state = some .standby
  · have h2 : s.finishExpiry true = s.capacityDeparture := by simp [State.finishExpiry, h]
    rw [h2]
    exact State.rests_capacityDeparture hs
  · refine (keptRests false).finishExpiry true ⟨hs.1, fun hrun => ?_⟩
    obtain ⟨hi, hr, hc, hg⟩ := hs.2 hrun
    exact ⟨hi, hr, fun hc' => absurd (hc hc').2 h, hg⟩

theorem allocationExpiry_rests {s : State} (hs : s.restsBut false) : s.allocationExpiry.restsBut false := by
  have h0 := (keptRests false).aimed hs
  rw [State.allocationExpiry_eq]
  by_cases hend : s.aimed.line.state = some .stopping ∧ s.aimed.line.iCmd - min s.aimed.config.stopRate s.aimed.line.iCmd = 0
  · obtain ⟨h1, h2⟩ := hend
    have h3 : s.aimed.ownStep = (s.aimed.enterBlocked .standby .ramp, true) := by
      simp only [State.ownStep, h1, State.stopDescent, h2, if_true, State.blocked, State.enterBlocked_line,
        LineState.blocked]
    rw [h3]
    refine finishExpiry_rests ((keptRests true).headroomEvent _ ?_)
    exact State.restsBut_enterBlocked _ rfl (h0.loaded (by simp [h1])) fun _ => rfl
  · exact (keptRests false).finishExpiry _ ((keptRests false).headroomEvent _
      ((keptRests false).ownStep (fun h h2 => hend ⟨h, h2⟩) h0))

/-- Settles O59: every operation keeps a stopped line at rest, the end of the stop descent with its CAPACITY_SHORT carried until
the end of the expiry. -/
theorem stepsKeepAStoppedLineAtRest : Obligations.StepsKeepAStoppedLineAtRest := by
  have h : keptByStep (State.restsBut false) :=
    (keptRests false).keptByStep powerOn_rests (fun _ => loadDone_rests) (fun u _ => restart_rests u)
      (fun _ => allocationExpiry_rests) fun _ => adoptClose_rests
  intro s t hs hstep
  rw [← State.restsBut_false_iff] at hs ⊢
  exact h s t hs hstep

end Sys2Proof.Machine
end

