-- ==== Sys2Proof/Proofs/Answers.lean ====
section
/-! How a request that has come to its own rule is answered (R182): with the state unchanged, with the state its rule has made,
or NOT_PERMITTED. -/

namespace Sys2Proof.Machine

section Take

variable {s : State} {i : Instr} {rq : Req} {kind : ReqKind} {body : State → State × Option Answer}

@[simp] theorem State.loading_answering (s : State) (p : Port) : (s.answering p).loading = s.loading := rfl

theorem State.role_answering (s : State) (p q : Port) : (s.answering p).role q = s.role q := by
  unfold State.role State.answering State.port
  by_cases h : q = p
  · subst h; simp
  · simp [Four.get_set_ne _ h]

theorem State.answering_keeps (s : State) (p : Port) : s.keepsAllBut (s.answering p) [.ports, .out] := by
  intro part hp
  cases part <;> first | rfl | exact absurd (by simp) hp

/-- A response formed in the state a request's own rule starts from is the answer and no more. -/
theorem State.respondOn_answering (s : State) (rq : Req) (kind : ReqKind) (code : ResultCode) (payload : List Field) :
    (s.answering rq.port).respondOn rq.port ⟨rq.tag, kind.code, code, payload⟩ = s.answered rq kind code payload := by
  simp [State.answering, State.respondOn, State.modPort, State.answered, State.port]

/-- A request whose own rule answers (R182). -/
theorem State.take_ready (hr : s.ready i) (hi : i.request? = some (rq, kind))
    (hl : i.requiredLength = some kind.payloadLength) {u : State} {code : ResultCode} {payload : List Field}
    (hbody : body (s.answering rq.port) = (u, some ⟨code, payload⟩)) :
    s.take rq kind body = u.respondOn rq.port ⟨rq.tag, kind.code, code, payload⟩ := by
  unfold State.ready at hr
  rw [hi] at hr
  obtain ⟨hload, hidle, hrole, hlen⟩ := hr
  rw [State.take, State.takeRequest_own body hload hidle hrole (hl.symm.trans hlen), hbody]

/-- A request whose own rule answers and changes nothing. -/
theorem State.take_answered (hr : s.ready i) (hi : i.request? = some (rq, kind))
    (hl : i.requiredLength = some kind.payloadLength) {code : ResultCode} {payload : List Field}
    (hbody : body (s.answering rq.port) = (s.answering rq.port, some ⟨code, payload⟩)) :
    s.take rq kind body = s.answered rq kind code payload := by
  rw [State.take_ready hr hi hl hbody, State.respondOn_answering]

/-- A request that the role of its port does not hold. -/
theorem State.take_notPermitted (hload : s.loading = false) (hidle : (s.port rq.port).request = .idle)
    (hperm : requestPermits kind (s.role rq.port) = false) :
    s.take rq kind body = s.answered rq kind .notPermitted [] := by
  have h1 : ((s.arrive rq.port).port rq.port).request = .idle := by simpa using hidle
  have h2 : (s.arrive rq.port).loading = false := hload
  rw [← State.respondOn_answering]
  simp only [State.take, State.takeRequest, h1, h2, ← State.answering_eq, State.role_answering, hperm]
  rfl

/-- A request of the substation's is NOT_PERMITTED to every other role. -/
theorem State.refuses_others (hexec : exec i s = .next (s.take rq kind body))
    (hkind : ∀ r : Role, r ≠ .substation → requestPermits kind r = false) : s.refusesOthers rq kind i [.substation] := by
  intro hload hidle hrole
  rw [hexec, State.take_notPermitted hload hidle (hkind _ (by simpa using hrole))]

end Take

/-! ### What a response leaves of the state a request's rule has made -/

section Respond

variable {s u : State} (rq : Req) (kind : ReqKind) (code : ResultCode) (payload : List Field)

theorem State.respondOn_keeps (u : State) (p : Port) (r : Reply) : u.keepsAllBut (u.respondOn p r) [.ports] := by
  intro part hp
  cases part <;> first | rfl | exact absurd (by simp) hp

/-- A rule that has only placed notices leaves the ports as the answer has them. -/
theorem State.portsAnswer_of_noticed (h : (s.answering rq.port).noticed u) :
    s.portsAnswer (u.respondOn rq.port ⟨rq.tag, kind.code, code, payload⟩) rq kind code payload := by
  intro p
  obtain ⟨more, lost, e⟩ := h p
  refine ⟨(u.port p).queue, (u.port p).overrun, ?_⟩
  by_cases hp : p = rq.port
  · subst hp
    simp only [State.respondOn, State.port_modPort_self, e]
    simp [State.answering, State.answered, State.port]
  · rw [State.respondOn, State.port_modPort_ne _ hp, e]
    simp [State.answering, State.answered, State.port, Four.get_set_ne _ hp]

/-- A notice that the rule has placed is heard after the response. -/
theorem State.hears_respondOn {b : NoticeBody} (p : Port) (r : Reply) (h : (s.answering rq.port).hears u b) :
    s.hears (u.respondOn p r) b := by
  intro q hq
  have h1 := h q (by rwa [State.role_answering])
  by_cases hp : q = p
  · subst hp
    rw [State.respondOn, State.port_modPort_self]
    exact h1
  · rw [State.respondOn, State.port_modPort_ne _ hp]
    exact h1

end Respond

/-- A part listed among those that may change and yet kept. -/
theorem State.keepsAllBut.except {s t : State} {l l' : List Part} (h : s.keepsAllBut t l)
    (ha : ∀ p ∈ l, p ∉ l' → s.agrees t p) : s.keepsAllBut t l' := fun p hp =>
  if hl : p ∈ l then ha p hl hp else h p hl

/-! ### A request that changes the service state of a group -/

/-- A request whose own rule writes the ceilings of a group and changes its service state, with the group's place in the
allocation set kept. -/
theorem State.take_serves {s : State} {i : Instr} {rq : Req} {kind : ReqKind} {body : State → State × Option Answer}
    (hr : s.ready i) (hi : i.request? = some (rq, kind)) (hl : i.requiredLength = some kind.payloadLength) (g : Group)
    (f : GroupRecord → GroupRecord) (new : ServiceState)
    (hbody : body (s.answering rq.port) =
      (((s.answering rq.port).modGroup g f).setService g new .request, some ⟨.ok, []⟩))
    (hf : (f (s.group g)).service = (s.group g).service ∧ (f (s.group g)).awaiting = (s.group g).awaiting)
    (hset : (s.running && new.member && !(awaitingAfter (s.group g).service new (s.group g).awaiting)) = s.inSet g) :
    ∃ t : State, (Host.Outcome.next (s.take rq kind body) : Host.Outcome State Fault Refusal) = .next t ∧
      t.group g = (f (s.group g)).serve s.timeBase new ∧ s.otherGroupsKept t g ∧ s.portsAnswer t rq kind .ok [] ∧
      s.hears t (.groupState g new (s.group g).service .request) ∧ t.out = [] ∧
      s.keepsAllBut t [.groups, .ports, .out] := by
  obtain ⟨hservice, hawait⟩ := hf
  generalize hu : ((s.answering rq.port).modGroup g f).setService g new .request = u at hbody
  have hself : ((s.answering rq.port).modGroup g f).group g = f (s.group g) := State.group_modGroup_self ..
  have hbefore : ((s.answering rq.port).modGroup g f).inSet g = s.inSet g := by
    rw [State.inSet_eq, hself, hservice, hawait]; rfl
  have hafter : u.inSet g = s.inSet g := by
    rw [← hu, State.setService_inSet_self, hself, hservice, hawait]
    exact hset
  have hgroup : u.group g = (f (s.group g)).serve s.timeBase new := by
    have h := ((s.answering rq.port).modGroup g f).setService_group_self g new .request
    rw [hu, hself, hbefore, hafter, GroupRecord.crossing_same] at h
    exact h
  have hother : ∀ h : Group, h ≠ g → u.group h = s.group h := fun h hne => by
    rw [← hu, State.setService_group_ne _ hne, State.group_modGroup_ne _ hne]; rfl
  have hcool : u.cooling = s.cooling := by
    refine Eight.ext_get fun h => ?_
    by_cases hh : h = g
    · subst hh
      have hc := ((s.answering rq.port).modGroup h f).setService_cool_self h new .request
      rw [hu, hbefore, hafter, GroupCooling.crossing_same] at hc
      exact hc
    · have hc := ((s.answering rq.port).modGroup g f).setService_cool_ne hh new .request
      rw [hu] at hc
      exact hc
  have hkeeps : (s.answering rq.port).keepsAllBut u groupParts := by
    rw [← hu]
    refine State.keepsAllBut_trans (t := (s.answering rq.port).modGroup g f) ?_ (State.setService_keeps _ _ _ _)
    intro p hp
    cases p <;> first | rfl | exact absurd (by simp [groupParts]) hp
  have hnoticed : (s.answering rq.port).noticed u := hu ▸ State.setService_noticed_after _ _ _ _ _
  have hhears : (s.answering rq.port).hears u (.groupState g new (s.group g).service .request) := by
    have h := ((s.answering rq.port).modGroup g f).setService_hears g new .request
    rw [hu, hself, hservice] at h
    exact h.since rfl fun _ => rfl
  refine ⟨_, rfl, ?_⟩
  rw [State.take_ready hr hi hl hbody]
  refine ⟨hgroup, hother, State.portsAnswer_of_noticed _ _ _ _ hnoticed, State.hears_respondOn _ _ _ hhears, ?_, ?_⟩
  · exact hkeeps .out (by decide)
  · refine State.keepsAllBut.except (State.keepsAllBut_trans
      (State.keepsAllBut_mono (l := [.ports, .out]) (s.answering_keeps _) (by simp)) (State.keepsAllBut_trans
        (State.keepsAllBut_mono hkeeps (by simp [groupParts]))
        (State.keepsAllBut_mono (State.respondOn_keeps u _ _) (by simp)))) (l := [.groups, .cooling, .ports, .out]) ?_
    intro p hp hn
    obtain rfl : p = .cooling := by revert hp hn; cases p <;> simp
    exact hcool

end Sys2Proof.Machine
end

