-- ==== Sys2Proof/Proofs/ServiceRequests.lean ====
section
/-! SET_GROUP_SERVICE and RESTORE_GROUP (R10 to R12, R16). -/

namespace Sys2Proof.Machine

theorem groupOf_val (g : Group) : groupOf g.val = some g := by simp [groupOf]

theorem groupOf_above {n : Nat} (h : 7 < n) : groupOf n = none := by simp [groupOf]; omega

theorem State.running_of_blocked {s : State} (h : s.blocked = true) : s.running = false := by
  unfold State.blocked at h
  unfold State.running
  split at h
  · exact (LineState.running_of_blocked h).1
  · rfl

/-! ### Reads of the rules past their tests -/

theorem execSetGroupService_eq (rq : Req) (n mode : Nat) (s : State) :
    exec (.setGroupService rq n mode) s = .next (s.take rq .setGroupService (setGroupService n mode)) := rfl

theorem execRestoreGroup_eq (rq : Req) (n : Nat) (s : State) :
    exec (.restoreGroup rq n) s = .next (s.take rq .restoreGroup (restoreGroup n)) := rfl

section Own

variable {s : State} {rq : Req} {g : Group} {mode : Nat}

/-- The answer to SET_GROUP_SERVICE that its own rule gives with nothing changed. -/
theorem setGroupService_answered {n : Nat} {code : ResultCode} (hr : s.ready (.setGroupService rq n mode))
    (h : setGroupService n mode (s.answering rq.port) = (s.answering rq.port, some ⟨code, []⟩)) :
    exec (.setGroupService rq n mode) s = .next (s.answered rq .setGroupService code []) := by
  rw [execSetGroupService_eq, State.take_answered hr rfl rfl h]

theorem setGroupService_running (hrun : s.running = true) (hmode : mode ≤ 1) :
    setGroupService g.val mode s = if mode = 0 then s.join g else s.leave g := by
  simp [setGroupService, groupOf_val, hrun, Nat.not_lt.mpr hmode]

theorem setGroupService_blocked (hb : s.blocked = true) (hmode : mode ≤ 1) :
    setGroupService g.val mode s = s.select g (mode == 0) := by
  simp [setGroupService, groupOf_val, State.running_of_blocked hb, hb, Nat.not_lt.mpr hmode]

theorem setGroupService_adopting (ha : s.line.state = some .adopting) (hmode : mode ≤ 1) :
    setGroupService g.val mode s = refuse s .badState := by
  simp [setGroupService, groupOf_val, State.running, State.blocked, ha, LineState.running, LineState.blocked,
    Nat.not_lt.mpr hmode]

theorem setGroupService_outOfRange {n : Nat} (h : 7 < n ∨ 1 < mode) :
    setGroupService n mode s = refuse s .outOfRange := by
  unfold setGroupService
  split
  · rfl
  · next g hg =>
    have hn : ¬ 7 < n := fun h7 => by rw [groupOf_above h7] at hg; cases hg
    simp [h.resolve_left hn]

end Own

/-- The change of a group's service state that a SET_GROUP_SERVICE brings. -/
theorem setGroupService_serves {s : State} {rq : Req} {g : Group} {mode : Nat} (hr : s.ready (.setGroupService rq g.val mode))
    (f : GroupRecord → GroupRecord) (new : ServiceState)
    (hbody : setGroupService g.val mode (s.answering rq.port) =
      answer (((s.answering rq.port).modGroup g f).setService g new .request) .ok)
    (hf : (f (s.group g)).service = (s.group g).service ∧ (f (s.group g)).awaiting = (s.group g).awaiting)
    (hset : (s.running && new.member && !(awaitingAfter (s.group g).service new (s.group g).awaiting)) = s.inSet g)
    {r : GroupRecord} (hg : (f (s.group g)).serve s.timeBase new = r) :
    ∃ t : State, exec (.setGroupService rq g.val mode) s = .next t ∧ t.group g = r ∧ s.otherGroupsKept t g ∧
      s.portsAnswer t rq .setGroupService .ok [] ∧ s.hears t (.groupState g new (s.group g).service .request) ∧
      t.out = [] ∧ s.keepsAllBut t [.groups, .ports, .out] :=
  hg ▸ State.take_serves hr rfl rfl g f new hbody hf hset

/-! ### A blocked line (R10) -/

theorem State.select_kept {s : State} {g : Group} {wanted : Bool} (h : (s.group g).service.selected = wanted)
    (hs : (s.group g).service = .inService ∨ (s.group g).service = .out) : s.select g wanted = answer s .ok := by
  subst h
  unfold State.select
  rcases hs with hs | hs <;> rw [hs] <;> rfl

theorem State.select_refused {s : State} {g : Group} (wanted : Bool)
    (hs : (s.group g).service = .removed ∨ (s.group g).service = .linkLost) : s.select g wanted = refuse s .badState := by
  unfold State.select
  rcases hs with hs | hs <;> rw [hs]

/-- A change of the record that writes nothing. -/
theorem State.modGroup_id (s : State) (g : Group) : s.modGroup g id = s := by
  have h : s.groups.set g (s.groups.get g) = s.groups := Eight.ext_get fun h => by
    by_cases hh : h = g
    · subst hh; simp
    · rw [Eight.get_set_ne _ hh]
  simp [State.modGroup, h]

/-- Settles O6: the tests of range come first; past them a blocked line selects and deselects, and the group's place outside the
allocation set does not change. -/
theorem blockedLineSelectsGroups : Obligations.BlockedLineSelectsGroups := by
  intro rq n mode s hr
  refine ⟨fun h => setGroupService_answered hr (setGroupService_outOfRange h), ?_, ?_⟩
  · rintro g rfl hmode ha
    exact setGroupService_answered hr (setGroupService_adopting ha hmode)
  · rintro g rfl hb
    have hbody : ∀ w : Nat, w ≤ 1 →
        setGroupService g.val w (s.answering rq.port) = (s.answering rq.port).select g (w == 0) :=
      fun w => setGroupService_blocked (s := s.answering rq.port) hb
    have hset : ∀ b c : Bool, (s.running && b && c) = s.inSet g := fun b c => by
      simp [State.inSet_eq, State.running_of_blocked hb]
    refine ⟨fun hs hmode => ?_, fun hs => ?_, ?_, ?_⟩
    · exact setGroupService_answered hr ((hbody mode hmode).trans (State.select_refused _ hs))
    · rcases hs with ⟨rfl, hs⟩ | ⟨rfl, hs⟩
      · exact setGroupService_answered hr
          ((hbody 0 (by decide)).trans (State.select_kept (congrArg ServiceState.selected hs) (.inl hs)))
      · exact setGroupService_answered hr
          ((hbody 1 (by decide)).trans (State.select_kept (congrArg ServiceState.selected hs) (.inr hs)))
    · rintro rfl hs
      rw [← hs]
      refine setGroupService_serves hr id .inService ?_ ⟨rfl, rfl⟩ (hset _ _) ?_
      · rw [hbody 0 (by decide), State.modGroup_id]
        simp [State.select, show ((s.answering rq.port).group g).service = .out from hs]
      · simp [GroupRecord.serve, linkTimerAfter, awaitingAfter, hs, ServiceState.member, linkTime]
    · rintro rfl hs
      rw [← hs]
      refine setGroupService_serves hr id .out ?_ ⟨rfl, rfl⟩ (hset _ _) ?_
      · rw [hbody 1 (by decide), State.modGroup_id]
        simp [State.select, show ((s.answering rq.port).group g).service = .inService from hs]
      · simp [GroupRecord.serve, linkTimerAfter, awaitingAfter, hs, ServiceState.member]

/-! ### A running line (R11, R12) -/

theorem State.otherSelected_iff (s : State) (g : Group) :
    s.otherSelected g = true ↔ ∃ h : Group, h ≠ g ∧ ((s.group h).service = .joining ∨ (s.group h).service = .inService) := by
  have hsel : ∀ x : ServiceState, x.selected = true ↔ x = .joining ∨ x = .inService := by
    intro x
    cases x <;> simp [ServiceState.selected]
  simp [State.otherSelected, hsel, mem_allGroups]

/-- Settles O7: the joins and the leaves of a running line, in which a group waits for the next expiry to enter the set and a
member stays in it. -/
theorem runningLineJoinsAndLeavesGroups : Obligations.RunningLineJoinsAndLeavesGroups := by
  intro rq g s hrun
  have hbody : ∀ mode : Nat, mode ≤ 1 → setGroupService g.val mode (s.answering rq.port) =
      if mode = 0 then (s.answering rq.port).join g else (s.answering rq.port).leave g :=
    fun _ => setGroupService_running (s := s.answering rq.port) hrun
  have hin : setGroupService g.val 0 (s.answering rq.port) = (s.answering rq.port).join g := hbody 0 (by decide)
  have hout : setGroupService g.val 1 (s.answering rq.port) = (s.answering rq.port).leave g := hbody 1 (by decide)
  have hservice : ((s.answering rq.port).group g).service = (s.group g).service := rfl
  have hother : (s.answering rq.port).otherSelected g = s.otherSelected g := rfl
  constructor
  · refine fun hr => ⟨fun hs => ?_, fun hs => ?_, fun hs => ?_, fun hs => ?_⟩
    · rw [← hs]
      refine setGroupService_serves hr (fun r => { r with joinCeiling := 0 }) .joining ?_ ⟨rfl, rfl⟩ ?_ ?_
      · simp [hin, State.join, hservice, hs]
      · simp [hs, awaitingAfter, State.inSet_eq, ServiceState.member]
      · simp [GroupRecord.serve, linkTimerAfter, awaitingAfter, hs, ServiceState.member, linkTime]
    · rw [← hs]
      refine setGroupService_serves hr (fun r => { r with joinCeiling := r.leaveCeiling, leaveCeiling := 0 }) .joining ?_
        ⟨rfl, rfl⟩ ?_ ?_
      · simp [hin, State.join, hservice, hs]
      · have hout : (ServiceState.leaving == .out) = false := rfl
        simp [hs, awaitingAfter, State.inSet_eq, ServiceState.member, hout]
      · simp [GroupRecord.serve, linkTimerAfter, awaitingAfter, hs, ServiceState.member]
    · refine setGroupService_answered hr (hin.trans ?_)
      rcases hs with hs | hs <;> simp [State.join, hservice, hs, answer]
    · refine setGroupService_answered hr (hin.trans ?_)
      rcases hs with hs | hs <;> simp [State.join, hservice, hs, refuse]
  · refine fun hr => ⟨fun hs hlast => ?_, fun hs hmore => ?_, fun hs => ?_, fun hs => ?_⟩
    · have hno : s.otherSelected g = false := by
        rw [← Bool.not_eq_true, State.otherSelected_iff]
        rintro ⟨h, hne, hh⟩
        exact hh.elim (hlast h hne).1 (hlast h hne).2
      refine setGroupService_answered hr (hout.trans ?_)
      rcases hs with hs | hs <;> simp [State.leave, hservice, hs, hother, hno, refuse]
    · have hyes := (s.otherSelected_iff g).mpr hmore
      refine setGroupService_serves hr (fun r => { r with leaveCeiling := r.lastOrder, joinCeiling := 0 }) .leaving ?_
        ⟨rfl, rfl⟩ ?_ ?_ <;> rcases hs with hs | hs
      iterate 2 simp [hout, State.leave, hservice, hs, hother, hyes]
      iterate 2 simp [hs, awaitingAfter, State.inSet_eq, ServiceState.member]
      iterate 2 simp [GroupRecord.serve, linkTimerAfter, awaitingAfter, hs, ServiceState.member]
    · refine setGroupService_answered hr (hout.trans ?_)
      rcases hs with hs | hs <;> simp [State.leave, hservice, hs, answer]
    · refine setGroupService_answered hr (hout.trans ?_)
      rcases hs with hs | hs <;> simp [State.leave, hservice, hs, refuse]

/-! ### RESTORE_GROUP (R16) -/

theorem Entry.standsWith_iff (e : Entry) (a : Action) :
    e.standsWith a = true ↔ ∃ c : Carried, e.state ≠ .clear ∧ e.response = some c ∧ c.names a = true := by
  have hstands : ∀ x : EntryState, x.stands = true ↔ x ≠ .clear := by
    intro x
    cases x <;> simp [EntryState.stands]
  unfold Entry.standsWith Entry.carries
  cases e.response with
  | none => simp
  | some c => simp [hstands]

theorem Carried.names_remove (c : Carried) : c.names .remove = true ↔ c.configured = .remove ∨ c.forced = true := by
  simp [Carried.names]

theorem State.removeStands_iff (s : State) (g : Group) :
    s.removeStands g = true ↔ ∃ (k : GroupKind) (c : Carried), (s.entry (.group k g)).state ≠ .clear ∧
      (s.entry (.group k g)).response = some c ∧ (c.configured = .remove ∨ c.forced = true) := by
  have hall : ∀ k : GroupKind, k ∈ allGroupKinds := by
    intro k
    cases k <;> simp [allGroupKinds]
  simp only [State.removeStands, List.any_eq_true, hall, true_and, Entry.standsWith_iff, Carried.names_remove]
  rfl

/-- Settles O8: a removed group whose REMOVE no longer stands returns to OUT, where it is as little a member as it was. -/
theorem restoreGroupReturnsToOut : Obligations.RestoreGroupReturnsToOut := by
  refine ⟨fun rq n s => ⟨State.refuses_others (execRestoreGroup_eq rq n s) (by intro r; cases r <;> simp [requestPermits]), fun hr hn => ?_⟩,
    fun rq g s hr => ?_⟩
  · rw [execRestoreGroup_eq, State.take_answered (i := .restoreGroup rq n) hr rfl rfl
      (by simp only [restoreGroup, groupOf_above hn]; rfl)]
  have hbody : restoreGroup g.val (s.answering rq.port) =
      if (s.group g).service ≠ .removed then refuse (s.answering rq.port) .badState
      else if s.removeStands g then refuse (s.answering rq.port) .conditionPresent
      else answer ((s.answering rq.port).setService g .out .request) .ok := by
    unfold restoreGroup
    rw [groupOf_val]
    rfl
  refine ⟨fun hs => ?_, fun hs hstands => ?_, fun hs hclear => ?_⟩
  · rw [execRestoreGroup_eq, State.take_answered hr rfl rfl (hbody.trans (if_pos hs))]
  · have h := (s.removeStands_iff g).mpr hstands
    rw [execRestoreGroup_eq, State.take_answered hr rfl rfl
      (hbody.trans (by rw [if_neg (by simpa using hs), if_pos h]; rfl))]
  · have h : s.removeStands g = false := by
      rw [← Bool.not_eq_true, State.removeStands_iff]
      rintro ⟨k, c, h1, h2, h3⟩
      obtain ⟨h4, h5⟩ := hclear k c h1 h2
      rcases h3 with h3 | h3
      · exact h4 h3
      · rw [h5] at h3; cases h3
    have hout : restoreGroup g.val (s.answering rq.port) =
        (((s.answering rq.port).modGroup g id).setService g .out .request, some ⟨.ok, []⟩) := by
      rw [hbody, State.modGroup_id]
      simp [hs, h, answer]
    obtain ⟨t, ht, hg, hrest⟩ := State.take_serves hr rfl rfl g id .out hout ⟨rfl, rfl⟩
      (by simp [State.inSet_eq, hs, ServiceState.member])
    rw [hs] at hrest
    refine ⟨t, ht, ?_, hrest⟩
    rw [hg]
    simp [GroupRecord.serve, linkTimerAfter, awaitingAfter, hs, ServiceState.member]

end Sys2Proof.Machine
end

