-- ==== Sys2Proof/Proofs/LineRequests.lean ====
section
/-! START_LINE, STOP_LINE and RESET_TRIP (R2, R5, R8, R68). -/

namespace Sys2Proof.Machine

theorem execStartLine_eq (rq : Req) (s : State) : exec (.startLine rq) s = .next (s.take rq .startLine startLine) := rfl
theorem execStopLine_eq (rq : Req) (s : State) : exec (.stopLine rq) s = .next (s.take rq .stopLine stopLine) := rfl
theorem execResetTrip_eq (rq : Req) (s : State) : exec (.resetTrip rq) s = .next (s.take rq .resetTrip resetTrip) := rfl

/-! ### The rules past their tests -/

section Rules

variable {s : State}

theorem startLine_noGroups (hs : s.line.state = some .standby) (hno : ∀ g : Group, (s.group g).service ≠ .inService) :
    startLine s = refuse s .noGroups := by
  have h : allGroups.any (fun g => (s.group g).service == .inService) = false := by
    simpa [List.any_eq_false] using fun g _ => hno g
  simp [startLine, hs, h]

theorem startLine_ok (hs : s.line.state = some .standby) (hg : ∃ g : Group, (s.group g).service = .inService) :
    startLine s = answer (({ s with line := { s.line with iCmd := 0 } }).setLineState .starting .request) .ok := by
  obtain ⟨g, hg⟩ := hg
  have h : allGroups.any (fun g => (s.group g).service == .inService) = true :=
    List.any_eq_true.mpr ⟨g, mem_allGroups g, by simpa using hg⟩
  simp [startLine, hs, h]

theorem stopLine_ok {l : LineState} (hs : s.line.state = some l) (hl : l = .starting ∨ l = .regulating ∨ l = .hold) :
    stopLine s = answer (s.setLineState .stopping .request) .ok := by
  rcases hl with rfl | rfl | rfl <;> simp [stopLine, hs]

theorem stopLine_refused
    (hs : s.line.state = some .standby ∨ s.line.state = some .tripped ∨ s.line.state = some .adopting) :
    stopLine s = refuse s .badState := by
  rcases hs with hs | hs | hs <;> simp [stopLine, hs]

/-- Some entry that stands carries a line-level response (R4, R8). -/
theorem State.anyWith_iff (s : State) {a : Action} (ha : a ≠ .remove) :
    s.faults.table.anyWith a = true ↔ ∃ (id : FaultId) (c : Carried), (s.entry id).state ≠ .clear ∧
      (s.entry id).response = some c ∧ c.configured = a := by
  have hnames : ∀ c : Carried, c.names a = true ↔ c.configured = a := fun c => by simp [Carried.names, ha]
  simp only [FaultTable.anyWith, List.any_eq_true, FaultTable.mem_entries, Entry.standsWith_iff, hnames]
  constructor
  · rintro ⟨_, ⟨id, rfl⟩, h⟩
    exact ⟨id, h⟩
  · rintro ⟨id, h⟩
    exact ⟨_, ⟨id, rfl⟩, h⟩

theorem State.tripStands_iff (s : State) :
    s.tripStands = true ↔ ∃ (id : FaultId) (c : Carried), (s.entry id).state ≠ .clear ∧
      (s.entry id).response = some c ∧ c.configured = .trip := s.anyWith_iff (by decide)

theorem State.holdStands_iff (s : State) :
    s.holdStands = true ↔ ∃ (id : FaultId) (c : Carried), (s.entry id).state ≠ .clear ∧
      (s.entry id).response = some c ∧ c.configured = .hold := s.anyWith_iff (by decide)

theorem resetTrip_stands (hs : s.line.state = some .tripped)
    (h : ∃ (id : FaultId) (c : Carried), (s.entry id).state ≠ .clear ∧ (s.entry id).response = some c ∧
      c.configured = .trip) : resetTrip s = refuse s .conditionPresent := by
  simp [resetTrip, hs, s.tripStands_iff.mpr h]

theorem resetTrip_ok (hs : s.line.state = some .tripped)
    (h : ∀ (id : FaultId) (c : Carried), (s.entry id).state ≠ .clear → (s.entry id).response = some c →
      c.configured ≠ .trip) : resetTrip s = answer (s.setLineState .standby .request) .ok := by
  have h0 : s.tripStands = false := by
    rw [← Bool.not_eq_true, State.tripStands_iff]
    rintro ⟨id, c, h1, h2, h3⟩
    exact h id c h1 h2 h3
  simp [resetTrip, hs, h0]

end Rules

/-! ### What an accepted request makes of the state -/

/-- A request whose own rule writes I_cmd and changes the line state. -/
theorem State.take_moves {s : State} {i : Instr} {rq : Req} {kind : ReqKind} {body : State → State × Option Answer}
    (hr : s.ready i) (hi : i.request? = some (rq, kind)) (hl : i.requiredLength = some kind.payloadLength)
    {l : Line} {new : LineState} (hline : l.state = s.line.state)
    (hbody : body (s.answering rq.port) =
      (({ s.answering rq.port with line := l }).setLineState new .request, some ⟨.ok, []⟩)) :
    ∃ t u : State, (Host.Outcome.next (s.take rq kind body) : Host.Outcome State Fault Refusal) = .next t ∧
      u = ({ s.answering rq.port with line := l }).setLineState new .request ∧ u.keepsAllBut t [.ports] ∧
      t.line = { l with state := some new } ∧ t.out = [] ∧ s.portsAnswer t rq kind .ok [] ∧
      (∀ b : NoticeBody, (s.answering rq.port).hears u b → s.hears t b) ∧
      s.hears t (.lineState new s.line.state .request) := by
  generalize hu : ({ s.answering rq.port with line := l }).setLineState new .request = u at hbody
  have hhears : ∀ b : NoticeBody, (s.answering rq.port).hears u b →
      s.hears (u.respondOn rq.port ⟨rq.tag, kind.code, .ok, []⟩) b := fun b h => State.hears_respondOn _ _ _ h
  have hkeeps := u.respondOn_keeps rq.port ⟨rq.tag, kind.code, .ok, []⟩
  refine ⟨_, u, rfl, rfl, ?_⟩
  rw [State.take_ready hr hi hl hbody]
  refine ⟨hkeeps, ?_, ?_, State.portsAnswer_of_noticed _ _ _ _ ?_, hhears, hhears _ ?_⟩
  · rw [hkeeps .line (by decide), ← hu, State.setLineState_line]
  · rw [hkeeps .out (by decide), ← hu, State.setLineState_keeps _ _ _ .out (by decide)]
    rfl
  · rw [← hu]
    exact State.noticed_trans (t := { s.answering rq.port with line := l }) (State.noticed_of_ports rfl)
      (State.setLineState_noticed _ _ _)
  · have h := State.setLineState_hears { s.answering rq.port with line := l } new .request
    rw [hu, show ({ s.answering rq.port with line := l } : State).line.state = s.line.state from hline] at h
    exact h.since rfl fun _ => rfl

/-- The parts that a change to a state that does not regulate leaves, where the groups stay in or out of the set. -/
theorem State.moved_keeps {s t u : State} {p : Port} {l : Line} {new : LineState} {c : LineCause}
    (hu : u = ({ s.answering p with line := l }).setLineState new c) (hreg : new.regulates = false)
    (ht : u.keepsAllBut t [.ports]) : s.keepsAllBut t [.line, .groups, .cooling, .ports, .out] := by
  have h1 : ({ s.answering p with line := l }).keepsAllBut u [.line, .groups, .cooling, .ports, .out] :=
    hu ▸ State.keepsAllBut_mono (State.setLineState_keeps_stopped _ c hreg) (by simp)
  have h2 : s.keepsAllBut { s.answering p with line := l } [.line, .groups, .cooling, .ports, .out] := by
    intro q hq
    cases q <;> first | rfl | exact absurd (by simp) hq
  exact State.keepsAllBut_trans h2 (State.keepsAllBut_trans h1 (State.keepsAllBut_mono ht (by simp)))

/-- The same between two running states, or between two that do not run. -/
theorem State.moved_keeps_units {s t u : State} {p : Port} {new : LineState} {c : LineCause}
    (hu : u = (s.answering p).setLineState new c) (hreg : new.regulates = false)
    (hrun : new.running = s.running) (ht : u.keepsAllBut t [.ports]) : s.keepsAllBut t [.line, .ports, .out] := by
  obtain ⟨hgroups, hcool⟩ := State.setLineState_keeps_units (s.answering p) (new := new) c hrun
  rw [← hu] at hgroups hcool
  refine (State.moved_keeps (l := s.line) hu hreg ht).except fun q hq hn => ?_
  obtain rfl | rfl : q = .groups ∨ q = .cooling := by revert hq hn; cases q <;> simp
  · exact (ht .groups (by decide)).trans hgroups
  · exact (ht .cooling (by decide)).trans hcool

/-- Every group selected at an accepted START_LINE enters the set, and GRACE follows (R2, R68). -/
theorem startLine_moves {rq : Req} {s : State} (hr : s.ready (.startLine rq)) (hs : s.line.state = some .standby)
    (hg : ∃ g : Group, (s.group g).service = .inService) :
    ∃ t : State, exec (.startLine rq) s = .next t ∧
      t.line = { s.line with state := some .starting, iCmd := 0 } ∧ t.out = [] ∧
      s.portsAnswer t rq .startLine .ok [] ∧ s.hears t (.lineState .starting (some .standby) .request) ∧
      (∀ g : Group, t.cool g = if t.inSet g = true then (s.cool g).entering (s.groupConfig g) s.timeBase else s.cool g) ∧
      (∀ g : Group, (s.group g).service = .inService → (s.group g).awaiting = false → t.inSet g = true) ∧
      s.graceFollows t ∧ s.keepsAllBut t [.line, .cooling, .ports, .out] := by
  have hbody : startLine (s.answering rq.port) =
      (({ s.answering rq.port with line := { s.line with iCmd := 0 } }).setLineState .starting .request,
        some ⟨.ok, []⟩) := startLine_ok (s := s.answering rq.port) hs hg
  obtain ⟨t, u, hexec, hu, hut, hline, hout, hports, hhears, hnote⟩ :=
    State.take_moves (i := .startLine rq) (l := { s.line with iCmd := 0 }) hr rfl rfl rfl hbody
  rw [hs] at hnote
  have hbefore : ∀ g : Group, s.inSet g = false := fun g => by
    simp [State.inSet_eq, State.running, hs, LineState.running]
  have hbefore' : ∀ g : Group, ({ s.answering rq.port with line := { s.line with iCmd := 0 } }).inSet g = false := hbefore
  have hset : ∀ g : Group, t.inSet g = ((s.group g).service.member && !(s.group g).awaiting) := fun g => by
    rw [hut.inSet (by decide) (by decide), hu, State.setLineState_inSet]
    rfl
  have hgroups : t.groups = s.groups := by
    refine (hut .groups (by decide)).trans (Eight.ext_get fun g => ?_)
    have h := State.setLineState_group { s.answering rq.port with line := { s.line with iCmd := 0 } } .starting .request g
    rw [← hu, hbefore'] at h
    cases hb : u.inSet g <;> rw [hb] at h <;> exact h
  have hcool : ∀ g : Group,
      t.cool g = if t.inSet g = true then (s.cool g).entering (s.groupConfig g) s.timeBase else s.cool g := fun g => by
    have h := State.setLineState_cool { s.answering rq.port with line := { s.line with iCmd := 0 } } .starting .request g
    rw [← hu, hbefore', ← hut.cool (by decide), ← hut.inSet (by decide) (by decide)] at h
    rw [h]
    cases t.inSet g <;> rfl
  refine ⟨t, hexec, hline, hout, hports, hnote, hcool, fun g h1 h2 => by simp [hset, h1, h2, ServiceState.member], ?_, ?_⟩
  · refine fun g => ⟨fun _ ha => ⟨by rw [hcool, if_pos ha], fun h0 h1 => hhears _ ?_⟩, fun h => ?_, fun h => ?_⟩
    · rw [hut.cool (by decide), hu] at h1
      rw [hu]
      exact (State.setLineState_hearsGrace { s.answering rq.port with line := { s.line with iCmd := 0 } } .starting .request
        g h0 h1).since rfl fun _ => rfl
    all_goals rw [hbefore] at h; cases h
  · refine (State.moved_keeps hu rfl hut).except fun q hq hn => ?_
    obtain rfl : q = .groups := by revert hq hn; cases q <;> simp
    exact hgroups

/-- STOP_LINE and RESET_TRIP past their tests: a change of the line state that moves no group (R5, R8). -/
theorem State.take_stops {s : State} {i : Instr} {rq : Req} {kind : ReqKind} {body : State → State × Option Answer}
    (hr : s.ready i) (hi : i.request? = some (rq, kind)) (hl : i.requiredLength = some kind.payloadLength)
    {new l : LineState} (hs : s.line.state = some l) (hreg : new.regulates = false) (hrun : new.running = l.running)
    (hbody : body (s.answering rq.port) = ((s.answering rq.port).setLineState new .request, some ⟨.ok, []⟩)) :
    ∃ t : State, (Host.Outcome.next (s.take rq kind body) : Host.Outcome State Fault Refusal) = .next t ∧
      t.line = { s.line with state := some new } ∧ t.out = [] ∧ s.portsAnswer t rq kind .ok [] ∧
      s.hears t (.lineState new (some l) .request) ∧ s.keepsAllBut t [.line, .ports, .out] := by
  obtain ⟨t, u, hexec, hu, hut, hline, hout, hports, -, hnote⟩ :=
    State.take_moves (l := s.line) hr hi hl rfl hbody
  rw [hs] at hnote
  exact ⟨t, hexec, hline, hout, hports, hnote, State.moved_keeps_units hu hreg (by simp [State.running, hs, hrun]) hut⟩

/-- Settles O5, each request by the tests of its own rule. -/
theorem lineRequestsMoveTheLine : Obligations.LineRequestsMoveTheLine := by
  refine ⟨⟨fun rq s hr => ⟨fun hs => ?_, fun hs hno => ?_, startLine_moves hr⟩,
    fun rq s hr => ⟨fun l hs hl => ?_, fun hs => ?_, fun hs => ?_⟩⟩,
    fun rq s hr => ⟨fun hs => ?_, fun hs hstands => ?_, fun hs hclear => ?_⟩, fun rq s => ⟨?_, ?_, ?_⟩⟩
  · rw [execStartLine_eq, State.take_answered (i := .startLine rq) hr rfl rfl]
    exact if_pos hs
  · rw [execStartLine_eq, State.take_answered (i := .startLine rq) hr rfl rfl]
    exact startLine_noGroups (s := s.answering rq.port) hs hno
  · refine State.take_stops (i := .stopLine rq) hr rfl rfl hs rfl ?_ (stopLine_ok (s := s.answering rq.port) hs hl)
    rcases hl with rfl | rfl | rfl <;> rfl
  · have h1 : (s.answering rq.port).line.state = some .stopping := hs
    rw [execStopLine_eq, State.take_answered (i := .stopLine rq) hr rfl rfl]
    simp [stopLine, h1, answer]
  · rw [execStopLine_eq, State.take_answered (i := .stopLine rq) hr rfl rfl]
    exact stopLine_refused (s := s.answering rq.port) hs
  · rw [execResetTrip_eq, State.take_answered (i := .resetTrip rq) hr rfl rfl]
    exact if_pos hs
  · rw [execResetTrip_eq, State.take_answered (i := .resetTrip rq) hr rfl rfl]
    exact resetTrip_stands (s := s.answering rq.port) hs hstands
  · exact State.take_stops (i := .resetTrip rq) hr rfl rfl hs rfl rfl
      (resetTrip_ok (s := s.answering rq.port) hs hclear)
  · exact State.refuses_others (execStartLine_eq rq s) (by intro r; cases r <;> simp [requestPermits])
  · exact State.refuses_others (execStopLine_eq rq s) (by intro r; cases r <;> simp [requestPermits])
  · exact State.refuses_others (execResetTrip_eq rq s) (by intro r; cases r <;> simp [requestPermits])

end Sys2Proof.Machine
end

