-- ==== Sys2Proof/Proofs/Reads.lean ====
section
/-! The reads that clear nothing (R24, R41, R59, R79, R98, R122, R142, R154, R168, R176, R188). -/

namespace Sys2Proof.Machine

/-- A request that answers without a change, from its command. -/
theorem exec_answered {s : State} {i : Instr} {rq : Req} {kind : ReqKind} {body : State → State × Option Answer}
    {code : ResultCode} {payload : List Field} (hr : s.ready i)
    (hexec : exec i s = .next (s.take rq kind body)) (hi : i.request? = some (rq, kind))
    (hl : i.requiredLength = some kind.payloadLength)
    (hbody : body (s.answering rq.port) = (s.answering rq.port, some ⟨code, payload⟩)) :
    exec i s = .next (s.answered rq kind code payload) := by
  rw [hexec, State.take_answered hr hi hl hbody]

/-! ### Names of entries (R168) -/

theorem faultIdOf_number (id : FaultId) (m : Nat) (h : ∀ g : Group, id.group? = some g → g.val = m) :
    faultIdOf id.kind.number m = some id := by
  match id with
  | .group k g =>
    obtain rfl := h g rfl
    cases k <;> simp [faultIdOf, FaultId.kind, FaultKind.number, GroupKind.number, allFaultKinds]
  | .line k => cases k <;> rfl

theorem faultIdOf_none {n m : Nat} (h : 12 < n ∨ (n < 6 ∧ 7 < m)) : faultIdOf n m = none := by
  unfold faultIdOf
  rcases h with h | ⟨h, hm⟩
  · rw [List.getElem?_eq_none (show allFaultKinds.length ≤ n from h)]
  · have hm' : ¬ m < 8 := by omega
    interval_cases n <;> simp [allFaultKinds, hm']

/-! ### Frames (R176) -/

/-- Of stacked frames with distinct addresses, the search by address finds the one that has it. -/
theorem find_address {n : Nat} {f : Frame} : ∀ {fs : List Frame}, f ∈ fs → f.address = n →
    fs.Pairwise (fun a b => a.address ≠ b.address) → (fs.find? fun x => x.address == n) = some f := by
  intro fs
  induction fs with
  | nil => exact fun hf => nomatch hf
  | cons x fs ih =>
    intro hf ha hd
    obtain ⟨hx, hfs⟩ := List.pairwise_cons.mp hd
    rcases List.mem_cons.mp hf with rfl | hf
    · simp [ha]
    · have hne : ¬ x.address = n := ha ▸ hx f hf
      rw [List.find?_cons_of_neg (by simpa using hne)]
      exact ih hf ha hfs

section Frames

variable {s : State} {n : Nat}

theorem readFrame_above (h : 4096 < n) : readFrame (.address n) s = refuse s .outOfRange := by
  simp [readFrame, storeWords, h]

theorem readFrame_missing (hn : n ≤ 4096) (h : ∀ f ∈ s.stack.frames, f.address ≠ n) :
    readFrame (.address n) s = refuse s .notFound := by
  have hnone : (s.stack.frames.find? fun f => f.address == n) = none :=
    List.find?_eq_none.mpr fun f hf => by simpa using h f hf
  simp [readFrame, storeWords, Nat.not_lt.mpr hn, hnone]

theorem readFrame_found {f : Frame} (hf : f ∈ s.stack.frames) (hn : n ≤ 4096) (ha : f.address = n)
    (hd : s.stack.frames.Pairwise (fun a b => a.address ≠ b.address)) :
    readFrame (.address n) s = answerWith s (f.fields ++ [fTwo f.address]) := by
  simp [readFrame, storeWords, Nat.not_lt.mpr hn, find_address hf ha hd]

end Frames

/-! ### READ_CLAIMS (R41) -/

theorem Claim.fields_eq (c : Claim) :
    c.fields = [Field.mark c.active, .num 2 c.value] ++
      (match c.writer with
        | none => [Field.noValue 1 1]
        | some p => [Field.present, .num 1 p.val]) ++ [.num 5 c.changed] := by
  unfold Claim.fields fOption
  cases c.writer <;> rfl

/-- Settles O50: every read's own rule answers from the state and hands it back. -/
theorem readsAnswerAndChangeNothing : Obligations.ReadsAnswerAndChangeNothing := by
  refine ⟨⟨fun rq s c kind payload hmem hr => ?_, fun rq s hr => ?_⟩, fun rq n m s => ⟨fun hr => ⟨fun hn => ?_, ?_⟩,
    fun hr => ⟨fun hn => ?_, fun hn => ?_⟩, fun hr => ⟨fun hn => ?_, fun id hid hg => ?_⟩,
    fun hr => ⟨fun hn => ?_, fun hn => ?_⟩, fun hr => ⟨fun hf => ?_, fun f fs hf => ?_⟩,
    fun hr => ⟨fun hn => ?_, fun hn h => ?_, fun f hf hn ha hd => ?_⟩⟩⟩
  · simp only [List.mem_cons, Prod.mk.injEq, List.not_mem_nil, or_false] at hmem
    rcases hmem with h | h | h | h | h | h | h
    all_goals
      obtain ⟨rfl, rfl, rfl⟩ := h
      exact exec_answered hr rfl rfl rfl rfl
  · refine exec_answered hr rfl rfl rfl ?_
    simp only [readClaims, allSlots, Claim.fields_eq]
    rfl
  · refine exec_answered hr rfl rfl rfl ?_
    simp only [readCooling, groupOf_above hn]
    rfl
  · rintro g rfl
    refine exec_answered hr rfl rfl rfl ?_
    simp only [readCooling, groupOf_val]
    rfl
  · exact exec_answered hr rfl rfl rfl (if_pos hn)
  · exact exec_answered hr rfl rfl rfl (if_neg (Nat.not_lt.mpr hn))
  · refine exec_answered hr rfl rfl rfl ?_
    simp only [readFault, faultIdOf_none hn]
    rfl
  · refine exec_answered hr rfl rfl rfl ?_
    subst hid
    simp only [readFault, faultIdOf_number id m hg]
    rfl
  · exact exec_answered hr rfl rfl rfl (if_pos (by simp [hn]))
  · exact exec_answered hr rfl rfl rfl (if_neg (by simp [hn]))
  · have hf' : (s.answering rq.port).stack.frames = [] := hf
    exact exec_answered hr rfl rfl rfl (by simp only [readFrame, hf']; rfl)
  · have hf' : (s.answering rq.port).stack.frames = f :: fs := hf
    exact exec_answered hr rfl rfl rfl (by simp only [readFrame, hf']; rfl)
  · exact exec_answered hr rfl rfl rfl (readFrame_above hn)
  · exact exec_answered hr rfl rfl rfl (readFrame_missing (s := s.answering rq.port) hn h)
  · exact exec_answered hr rfl rfl rfl (readFrame_found (s := s.answering rq.port) hf hn ha hd)

end Sys2Proof.Machine
end

