-- ==== Sys2Proof/Proofs/Onsets.lean ====
section
/-! What an onset leaves of the fault entries, and of the line and the groups when its kind cannot trip the line (R157 to R166). -/

namespace Sys2Proof.Machine

/-! ### The entry after step 1 (R158, R159) -/

section StepOne

variable (s : State) (id : FaultId) (detail : Option Detail)

theorem State.stepOne_state : (s.stepOne id detail).state = .active := by
  unfold State.stepOne
  cases h : (s.entry id).state <;> simp [Entry.openWith, Entry.reopen, Entry.again, h]

theorem State.stepOne_detail : (s.stepOne id detail).detail = detail := by
  unfold State.stepOne
  cases h : (s.entry id).state <;> rfl

theorem State.stepOne_last : (s.stepOne id detail).last = s.timeBase := by
  unfold State.stepOne
  cases h : (s.entry id).state <;> rfl

/-- The responses of one entry are those its kind allows: the one of the action table and the one it carries (R157, R158). -/
def State.allowedAt (s : State) (id : FaultId) : Prop :=
  id.kind.allows (s.config.actions.get id.kind).response = true ∧
    ∀ c : Carried, (s.entry id).response = some c → id.kind.allows c.configured = true ∧ c.forced = id.kind.forcesRemove

variable {s id}

theorem State.responsesAllowed.at (h : s.responsesAllowed) (id : FaultId) : s.allowedAt id := by
  obtain ⟨hconfig, -, -, hentry⟩ := h
  exact ⟨hconfig id.kind, hentry id⟩

theorem State.allowedAt_congr {t : State} (h : s.allowedAt id) (hconfig : t.config = s.config)
    (hresponse : (t.entry id).response = (s.entry id).response) : t.allowedAt id := by
  unfold State.allowedAt
  rw [hconfig, hresponse]
  exact h

/-- The response with which an onset is taken is one its kind allows. -/
theorem State.stepOne_allowed (h : s.allowedAt id) {c : Carried} (hc : (s.stepOne id detail).response = some c) :
    id.kind.allows c.configured = true ∧ c.forced = id.kind.forcesRemove := by
  obtain ⟨h1, h2⟩ := h
  unfold State.stepOne at hc
  split at hc
  · cases hc; exact ⟨h1, rfl⟩
  · exact h2 c hc
  · exact h2 c hc

end StepOne

/-! ### The entries under the steps of an onset (R159, R163 to R166) -/

theorem Entry.sameButReduce_of_eq {e f : Entry} (h : f = e) : e.sameButReduce f := by subst h; exact Entry.sameButReduce_refl _

theorem Entry.sameButReduce.fields {e f : Entry} (h : e.sameButReduce f) :
    f.state = e.state ∧ f.count = e.count ∧ f.last = e.last ∧ f.detail = e.detail ∧ f.response = e.response := by
  rw [h]; exact ⟨rfl, rfl, rfl, rfl, rfl⟩

theorem State.keepsAllBut.entry {s t : State} {l : List Part} (h : s.keepsAllBut t l) (hl : Part.faults ∉ l) (id : FaultId) :
    t.entry id = s.entry id := congrArg (fun u : FaultUnit => u.table.get id) (h .faults hl)

theorem State.removeGroup_keeps_faults (s : State) (g : Group) :
    s.keepsAllBut (s.removeGroup g) [.groups, .cooling, .ports, .out] := by
  rw [State.removeGroup_eq]
  have h : s.keepsAllBut ((s.endRamps g).setService g .removed .fault) [.groups, .cooling, .ports, .out] := by
    refine State.keepsAllBut_trans (t := s.endRamps g) ?_
      (State.keepsAllBut_mono (State.setService_keeps _ _ _ _) (by simp [groupParts]))
    intro p hp
    cases p <;> first | rfl | exact absurd (by simp) hp
  split
  · exact s.keepsAllBut_refl _
  · simp only
    split
    · exact State.keepsAllBut_trans h (State.keepsAllBut_mono (State.sendOrder_keeps _ _ _ _) (by simp))
    · exact h

theorem State.removeGroup_group_ne (s : State) {g h : Group} (hne : h ≠ g) : (s.removeGroup g).group h = s.group h := by
  have h1 : ((s.endRamps g).setService g .removed .fault).group h = s.group h := by
    rw [State.setService_group_ne _ hne]
    exact State.group_modGroup_ne _ hne _
  rw [State.removeGroup_eq]
  split
  · rfl
  · simp only
    split
    · rw [State.sendOrder_group, if_neg hne, h1]
    · exact h1

theorem State.applyRemove_keeps (s : State) (id : FaultId) (c : Carried) :
    s.keepsAllBut (s.applyRemove id c) [.groups, .cooling, .ports, .out] := by
  unfold State.applyRemove
  split
  · split
    · exact s.removeGroup_keeps_faults _
    · exact s.keepsAllBut_refl _
  · exact s.keepsAllBut_refl _

theorem State.holdLine_entry (s : State) (j : FaultId) : (s.entry j).sameButReduce (s.holdLine.entry j) := by
  rw [State.holdLine_eq]
  split
  · exact s.setLineState_entry _ _ j
  · exact Entry.sameButReduce_refl _

theorem State.reduceLine_entry (s : State) (id : FaultId) (before : EntryState) (j : FaultId) :
    (s.entry j).sameButReduce ((s.reduceLine id before).entry j) := by
  have hset : ∀ v : ReduceValue, (s.entry j).sameButReduce ((s.setEntry id { s.entry id with reduceValue := v }).entry j) := by
    intro v
    by_cases hj : j = id
    · subst hj
      rw [State.entry_setEntry_self]
      rfl
    · exact Entry.sameButReduce_of_eq (s.entry_setEntry_ne hj _)
  unfold State.reduceLine
  split
  · simp only
    split
    · rw [State.writeFaultClaim_entry]
      exact hset _
    · exact hset _
  · exact Entry.sameButReduce_refl _
  · exact Entry.sameButReduce_refl _

theorem State.applyLine_entry {trip : State → State} {j : FaultId}
    (ht : ∀ u : State, (u.entry j).sameButReduce ((trip u).entry j)) (s : State) (id : FaultId) (before : EntryState)
    (a : Action) : (s.entry j).sameButReduce ((s.applyLine trip id before a).entry j) := by
  cases a with
  | note => exact Entry.sameButReduce_refl _
  | hold => exact s.holdLine_entry j
  | reduce => exact s.reduceLine_entry id before j
  | remove => exact Entry.sameButReduce_refl _
  | trip => exact ht s

/-- Besides step 1 on its own entry an onset writes reduce values alone, if a TRIP does. -/
theorem State.onsetWith_entry {trip : State → State} {j : FaultId}
    (ht : ∀ u : State, (u.entry j).sameButReduce ((trip u).entry j)) (s : State) (id : FaultId) (detail : Option Detail) :
    (if j = id then s.stepOne id detail else s.entry j).sameButReduce ((s.onsetWith trip id detail).entry j) := by
  rw [State.onsetWith_eq]
  by_cases hs : (s.entry id).state = .active
  · rw [if_pos hs]
    split
    · next hj => subst hj; exact Entry.sameButReduce_of_eq (s.entry_setEntry_self _ _)
    · next hj => exact Entry.sameButReduce_of_eq (s.entry_setEntry_ne hj _)
  · rw [if_neg hs, State.onsetSteps_eq, State.respond_eq, (State.noteOnset_keeps _ id _ detail).entry (by decide)]
    have h1 : (s.beforeResponse id (s.entry id).state detail (s.stepOne id detail)).entry j =
        if j = id then s.stepOne id detail else s.entry j := by
      split
      · next hj => subst hj; exact State.beforeResponse_entry_self _ _ _ _ _
      · next hj => exact State.beforeResponse_entry_ne _ hj _ _ _
    rw [← h1]
    split
    · exact Entry.sameButReduce_refl _
    · have h2 := (State.applyRemove_keeps
        (s.beforeResponse id (s.entry id).state detail (s.stepOne id detail)) id ‹Carried›).entry (by decide) j
      rw [← h2]
      exact State.applyLine_entry ht _ _ _ _

/-- The kinds whose entries a TRIP can change besides their reduce values. -/
def FaultId.tripped (j : FaultId) : Prop := j = .line .capacityShort ∨ ∃ g : Group, j = .group .mismatch g

theorem State.enterBlocked_entry (s : State) {new : LineState} (c : LineCause) (h : new.blocked = true) (j : FaultId) :
    (s.enterBlocked new c).entry j = s.entry j := (State.enterBlocked_keeps_stopped h).entry (by decide) j

theorem State.enterTripped_entry (s : State) {j : FaultId} (hj : j ≠ .line .capacityShort) :
    s.enterTripped.entry j = s.entry j :=
  (State.capacityDeparture_entry_ne _ hj).trans (s.enterBlocked_entry .fault rfl j)

theorem State.classifyGroup_entry (s : State) (g : Group) {j : FaultId} (hj : j ≠ .group .mismatch g) :
    (s.entry j).sameButReduce ((s.classifyGroup g).entry j) := by
  have h1 : ((s.setService g .removed .adoption).modCool g fun c => { c with adoptionSource := true }).entry j =
      s.entry j := (s.setService_keeps g .removed .adoption).entry (by decide) j
  unfold State.classifyGroup
  split
  · simp only
    split
    · exact Entry.sameButReduce_of_eq h1
    · have h2 := State.onsetWith_entry (trip := fun t => t) (j := j) (fun _ => Entry.sameButReduce_refl _)
        ((s.setService g .removed .adoption).modCool g fun c => { c with adoptionSource := true }) (.group .mismatch g)
        (some (.mismatch (s.cool g).differing))
      rwa [if_neg hj, h1] at h2
  · exact Entry.sameButReduce_refl _

theorem State.tripLine_entry {j : FaultId} (hj : ¬ j.tripped) (s : State) :
    (s.entry j).sameButReduce (s.tripLine.entry j) := by
  have hcap : j ≠ .line .capacityShort := fun h => hj (.inl h)
  have hclose : (s.entry j).sameButReduce (s.closeWindow.entry j) :=
    State.eachGroup_kept (fun t => (s.entry j).sameButReduce (t.entry j))
      (fun t g ht => Entry.sameButReduce_trans ht (t.classifyGroup_entry g fun h => hj (.inr ⟨g, h⟩)))
      (Entry.sameButReduce_refl _)
  unfold State.tripLine
  split
  · exact Entry.sameButReduce_refl _
  · exact Entry.sameButReduce_refl _
  · rw [State.enterTripped_entry _ hcap]; exact hclose
  all_goals exact Entry.sameButReduce_of_eq (s.enterTripped_entry hcap)

/-- An onset writes its own entry by step 1 and, those that a TRIP reaches aside, no other entry but for its reduce value. -/
theorem State.onset_entry {j : FaultId} (hj : ¬ j.tripped) (s : State) (id : FaultId) (detail : Option Detail) :
    (if j = id then s.stepOne id detail else s.entry j).sameButReduce ((s.onset id detail).entry j) :=
  State.onsetWith_entry (State.tripLine_entry hj) s id detail

/-! ### Onsets that cannot trip the line -/

/-- An onset whose kind allows no TRIP never comes to one. -/
theorem State.onset_eq_tame {s : State} {id : FaultId} (detail : Option Detail) (h : s.allowedAt id)
    (hk : id.kind.allows .trip = false) : s.onset id detail = s.onsetWith (fun t => t) id detail := by
  rw [State.onset, State.onsetWith_eq, State.onsetWith_eq]
  split
  · rfl
  · rw [State.onsetSteps_eq, State.onsetSteps_eq, State.respond_eq, State.respond_eq, State.beforeResponse_entry_self]
    cases hc : (s.stepOne id detail).response with
    | none => rfl
    | some c =>
      have hne : c.configured ≠ .trip := fun ht => by
        have := (State.stepOne_allowed detail h hc).1
        rw [ht, hk] at this
        cases this
      cases ha : c.configured <;> simp_all [State.applyLine]

/-- The line is left, or a HOLD has taken it from REGULATING to HOLD (R4). -/
def State.lineHeld (s t : State) : Prop :=
  t.line = s.line ∨ (s.line.state = some .regulating ∧ t.line = { s.line with state := some .hold })

theorem State.lineHeld.fields {s t : State} (h : s.lineHeld t) : t.line = { s.line with state := t.line.state } := by
  rcases h with h | ⟨-, h⟩ <;> rw [h]

theorem State.lineHeld.running {s t : State} (h : s.lineHeld t) : t.running = s.running := by
  rcases h with h | ⟨hs, h⟩
  · exact State.running_of_line (by rw [h])
  · simp [State.running, hs, h, LineState.running]

theorem State.holdLine_lineHeld (s : State) : s.lineHeld s.holdLine := by
  rw [State.holdLine_eq]
  split
  · next h => exact .inr ⟨h, State.setLineState_line _ _ _⟩
  · exact .inl rfl

theorem State.applyLine_lineHeld (s : State) (id : FaultId) (before : EntryState) (a : Action) :
    s.lineHeld (s.applyLine (fun t => t) id before a) := by
  cases a with
  | hold => exact s.holdLine_lineHeld
  | reduce => exact .inl (s.reduceLine_keeps_groups id before .line (by decide))
  | note | remove | trip => exact .inl rfl

theorem State.onsetWith_lineHeld (s : State) (id : FaultId) (detail : Option Detail) :
    s.lineHeld (s.onsetWith (fun t => t) id detail) := by
  rw [State.onsetWith_eq]
  split
  · exact .inl rfl
  · have h1 : (s.beforeResponse id (s.entry id).state detail (s.stepOne id detail)).line = s.line :=
      State.beforeResponse_keeps _ _ _ _ _ .line (by decide)
    rw [State.onsetSteps_eq, State.respond_eq, State.lineHeld, State.noteOnset_keeps _ _ _ _ .line (by decide)]
    split
    · exact .inl h1
    · have h2 := State.applyLine_lineHeld
        ((s.beforeResponse id (s.entry id).state detail (s.stepOne id detail)).applyRemove id ‹Carried›) id
        (s.entry id).state (Carried.configured ‹Carried›)
      rwa [State.lineHeld, State.applyRemove_keeps _ _ _ .line (by decide), h1] at h2

/-- The groups, their cooling and the frames sent are left, and the ports but for notices. -/
structure State.unitsKept (s t : State) : Prop where
  groups : t.groups = s.groups
  cooling : t.cooling = s.cooling
  out : t.out = s.out
  noticed : s.noticed t

theorem State.unitsKept_of_keeps {s t : State} {l : List Part} (h : s.keepsAllBut t l)
    (hl : Part.groups ∉ l ∧ Part.cooling ∉ l ∧ Part.out ∉ l) (hn : s.noticed t) : s.unitsKept t :=
  ⟨h .groups hl.1, h .cooling hl.2.1, h .out hl.2.2, hn⟩

theorem State.unitsKept_refl (s : State) : s.unitsKept s := ⟨rfl, rfl, rfl, s.noticed_refl⟩

theorem State.unitsKept_trans {s t u : State} (h : s.unitsKept t) (k : t.unitsKept u) : s.unitsKept u :=
  ⟨k.groups.trans h.groups, k.cooling.trans h.cooling, k.out.trans h.out, State.noticed_trans h.noticed k.noticed⟩

theorem State.applyLine_unitsKept (s : State) (id : FaultId) (before : EntryState) (a : Action) :
    s.unitsKept (s.applyLine (fun t => t) id before a) := by
  cases a with
  | hold =>
    simp only [State.applyLine]
    rw [State.holdLine_eq]
    split
    · next h =>
      obtain ⟨hg, hc⟩ := s.setLineState_keeps_units (new := .hold) .fault (by simp [State.running, h, LineState.running])
      exact ⟨hg, hc, s.setLineState_keeps _ _ .out (by decide), s.setLineState_noticed _ _⟩
    · exact s.unitsKept_refl
  | reduce =>
    have hk := s.reduceLine_keeps_groups id before
    exact State.unitsKept_of_keeps hk (by decide) (State.noticed_of_keeps hk (by decide))
  | note | remove | trip => exact s.unitsKept_refl

/-- An onset that cannot trip the line leaves the groups where its REMOVE has nothing to do. -/
theorem State.onsetWith_unitsKept {s : State} {id : FaultId} {detail : Option Detail}
    (h : ∀ (c : Carried) (t : State), (s.stepOne id detail).response = some c → t.groups = s.groups →
      t.applyRemove id c = t) :
    s.unitsKept (s.onsetWith (fun t => t) id detail) := by
  rw [State.onsetWith_eq]
  split
  · exact ⟨rfl, rfl, rfl, State.noticed_of_ports rfl⟩
  · have hk := s.beforeResponse_keeps id (s.entry id).state detail (s.stepOne id detail)
    rw [State.onsetSteps_eq, State.respond_eq, State.beforeResponse_entry_self]
    refine State.unitsKept_trans (State.unitsKept_of_keeps hk (by decide) (State.noticed_of_keeps hk (by decide)))
      (State.unitsKept_trans ?_ (State.unitsKept_of_keeps (State.noteOnset_keeps _ id _ detail) (by decide)
        (State.notify_noticed _ _)))
    cases hc : (s.stepOne id detail).response with
    | none => exact State.unitsKept_refl _
    | some c =>
      simp only [h c _ hc (hk .groups (by decide))]
      exact State.applyLine_unitsKept _ _ _ _

/-- A response that names no REMOVE removes no group. -/
theorem State.applyRemove_unnamed {c : Carried} (h : c.names .remove = false) (s : State) (id : FaultId) :
    s.applyRemove id c = s := by
  unfold State.applyRemove
  split <;> simp [h]

/-- A group that is REMOVED already is not removed again. -/
theorem State.applyRemove_removed {s : State} {k : GroupKind} {g : Group} (h : (s.group g).service = .removed)
    (c : Carried) : s.applyRemove (.group k g) c = s := by
  have hr : s.removeGroup g = s := by rw [State.removeGroup_eq, if_pos (.inl h)]
  unfold State.applyRemove
  simp only [hr, ite_self]

/-- What an onset or a departure does that neither trips the line nor removes a group. -/
structure State.mild (s t : State) : Prop extends units : s.unitsKept t where
  line : s.lineHeld t

theorem State.mild_of_keeps {s t : State} (h : s.keepsAllBut t [.faults, .ports]) (hn : s.noticed t) : s.mild t :=
  ⟨State.unitsKept_of_keeps h (by decide) hn, .inl (h .line (by decide))⟩

section Mild

variable {s t : State} (h : s.mild t)
include h

theorem State.mild.group (g : Group) : t.group g = s.group g := congrArg (Eight.get · g) h.groups

theorem State.mild.cool (g : Group) : t.cool g = s.cool g := congrArg (Eight.get · g) h.cooling

theorem State.mild.inSet (g : Group) : t.inSet g = s.inSet g := by
  rw [State.inSet_eq, State.inSet_eq, h.line.running, h.group]

end Mild

/-- The kinds whose response neither trips the line nor removes a group. -/
def FaultKind.staysMild (k : FaultKind) : Prop :=
  k.allows .trip = false ∧ k.allows .remove = false ∧ k.forcesRemove = false

theorem State.onset_mild {s : State} {id : FaultId} (detail : Option Detail) (h : s.allowedAt id) (hk : id.kind.staysMild) :
    s.mild (s.onset id detail) := by
  obtain ⟨htrip, hremove, hforced⟩ := hk
  have heq := State.onset_eq_tame detail h htrip
  refine ⟨heq ▸ State.onsetWith_unitsKept fun c t hc _ => ?_, heq ▸ s.onsetWith_lineHeld id detail⟩
  obtain ⟨h1, h2⟩ := State.stepOne_allowed detail h hc
  have hne : c.configured ≠ .remove := fun hr => by rw [hr, hremove] at h1; cases h1
  exact State.applyRemove_unnamed (by simp [Carried.names, hne, h2, hforced]) t id

theorem State.conditionChange_mild {s : State} {id : FaultId} (before after : Bool) (detail : Option Detail)
    (h : s.allowedAt id) (hk : id.kind.staysMild) : s.mild (s.conditionChange id before after detail) := by
  unfold State.conditionChange
  split
  · exact State.onset_mild detail h hk
  · exact State.mild_of_keeps (s.departure_keeps id) (s.departure_noticed id)
  all_goals exact State.mild_of_keeps (s.keepsAllBut_refl _) s.noticed_refl

/-! ### Conditions handed to the fault unit (R159, R160) -/

/-- An onset writes its own entry by step 1, but for its reduce value, where no TRIP reaches that entry. -/
theorem State.onset_entry_own {s : State} {id : FaultId} (detail : Option Detail)
    (h : ¬ id.tripped ∨ (s.allowedAt id ∧ id.kind.allows .trip = false)) :
    (s.stepOne id detail).sameButReduce ((s.onset id detail).entry id) := by
  rcases h with h | ⟨h, hk⟩
  · simpa using s.onset_entry h id detail
  · rw [State.onset_eq_tame detail h hk]
    simpa using State.onsetWith_entry (trip := fun t => t) (j := id) (fun _ => Entry.sameButReduce_refl _) s id detail

/-- A condition handed to the fault unit stands in its own entry as it should. -/
theorem State.conditionChange_handed {s : State} {id : FaultId} (before after : Bool) (detail : Option Detail)
    (h : ¬ id.tripped ∨ (s.allowedAt id ∧ id.kind.allows .trip = false)) :
    s.handed (s.conditionChange id before after detail) id before after detail := by
  unfold State.conditionChange
  cases before <;> cases after
  · exact ⟨fun _ ha => (nomatch ha), fun hb => (nomatch hb), fun _ => ⟨rfl, rfl⟩⟩
  · obtain ⟨h1, -, h2, h3, -⟩ := (State.onset_entry_own detail h).fields
    exact ⟨fun _ _ => ⟨h1.trans (s.stepOne_state id detail), h2.trans (s.stepOne_last id detail),
      h3.trans (s.stepOne_detail id detail)⟩, fun hb => (nomatch hb), fun hb => (nomatch hb)⟩
  · refine ⟨fun hb => (nomatch hb), fun _ _ => ?_, fun hb => (nomatch hb)⟩
    simp only [State.departure_entry_self]
    split <;> rfl
  · exact ⟨fun hb => (nomatch hb), fun _ ha => (nomatch ha), fun _ => ⟨rfl, rfl⟩⟩

/-- The entries besides its own that a condition handed to the fault unit leaves, reduce values aside. -/
theorem State.conditionChange_entry_ne {s : State} {id j : FaultId} (before after : Bool) (detail : Option Detail)
    (hne : j ≠ id) (h : ¬ j.tripped ∨ (s.allowedAt id ∧ id.kind.allows .trip = false)) :
    (s.entry j).sameButReduce ((s.conditionChange id before after detail).entry j) := by
  unfold State.conditionChange
  split
  · rcases h with h | ⟨h, hk⟩
    · simpa [hne] using s.onset_entry h id detail
    · rw [State.onset_eq_tame detail h hk]
      simpa [hne] using State.onsetWith_entry (trip := fun t => t) (j := j) (fun _ => Entry.sameButReduce_refl _) s id detail
  · exact Entry.sameButReduce_of_eq (s.departure_entry_ne hne)
  all_goals exact Entry.sameButReduce_refl _

/-- What was handed in the middle of a command was handed by the command, if nothing else writes the entry but for its reduce
value. -/
theorem State.handed.within {r s t u : State} {id : FaultId} {before after : Bool} {detail : Option Detail}
    (h : s.handed t id before after detail) (htime : s.timeBase = r.timeBase)
    (hbefore : (r.entry id).sameButReduce (s.entry id)) (hafter : (t.entry id).sameButReduce (u.entry id)) :
    r.handed u id before after detail := by
  obtain ⟨b1, b2, -, -, -⟩ := hbefore.fields
  obtain ⟨a1, a2, a3, a4, -⟩ := hafter.fields
  obtain ⟨h1, h2, h3⟩ := h
  unfold State.handed
  rw [a1, a2, a3, a4, ← b1, ← b2, ← htime]
  exact ⟨h1, h2, h3⟩

/-! ### Groups besides the onset's own -/

/-- An onset that cannot trip the line leaves every group but its own. -/
theorem State.onsetWith_group_ne {s : State} {k : GroupKind} {g h : Group} (detail : Option Detail) (hne : h ≠ g) :
    (s.onsetWith (fun t => t) (.group k g) detail).group h = s.group h := by
  have hrem : ∀ (t : State) (c : Carried), (t.applyRemove (.group k g) c).group h = t.group h := fun t c => by
    unfold State.applyRemove
    simp only
    split
    · exact t.removeGroup_group_ne hne
    · rfl
  rw [State.onsetWith_eq]
  split
  · rfl
  · rw [State.onsetSteps_eq, State.respond_eq, (State.noteOnset_keeps _ _ _ _).group (by decide)]
    have hk := s.beforeResponse_keeps (.group k g) (s.entry (.group k g)).state detail (s.stepOne (.group k g) detail)
    split
    · exact hk.group (by decide) h
    · have hu := State.applyLine_unitsKept ((s.beforeResponse (.group k g) (s.entry (.group k g)).state detail
        (s.stepOne (.group k g) detail)).applyRemove (.group k g) ‹Carried›) (.group k g) (s.entry (.group k g)).state
        (Carried.configured ‹Carried›)
      rw [show ∀ x : State, x.group h = x.groups.get h from fun _ => rfl, hu.groups]
      exact (hrem _ _).trans (hk.group (by decide) h)

end Sys2Proof.Machine
end

