-- ==== Sys2Proof/Proofs/LinkSupervision.lean ====
section
/-! The expiries of the link timer and of the tracking timer (R19, R21, R62, R159). -/

namespace Sys2Proof.Machine

theorem execLinkTimerExpiry_eq {s : State} {g : Group} {d : Nat} (h : (s.group g).linkTimer = some d) :
    exec (.linkTimerExpiry g) s = .next (s.begin.linkLoss g) := by
  have h' : (s.begin.group g).linkTimer = some d := h
  change execLinkTimerExpiry g s = _
  unfold execLinkTimerExpiry
  simp only [h']

theorem execTrackingTimerExpiry_eq {s : State} {g : Group} {d : Nat} (h : (s.group g).trackingTimer = some d) :
    exec (.trackingTimerExpiry g) s = .next (s.begin.trackingExpired g) := by
  have h' : (s.begin.group g).trackingTimer = some d := h
  change execTrackingTimerExpiry g s = _
  unfold execTrackingTimerExpiry
  simp only [h']

/-- The entry of an onset, where no TRIP can reach it: ACTIVE with the detail, at this time base. -/
theorem State.onset_entry_self (s : State) {id : FaultId} (hid : ¬ id.tripped) (detail : Option Detail) :
    ((s.onset id detail).entry id).state = .active ∧ ((s.onset id detail).entry id).detail = detail ∧
      ((s.onset id detail).entry id).last = s.timeBase := by
  have h := s.onset_entry hid id detail
  rw [if_pos rfl] at h
  obtain ⟨h1, -, h2, h3, -⟩ := h.fields
  exact ⟨h1.trans (s.stepOne_state id detail), h3.trans (s.stepOne_detail id detail), h2.trans (s.stepOne_last id detail)⟩

theorem FaultId.not_tripped_group {k : GroupKind} (hk : k ≠ .mismatch) (g : Group) : ¬ (FaultId.group k g).tripped := by
  rintro (h | ⟨x, h⟩)
  · cases h
  · exact hk (by cases h; rfl)

/-! ### The tracking timer (R21) -/

/-- Settles O11: the onset of a kind that cannot trip the line, taken with the timer stopped. -/
theorem trackingTimerExpiryRaisesTracking : Obligations.TrackingTimerExpiryRaisesTracking := by
  intro s g d hresp htimer
  refine ⟨_, execTrackingTimerExpiry_eq htimer, ?_⟩
  generalize hu : s.begin.modGroup g (fun r => { r with trackingTimer := none }) = u
  have hself : u.group g = { s.group g with trackingTimer := none } := hu ▸ State.group_modGroup_self ..
  have hne : ∀ h : Group, h ≠ g → u.group h = s.group h := fun h hh => hu ▸ State.group_modGroup_ne _ hh _
  have hkeeps : s.keepsAllBut u [.groups, .out] := by
    intro p hp
    subst hu
    cases p <;> first | rfl | exact absurd (by simp) hp
  have hallowed : u.allowedAt (.group .tracking g) :=
    State.allowedAt_congr (hresp.at _) (hkeeps .config (by decide)) (by rw [hkeeps.entry (by decide)])
  have ht : s.begin.trackingExpired g =
      u.onset (.group .tracking g) (some (.tracking (s.group g).measured (s.group g).lastOrder)) := hu ▸ rfl
  have htame := State.onset_eq_tame (some (.tracking (s.group g).measured (s.group g).lastOrder)) hallowed rfl
  rw [ht]
  obtain ⟨hactive, hdetail, hlast⟩ := u.onset_entry_self (FaultId.not_tripped_group (k := .tracking) (by decide) g)
    (some (.tracking (s.group g).measured (s.group g).lastOrder))
  refine ⟨?_, hactive, hdetail, hlast.trans (hkeeps .timeBase (by decide)), ?_, fun h hh => ?_, ?_⟩
  · rcases (u.onset_reacts (.group .tracking g) (some (.tracking (s.group g).measured (s.group g).lastOrder)) g).tracking
      with h | h
    · rw [h, hself]
    · exact h
  · rw [htame, (u.onsetWith_lineHeld _ _).fields, hkeeps .line (by decide)]
  · rw [htame, State.onsetWith_group_ne _ hh, hne h hh]
  · exact State.keepsAllBut_trans (State.keepsAllBut_mono hkeeps (by simp)) (u.onset_keeps _ _)

/-! ### The link timer (R19, R62) -/

/-- A group as it stands when its link has been lost, before its onset is handed (R19, R62). -/
def State.linkDown (s : State) (g : Group) : State :=
  ((s.endRamps g).setService g .linkLost .link).modCool g GroupCooling.breakRuns

/-- The order of 0 that goes with it outside ADOPTING (R19). -/
def State.linkDropped (s : State) (g : Group) : State :=
  if s.adopting then s.linkDown g else (s.linkDown g).sendOrder g 0 true

section LinkDown

variable (s : State) (g : Group)

theorem State.endRamps_inSet (h : Group) : (s.endRamps g).inSet h = s.inSet h := by
  have hg := s.group_modGroup g h fun r => { r with joinCeiling := 0, leaveCeiling := 0, trackingTimer := none }
  refine State.inSet_congr rfl ?_ ?_ <;> (rw [State.endRamps, hg]; split <;> rfl)

theorem State.linkDown_keeps : s.keepsAllBut (s.linkDown g) groupParts := by
  refine State.keepsAllBut_trans (t := s.endRamps g) ?_
    (State.keepsAllBut_trans ((s.endRamps g).setService_keeps g .linkLost .link) ?_)
  all_goals
    intro p hp
    cases p <;> first | rfl | exact absurd (by simp [groupParts]) hp

theorem State.linkDown_adopting : (s.linkDown g).adopting = s.adopting := by
  have h : (s.linkDown g).line = s.line := s.linkDown_keeps g .line (by decide)
  simp only [State.adopting, h]

theorem State.linkLoss_eq :
    s.linkLoss g = (s.linkDropped g).onset (.group .linkLost g) (some (.linkLost (s.group g).measured)) := by
  unfold State.linkDropped
  rw [← s.linkDown_adopting g]
  rfl

theorem State.linkDown_inSet_self : (s.linkDown g).inSet g = false := by
  rw [show (s.linkDown g).inSet g = ((s.endRamps g).setService g .linkLost .link).inSet g from rfl,
    State.setService_inSet_self]
  simp [ServiceState.member]

theorem State.linkDown_inSet_ne {h : Group} (hne : h ≠ g) : (s.linkDown g).inSet h = s.inSet h := by
  rw [show (s.linkDown g).inSet h = ((s.endRamps g).setService g .linkLost .link).inSet h from rfl,
    State.setService_inSet_ne _ hne, State.endRamps_inSet]

theorem State.linkDown_group_self :
    (s.linkDown g).group g = { s.group g with
      service := .linkLost, joinCeiling := 0, leaveCeiling := 0, linkTimer := none, trackingTimer := none
      awaiting := false } := by
  have hset : ((s.endRamps g).setService g .linkLost .link).inSet g = false := s.linkDown_inSet_self g
  have h := (s.endRamps g).setService_group_self g .linkLost .link
  rw [hset, State.endRamps_inSet] at h
  rw [show (s.linkDown g).group g = ((s.endRamps g).setService g .linkLost .link).group g from rfl, h]
  unfold GroupRecord.crossing
  split <;> simp [State.endRamps, GroupRecord.serve, linkTimerAfter, awaitingAfter, ServiceState.member]

theorem State.linkDown_group_ne {h : Group} (hne : h ≠ g) : (s.linkDown g).group h = s.group h := by
  rw [show (s.linkDown g).group h = ((s.endRamps g).setService g .linkLost .link).group h from rfl,
    State.setService_group_ne _ hne]
  exact State.group_modGroup_ne _ hne _

theorem State.linkDown_cool_self :
    (s.linkDown g).cool g =
      ((s.cool g).crossing (s.groupConfig g) s.timeBase (s.inSet g) false).breakRuns := by
  have hset : ((s.endRamps g).setService g .linkLost .link).inSet g = false := s.linkDown_inSet_self g
  have h := (s.endRamps g).setService_cool_self g .linkLost .link
  rw [hset, State.endRamps_inSet] at h
  rw [State.linkDown, State.cool_modCool_self, h]
  rfl

theorem State.linkDown_cool_ne {h : Group} (hne : h ≠ g) : (s.linkDown g).cool h = s.cool h := by
  rw [State.linkDown, State.cool_modCool_ne _ hne, State.setService_cool_ne _ hne]
  rfl

theorem State.linkDropped_keeps : s.keepsAllBut (s.linkDropped g) [.groups, .cooling, .ports, .out] := by
  have h := State.keepsAllBut_mono (m := [.groups, .cooling, .ports, .out]) (s.linkDown_keeps g) (by simp [groupParts])
  unfold State.linkDropped
  split
  · exact h
  · exact State.keepsAllBut_trans h (State.keepsAllBut_mono (State.sendOrder_keeps _ _ _ _) (by simp))

theorem State.linkDropped_cool (h : Group) : (s.linkDropped g).cool h = (s.linkDown g).cool h := by
  unfold State.linkDropped
  split <;> rfl

theorem State.linkDropped_group_ne {h : Group} (hne : h ≠ g) : (s.linkDropped g).group h = s.group h := by
  unfold State.linkDropped
  split
  · exact s.linkDown_group_ne g hne
  · rw [State.sendOrder_group, if_neg hne, s.linkDown_group_ne g hne]

theorem State.linkDropped_inSet (h : Group) : (s.linkDropped g).inSet h = (s.linkDown g).inSet h := by
  unfold State.linkDropped
  split
  · rfl
  · refine State.inSet_congr rfl ?_ ?_ <;> (rw [State.sendOrder_group]; split <;> rfl)

/-- Only the lost group leaves the set, and its GRACE with it (R68, R69). -/
theorem State.linkDropped_graceFollows : s.graceFollows (s.linkDropped g) := by
  intro h
  rw [State.linkDropped_cool, State.linkDropped_inSet]
  by_cases hh : h = g
  · subst hh
    rw [s.linkDown_inSet_self h, s.linkDown_cool_self h]
    refine ⟨fun _ h1 => (nomatch h1), fun h1 _ => ?_, fun _ h1 => (nomatch h1)⟩
    rw [h1]
    rfl
  · rw [s.linkDown_inSet_ne g hh, s.linkDown_cool_ne g hh]
    exact ⟨fun h1 h2 => absurd (h1.symm.trans h2) (by decide), fun h1 h2 => absurd (h1.symm.trans h2) (by decide),
      fun _ _ => rfl⟩

end LinkDown

/-- GRACE follows the set through what moves no group, changes no cooling and only places notices. -/
theorem State.graceFollows.mild {s t u : State} (h : s.graceFollows t) (m : t.mild u) : s.graceFollows u := by
  intro g
  obtain ⟨h1, h2, h3⟩ := h g
  rw [m.inSet, m.cool]
  exact ⟨fun hb ha => ⟨(h1 hb ha).1, fun h0 hg => ((h1 hb ha).2 h0 hg).later m.noticed⟩, h2, h3⟩

/-- Settles O10: the group is moved to LINK_LOST and ordered off, and the onset that follows can neither trip the line nor remove
a group. -/
theorem linkTimerExpiryLosesTheGroup : Obligations.LinkTimerExpiryLosesTheGroup := by
  intro s g d hresp htimer hmember
  refine ⟨_, execLinkTimerExpiry_eq htimer, ?_⟩
  have hkeeps : s.keepsAllBut (s.begin.linkDropped g) [.groups, .cooling, .ports, .out] := by
    refine State.keepsAllBut_trans (t := s.begin) ?_ (s.begin.linkDropped_keeps g)
    intro p hp
    cases p <;> first | rfl | exact absurd (by simp) hp
  have hallowed : (s.begin.linkDropped g).allowedAt (.group .linkLost g) :=
    State.allowedAt_congr (hresp.at _) (hkeeps .config (by decide)) (by rw [hkeeps.entry (by decide)])
  have honset := (s.begin.linkDropped g).onset_keeps (.group .linkLost g) (some (.linkLost (s.group g).measured))
  have hmild := State.onset_mild (some (.linkLost (s.group g).measured)) hallowed ⟨rfl, rfl, rfl⟩
  obtain ⟨hactive, hdetail, -⟩ := (s.begin.linkDropped g).onset_entry_self
    (FaultId.not_tripped_group (k := .linkLost) (by decide) g) (some (.linkLost (s.group g).measured))
  rw [State.linkLoss_eq, show (s.begin.group g).measured = (s.group g).measured from rfl]
  generalize (s.begin.linkDropped g).onset (.group .linkLost g) (some (.linkLost (s.group g).measured)) = t at *
  have hself := s.begin.linkDown_group_self g
  have hcool : t.cool g = ((s.cool g).crossing (s.groupConfig g) s.timeBase (s.inSet g) false).breakRuns :=
    (hmild.cool g).trans ((s.begin.linkDropped_cool g g).trans (s.begin.linkDown_cool_self g))
  have hfollows : s.graceFollows (s.begin.linkDropped g) := s.begin.linkDropped_graceFollows g
  have hother : s.otherGroupsKept t g := fun h hh => (hmild.group h).trans (s.begin.linkDropped_group_ne g hh)
  have hruns : (∀ n : Fin 8, ((t.cool g).inputs.status.get n).count = 0) ∧
      ∀ n : Fin 4, ((t.cool g).inputs.trip.get n).count = 0 := by
    rw [hcool]
    simp [GroupCooling.breakRuns]
  have hall : s.keepsAllBut t responseParts :=
    State.keepsAllBut_trans (State.keepsAllBut_mono hkeeps (by simp [responseParts])) honset
  by_cases hadopt : s.line.state = some .adopting
  · have hdrop : s.begin.linkDropped g = s.begin.linkDown g := if_pos (by simp [State.adopting, hadopt])
    have hout : t.out = [] := by rw [hmild.out, hdrop]; exact s.begin.linkDown_keeps g .out (by decide)
    have hg : t.group g = _ := (hmild.group g).trans (by rw [hdrop, hself])
    rw [hg]
    exact ⟨rfl, rfl, rfl, rfl, rfl, rfl, hother, fun h => absurd hadopt h, fun _ => hout, hactive, hdetail, hruns.1, hruns.2,
      hfollows.mild hmild, hall⟩
  · have hdrop : s.begin.linkDropped g = (s.begin.linkDown g).sendOrder g 0 true :=
      if_neg (by simp [State.adopting, hadopt])
    have hout : t.out = [.order g 0 true (((s.group g).sequence + 1) % 256)] := by
      have h0 : (s.begin.linkDown g).out = [] := s.begin.linkDown_keeps g .out (by decide)
      rw [hmild.out, hdrop, State.sendOrder, hself, h0]
      rfl
    have hg : t.group g = _ := (hmild.group g).trans (by rw [hdrop, State.sendOrder_group, if_pos rfl, hself])
    rw [hg]
    exact ⟨rfl, rfl, rfl, rfl, rfl, rfl, hother, fun _ => ⟨hout, rfl, rfl⟩, fun h => absurd h hadopt, hactive, hdetail,
      hruns.1, hruns.2, hfollows.mild hmild, hall⟩

end Sys2Proof.Machine
end

