-- ==== Sys2Proof/Proofs/ExpirySteps.lean ====
section
/-! An expiry of the allocation timer part by part (R13, R14, R32 to R40, R46, R53): what each part leaves of the groups, the line
and the fault entries. -/

namespace Sys2Proof.Machine

theorem execAllocationTimerExpiry_eq {s : State} {d : Nat} (h : s.line.allocTimer = some d) :
    exec .allocationTimerExpiry s = .next s.begin.allocationExpiry := by
  have h' : s.begin.line.allocTimer = some d := h
  change execAllocationTimerExpiry s = _
  unfold execAllocationTimerExpiry
  simp only [h']

/-! ### Up to the target step -/

section Aimed

variable (s : State)

theorem State.restartAlloc_keeps : s.keepsAllBut s.restartAlloc [.line] := by
  intro p hp
  cases p <;> first | rfl | exact absurd (by simp) hp

theorem State.aimed_group (h : Group) : s.aimed.group h = (s.group h).started (s.groupConfig h) := by
  rw [State.aimed, (State.targetStep_keeps _).group (by decide), State.expiryStart_group]
  rfl

theorem State.aimed_running : s.aimed.running = s.running := State.running_of_line (by rw [State.aimed_line])

theorem State.aimed_inSet (h : Group) : s.aimed.inSet h = (s.running && (s.group h).service.member) := by
  rw [State.inSet_eq, State.aimed_running, State.aimed_group]
  simp [GroupRecord.started]

theorem State.aimed_cool (h : Group) :
    s.aimed.cool h = (s.cool h).crossing (s.groupConfig h) s.timeBase (s.inSet h) (s.aimed.inSet h) := by
  rw [State.aimed_inSet, State.aimed, (State.targetStep_keeps _).cool (by decide), State.expiryStart_cool]
  rfl

theorem State.aimed_noticed : s.noticed s.aimed :=
  State.noticed_trans (State.noticed_of_keeps s.restartAlloc_keeps (by decide)) (State.noticed_trans
    s.restartAlloc.expiryStart_noticed (State.noticed_of_keeps (State.targetStep_keeps _) (by decide)))

theorem State.aimed_out : s.aimed.out = s.out := s.aimed_keeps .out (by decide)

theorem State.aimed_entry (j : FaultId) : s.aimed.entry j = s.entry j := s.aimed_keeps.entry (by decide) j

theorem State.aimed_hearsGrace (h : Group) (h0 : (s.cool h).pumpLoss = .none) (h1 : (s.aimed.cool h).pumpLoss = .grace) :
    s.hears s.aimed (.warningPumpLoss h (s.groupConfig h).graceTime) := by
  rw [State.aimed, (State.targetStep_keeps _).cool (by decide)] at h1
  have hear := s.restartAlloc.expiryStart_hearsGrace h h0 h1
  exact (hear.later (State.noticed_of_keeps (State.targetStep_keeps _) (by decide))).since rfl fun _ => rfl

/-- A group in the set is in it at the target step. -/
theorem State.aimed_inSet_of_inSet {h : Group} (hs : s.inSet h = true) : s.aimed.inSet h = true := by
  rw [State.inSet_eq] at hs
  rw [State.aimed_inSet]
  simp only [Bool.and_eq_true] at hs ⊢
  exact hs.1

end Aimed

/-! ### The claims that the target step reads (R32, R120) -/

theorem State.busVoltage_congr {s t : State} (hset : ∀ g : Group, t.inSet g = s.inSet g)
    (hvoltage : ∀ g : Group, (t.group g).voltage = (s.group g).voltage) : t.busVoltage = s.busVoltage := by
  rw [State.busVoltage, State.busVoltage, show t.inSet = s.inSet from funext hset]
  simp only [hvoltage]

theorem State.headroomStep_claims_congr {s t : State} (hclaims : t.claims = s.claims) (hconfig : t.config = s.config)
    (htime : t.timeBase = s.timeBase) (hcurrent : t.line.iCmd = s.line.iCmd) (hbus : t.busVoltage = s.busVoltage) :
    t.headroomStep.claims = s.headroomStep.claims := by
  unfold State.headroomStep State.withdrawClaim State.writeClaim
  simp only [hclaims, hconfig, htime, hcurrent, hbus]
  split
  · split
    exacts [rfl, hclaims]
  · split
    · split <;> rfl
    · exact hclaims

/-- The restart of the allocation timer is not read by the start of an expiry and its headroom step. -/
theorem State.expiryTable_restartAlloc (s : State) : s.begin.restartAlloc.expiryStart.headroomStep.claims = s.expiryTable := by
  have hgroup : ∀ g : Group, s.begin.restartAlloc.expiryStart.group g = s.expiryStart.group g := fun g => by
    rw [State.expiryStart_group, State.expiryStart_group]
    rfl
  have hset : ∀ g : Group, s.begin.restartAlloc.expiryStart.inSet g = s.expiryStart.inSet g := fun g => by
    rw [State.expiryStart_inSet, State.expiryStart_inSet]
    rfl
  have ht := s.begin.restartAlloc.expiryStart_keeps
  have hs := s.expiryStart_keeps
  refine State.headroomStep_claims_congr ?_ ?_ ?_ ?_ (State.busVoltage_congr hset fun g => congrArg GroupRecord.voltage (hgroup g))
  · exact (ht .claims (by decide)).trans (hs .claims (by decide)).symm
  · exact (ht .config (by decide)).trans (hs .config (by decide)).symm
  · exact (ht .timeBase (by decide)).trans (hs .timeBase (by decide)).symm
  · exact congrArg Line.iCmd (ht .line (by decide)) |>.trans (congrArg Line.iCmd (hs .line (by decide))).symm

/-! ### The line's own step (R3, R6, R37) -/

section OwnStep

variable {s : State}

/-- A step that leaves the groups and the frames sent, and of the fault entries all but their reduce values. -/
structure State.lineStep (s t : State) : Prop extends units : s.unitsKept t where
  keeps : s.keepsAllBut t [.line, .claims, .groups, .cooling, .faults, .ports]
  entry : ∀ j : FaultId, (s.entry j).sameButReduce (t.entry j)
  line : t.line = { s.line with state := t.line.state, iCmd := t.line.iCmd }
  running : t.running = s.running

theorem State.lineStep_refl (s : State) : s.lineStep s :=
  ⟨s.unitsKept_refl, s.keepsAllBut_refl _, fun _ => Entry.sameButReduce_refl _, rfl, rfl⟩

theorem State.setICmd_lineStep (s : State) (i : Nat) : s.lineStep (s.setICmd i) := by
  have hk : s.keepsAllBut (s.setICmd i) [.line] := by
    intro p hp
    cases p <;> first | rfl | exact absurd (by simp) hp
  exact ⟨⟨rfl, rfl, rfl, State.noticed_of_ports rfl⟩, State.keepsAllBut_mono hk (by simp),
    fun _ => Entry.sameButReduce_refl _, rfl, rfl⟩

theorem State.startRise_eq (s : State) :
    s.startRise =
      if s.config.floor ≤ min 60000 (s.line.iCmd + s.config.startRate) then
        (s.setICmd (min 60000 (s.line.iCmd + s.config.startRate))).setLineState s.regulatingOrHold .ramp
      else s.setICmd (min 60000 (s.line.iCmd + s.config.startRate)) := rfl

theorem State.startRise_lineStep (hs : s.line.state = some .starting) : s.lineStep s.startRise := by
  have hi := s.setICmd_lineStep (min 60000 (s.line.iCmd + s.config.startRate))
  rw [State.startRise_eq]
  split
  · have hrun : s.regulatingOrHold.running = (s.setICmd (min 60000 (s.line.iCmd + s.config.startRate))).running := by
      rw [State.regulatingOrHold_running]
      simp [State.running, State.setICmd, hs, LineState.running]
    generalize s.setICmd (min 60000 (s.line.iCmd + s.config.startRate)) = u at *
    obtain ⟨hg, hc⟩ := u.setLineState_keeps_units (new := s.regulatingOrHold) .ramp hrun
    have hk := u.setLineState_keeps s.regulatingOrHold .ramp
    refine ⟨State.unitsKept_trans hi.units ⟨hg, hc, hk .out (by decide), u.setLineState_noticed _ _⟩,
      State.keepsAllBut_trans hi.keeps hk,
      fun j => Entry.sameButReduce_trans (hi.entry j) (u.setLineState_entry _ _ j), ?_, ?_⟩
    · rw [State.setLineState_line, hi.line]
    · rw [← hi.running, ← hrun]
      simp only [State.running, State.setLineState_line]
  · exact hi

/-- The line's own step, when it does not end the stop descent, moves I_cmd and the state alone. -/
theorem State.ownStep_lineStep (h : s.line.state = some .stopping → s.config.stopRate < s.line.iCmd) :
    s.lineStep s.ownStep.1 := by
  unfold State.ownStep
  split
  · exact s.setICmd_lineStep _
  · next hs => exact State.startRise_lineStep hs
  · next hs =>
    have hlt := h hs
    unfold State.stopDescent
    simp only
    rw [if_neg (by omega)]
    exact s.setICmd_lineStep _
  all_goals exact s.lineStep_refl

theorem State.ownStep_stopping (hs : s.line.state = some .stopping) (h : s.config.stopRate < s.line.iCmd) :
    s.ownStep.1 = s.setICmd (s.line.iCmd - s.config.stopRate) := by
  have hmin : min s.config.stopRate s.line.iCmd = s.config.stopRate := by omega
  simp only [State.ownStep, hs, State.stopDescent, hmin]
  rw [if_neg (by omega)]

theorem State.ownStep_stopped (hs : s.line.state = some .stopping) (h : s.line.iCmd ≤ s.config.stopRate) :
    s.ownStep = (s.enterBlocked .standby .ramp, true) := by
  have h0 : s.line.iCmd - min s.config.stopRate s.line.iCmd = 0 := by omega
  simp only [State.ownStep, hs, State.stopDescent, h0, if_true, State.blocked, State.enterBlocked_line, LineState.blocked]

end OwnStep

/-! ### The HEADROOM_LOW event (R121) -/

/-- What the event leaves: all but the AE unit's mark and what an onset that cannot trip the line writes. -/
theorem State.headroomEvent_mild {s : State} (u : Nat) (h : s.allowedAt (.line .headroomLow)) :
    s.mild (s.headroomEvent u) := by
  have h1 := State.conditionChange_mild (s := { s with ae := { s.ae with headroom := s.claims.headroom.active } })
    s.ae.headroom s.claims.headroom.active (some (.headroom u s.config.headroom.limit)) h ⟨rfl, rfl, rfl⟩
  exact ⟨⟨h1.groups, h1.cooling, h1.out, h1.noticed⟩, h1.line⟩

theorem State.headroomEvent_keeps (s : State) (u : Nat) : s.keepsAllBut (s.headroomEvent u) (.ae :: responseParts) := by
  refine State.keepsAllBut_trans (t := { s with ae := { s.ae with headroom := s.claims.headroom.active } }) ?_
    (State.keepsAllBut_mono (State.conditionChange_keeps _ _ _ _ _) fun _ hp => List.mem_cons_of_mem _ hp)
  intro p hp
  cases p <;> first | rfl | exact absurd (by simp [responseParts]) hp

theorem State.headroomEvent_entry_ne {s : State} (u : Nat) (h : s.allowedAt (.line .headroomLow)) {j : FaultId}
    (hj : j ≠ .line .headroomLow) : (s.entry j).sameButReduce ((s.headroomEvent u).entry j) :=
  State.conditionChange_entry_ne (s := { s with ae := { s.ae with headroom := s.claims.headroom.active } }) _ _ _ hj
    (.inr ⟨h, rfl⟩)

/-! ### The join and leave steps (R13, R14) -/

section Ramp

variable (s : State) (g : Group)

/-- The step writes the group's ceilings alone, or ends the join or the leave as well; `GroupRecord.ramped` is the record either
way. -/
theorem State.rampGroup_cases :
    (∃ f : GroupRecord → GroupRecord, s.rampGroup g = s.modGroup g f ∧
      f (s.group g) = (s.group g).ramped (s.groupConfig g) ∧
      (f (s.group g)).service = (s.group g).service ∧ (f (s.group g)).awaiting = (s.group g).awaiting) ∨
    ∃ (f : GroupRecord → GroupRecord) (n : ServiceState), s.rampGroup g = (s.modGroup g f).setService g n .ramp ∧
      (f (s.group g)).serve s.timeBase n = (s.group g).ramped (s.groupConfig g) ∧
      (f (s.group g)).service = (s.group g).service ∧ (f (s.group g)).awaiting = (s.group g).awaiting := by
  cases hs : (s.group g).service
  case joining =>
    simp only [State.rampGroup, GroupRecord.ramped, hs]
    split
    · refine .inr ⟨fun r => { r with joinCeiling := 0 }, .inService, rfl, ?_, hs, rfl⟩
      simp [GroupRecord.serve, linkTimerAfter, awaitingAfter, hs, ServiceState.member]
    · exact .inl ⟨fun r => { r with joinCeiling := _ }, rfl, by simp only [hs], hs, rfl⟩
  case leaving =>
    simp only [State.rampGroup, GroupRecord.ramped, hs]
    split
    · next h =>
      refine .inr ⟨fun r => { r with leaveCeiling := _ }, .out, rfl, ?_, hs, rfl⟩
      simp [GroupRecord.serve, linkTimerAfter, awaitingAfter, hs, ServiceState.member, h]
    · exact .inl ⟨fun r => { r with leaveCeiling := _ }, rfl, by simp only [hs], hs, rfl⟩
  all_goals
    refine .inl ⟨id, ?_, ?_, hs, rfl⟩
    · rw [State.modGroup_id, State.rampGroup, hs]
    · simp only [GroupRecord.ramped, hs, id]

theorem State.modGroup_inSet {f : GroupRecord → GroupRecord} (h1 : (f (s.group g)).service = (s.group g).service)
    (h2 : (f (s.group g)).awaiting = (s.group g).awaiting) : (s.modGroup g f).inSet g = s.inSet g :=
  State.inSet_congr rfl (by rw [State.group_modGroup_self, h1]) (by rw [State.group_modGroup_self, h2])

theorem State.rampGroup_group_self :
    (s.rampGroup g).group g =
      ((s.group g).ramped (s.groupConfig g)).crossing (s.inSet g) ((s.rampGroup g).inSet g) := by
  rcases s.rampGroup_cases g with ⟨f, h, hr, h1, h2⟩ | ⟨f, n, h, hr, h1, h2⟩
  · rw [h, s.modGroup_inSet g h1 h2, GroupRecord.crossing_same, State.group_modGroup_self, hr]
  · rw [h, State.setService_group_self, s.modGroup_inSet g h1 h2, State.group_modGroup_self, ← hr]
    rfl

theorem State.rampGroup_cool_self :
    (s.rampGroup g).cool g =
      (s.cool g).crossing (s.groupConfig g) s.timeBase (s.inSet g) ((s.rampGroup g).inSet g) := by
  rcases s.rampGroup_cases g with ⟨f, h, -, h1, h2⟩ | ⟨f, n, h, -, h1, h2⟩
  · rw [h, s.modGroup_inSet g h1 h2, GroupCooling.crossing_same]
    rfl
  · rw [h, State.setService_cool_self, s.modGroup_inSet g h1 h2]
    rfl

/-- The end of a join or of a leave places its GROUP_STATE notice (R13). -/
theorem State.rampGroup_hears (hend : ((s.group g).ramped (s.groupConfig g)).service ≠ (s.group g).service) :
    s.hears (s.rampGroup g)
      (.groupState g ((s.group g).ramped (s.groupConfig g)).service (s.group g).service .ramp) := by
  rcases s.rampGroup_cases g with ⟨f, h, hr, h1, -⟩ | ⟨f, n, h, hr, h1, -⟩
  · exact absurd (by rw [← hr, h1]) hend
  · have hear := (s.modGroup g f).setService_hears g n .ramp
    rw [State.group_modGroup_self, h1] at hear
    rw [h, ← hr]
    exact hear.since rfl fun _ => rfl

end Ramp

end Sys2Proof.Machine
end

