-- ==== Sys2Proof/Proofs/StateExpiries.lean ====
section
/-! The expiries of the allocation timer state by state: the target step in every line state, and the own steps of the states but
REGULATING (R1, R3, R4, R6, R22, R32 to R38, R46). -/

namespace Sys2Proof.Machine

/-! ### What an expiry's later steps leave of the line -/

/-- The timer and the outcome of the target step, which the later steps of an expiry leave. -/
structure Line.aimKept (l l' : Line) : Prop where
  allocTimer : l'.allocTimer = l.allocTimer
  least : l'.least = l.least
  governing : l'.governing = l.governing
  target : l'.target = l.target
  aeHold : l'.aeHold = l.aeHold

theorem Line.aimKept_refl (l : Line) : l.aimKept l := ⟨rfl, rfl, rfl, rfl, rfl⟩

theorem Line.aimKept_trans {l m n : Line} (h : l.aimKept m) (k : m.aimKept n) : l.aimKept n :=
  ⟨k.allocTimer.trans h.allocTimer, k.least.trans h.least, k.governing.trans h.governing, k.target.trans h.target,
    k.aeHold.trans h.aeHold⟩

theorem Line.aimKept_of_eq {l m : Line} (h : m = l) : l.aimKept m := h ▸ l.aimKept_refl

theorem State.lineHeld.aimKept {s t : State} (h : s.lineHeld t) : s.line.aimKept t.line := by
  rw [h.fields]
  exact ⟨rfl, rfl, rfl, rfl, rfl⟩

theorem State.ownStep_aimKept (s : State) : s.line.aimKept s.ownStep.1.line := by
  by_cases h : s.line.state = some .stopping ∧ s.line.iCmd ≤ s.config.stopRate
  · rw [State.ownStep_stopped h.1 h.2, State.enterBlocked_line]
    exact ⟨rfl, rfl, rfl, rfl, rfl⟩
  · rw [(State.ownStep_lineStep fun hs => by by_contra hn; exact h ⟨hs, by omega⟩).line]
    exact ⟨rfl, rfl, rfl, rfl, rfl⟩

/-- The state between the ramps and the CAPACITY_SHORT event of a running expiry: the allocation recorded and its orders sent. -/
def State.ordered (s : State) (l : LineState) : State := ((s.eachGroup State.rampGroup).allocate l).handOrders

theorem State.runAllocation_eq (s : State) (l : LineState) : s.runAllocation l = (s.ordered l).capacityEvent := rfl

theorem State.rampAll_keeps (s : State) : s.keepsAllBut (s.eachGroup State.rampGroup) groupParts :=
  State.eachGroup_keeps State.rampGroup_keeps s

theorem State.ordered_keeps (s : State) (l : LineState) :
    s.keepsAllBut (s.ordered l) [.line, .groups, .cooling, .ports, .out] := by
  refine State.keepsAllBut_trans (State.keepsAllBut_mono s.rampAll_keeps (by simp [groupParts]))
    (State.keepsAllBut_trans (t := (s.eachGroup State.rampGroup).allocate l) ?_
      (State.keepsAllBut_mono (State.handOrders_keeps _) (by simp)))
  intro p hp
  cases p <;> first | rfl | exact absurd (by simp) hp

/-- The record of the allocation of an expiry, which is run after the join and leave steps (R43, R59). -/
def State.expiryRecord (s : State) (l : LineState) : AllocRecord :=
  (Machine.allocate s.timeBase l s.line.iCmd s.line.rotation (s.eachGroup State.rampGroup).allocationSet).record

/-- The line with the allocation of an expiry recorded. -/
theorem State.ordered_line (s : State) (l : LineState) :
    (s.ordered l).line = { s.line with
      record := s.expiryRecord l, residual := (s.expiryRecord l).residual, rotation := (s.expiryRecord l).rotation } := by
  have hline : (s.eachGroup State.rampGroup).line = s.line := s.rampAll_keeps .line (by decide)
  have htime : (s.eachGroup State.rampGroup).timeBase = s.timeBase := s.rampAll_keeps .timeBase (by decide)
  rw [State.ordered, State.handOrders_line]
  simp only [State.allocate, State.expiryRecord, hline, htime]

/-- What the CAPACITY_SHORT event of an allocation leaves (R46). -/
theorem State.capacityEvent_mild {s : State} (h : s.allowedAt (.line .capacityShort)) :
    s.unitsKept s.capacityEvent ∧
      ({ s with line := { s.line with capacityShort := decide (s.line.record.total < s.line.record.iCmd) } }).lineHeld
        s.capacityEvent := by
  have h1 := State.conditionChange_mild
    (s := { s with line := { s.line with capacityShort := decide (s.line.record.total < s.line.record.iCmd) } })
    s.line.capacityShort (decide (s.line.record.total < s.line.record.iCmd)) (some (.capacity s.line.record.shortfall)) h
    ⟨rfl, rfl, rfl⟩
  exact ⟨⟨h1.groups, h1.cooling, h1.out, h1.noticed⟩, h1.line⟩

theorem State.ordered_allowedAt {s : State} (l : LineState) {id : FaultId} (h : s.allowedAt id) :
    (s.ordered l).allowedAt id :=
  State.allowedAt_congr h (s.ordered_keeps l .config (by decide)) (by rw [(s.ordered_keeps l).entry (by decide)])

/-- The line at the end of a running expiry, from the line that came to the allocation (R46, R53). -/
theorem State.runAllocation_line {s : State} (l : LineState) (h : s.allowedAt (.line .capacityShort)) :
    (s.runAllocation l).line = { s.line with
        state := (s.runAllocation l).line.state
        record := s.expiryRecord l, residual := (s.expiryRecord l).residual, rotation := (s.expiryRecord l).rotation
        capacityShort := decide ((s.expiryRecord l).total < (s.expiryRecord l).iCmd) } ∧
      ((s.runAllocation l).line.state = s.line.state ∨
        (s.line.state = some .regulating ∧ (s.runAllocation l).line.state = some .hold)) := by
  obtain ⟨-, hheld⟩ := State.capacityEvent_mild (State.ordered_allowedAt l h)
  rw [State.lineHeld, State.ordered_line, ← State.runAllocation_eq] at hheld
  rcases hheld with h1 | ⟨h0, h1⟩ <;> rw [h1]
  · exact ⟨rfl, .inl rfl⟩
  · exact ⟨rfl, .inr ⟨h0, rfl⟩⟩

theorem State.finishExpiry_aimKept {s : State} (h : s.allowedAt (.line .capacityShort)) (sent : Bool) :
    s.line.aimKept (s.finishExpiry sent).line := by
  have hrun : ∀ l : LineState, s.line.aimKept (s.runAllocation l).line := fun l => by
    rw [(State.runAllocation_line l h).1]
    exact ⟨rfl, rfl, rfl, rfl, rfl⟩
  have hblocked : s.line.aimKept s.sendBlocked.line := Line.aimKept_of_eq (s.sendBlocked_keeps .line (by decide))
  unfold State.finishExpiry
  split
  iterate 4 exact hrun _
  · split
    · rw [State.capacityDeparture_line]
      exact ⟨rfl, rfl, rfl, rfl, rfl⟩
    · exact hblocked
  · exact hblocked
  · exact Line.aimKept_refl _
  · exact Line.aimKept_refl _

/-! ### The state that comes to the end of an expiry -/

section Ending

variable {s : State}

/-- The state of an expiry after its own step and the HEADROOM_LOW event. -/
def State.stepped (s : State) : State := s.aimed.ownStep.1.headroomEvent s.restartAlloc.expiryStart.busVoltage

theorem State.allocationExpiry_stepped (s : State) : s.allocationExpiry = s.stepped.finishExpiry s.aimed.ownStep.2 := rfl

/-- The parts of the line's own step that no fault rule reads. -/
theorem State.ownStep_faults (s : State) :
    s.ownStep.1.config = s.config ∧ ∀ j : FaultId, (s.entry j).sameButReduce (s.ownStep.1.entry j) := by
  by_cases h : s.line.state = some .stopping ∧ s.line.iCmd ≤ s.config.stopRate
  · have hk : s.keepsAllBut (s.enterBlocked .standby .ramp) _ := State.enterBlocked_keeps_stopped rfl
    rw [State.ownStep_stopped h.1 h.2]
    exact ⟨hk .config (by decide), fun j => Entry.sameButReduce_of_eq (s.enterBlocked_entry .ramp rfl j)⟩
  · have hstep : s.lineStep s.ownStep.1 := State.ownStep_lineStep fun hs => by by_contra hn; exact h ⟨hs, by omega⟩
    exact ⟨hstep.keeps .config (by decide), hstep.entry⟩

theorem State.ownStep_allowedAt {id : FaultId} (h : s.allowedAt id) : s.aimed.ownStep.1.allowedAt id := by
  obtain ⟨h1, h2⟩ := s.aimed.ownStep_faults
  obtain ⟨-, -, -, -, h3⟩ := (h2 id).fields
  exact State.allowedAt_congr h (h1.trans (s.aimed_keeps .config (by decide))) (h3.trans (by rw [State.aimed_entry]))

/-- The entry of every condition but HEADROOM_LOW comes through the steps before the end but for its reduce value. -/
theorem State.stepped_entry (h : s.allowedAt (.line .headroomLow)) {j : FaultId} (hj : j ≠ .line .headroomLow) :
    (s.entry j).sameButReduce (s.stepped.entry j) := by
  have h1 := s.aimed.ownStep_faults.2 j
  rw [State.aimed_entry] at h1
  exact Entry.sameButReduce_trans h1 (State.headroomEvent_entry_ne _ (State.ownStep_allowedAt h) hj)

theorem State.stepped_allowedAt (h : s.responsesAllowed) : s.stepped.allowedAt (.line .capacityShort) := by
  obtain ⟨-, -, -, -, h1⟩ := (State.stepped_entry (h.at _) (j := .line .capacityShort) (by decide)).fields
  refine State.allowedAt_congr (h.at _) ?_ h1
  exact (State.headroomEvent_keeps _ _ .config (by decide)).trans
    (s.aimed.ownStep_faults.1.trans (s.aimed_keeps .config (by decide)))

theorem State.stepped_mild (h : s.responsesAllowed) : s.aimed.ownStep.1.mild s.stepped :=
  State.headroomEvent_mild _ (State.ownStep_allowedAt (h.at _))

/-- The line of an expiry holds the outcome of the target step at its end. -/
theorem State.allocationExpiry_aimKept (h : s.responsesAllowed) : s.aimed.line.aimKept s.allocationExpiry.line :=
  Line.aimKept_trans (Line.aimKept_trans s.aimed.ownStep_aimKept (State.stepped_mild h).line.aimKept)
    (State.finishExpiry_aimKept (State.stepped_allowedAt h) _)

end Ending

/-! ### The own steps -/

section States

variable {s : State} (hresp : s.responsesAllowed)
include hresp

/-- An expiry in a state that steps nothing and does not run. -/
theorem State.stepped_still (hs : s.line.state = some .adopting ∨ s.blocked = true) :
    s.aimed.ownStep.2 = false ∧ s.stepped.line = s.aimed.line ∧ s.stepped.groups = s.aimed.groups ∧ s.stepped.out = s.out := by
  have hstate : s.aimed.line.state = s.line.state := by rw [State.aimed_line]
  have hown : s.aimed.ownStep = (s.aimed, false) ∧ s.aimed.line.state ≠ some .regulating := by
    rcases hs with hs | hs
    · simp [State.ownStep, hstate, hs]
    · unfold State.blocked at hs
      split at hs
      · next l hl => cases l <;> simp_all [State.ownStep, LineState.blocked]
      · cases hs
  have hmild := State.stepped_mild hresp
  rw [hown.1] at hmild
  refine ⟨by rw [hown.1], ?_, hmild.groups, hmild.out.trans s.aimed_out⟩
  rcases hmild.line with h | ⟨h, -⟩
  · exact h
  · exact absurd h hown.2

/-- An expiry in ADOPTING sends nothing (R22). -/
theorem State.allocationExpiry_adopting (hs : s.line.state = some .adopting) :
    s.allocationExpiry.out = s.out ∧ s.allocationExpiry.line = s.aimed.line ∧ s.allocationExpiry.groups = s.aimed.groups := by
  obtain ⟨-, hline, hgroups, hout⟩ := State.stepped_still hresp (.inl hs)
  have hstate : s.stepped.line.state = some .adopting := by rw [hline, State.aimed_line]; exact hs
  have heq : s.allocationExpiry = s.stepped := by simp [State.allocationExpiry_stepped, State.finishExpiry, hstate]
  rw [heq]
  exact ⟨hout, hline, hgroups⟩

/-- An expiry in a blocked state sends every group the order of 0 with the block flag (R1). -/
theorem State.allocationExpiry_blocked (hs : s.blocked = true) :
    s.allocationExpiry.line = s.aimed.line ∧
      s.allocationExpiry.out = s.out ++ allGroups.map (fun g => Sent.order g 0 true (((s.group g).sequence + 1) % 256)) ∧
      ∀ g : Group, s.allocationExpiry.group g = { s.aimed.group g with
        lastOrder := 0, blockFlag := true, sequence := ((s.group g).sequence + 1) % 256 } := by
  obtain ⟨hsent, hline, hgroups, hout⟩ := State.stepped_still hresp (.inr hs)
  have hgroup : ∀ g : Group, s.stepped.group g = s.aimed.group g := fun g => congrArg (Eight.get · g) hgroups
  have hseq : ∀ g : Group, (s.stepped.group g).sequence = (s.group g).sequence := fun g => by
    rw [hgroup, State.aimed_group]
    rfl
  have hstate : s.stepped.line.state = s.line.state := by rw [hline, State.aimed_line]
  have heq : s.allocationExpiry = s.stepped.sendBlocked := by
    rw [State.allocationExpiry_stepped, hsent]
    unfold State.blocked at hs
    split at hs
    · next l hl =>
      rw [hl] at hstate
      cases l <;> simp_all [State.finishExpiry, LineState.blocked]
    · cases hs
  rw [heq]
  refine ⟨(State.sendBlocked_keeps _ .line (by decide)).trans hline, ?_, fun g => ?_⟩
  · rw [State.sendBlocked_out, hout]
    simp only [hseq]
  · rw [State.sendBlocked_group, hseq, hgroup]

end States

end Sys2Proof.Machine
end

