-- ==== Sys2Proof/Proofs/OwnSteps.lean ====
section
/-! The own steps of HOLD, STARTING and STOPPING, and the end of the stop descent (R3, R4, R6, R46). -/

namespace Sys2Proof.Machine

section Running

variable {s : State} (hresp : s.responsesAllowed)
include hresp

/-- An expiry whose own step leaves the line running runs the allocation with what the step has made of it, in that state or in the
HOLD that an onset of the expiry has brought. -/
theorem State.allocationExpiry_runs {l : LineState} (hl : s.aimed.ownStep.1.line.state = some l) (hrun : l.running = true) :
    ∃ l' : LineState, s.stepped.line = { s.aimed.ownStep.1.line with state := some l' } ∧
      (l' = l ∨ (l = .regulating ∧ l' = .hold)) ∧ l'.running = true ∧ s.allocationExpiry = s.stepped.runAllocation l' := by
  have hfinish : ∀ l' : LineState, s.stepped.line.state = some l' → l'.running = true →
      s.allocationExpiry = s.stepped.runAllocation l' := fun l' h h' => by
    rw [State.allocationExpiry_stepped]
    cases l' <;> simp_all [State.finishExpiry, LineState.running]
  rcases (State.stepped_mild hresp).line with h | ⟨h0, h⟩
  · exact ⟨l, by rw [h, ← hl], .inl rfl, hrun, hfinish l (by rw [h, hl]) hrun⟩
  · rw [hl] at h0
    cases h0
    exact ⟨.hold, h, .inr ⟨rfl, rfl⟩, rfl, hfinish .hold (by rw [h]) rfl⟩

/-- I_cmd and the state at the end of such an expiry. -/
theorem State.allocationExpiry_line {l : LineState} (hl : s.aimed.ownStep.1.line.state = some l) (hrun : l.running = true) :
    s.allocationExpiry.line.iCmd = s.aimed.ownStep.1.line.iCmd ∧
      (s.allocationExpiry.line.state = some l ∨ (l = .regulating ∧ s.allocationExpiry.line.state = some .hold)) := by
  obtain ⟨l', hline, hll, -, heq⟩ := State.allocationExpiry_runs hresp hl hrun
  obtain ⟨h1, h2⟩ := State.runAllocation_line l' (State.stepped_allowedAt hresp)
  rw [← heq, hline] at h1 h2
  refine ⟨by rw [h1], ?_⟩
  rcases h2 with h2 | ⟨h0, h2⟩
  · rcases hll with rfl | ⟨rfl, rfl⟩
    · exact .inl h2
    · exact .inr ⟨rfl, h2⟩
  · cases h0
    rcases hll with rfl | ⟨rfl, h3⟩
    · exact .inr ⟨rfl, h2⟩
    · cases h3

end Running

section Starting

variable {s : State}

theorem State.ownStep_starting (hs : s.line.state = some .starting) : s.ownStep.1 = s.startRise := by
  simp only [State.ownStep, hs]

theorem State.startRise_line (hs : s.line.state = some .starting) :
    s.startRise.line = { s.line with
      iCmd := min 60000 (s.line.iCmd + s.config.startRate)
      state := if s.config.floor ≤ min 60000 (s.line.iCmd + s.config.startRate) then some s.regulatingOrHold
        else some .starting } := by
  rw [State.startRise_eq]
  split
  · rw [State.setLineState_line]
    rfl
  · rw [← hs]
    rfl

end Starting

/-- The CAPACITY_SHORT departure of an entry to a blocked state hands the condition where it was present (R46). -/
theorem State.capacityDeparture_handed (s : State) :
    s.handed s.capacityDeparture (.line .capacityShort) s.line.capacityShort false none := by
  refine ⟨fun _ h => (nomatch h), fun hb _ => ?_, fun hb => ?_⟩
  · unfold State.capacityDeparture
    rw [if_pos hb, State.departure_entry_self]
    change (if (s.entry (.line .capacityShort)).state = .active then
      { s.entry (.line .capacityShort) with state := .latched } else s.entry (.line .capacityShort)).state = _
    split <;> rfl
  · unfold State.capacityDeparture
    rw [if_neg (by simp [hb])]
    exact ⟨rfl, rfl⟩

section Stopped

variable {s : State} (hresp : s.responsesAllowed) (hs : s.line.state = some .stopping)
  (hlow : s.line.iCmd ≤ s.config.stopRate)
include hs hlow

theorem State.stopping_ownStep : s.aimed.ownStep = (s.aimed.enterBlocked .standby .ramp, true) := by
  refine State.ownStep_stopped ?_ ?_
  · rw [State.aimed_line]; exact hs
  · rw [State.aimed_line, s.aimed_keeps .config (by decide)]; exact hlow

include hresp

/-- The expiry that ends the stop descent (R6). -/
theorem State.allocationExpiry_stopped :
    s.allocationExpiry = s.stepped.capacityDeparture ∧ s.stepped.line = (s.aimed.enterBlocked .standby .ramp).line ∧
      s.stepped.unitsKept s.allocationExpiry ∧ (s.aimed.enterBlocked .standby .ramp).unitsKept s.stepped := by
  have hown := State.stopping_ownStep hs hlow
  have hmild := State.stepped_mild hresp
  rw [hown] at hmild
  have hline : s.stepped.line = (s.aimed.enterBlocked .standby .ramp).line := by
    rcases hmild.line with h | ⟨h0, -⟩
    · exact h
    · rw [State.enterBlocked_line] at h0
      cases h0
  have heq : s.allocationExpiry = s.stepped.capacityDeparture := by
    have hstate : s.stepped.line.state = some .standby := by rw [hline, State.enterBlocked_line]
    rw [State.allocationExpiry_stepped, hown]
    simp [State.finishExpiry, hstate]
  refine ⟨heq, hline, heq ▸ State.unitsKept_of_keeps s.stepped.capacityDeparture_keeps (by decide) ?_, hmild.units⟩
  exact State.capacityDeparture_noticed _

/-- The end of the stop descent in the line, the fault entries, the links and the groups (R6, R46, R68, R69). -/
theorem State.allocationExpiry_standby :
    s.allocationExpiry.line.state = some .standby ∧ s.allocationExpiry.line.iCmd = 0 ∧
      s.allocationExpiry.line.residual = 0 ∧ s.allocationExpiry.line.capacityShort = false ∧
      s.handed s.allocationExpiry (.line .capacityShort) s.line.capacityShort false none ∧
      s.graceFollows s.allocationExpiry ∧
      s.allocationExpiry.out = s.out ++ allGroups.map (fun g => Sent.order g 0 true (((s.group g).sequence + 1) % 256)) ∧
      ∀ g : Group, (s.allocationExpiry.group g).lastOrder = 0 ∧ (s.allocationExpiry.group g).blockFlag = true ∧
        ((s.group g).service = .joining → (s.allocationExpiry.group g).service = .inService) ∧
        ((s.group g).service = .leaving → (s.allocationExpiry.group g).service = .out) := by
  obtain ⟨heq, hline, hunits, hstep⟩ := State.allocationExpiry_stopped hresp hs hlow
  have hall := State.unitsKept_trans hstep hunits
  have hgroup : ∀ g : Group, s.allocationExpiry.group g = (s.aimed.enterBlocked .standby .ramp).group g :=
    fun g => congrArg (Eight.get · g) hall.groups
  have hcool : ∀ g : Group, s.allocationExpiry.cool g = (s.aimed.enterBlocked .standby .ramp).cool g :=
    fun g => congrArg (Eight.get · g) hall.cooling
  have htline : s.allocationExpiry.line = { (s.aimed.enterBlocked .standby .ramp).line with capacityShort := false } := by
    rw [heq, State.capacityDeparture_line, hline]
  rw [State.enterBlocked_line] at htline
  have hset : ∀ g : Group, s.allocationExpiry.inSet g = false := fun g => by
    rw [State.inSet_eq]
    simp [State.running, htline, LineState.running]
  refine ⟨by rw [htline], by rw [htline], by rw [htline], by rw [htline], ?_, fun g => ?_, ?_, fun g => ?_⟩
  · have hcap : s.stepped.line.capacityShort = s.line.capacityShort := by
      rw [hline, State.enterBlocked_line, State.aimed_line]
    have hhand := s.stepped.capacityDeparture_handed
    rw [hcap, ← heq] at hhand
    refine hhand.within ?_ (State.stepped_entry (hresp.at _) (by decide)) (Entry.sameButReduce_refl _)
    have h1 : s.stepped.timeBase = s.aimed.ownStep.1.timeBase := State.headroomEvent_keeps _ _ .timeBase (by decide)
    have hkeep : s.aimed.keepsAllBut (s.aimed.enterBlocked .standby .ramp) _ := State.enterBlocked_keeps_stopped rfl
    rw [h1, State.stopping_ownStep hs hlow]
    exact (hkeep .timeBase (by decide)).trans (s.aimed_keeps .timeBase (by decide))
  · rw [hset g, hcool, State.enterBlocked_cool rfl, State.aimed_cool, s.aimed_keeps.groupConfig (by decide),
      s.aimed_keeps .timeBase (by decide)]
    refine ⟨fun _ h => (nomatch h), fun hb _ => ?_, fun _ h => (nomatch h)⟩
    rw [s.aimed_inSet_of_inSet hb, hb]
    rfl
  · have hseq : ∀ g : Group, (s.aimed.group g).sequence = (s.group g).sequence := fun g => by rw [State.aimed_group]; rfl
    rw [hall.out, State.enterBlocked_out rfl, s.aimed_out]
    simp only [hseq]
  · rw [hgroup, State.enterBlocked_group rfl, State.aimed_group]
    have hservice : (((s.group g).started (s.groupConfig g)).crossing (s.aimed.inSet g) false).service =
        (s.group g).service := by rw [GroupRecord.crossing_service]; rfl
    refine ⟨rfl, rfl, fun h => ?_, fun h => ?_⟩ <;> rw [h] at hservice <;> simp only [GroupRecord.settled, hservice]

end Stopped

/-- The outcome of the target step at the end of an expiry, as the statement reads it (R32 to R34, R38). -/
theorem allocationExpiry_aims {s : State} (hresp : s.responsesAllowed) :
    (s.begin.allocationExpiry.line.governing, s.begin.allocationExpiry.line.least) = s.expiryTable.least ∧
      s.begin.allocationExpiry.line.target = max s.config.floor s.begin.allocationExpiry.line.least ∧
      (s.begin.allocationExpiry.line.aeHold = true ↔ s.config.holdOnAe = true ∧ s.ae.list ≠ []) ∧
      s.begin.allocationExpiry.line.allocTimer = some (s.timeBase + 20) := by
  have haim := State.allocationExpiry_aimKept (s := s.begin) hresp
  rw [State.aimed_line, State.expiryTable_restartAlloc] at haim
  rw [haim.governing, haim.least, haim.target, haim.aeHold, haim.allocTimer]
  refine ⟨rfl, rfl, ?_, rfl⟩
  change (s.config.holdOnAe && !s.ae.list.isEmpty) = true ↔ _
  simp

/-- STARTING's step and where it leads (R3, R4). -/
theorem allocationExpiry_starting {s : State} (hresp : s.responsesAllowed) (hs : s.line.state = some .starting) :
    s.begin.allocationExpiry.line.iCmd = min 60000 (s.line.iCmd + s.config.startRate) ∧
      (s.begin.allocationExpiry.line.iCmd < s.config.floor → s.begin.allocationExpiry.line.state = some .starting) ∧
      (s.config.floor ≤ s.begin.allocationExpiry.line.iCmd → s.holdStands = true →
        s.begin.allocationExpiry.line.state = some .hold) ∧
      (s.config.floor ≤ s.begin.allocationExpiry.line.iCmd →
        s.begin.allocationExpiry.line.state = some .regulating ∨ s.begin.allocationExpiry.line.state = some .hold) := by
  have hb : s.begin.responsesAllowed := hresp
  have hstate : s.begin.aimed.line.state = some .starting := by rw [State.aimed_line]; exact hs
  have hi : s.begin.aimed.line.iCmd = s.line.iCmd := by rw [State.aimed_line]; rfl
  have hc : s.begin.aimed.config = s.config := s.begin.aimed_keeps .config (by decide)
  have hhold : s.begin.aimed.holdStands = s.holdStands :=
    congrArg (fun u : FaultUnit => u.table.anyWith .hold) (s.begin.aimed_keeps .faults (by decide))
  have hrise := State.startRise_line hstate
  rw [hi, hc, ← State.ownStep_starting hstate] at hrise
  have hown : s.begin.aimed.ownStep.1.line.iCmd = min 60000 (s.line.iCmd + s.config.startRate) := by rw [hrise]
  by_cases hle : s.config.floor ≤ min 60000 (s.line.iCmd + s.config.startRate)
  · obtain ⟨h1, h2⟩ := State.allocationExpiry_line hb (l := s.begin.aimed.regulatingOrHold)
      (by rw [hrise, if_pos hle]) (State.regulatingOrHold_running _)
    rw [h1, hown]
    refine ⟨rfl, fun hlt => by omega, fun _ hh => ?_, fun _ => ?_⟩
    · have hl : s.begin.aimed.regulatingOrHold = .hold := by rw [State.regulatingOrHold, hhold, if_pos hh]
      rw [hl] at h2
      exact h2.elim id fun h => h.2
    · rcases h2 with h2 | ⟨-, h2⟩
      · rw [h2]
        unfold State.regulatingOrHold
        split <;> simp
      · exact .inr h2
  · obtain ⟨h1, h2⟩ := State.allocationExpiry_line hb (l := .starting) (by rw [hrise, if_neg hle]) rfl
    rw [h1, hown]
    exact ⟨rfl, fun _ => h2.elim id fun h => (nomatch h.1), fun h => absurd h hle, fun h => absurd h hle⟩

/-- Settles O16: the outcome of the target step comes to the end of every expiry, and each state's own step is followed there. -/
theorem ownStepsOfTheOtherStates : Obligations.OwnStepsOfTheOtherStates := by
  refine ⟨fun s d hresp ht => ⟨_, execAllocationTimerExpiry_eq ht, ?_⟩,
    fun s d hresp ht => ⟨fun hs => ⟨_, execAllocationTimerExpiry_eq ht, ?_⟩, fun hs => ⟨_, execAllocationTimerExpiry_eq ht, ?_⟩,
      fun hs hlt => ⟨_, execAllocationTimerExpiry_eq ht, ?_⟩, fun hs hle => ⟨_, execAllocationTimerExpiry_eq ht, ?_⟩⟩,
    fun s d hresp ht hs => ⟨_, execAllocationTimerExpiry_eq ht, ?_⟩⟩
  all_goals have hb : s.begin.responsesAllowed := hresp
  · obtain ⟨h1, h2, h3, h4⟩ := allocationExpiry_aims hresp
    refine ⟨h1, h2, h3, h4, fun hs => ?_⟩
    obtain ⟨hout, hline, hgroups⟩ := State.allocationExpiry_adopting hb hs
    rw [hline, State.aimed_line]
    refine ⟨hout, hs, rfl, rfl, fun g => ?_⟩
    have hg : s.begin.allocationExpiry.group g = (s.group g).started (s.groupConfig g) :=
      (congrArg (Eight.get · g) hgroups).trans (s.begin.aimed_group g)
    rw [hg]
    exact ⟨rfl, rfl, rfl⟩
  · have hstate : s.begin.aimed.line.state = some .hold := by rw [State.aimed_line]; exact hs
    have hown : s.begin.aimed.ownStep.1 = s.begin.aimed := by simp only [State.ownStep, hstate]
    obtain ⟨h1, h2⟩ := State.allocationExpiry_line hb (l := .hold) (by rw [hown]; exact hstate) rfl
    refine ⟨?_, h2.elim id fun h => h.2⟩
    rw [h1, hown, State.aimed_line]
    rfl
  · exact allocationExpiry_starting hresp hs
  · have hstate : s.begin.aimed.line.state = some .stopping := by rw [State.aimed_line]; exact hs
    have hi : s.begin.aimed.line.iCmd = s.line.iCmd := by rw [State.aimed_line]; rfl
    have hc : s.begin.aimed.config = s.config := s.begin.aimed_keeps .config (by decide)
    have hown := State.ownStep_stopping hstate (by rw [hi, hc]; exact hlt)
    obtain ⟨h1, h2⟩ := State.allocationExpiry_line hb (l := .stopping) (by rw [hown]; exact hstate) rfl
    refine ⟨h2.elim id fun h => (nomatch h.1), ?_⟩
    rw [h1, hown, hi, hc]
    rfl
  · exact State.allocationExpiry_standby hb hs hle
  · obtain ⟨hline, hout, hgroup⟩ := State.allocationExpiry_blocked hb hs
    rw [hline, State.aimed_line]
    refine ⟨rfl, rfl, rfl, rfl, rfl, hout, fun g => ?_⟩
    rw [hgroup, State.aimed_group]
    exact ⟨rfl, rfl, rfl, rfl⟩

end Sys2Proof.Machine
end

