-- ==== Sys2Proof/Proofs/RunningExpiry.lean ====
section
/-! An expiry in a running state: the joins and leaves, the allocation and its orders (R13, R14, R43 to R46, R53, R59, R68, R69). -/

namespace Sys2Proof.Machine

/-! ### The record after a join or leave step (R13, R14) -/

section Ramped

variable {r : GroupRecord} {gc : GroupConfig}

theorem GroupRecord.ramped_joining (h : r.service = .joining) :
    r.ramped gc = if gc.rating ≤ min 12000 (r.joinCeiling + gc.joinRate) then
        { r with joinCeiling := 0, service := .inService, awaiting := false }
      else { r with joinCeiling := min 12000 (r.joinCeiling + gc.joinRate) } := by
  simp only [GroupRecord.ramped, h]

theorem GroupRecord.ramped_leaving (h : r.service = .leaving) :
    r.ramped gc = if r.leaveCeiling - gc.leaveRate = 0 then
        { r with leaveCeiling := 0, service := .out, linkTimer := none, awaiting := false }
      else { r with leaveCeiling := r.leaveCeiling - gc.leaveRate } := by
  have hl : r.leaveCeiling - min gc.leaveRate r.leaveCeiling = r.leaveCeiling - gc.leaveRate := by omega
  simp only [GroupRecord.ramped, h, hl]

theorem GroupRecord.ramped_other (h1 : r.service ≠ .joining) (h2 : r.service ≠ .leaving) : r.ramped gc = r := by
  unfold GroupRecord.ramped
  split <;> simp_all

theorem GroupRecord.ramped_orders (r : GroupRecord) (gc : GroupConfig) :
    (r.ramped gc).sequence = r.sequence ∧ (r.awaiting = false → (r.ramped gc).awaiting = false) ∧
      ((r.ramped gc).service.member = true → r.service.member = true) := by
  by_cases hj : r.service = .joining
  · rw [GroupRecord.ramped_joining hj, hj]
    split <;> exact ⟨rfl, by simp, fun _ => rfl⟩
  by_cases hl : r.service = .leaving
  · rw [GroupRecord.ramped_leaving hl, hl]
    split <;> exact ⟨rfl, by simp, fun _ => rfl⟩
  · rw [GroupRecord.ramped_other hj hl]
    exact ⟨rfl, id, id⟩

end Ramped

/-! ### The join and leave steps of all groups -/

section RampAll

variable (s : State) (h : Group)

/-- What the steps make of one group: its own step, and the other groups' leave it. -/
theorem State.rampAll_unit :
    (s.eachGroup State.rampGroup).group h =
        ((s.group h).ramped (s.groupConfig h)).crossing (s.inSet h) ((s.eachGroup State.rampGroup).inSet h) ∧
      (s.eachGroup State.rampGroup).cool h =
        (s.cool h).crossing (s.groupConfig h) s.timeBase (s.inSet h) ((s.eachGroup State.rampGroup).inSet h) := by
  have hset : ∀ (t : State) (g : Group), h ≠ g → (t.rampGroup g).inSet h = t.inSet h := fun t g hne =>
    State.inSet_congr (by rw [State.rampGroup_line]) (by rw [t.rampGroup_group_ne hne]) (by rw [t.rampGroup_group_ne hne])
  refine State.eachGroup_at (h := h)
    (fun t => s.keepsAllBut t groupParts ∧ t.group h = s.group h ∧ t.cool h = s.cool h)
    (fun t => t.group h = ((s.group h).ramped (s.groupConfig h)).crossing (s.inSet h) (t.inSet h) ∧
      t.cool h = (s.cool h).crossing (s.groupConfig h) s.timeBase (s.inSet h) (t.inSet h))
    (fun t g hne ⟨hk, hg, hc⟩ => ⟨State.keepsAllBut_trans hk (t.rampGroup_keeps g),
      (t.rampGroup_group_ne (Ne.symm hne)).trans hg, (t.rampGroup_cool_ne (Ne.symm hne)).trans hc⟩)
    (fun t g hne ht => by
      rw [hset t g (Ne.symm hne), t.rampGroup_group_ne (Ne.symm hne), t.rampGroup_cool_ne (Ne.symm hne)]
      exact ht)
    (fun t ⟨hk, hg, hc⟩ => ?_) ⟨s.keepsAllBut_refl _, rfl, rfl⟩
  have hin : t.inSet h = s.inSet h :=
    State.inSet_congr (congrArg Line.state (hk .line (by decide))) (by rw [hg]) (by rw [hg])
  have hgc := hk.groupConfig (by decide) h
  constructor
  · rw [State.rampGroup_group_self, hg, hgc, hin]
  · rw [State.rampGroup_cool_self, hc, hgc, hin, hk .timeBase (by decide)]

theorem State.rampAll_noticed : s.noticed (s.eachGroup State.rampGroup) := State.eachGroup_noticed State.rampGroup_noticed s

theorem State.rampAll_running : (s.eachGroup State.rampGroup).running = s.running :=
  State.running_of_line (congrArg Line.state (s.rampAll_keeps .line (by decide)))

theorem State.rampAll_inSet (hawait : (s.group h).awaiting = false) :
    (s.eachGroup State.rampGroup).inSet h =
      (s.running && ((s.group h).ramped (s.groupConfig h)).service.member) := by
  obtain ⟨hg, -⟩ := s.rampAll_unit h
  rw [State.inSet_eq, s.rampAll_running, hg, GroupRecord.crossing_service, GroupRecord.crossing_awaiting,
    ((s.group h).ramped_orders (s.groupConfig h)).2.1 hawait]
  simp

theorem State.rampAll_hears (hend : ((s.group h).ramped (s.groupConfig h)).service ≠ (s.group h).service) :
    s.hears (s.eachGroup State.rampGroup)
      (.groupState h ((s.group h).ramped (s.groupConfig h)).service (s.group h).service .ramp) :=
  State.eachGroup_at (h := h)
    (fun t => s.noticed t ∧ s.keepsAllBut t groupParts ∧ t.group h = s.group h)
    (fun t => s.hears t (.groupState h ((s.group h).ramped (s.groupConfig h)).service (s.group h).service .ramp))
    (fun t g hne ⟨hn, hk, hg⟩ => ⟨State.noticed_trans hn (t.rampGroup_noticed g),
      State.keepsAllBut_trans hk (t.rampGroup_keeps g), (t.rampGroup_group_ne (Ne.symm hne)).trans hg⟩)
    (fun t g _ ht => ht.later (t.rampGroup_noticed g))
    (fun t ⟨hn, hk, hg⟩ => by
      have hgc := hk.groupConfig (by decide) h
      have hear := t.rampGroup_hears h (by rw [hg, hgc]; exact hend)
      rw [hg, hgc] at hear
      exact hear.since (hk .timeBase (by decide)) hn.role)
    ⟨s.noticed_refl, s.keepsAllBut_refl _, rfl⟩

end RampAll

/-! ### The allocation set (R44) and the record's members (R59) -/

theorem State.allocationSet_congr {s t : State} (hset : ∀ g : Group, t.inSet g = s.inSet g)
    (hconfig : t.config = s.config) (hceiling : ∀ g : Group, t.memberCeiling g = s.memberCeiling g) :
    t.allocationSet = s.allocationSet := by
  have hgc : ∀ g : Group, t.groupConfig g = s.groupConfig g := fun g => by simp only [State.groupConfig, hconfig]
  rw [State.allocationSet, State.allocationSet, show t.inSet = s.inSet from funext hset]
  simp only [hceiling, hgc]

theorem State.memberCeiling_congr {s t : State} {g : Group} (hgc : t.groupConfig g = s.groupConfig g)
    (hcool : t.cool g = s.cool g) (hservice : (t.group g).service = (s.group g).service)
    (hjoin : (t.group g).joinCeiling = (s.group g).joinCeiling)
    (hleave : (t.group g).leaveCeiling = (s.group g).leaveCeiling) : t.memberCeiling g = s.memberCeiling g := by
  simp only [State.memberCeiling, hgc, hcool, hservice, hjoin, hleave]

/-- A group has a place in the record of an allocation exactly when it is a member. -/
theorem allocate_members (now i : Nat) (l : LineState) (p : Group) (s : State) (g : Group) :
    (((allocate now l i p s.allocationSet).record.members.get g).isSome) = s.inSet g := by
  have hfind : (s.allocationSet.find? fun m => m.group == g).isSome = s.inSet g := by
    rw [Bool.eq_iff_iff, List.find?_isSome]
    simp [State.allocationSet, mem_allGroups]
  rw [← hfind]
  simp only [allocate, Eight.get_ofFn]
  cases s.allocationSet.find? fun m => m.group == g <;> rfl

theorem AllocRecord.orderOf_none {r : AllocRecord} {g : Group} (h : r.members.get g = none) : r.orderOf g = (0, true) := by
  simp [AllocRecord.orderOf, h]

theorem AllocRecord.orderOf_some {r : AllocRecord} {g : Group} {m : AllocMember} (h : r.members.get g = some m) :
    r.orderOf g = (m.order, false) := by
  simp [AllocRecord.orderOf, h]

end Sys2Proof.Machine
end

