-- ==== Sys2Proof/Proofs/AllocatedOrders.lean ====
section
/-! A running expiry from its start to its end (R13, R14, R43 to R46, R53, R59, R68, R69). -/

namespace Sys2Proof.Machine

/-! ### From the ramps to the end -/

section RunEnd

variable (s : State) (l : LineState)

theorem State.allocate_record : ((s.eachGroup State.rampGroup).allocate l).line.record = s.expiryRecord l := by
  have h := congrArg Line.record (s.ordered_line l)
  rwa [State.ordered, State.handOrders_line] at h

theorem State.rampAll_sequence (h : Group) : ((s.eachGroup State.rampGroup).group h).sequence = (s.group h).sequence := by
  rw [(s.rampAll_unit h).1, GroupRecord.crossing_sequence, (GroupRecord.ramped_orders _ _).1]

theorem State.ordered_group (h : Group) :
    (s.ordered l).group h = { (s.eachGroup State.rampGroup).group h with
      lastOrder := ((s.expiryRecord l).orderOf h).1, blockFlag := ((s.expiryRecord l).orderOf h).2
      sequence := ((s.group h).sequence + 1) % 256 } := by
  rw [State.ordered, State.handOrders_group, State.allocate_record, ← s.rampAll_sequence h]
  rfl

theorem State.ordered_cool (h : Group) : (s.ordered l).cool h = (s.eachGroup State.rampGroup).cool h :=
  (State.handOrders_keeps _).cool (by decide) h

theorem State.ordered_out :
    (s.ordered l).out = s.out ++ allGroups.map fun g =>
      Sent.order g ((s.expiryRecord l).orderOf g).1 ((s.expiryRecord l).orderOf g).2 (((s.group g).sequence + 1) % 256) := by
  have hseq : ∀ g : Group, (((s.eachGroup State.rampGroup).allocate l).group g).sequence = (s.group g).sequence :=
    s.rampAll_sequence
  have hout : ((s.eachGroup State.rampGroup).allocate l).out = s.out := s.rampAll_keeps .out (by decide)
  rw [State.ordered, State.handOrders_out, State.allocate_record, hout]
  simp only [hseq]

theorem State.ordered_noticed : (s.eachGroup State.rampGroup).noticed (s.ordered l) :=
  State.noticed_trans (t := (s.eachGroup State.rampGroup).allocate l) (State.noticed_of_ports rfl)
    (State.noticed_of_keeps (State.handOrders_keeps _) (by decide))

end RunEnd

/-- The links, the groups and their cooling at the end of a running expiry are those that the orders leave. -/
structure State.runsTo (s t : State) (l : LineState) : Prop where
  group : ∀ h : Group, t.group h = { (s.eachGroup State.rampGroup).group h with
    lastOrder := ((s.expiryRecord l).orderOf h).1, blockFlag := ((s.expiryRecord l).orderOf h).2
    sequence := ((s.group h).sequence + 1) % 256 }
  cool : ∀ h : Group, t.cool h = (s.eachGroup State.rampGroup).cool h
  set : ∀ h : Group, t.inSet h = (s.eachGroup State.rampGroup).inSet h
  noticed : (s.eachGroup State.rampGroup).noticed t
  out : t.out = s.out ++ allGroups.map fun g => Sent.order g (t.group g).lastOrder (t.group g).blockFlag
    (((s.group g).sequence + 1) % 256)
  config : t.config = s.config

theorem State.runAllocation_runsTo {s : State} (l : LineState) (h : s.allowedAt (.line .capacityShort)) : s.runsTo (s.runAllocation l) l := by
  obtain ⟨hunits, -⟩ := State.capacityEvent_mild (State.ordered_allowedAt l h)
  rw [← State.runAllocation_eq] at hunits
  have hgroup : ∀ g : Group, (s.runAllocation l).group g = _ := fun g =>
    (congrArg (Eight.get · g) hunits.groups).trans (s.ordered_group l g)
  have hrun : (s.runAllocation l).running = (s.eachGroup State.rampGroup).running := by
    rw [s.rampAll_running]
    rcases (State.runAllocation_line l h).2 with h2 | ⟨h1, h2⟩
    · exact State.running_of_line h2
    · simp [State.running, h1, h2, LineState.running]
  refine ⟨hgroup, fun g => (congrArg (Eight.get · g) hunits.cooling).trans (s.ordered_cool l g), fun g => ?_,
    State.noticed_trans (s.ordered_noticed l) hunits.noticed, ?_, ?_⟩
  · rw [State.inSet_eq, State.inSet_eq, hrun, hgroup]
  · rw [hunits.out, State.ordered_out]
    simp only [hgroup]
  · have hk : (s.ordered l).keepsAllBut (s.ordered l).capacityEvent _ := State.keepsAllBut_trans
      (t := { s.ordered l with line := { (s.ordered l).line with
        capacityShort := decide ((s.ordered l).line.record.total < (s.ordered l).line.record.iCmd) } })
      (l := responseParts) (by intro p hp; cases p <;> first | rfl | exact absurd (by simp [responseParts]) hp)
      (State.conditionChange_keeps _ _ _ _ _)
    exact (hk .config (by decide)).trans (s.ordered_keeps l .config (by decide))

/-- The CAPACITY_SHORT event hands the condition that the record gives (R46). -/
theorem State.capacityEvent_handed {s : State} (h : s.allowedAt (.line .capacityShort)) :
    s.handed s.capacityEvent (.line .capacityShort) s.line.capacityShort
      (decide (s.line.record.total < s.line.record.iCmd)) (some (.capacity s.line.record.shortfall)) :=
  State.conditionChange_handed
    (s := { s with line := { s.line with capacityShort := decide (s.line.record.total < s.line.record.iCmd) } })
    _ _ _ (.inr ⟨h, rfl⟩)

/-! ### From the start to the ramps -/

/-- What an expiry has made of a running state when it comes to the join and leave steps: the line as the own step and a HOLD leave
it, and every group enrolled with its items taken into use. -/
structure State.comesToRamps (s v : State) (l : LineState) : Prop where
  finish : s.begin.allocationExpiry = v.runAllocation l
  state : v.line.state = some l
  start : s.running = true
  running : v.running = true
  rotation : v.line.rotation = s.line.rotation
  capacityShort : v.line.capacityShort = s.line.capacityShort
  group : ∀ h : Group, v.group h = (s.group h).started (s.groupConfig h)
  cool : ∀ h : Group, v.cool h = s.begin.aimed.cool h
  out : v.out = []
  noticed : s.begin.aimed.noticed v
  config : v.config = s.config
  timeBase : v.timeBase = s.timeBase
  entry : (s.entry (.line .capacityShort)).sameButReduce (v.entry (.line .capacityShort))
  allowed : v.allowedAt (.line .capacityShort)

/-- An expiry that begins and ends in a running state does not end the stop descent, and comes to the join and leave steps. -/
theorem State.running_comesToRamps {s : State} (hresp : s.responsesAllowed) (hrun : s.running = true)
    (ht : s.begin.allocationExpiry.running = true) : ∃ l : LineState, s.comesToRamps s.begin.stepped l := by
  have hb : s.begin.responsesAllowed := hresp
  have hgo : s.begin.aimed.line.state = some .stopping → s.begin.aimed.config.stopRate < s.begin.aimed.line.iCmd := by
    rw [State.aimed_line, s.begin.aimed_keeps .config (by decide)]
    intro hs
    by_contra hn
    have h := (State.allocationExpiry_standby (s := s.begin) hb hs (Nat.not_lt.mp hn)).1
    simp [State.running, h, LineState.running] at ht
  have hstep := State.ownStep_lineStep hgo
  have hmild := State.stepped_mild hb
  have hown : s.begin.aimed.ownStep.1.running = true := hstep.running.trans (s.begin.aimed_running.trans hrun)
  obtain ⟨l, hl, hlrun⟩ : ∃ l : LineState, s.begin.aimed.ownStep.1.line.state = some l ∧ l.running = true := by
    unfold State.running at hown
    split at hown
    exacts [⟨_, ‹_›, hown⟩, nomatch hown]
  obtain ⟨l', hline, -, hlrun', hfinish⟩ := State.allocationExpiry_runs hb hl hlrun
  have hk := State.headroomEvent_keeps s.begin.aimed.ownStep.1 s.begin.restartAlloc.expiryStart.busVoltage
  rw [hstep.line, State.aimed_line] at hline
  exact ⟨l', {
    finish := hfinish
    state := by rw [hline]
    start := hrun
    running := by simp [State.running, hline, hlrun']
    rotation := by rw [hline]; rfl
    capacityShort := by rw [hline]; rfl
    group := fun h => (congrArg (Eight.get · h) (hmild.groups.trans hstep.groups)).trans (s.begin.aimed_group h)
    cool := fun h => congrArg (Eight.get · h) (hmild.cooling.trans hstep.cooling)
    out := hmild.out.trans (hstep.out.trans s.begin.aimed_out)
    noticed := State.noticed_trans hstep.noticed hmild.noticed
    config := (hk .config (by decide)).trans ((hstep.keeps .config (by decide)).trans
      (s.begin.aimed_keeps .config (by decide)))
    timeBase := (hk .timeBase (by decide)).trans ((hstep.keeps .timeBase (by decide)).trans
      (s.begin.aimed_keeps .timeBase (by decide)))
    entry := State.stepped_entry (s := s.begin) (hb.at _) (by decide)
    allowed := State.stepped_allowedAt hb }⟩

section Ends

variable {s v : State} {l : LineState} (hv : s.comesToRamps v l)
include hv

theorem State.comesToRamps.groupConfig (h : Group) : v.groupConfig h = s.groupConfig h := by
  simp only [State.groupConfig, hv.config]

theorem State.comesToRamps.inSet (h : Group) : v.inSet h = s.begin.aimed.inSet h := by
  have hs : s.begin.running = true := hv.start
  rw [State.aimed_inSet, State.inSet_eq, hv.running, hv.group, hs]
  simp [GroupRecord.started]
  rfl

theorem State.comesToRamps.runsTo : v.runsTo s.begin.allocationExpiry l :=
  hv.finish ▸ State.runAllocation_runsTo l hv.allowed

/-- The record of one group at the end, its order aside. -/
theorem State.comesToRamps.groupAt (h : Group) :
    s.begin.allocationExpiry.group h =
      { (((s.group h).started (s.groupConfig h)).ramped (s.groupConfig h)).crossing (v.inSet h)
          (s.begin.allocationExpiry.inSet h) with
        lastOrder := ((v.expiryRecord l).orderOf h).1, blockFlag := ((v.expiryRecord l).orderOf h).2
        sequence := ((s.group h).sequence + 1) % 256 } := by
  rw [hv.runsTo.group, (v.rampAll_unit h).1, hv.runsTo.set, hv.group, hv.groupConfig]
  rfl

/-- The cooling of one group at the end: its crossing at the start, then that of its join or leave step. -/
theorem State.comesToRamps.coolAt (h : Group) :
    s.begin.allocationExpiry.cool h =
      ((s.cool h).crossing (s.groupConfig h) s.timeBase (s.inSet h) (v.inSet h)).crossing (s.groupConfig h) s.timeBase
        (v.inSet h) (s.begin.allocationExpiry.inSet h) := by
  rw [hv.runsTo.cool, (v.rampAll_unit h).2, hv.runsTo.set, hv.groupConfig, hv.timeBase, hv.cool, State.aimed_cool,
    hv.inSet]
  rfl

theorem State.comesToRamps.ends : v.noticed s.begin.allocationExpiry :=
  State.noticed_trans v.rampAll_noticed hv.runsTo.noticed

/-- A member at the end was one at the join and leave steps. -/
theorem State.comesToRamps.inSet_of_end {h : Group} (hset : s.begin.allocationExpiry.inSet h = true) :
    v.inSet h = true := by
  rw [hv.runsTo.set, v.rampAll_inSet h (by rw [hv.group]; rfl), Bool.and_eq_true] at hset
  rw [State.inSet_eq, hv.running, (GroupRecord.ramped_orders _ _).2.2 hset.2, hv.group]
  rfl

/-- GRACE follows the set through the start, the steps and the rest of the expiry (R68, R69). -/
theorem State.comesToRamps.graceFollows : s.graceFollows s.begin.allocationExpiry := by
  intro h
  rw [hv.coolAt h]
  refine ⟨fun hb ha => ?_, fun hb ha => ?_, fun hb ha => ?_⟩
  · rw [hb, hv.inSet_of_end ha, ha]
    refine ⟨rfl, fun h0 h1 => ?_⟩
    have hc : s.begin.aimed.cool h = (s.cool h).crossing (s.groupConfig h) s.timeBase (s.inSet h) (v.inSet h) := by
      rw [State.aimed_cool, hv.inSet]
      rfl
    rw [hb, hv.inSet_of_end ha] at hc
    have hear := s.begin.aimed_hearsGrace h h0 (by rw [hc]; exact h1)
    exact (hear.later (State.noticed_trans hv.noticed hv.ends)).since rfl fun _ => rfl
  · have hvset : v.inSet h = true := (hv.inSet h).trans (s.begin.aimed_inSet_of_inSet hb)
    rw [hb, hvset, ha]
    rfl
  · rw [hb, hv.inSet_of_end ha, ha]
    rfl

/-- The joins and leaves at the end of the expiry (R13, R14). -/
theorem State.comesToRamps.ramps (g : Group) :
    ((s.group g).service = .joining →
      ((s.groupConfig g).rating ≤ min 12000 ((s.group g).joinCeiling + (s.groupConfig g).joinRate) →
        (s.begin.allocationExpiry.group g).service = .inService ∧ (s.begin.allocationExpiry.group g).joinCeiling = 0 ∧
          s.hears s.begin.allocationExpiry (.groupState g .inService .joining .ramp)) ∧
      (min 12000 ((s.group g).joinCeiling + (s.groupConfig g).joinRate) < (s.groupConfig g).rating →
        (s.begin.allocationExpiry.group g).service = .joining ∧ (s.begin.allocationExpiry.group g).joinCeiling =
          min 12000 ((s.group g).joinCeiling + (s.groupConfig g).joinRate))) ∧
    ((s.group g).service = .leaving →
      (s.begin.allocationExpiry.group g).leaveCeiling = (s.group g).leaveCeiling - (s.groupConfig g).leaveRate ∧
      (0 < (s.group g).leaveCeiling - (s.groupConfig g).leaveRate →
        (s.begin.allocationExpiry.group g).service = .leaving) ∧
      ((s.group g).leaveCeiling - (s.groupConfig g).leaveRate = 0 →
        (s.begin.allocationExpiry.group g).service = .out ∧
          s.hears s.begin.allocationExpiry (.groupState g .out .leaving .ramp))) ∧
    ((s.group g).service ≠ .joining → (s.group g).service ≠ .leaving →
      (s.begin.allocationExpiry.group g).service = (s.group g).service) := by
  generalize hr : ((s.group g).started (s.groupConfig g)).ramped (s.groupConfig g) = r
  have hg : (s.begin.allocationExpiry.group g).service = r.service ∧
      (s.begin.allocationExpiry.group g).joinCeiling = r.joinCeiling ∧
      (s.begin.allocationExpiry.group g).leaveCeiling = r.leaveCeiling := by
    rw [hv.groupAt g, hr]
    unfold GroupRecord.crossing
    split <;> exact ⟨rfl, rfl, rfl⟩
  have hhears : r.service ≠ (s.group g).service →
      s.hears s.begin.allocationExpiry (.groupState g r.service (s.group g).service .ramp) := fun hne => by
    have hear := v.rampAll_hears g (by rw [hv.group, hv.groupConfig, hr]; exact hne)
    rw [hv.group, hv.groupConfig, hr] at hear
    exact (hear.later hv.runsTo.noticed).since hv.timeBase
      ((State.noticed_trans s.begin.aimed_noticed hv.noticed).role)
  obtain ⟨hservice, hjoin, hleave⟩ := hg
  rw [hservice, hjoin, hleave]
  refine ⟨fun hs => ?_, fun hs => ?_, fun h1 h2 => ?_⟩
  · rw [GroupRecord.ramped_joining (r := (s.group g).started (s.groupConfig g)) hs] at hr
    rw [hs] at hhears
    refine ⟨fun hle => ?_, fun hlt => ?_⟩
    · obtain rfl := hr.symm.trans (if_pos hle)
      exact ⟨rfl, rfl, hhears (by simp)⟩
    · obtain rfl := hr.symm.trans (if_neg (Nat.not_le.mpr hlt))
      exact ⟨hs, rfl⟩
  · rw [GroupRecord.ramped_leaving (r := (s.group g).started (s.groupConfig g)) hs] at hr
    rw [hs] at hhears
    by_cases h0 : (s.group g).leaveCeiling - (s.groupConfig g).leaveRate = 0
    · obtain rfl := hr.symm.trans (if_pos h0)
      exact ⟨h0.symm, fun hp => by omega, fun _ => ⟨rfl, hhears (by simp)⟩⟩
    · obtain rfl := hr.symm.trans (if_neg h0)
      exact ⟨rfl, fun _ => hs, fun h => absurd h h0⟩
  · rw [GroupRecord.ramped_other (r := (s.group g).started (s.groupConfig g)) h1 h2] at hr
    subst hr
    rfl

/-- The record of the expiry is that of the allocation over the set as the expiry leaves it (R43, R59). -/
theorem State.comesToRamps.record :
    v.expiryRecord l = (Machine.allocate s.timeBase l v.line.iCmd s.line.rotation s.begin.allocationExpiry.allocationSet).record := by
  have hset : s.begin.allocationExpiry.allocationSet = (v.eachGroup State.rampGroup).allocationSet := by
    have hconfig : s.begin.allocationExpiry.config = (v.eachGroup State.rampGroup).config :=
      hv.runsTo.config.trans (v.rampAll_keeps .config (by decide)).symm
    refine State.allocationSet_congr hv.runsTo.set hconfig fun g => ?_
    refine State.memberCeiling_congr ?_ (hv.runsTo.cool g) ?_ ?_ ?_
    · simp only [State.groupConfig, hconfig]
    all_goals rw [hv.runsTo.group]
  rw [hset, State.expiryRecord, hv.timeBase, hv.rotation]

/-- The CAPACITY_SHORT condition is handed with the shortfall of the record (R46). -/
theorem State.comesToRamps.handsCapacity :
    s.handed s.begin.allocationExpiry (.line .capacityShort) s.line.capacityShort
      (decide ((v.expiryRecord l).total < (v.expiryRecord l).iCmd)) (some (.capacity (v.expiryRecord l).shortfall)) := by
  have hrecord : (v.ordered l).line.record = v.expiryRecord l := by rw [State.ordered_line]
  have hcap : (v.ordered l).line.capacityShort = s.line.capacityShort := by
    rw [State.ordered_line]
    exact hv.capacityShort
  have hhand := State.capacityEvent_handed (State.ordered_allowedAt l hv.allowed)
  rw [← State.runAllocation_eq, ← hv.finish, hrecord, hcap] at hhand
  refine hhand.within ((v.ordered_keeps l .timeBase (by decide)).trans hv.timeBase) ?_ (Entry.sameButReduce_refl _)
  exact Entry.sameButReduce_trans hv.entry (Entry.sameButReduce_of_eq ((v.ordered_keeps l).entry (by decide) _))

end Ends

/-- Settles O17: the groups step, the record is taken over the set that they leave, and its orders go out. -/
theorem runningExpirySendsTheAllocatedOrders : Obligations.RunningExpirySendsTheAllocatedOrders := by
  intro s t d hresp htimer hrun hexec hend
  obtain rfl : s.begin.allocationExpiry = t := Host.Outcome.next.inj ((execAllocationTimerExpiry_eq htimer).symm.trans hexec)
  obtain ⟨l, hv⟩ := State.running_comesToRamps hresp hrun hend
  generalize s.begin.stepped = v at hv
  have hruns := hv.runsTo
  obtain ⟨hline, hstate⟩ := State.runAllocation_line l hv.allowed
  rw [← hv.finish] at hline hstate
  rw [hv.state] at hstate
  have hrecord := hv.record
  have hfields : (v.expiryRecord l).time = s.timeBase ∧ (v.expiryRecord l).lineState = l ∧
      (v.expiryRecord l).iCmd = v.line.iCmd := by
    rw [hrecord]
    exact ⟨rfl, rfl, rfl⟩
  obtain ⟨htime, hlstate, hicmd⟩ := hfields
  have hmember : ∀ g : Group, ((v.expiryRecord l).members.get g).isSome = s.begin.allocationExpiry.inSet g := fun g => by
    rw [hrecord]
    exact allocate_members _ _ _ _ _ g
  have hhand := hv.handsCapacity
  have hseq : ∀ g : Group, (v.group g).sequence = (s.group g).sequence := fun g => by rw [hv.group]; rfl
  have hout := hruns.out
  rw [hv.out] at hout
  simp only [hseq, List.nil_append] at hout
  have horder : ∀ g : Group, (s.begin.allocationExpiry.group g).lastOrder = ((v.expiryRecord l).orderOf g).1 ∧
      (s.begin.allocationExpiry.group g).blockFlag = ((v.expiryRecord l).orderOf g).2 := fun g => by
    rw [hruns.group]
    exact ⟨rfl, rfl⟩
  have hramps := hv.ramps
  have hgrace := hv.graceFollows
  generalize s.begin.allocationExpiry = t at *
  rw [hline]
  refine ⟨hramps, hgrace, ?_, ?_, hhand, htime, hicmd, rfl, rfl, rfl, hout, fun g => ⟨hmember g, fun h => ?_, fun m h => ?_⟩⟩
  · rw [hlstate]
    exact hrecord
  · rcases hstate with h | ⟨h1, h2⟩
    · exact .inl (by rw [hlstate]; exact h)
    · cases h1
      exact .inr ⟨h2, hlstate⟩
  · rw [(horder g).1, (horder g).2, AllocRecord.orderOf_none h]
    exact ⟨rfl, rfl⟩
  · rw [(horder g).1, (horder g).2, AllocRecord.orderOf_some h]
    exact ⟨rfl, rfl⟩

end Sys2Proof.Machine
end

