-- ==== Sys2Proof/Proofs/AdoptWindow.lean ====
section
/-! The close of the adopt window (R17, R22, R23, R26, R68). -/

namespace Sys2Proof.Machine

/-! ### The classification of the groups (R23) -/

/-- A group that is not selected and reports current, which the close of the window removes (R23). -/
def GroupRecord.strays (r : GroupRecord) : Bool := r.service == .out && decide (0 < r.measured)

theorem GroupRecord.strays_iff (r : GroupRecord) : r.strays = true ↔ r.service = .out ∧ 0 < r.measured := by
  simp [GroupRecord.strays]

/-- A group's record after its classification (R23). -/
def GroupRecord.classified (r : GroupRecord) : GroupRecord :=
  if r.strays then { r with service := .removed, linkTimer := none, awaiting := false } else r

/-- Its cooling after the classification: the adoption source holds (R23). -/
def GroupCooling.classified (c : GroupCooling) (strays : Bool) : GroupCooling :=
  if strays then { c with adoptionSource := true } else c

/-- A group removed by the close of the window, before its mismatch condition is handed. -/
def State.adoptStray (s : State) (g : Group) : State :=
  (s.setService g .removed .adoption).modCool g fun c => { c with adoptionSource := true }

section Classify

variable (s : State) (g : Group)

theorem State.classifyGroup_eq :
    s.classifyGroup g =
      if (s.group g).strays then
        if (s.cool g).mismatched then s.adoptStray g
        else (s.adoptStray g).onsetWith (fun t => t) (.group .mismatch g) (some (.mismatch (s.cool g).differing))
      else s := by
  unfold State.classifyGroup
  simp only [GroupRecord.strays_iff]
  rfl

/-- The onset of a group that the close has removed leaves the groups. -/
theorem State.classifyGroup_unitsKept (h : (s.group g).strays = true) : (s.adoptStray g).unitsKept (s.classifyGroup g) := by
  rw [State.classifyGroup_eq, if_pos h]
  split
  · exact State.unitsKept_refl _
  · refine State.onsetWith_unitsKept fun c t _ ht => State.applyRemove_removed ?_ c
    rw [show t.group g = (s.adoptStray g).group g from congrArg (Eight.get · g) ht]
    exact s.setService_service_self g .removed .adoption

theorem State.adoptStray_keeps : s.keepsAllBut (s.adoptStray g) groupParts := by
  refine State.keepsAllBut_trans (s.setService_keeps g .removed .adoption) ?_
  intro p hp
  cases p <;> first | rfl | exact absurd (by simp [groupParts]) hp

theorem State.classifyGroup_out : (s.classifyGroup g).out = s.out := by
  by_cases h : (s.group g).strays = true
  · rw [(s.classifyGroup_unitsKept g h).out, s.adoptStray_keeps g .out (by decide)]
  · rw [State.classifyGroup_eq, if_neg h]

theorem State.classifyGroup_noticed : s.noticed (s.classifyGroup g) := by
  by_cases h : (s.group g).strays = true
  · exact State.noticed_trans (State.noticed_trans (s.setService_noticed g .removed .adoption) (State.noticed_of_ports rfl))
      (s.classifyGroup_unitsKept g h).noticed
  · rw [State.classifyGroup_eq, if_neg h]
    exact s.noticed_refl

theorem State.classifyGroup_unit_ne {h : Group} (hne : h ≠ g) :
    (s.classifyGroup g).group h = s.group h ∧ (s.classifyGroup g).cool h = s.cool h := by
  by_cases hs : (s.group g).strays = true
  · have hk := s.classifyGroup_unitsKept g hs
    constructor
    · exact (congrArg (Eight.get · h) hk.groups).trans (s.setService_group_ne hne .removed .adoption)
    · refine (congrArg (Eight.get · h) hk.cooling).trans ?_
      exact (State.cool_modCool_ne _ hne _).trans (s.setService_cool_ne hne .removed .adoption)
  · rw [State.classifyGroup_eq, if_neg hs]
    exact ⟨rfl, rfl⟩

theorem State.classifyGroup_unit_self :
    (s.classifyGroup g).group g = (s.group g).classified ∧
      (s.classifyGroup g).cool g = (s.cool g).classified (s.group g).strays := by
  by_cases hs : (s.group g).strays = true
  · have hk := s.classifyGroup_unitsKept g hs
    have hout : (s.group g).service = .out := ((s.group g).strays_iff.mp hs).1
    have hbefore : s.inSet g = false := by simp [State.inSet_eq, hout, ServiceState.member]
    have hafter : (s.setService g .removed .adoption).inSet g = false := by
      rw [State.setService_inSet_self]
      simp [ServiceState.member]
    have hg := s.setService_group_self g .removed .adoption
    have hc := s.setService_cool_self g .removed .adoption
    rw [hbefore, hafter, GroupRecord.crossing_same] at hg
    rw [hbefore, hafter, GroupCooling.crossing_same] at hc
    constructor
    · refine (congrArg (Eight.get · g) hk.groups).trans (hg.trans ?_)
      simp [GroupRecord.classified, hs, GroupRecord.serve, linkTimerAfter, awaitingAfter, ServiceState.member]
    · refine (congrArg (Eight.get · g) hk.cooling).trans ?_
      change ((s.setService g .removed .adoption).modCool g _).cool g = _
      rw [State.cool_modCool_self, hc, GroupCooling.classified, if_pos hs]
  · rw [State.classifyGroup_eq, if_neg hs]
    simp [GroupRecord.classified, GroupCooling.classified, hs]

end Classify

section Close

variable {s : State} (h0 : s.line.state = some .adopting)

theorem State.closeWindow_unit (s : State) (h : Group) :
    s.closeWindow.group h = (s.group h).classified ∧ s.closeWindow.cool h = (s.cool h).classified (s.group h).strays :=
  State.eachGroup_at (h := h) (s := { s with line := { s.line with adoptDeadline := none } })
    (fun t => t.group h = s.group h ∧ t.cool h = s.cool h)
    (fun t => t.group h = (s.group h).classified ∧ t.cool h = (s.cool h).classified (s.group h).strays)
    (fun t g hne ⟨h1, h2⟩ => ⟨((t.classifyGroup_unit_ne g (Ne.symm hne)).1).trans h1,
      ((t.classifyGroup_unit_ne g (Ne.symm hne)).2).trans h2⟩)
    (fun t g hne ⟨h1, h2⟩ => ⟨((t.classifyGroup_unit_ne g (Ne.symm hne)).1).trans h1,
      ((t.classifyGroup_unit_ne g (Ne.symm hne)).2).trans h2⟩)
    (fun t ⟨h1, h2⟩ => by
      have := t.classifyGroup_unit_self h
      rwa [h1, h2] at this)
    ⟨rfl, rfl⟩

theorem State.closeWindow_out (s : State) : s.closeWindow.out = s.out :=
  State.eachGroup_kept (fun t => t.out = s.out) (fun t g ht => (t.classifyGroup_out g).trans ht) rfl

theorem State.closeWindow_noticed (s : State) : s.noticed s.closeWindow :=
  State.noticed_trans (t := { s with line := { s.line with adoptDeadline := none } }) (State.noticed_of_ports rfl)
    (State.eachGroup_noticed State.classifyGroup_noticed _)

theorem GroupRecord.classified_fields (r : GroupRecord) :
    r.classified.sequence = r.sequence ∧ r.classified.measured = r.measured ∧
      (r.classified.service = .inService ↔ r.service = .inService) ∧
      (r.service ≠ .out → r.classified = r) := by
  unfold GroupRecord.classified
  split
  · next h =>
    obtain ⟨h1, -⟩ := r.strays_iff.mp h
    exact ⟨rfl, rfl, by simp [h1], fun h2 => absurd h1 h2⟩
  · exact ⟨rfl, rfl, Iff.rfl, fun _ => rfl⟩

/-! ### The adoption sum (R23) -/

theorem State.firstOrder_eq (s : State) (g : Group) :
    s.firstOrder g = if (s.group g).service = .inService then
      (s.group g).measured / (s.group g).resolution * (s.group g).resolution else 0 := by
  unfold State.firstOrder
  split <;> simp_all

theorem State.closeWindow_firstOrder (s : State) (g : Group) :
    s.closeWindow.firstOrder g = if (s.group g).service = .inService then
      (s.group g).measured / (s.group g).resolution * (s.group g).resolution else 0 := by
  obtain ⟨-, -, hin, hkeep⟩ := (s.group g).classified_fields
  rw [State.firstOrder_eq, (s.closeWindow_unit g).1]
  by_cases h : (s.group g).service = .inService
  · rw [hkeep (by rw [h]; decide)]
  · rw [if_neg (mt hin.mp h), if_neg h]

theorem State.closeWindow_sum (s : State) :
    s.closeWindow.adoptionSum = (allGroups.map fun g =>
      if (s.group g).service = .inService then
        (s.group g).measured / (s.group g).resolution * (s.group g).resolution else 0).sum := by
  rw [State.adoptionSum, show s.closeWindow.firstOrder = _ from funext s.closeWindow_firstOrder]

end Close

theorem execAdoptWindowClose_eq {s : State} (h : s.line.state = some .adopting) :
    exec .adoptWindowClose s = .next s.begin.adoptClose := by
  have h' : s.begin.line.state = some .adopting := h
  change execAdoptWindowClose s = _
  unfold execAdoptWindowClose
  simp only [h']

/-! ### The line adopted (R23) -/

/-- The FAULT slot's writing leaves the SETPOINT slot and its mark. -/
theorem State.writeFaultClaim_setpoint (s : State) :
    s.writeFaultClaim.claims.setpoint = s.claims.setpoint ∧ s.writeFaultClaim.claims.adopted = s.claims.adopted := by
  unfold State.writeFaultClaim
  split <;> exact ⟨rfl, rfl⟩

theorem State.setLineState_setpoint (s : State) (new : LineState) (c : LineCause) :
    (s.setLineState new c).claims.setpoint = s.claims.setpoint ∧
      (s.setLineState new c).claims.adopted = s.claims.adopted := by
  have h : ((s.withLineState new c).crossAll (Eight.ofFn s.inSet)).claims = s.claims :=
    State.crossAll_keeps (s.withLineState new c) (Eight.ofFn s.inSet) .claims (by decide)
  rw [State.setLineState_eq]
  split
  · rw [← h]
    unfold State.settlePending
    split
    · exact State.writeFaultClaim_setpoint _
    · exact ⟨rfl, rfl⟩
  · rw [h]
    exact ⟨rfl, rfl⟩

section Adopt

variable (s : State) (sum : Nat)

theorem State.adoptOrders_group (h : Group) :
    (s.adoptOrders sum).group h = { s.group h with
      lastOrder := s.firstOrder h, blockFlag := (s.group h).service != .inService
      sequence := ((s.group h).sequence + 1) % 256 } :=
  State.sendAll_group (s.adoptSum sum) s.firstOrder (fun g => (s.group g).service != .inService) h

theorem State.adoptOrders_out :
    (s.adoptOrders sum).out = s.out ++ allGroups.map fun g =>
      Sent.order g (s.firstOrder g) ((s.group g).service != .inService) (((s.group g).sequence + 1) % 256) :=
  State.sendAll_out (s.adoptSum sum) s.firstOrder fun g => (s.group g).service != .inService

theorem State.adoptOrders_parts :
    (s.adoptOrders sum).line = { s.line with iCmd := min sum 60000 } ∧
      (s.adoptOrders sum).claims = (s.adoptSum sum).claims ∧ ∀ h : Group, (s.adoptOrders sum).cool h = s.cool h := by
  have hk := State.sendAll_keeps (s.adoptSum sum) s.firstOrder fun g => (s.group g).service != .inService
  exact ⟨hk .line (by decide), hk .claims (by decide), fun h => hk.cool (by decide) h⟩

theorem State.adoptOrders_noticed : s.noticed (s.adoptOrders sum) :=
  State.noticed_of_keeps (s.adoptOrders_keeps sum) (by decide)

end Adopt

theorem GroupRecord.crossing_false (r : GroupRecord) (a : Bool) : r.crossing false a = r := by cases a <;> rfl

section Adopted

variable {s : State} (h0 : s.line.state = some .adopting) (sum : Nat)
include h0

/-- No group is in the set while the line adopts. -/
theorem State.inSet_adopting (h : Group) : s.inSet h = false := by simp [State.inSet_eq, State.running, h0, LineState.running]

/-- The line as the close of the window and the adoption leave it (R23). -/
theorem State.adoptLine_line :
    (s.closeWindow.adoptLine sum).line = { s.line with
      adoptDeadline := none, iCmd := min sum 60000, state := some (s.closeWindow.adoptOrders sum).regulatingOrHold } := by
  rw [State.adoptLine_eq, State.setLineState_line, (s.closeWindow.adoptOrders_parts sum).1, State.closeWindow_line h0]

theorem State.adoptOrders_inSet (h : Group) : (s.closeWindow.adoptOrders sum).inSet h = false := by
  refine State.inSet_adopting ?_ h
  rw [(s.closeWindow.adoptOrders_parts sum).1, State.closeWindow_line h0]
  exact h0

theorem State.adoptLine_group (h : Group) :
    (s.closeWindow.adoptLine sum).group h = { (s.group h).classified with
      lastOrder := s.closeWindow.firstOrder h, blockFlag := (s.group h).classified.service != .inService
      sequence := ((s.group h).sequence + 1) % 256 } := by
  rw [State.adoptLine_eq, State.setLineState_group, State.adoptOrders_inSet h0, GroupRecord.crossing_false,
    State.adoptOrders_group, (s.closeWindow_unit h).1, (s.group h).classified_fields.1]

theorem State.adoptLine_cool (h : Group) :
    (s.closeWindow.adoptLine sum).cool h =
      ((s.cool h).classified (s.group h).strays).crossing (s.groupConfig h) s.timeBase false
        ((s.closeWindow.adoptLine sum).inSet h) := by
  have hk := State.keepsAllBut_trans (State.keepsAllBut_mono (m := responseParts) s.closeWindow_keeps (by simp))
    (State.keepsAllBut_mono (s.closeWindow.adoptOrders_keeps sum) (by simp [responseParts]))
  rw [State.adoptLine_eq, State.setLineState_cool, State.adoptOrders_inSet h0, (s.closeWindow.adoptOrders_parts sum).2.2,
    (s.closeWindow_unit h).2, hk.groupConfig (by decide), hk .timeBase (by decide)]

theorem State.adoptLine_out :
    (s.closeWindow.adoptLine sum).out = s.out ++ allGroups.map fun g =>
      Sent.order g ((s.closeWindow.adoptLine sum).group g).lastOrder ((s.closeWindow.adoptLine sum).group g).blockFlag
        (((s.group g).sequence + 1) % 256) := by
  have hg : ∀ g : Group, s.closeWindow.group g = (s.group g).classified := fun g => (s.closeWindow_unit g).1
  have hseq : ∀ g : Group, (s.group g).classified.sequence = (s.group g).sequence := fun g =>
    (s.group g).classified_fields.1
  simp only [State.adoptLine_group h0]
  rw [State.adoptLine_eq, State.setLineState_keeps _ _ _ .out (by decide), State.adoptOrders_out, State.closeWindow_out]
  simp only [hg, hseq]

/-- A group that enters the set with the adoption was selected, and GRACE follows (R68). -/
theorem State.adoptLine_graceFollows : s.graceFollows (s.closeWindow.adoptLine sum) := by
  intro h
  rw [State.inSet_adopting h0 h]
  refine ⟨fun _ ha => ?_, fun hb => (nomatch hb), fun hb => (nomatch hb)⟩
  have hin : (s.group h).strays = false := by
    rw [← Bool.not_eq_true]
    intro hs
    rw [State.inSet_eq, State.adoptLine_group h0, GroupRecord.classified, if_pos hs] at ha
    simp [ServiceState.member] at ha
  have hc := State.adoptLine_cool h0 sum h
  rw [ha, hin] at hc
  refine ⟨by rw [hc]; rfl, fun h1 h2 => ?_⟩
  have hcool : (s.closeWindow.adoptOrders sum).cool h = s.cool h := by
    rw [(s.closeWindow.adoptOrders_parts sum).2.2, (s.closeWindow_unit h).2, hin]
    rfl
  have hnoticed := State.noticed_trans s.closeWindow_noticed (s.closeWindow.adoptOrders_noticed sum)
  have hk := State.keepsAllBut_trans (State.keepsAllBut_mono (m := responseParts) s.closeWindow_keeps (by simp))
    (State.keepsAllBut_mono (s.closeWindow.adoptOrders_keeps sum) (by simp [responseParts]))
  have hear := (s.closeWindow.adoptOrders sum).setLineState_hearsGrace
    (s.closeWindow.adoptOrders sum).regulatingOrHold .adoption h (by rw [hcool]; exact h1) h2
  rw [hk.groupConfig (by decide)] at hear
  exact hear.since (hk .timeBase (by decide)) hnoticed.role

/-- The line holds exactly when an entry that stands carries HOLD (R4, R23). -/
theorem State.adoptLine_holds :
    (s.closeWindow.adoptLine sum).line.state = some .hold ↔ ∃ (id : FaultId) (c : Carried),
      ((s.closeWindow.adoptLine sum).entry id).state ≠ .clear ∧
        ((s.closeWindow.adoptLine sum).entry id).response = some c ∧ c.configured = .hold := by
  have hentry : ∀ id : FaultId,
      ((s.closeWindow.adoptLine sum).entry id).state = ((s.closeWindow.adoptOrders sum).entry id).state ∧
        ((s.closeWindow.adoptLine sum).entry id).response = ((s.closeWindow.adoptOrders sum).entry id).response :=
    fun id => by
      obtain ⟨h1, -, -, -, h2⟩ := (State.setLineState_entry (s.closeWindow.adoptOrders sum)
        (s.closeWindow.adoptOrders sum).regulatingOrHold .adoption id).fields
      exact ⟨h1, h2⟩
  simp only [(hentry _).1, (hentry _).2]
  rw [State.adoptLine_line h0, ← State.holdStands_iff, State.regulatingOrHold]
  split <;> simp_all

end Adopted

/-- What the adoption makes of one group (R9, R23). -/
theorem State.adoptLine_services {s : State} (h0 : s.line.state = some .adopting) (sum : Nat) (g : Group) :
    ((s.group g).service = .inService →
      ((s.closeWindow.adoptLine sum).group g).service = .inService ∧
      ((s.closeWindow.adoptLine sum).group g).blockFlag = false ∧
      ((s.closeWindow.adoptLine sum).group g).lastOrder =
        (s.group g).measured / (s.group g).resolution * (s.group g).resolution) ∧
    ((s.group g).service ≠ .inService →
      ((s.closeWindow.adoptLine sum).group g).blockFlag = true ∧
      ((s.closeWindow.adoptLine sum).group g).lastOrder = 0) ∧
    ((s.group g).service = .out → (s.group g).measured = 0 →
      ((s.closeWindow.adoptLine sum).group g).service = .out) ∧
    ((s.group g).service = .out → 0 < (s.group g).measured →
      ((s.closeWindow.adoptLine sum).group g).service = .removed ∧
      ((s.closeWindow.adoptLine sum).cool g).adoptionSource = true) ∧
    ((s.group g).service = .linkLost → ((s.closeWindow.adoptLine sum).group g).service = .linkLost) := by
  obtain ⟨-, -, hin, hkeep⟩ := (s.group g).classified_fields
  rw [State.adoptLine_group h0, State.closeWindow_firstOrder]
  refine ⟨fun h => ?_, fun h => ?_, fun h hm => ?_, fun h hm => ?_, fun h => ?_⟩
  · have hs := hin.mpr h
    exact ⟨hs, by simp [hs], if_pos h⟩
  · exact ⟨by simpa using mt hin.mp h, if_neg h⟩
  · have hs : (s.group g).strays = false := by simp [GroupRecord.strays, hm]
    simp [GroupRecord.classified, hs, h]
  · have hs : (s.group g).strays = true := (s.group g).strays_iff.mpr ⟨h, hm⟩
    refine ⟨by simp [GroupRecord.classified, hs], ?_⟩
    have hset : (s.closeWindow.adoptLine sum).inSet g = false := by
      rw [State.inSet_eq, State.adoptLine_group h0]
      simp [GroupRecord.classified, hs, ServiceState.member]
    rw [State.adoptLine_cool h0, hset, hs]
    rfl
  · simp [hkeep (by rw [h]; decide), h]

/-- The close of a window whose sum adopts no line brings it to STANDBY (R23). -/
theorem State.adoptClose_standby {s : State} (h0 : s.line.state = some .adopting) :
    let t := (s.closeWindow.enterBlocked .standby .adoption).capacityDeparture
    t.line.state = some .standby ∧ t.line.iCmd = 0 ∧ t.line.residual = 0 ∧ t.line.adoptDeadline = none ∧
      t.out = s.out ++ allGroups.map (fun g => Sent.order g 0 true (((s.group g).sequence + 1) % 256)) ∧
      ∀ g : Group, (t.group g).lastOrder = 0 ∧ (t.group g).blockFlag = true ∧
        ((s.group g).service = .inService → (t.group g).service = .inService) ∧
        ((s.group g).service = .out → 0 < (s.group g).measured → (t.group g).service = .removed) ∧
        ((s.group g).service = .out → (s.group g).measured = 0 → (t.group g).service = .out) := by
  intro t
  have hk := (s.closeWindow.enterBlocked .standby .adoption).capacityDeparture_keeps
  have hline : t.line = { s.line with
      adoptDeadline := none, state := some .standby, iCmd := 0, residual := 0, capacityShort := false } := by
    rw [State.capacityDeparture_line, State.enterBlocked_line, State.closeWindow_line h0]
  have hset : ∀ g : Group, s.closeWindow.inSet g = false := fun g =>
    State.inSet_adopting (by rw [State.closeWindow_line h0]; exact h0) g
  have hgroup : ∀ g : Group, t.group g = { (s.group g).classified.settled with
      lastOrder := 0, blockFlag := true, sequence := ((s.group g).sequence + 1) % 256 } := fun g => by
    rw [hk.group (by decide), State.enterBlocked_group rfl, hset, GroupRecord.crossing_same, (s.closeWindow_unit g).1,
      (s.group g).classified_fields.1]
  have hseq : ∀ g : Group, (s.closeWindow.group g).sequence = (s.group g).sequence := fun g => by
    rw [(s.closeWindow_unit g).1, (s.group g).classified_fields.1]
  rw [hline]
  refine ⟨rfl, rfl, rfl, rfl, ?_, fun g => ?_⟩
  · rw [hk .out (by decide), State.enterBlocked_out rfl, State.closeWindow_out]
    simp only [hseq]
  · rw [hgroup]
    obtain ⟨-, -, -, hkeep⟩ := (s.group g).classified_fields
    refine ⟨rfl, rfl, fun h => ?_, fun h hm => ?_, fun h hm => ?_⟩
    · simp [hkeep (by rw [h]; decide), GroupRecord.settled, h]
    · have hs : (s.group g).strays = true := (s.group g).strays_iff.mpr ⟨h, hm⟩
      simp [GroupRecord.classified, hs, GroupRecord.settled]
    · have hs : (s.group g).strays = false := by simp [GroupRecord.strays, hm]
      simp [GroupRecord.classified, hs, GroupRecord.settled, h]

/-- Settles O9: the groups are classified, and the sum of what the selected ones report adopts the line or brings it to STANDBY. -/
theorem adoptWindowCloseAdoptsOrStandsBy : Obligations.AdoptWindowCloseAdoptsOrStandsBy := by
  have hfloor : ∀ s : State, s.begin.closeWindow.config.floor = s.config.floor := fun s =>
    congrArg Configuration.floor (s.begin.closeWindow_keeps .config (by decide))
  constructor
  · intro s sum h0 hsum hpos hle
    have hb : s.begin.line.state = some .adopting := h0
    have hsum' : s.begin.closeWindow.adoptionSum = sum := (s.begin.closeWindow_sum).trans hsum.symm
    have heq : s.begin.adoptClose = s.begin.closeWindow.adoptLine sum := by
      simp only [State.adoptClose, hsum', hfloor, hpos, hle, and_self, if_true]
    have hclaims := State.setLineState_setpoint (s.begin.closeWindow.adoptOrders sum)
      (s.begin.closeWindow.adoptOrders sum).regulatingOrHold .adoption
    rw [(s.begin.closeWindow.adoptOrders_parts sum).2.1, ← State.adoptLine_eq] at hclaims
    refine ⟨_, execAdoptWindowClose_eq h0, ?_⟩
    rw [heq]
    refine ⟨?_, ?_, State.adoptLine_out hb sum, State.adoptLine_graceFollows hb sum, ?_, State.adoptLine_holds hb sum, ?_⟩
    · rw [State.adoptLine_line hb]
      exact Nat.min_comm _ _
    · rw [State.adoptLine_line hb]
    · rw [State.adoptLine_line hb]
      unfold State.regulatingOrHold
      split <;> simp
    · rw [hclaims.1, hclaims.2]
      exact ⟨rfl, Nat.min_comm _ _, rfl, rfl, State.adoptLine_services hb sum⟩
  · intro s sum h0 hsum hno
    have hb : s.begin.line.state = some .adopting := h0
    have hsum' : s.begin.closeWindow.adoptionSum = sum := (s.begin.closeWindow_sum).trans hsum.symm
    have heq : s.begin.adoptClose = (s.begin.closeWindow.enterBlocked .standby .adoption).capacityDeparture := by
      have hnot : ¬ (0 < sum ∧ s.config.floor ≤ sum) := by omega
      simp only [State.adoptClose, hsum', hfloor, hnot, if_false]
    refine ⟨_, execAdoptWindowClose_eq h0, ?_⟩
    rw [heq]
    exact State.adoptClose_standby hb

end Sys2Proof.Machine
end

