-- ==== Sys2Proof/Proofs/FrameSteps.lean ====
section
/-! What the steps that follow a status frame's link and tracking checks can do to the state: the responses of the fault unit
place notices, and every step leaves the other groups and the fault entries it does not name (R18, R61 to R78). -/

namespace Sys2Proof.Machine

/-! ### The notices of an onset (R159, R183) -/

section Noticed

variable (s : State)

theorem State.removeGroup_noticed (g : Group) : s.noticed (s.removeGroup g) := by
  have h : s.noticed ((s.endRamps g).setService g .removed .fault) := s.setService_noticed_after g _ _ _
  rw [State.removeGroup_eq]
  split
  · exact s.noticed_refl
  · simp only
    split
    · exact State.noticed_trans h (State.noticed_of_keeps (State.sendOrder_keeps _ _ _ _) (by decide))
    · exact h

theorem State.applyRemove_noticed (id : FaultId) (c : Carried) : s.noticed (s.applyRemove id c) := by
  unfold State.applyRemove
  split
  · split
    · exact s.removeGroup_noticed _
    · exact s.noticed_refl
  · exact s.noticed_refl

theorem State.enterTripped_noticed : s.noticed s.enterTripped :=
  State.noticed_trans State.enterBlocked_noticed (State.capacityDeparture_noticed _)

theorem State.tripLine_noticed : s.noticed s.tripLine := by
  unfold State.tripLine
  split
  · exact s.noticed_refl
  · exact s.noticed_refl
  · exact State.noticed_trans s.closeWindow_noticed (State.enterTripped_noticed _)
  all_goals exact s.enterTripped_noticed

theorem State.applyLine_noticed (id : FaultId) (before : EntryState) (a : Action) :
    s.noticed (s.applyLine State.tripLine id before a) := by
  cases a with
  | trip => exact s.tripLine_noticed
  | note | remove => exact s.noticed_refl
  | hold => exact (s.applyLine_unitsKept id before .hold).noticed
  | reduce => exact (s.applyLine_unitsKept id before .reduce).noticed

theorem State.onset_noticed (id : FaultId) (detail : Option Detail) : s.noticed (s.onset id detail) := by
  rw [State.onset, State.onsetWith_eq]
  split
  · exact State.noticed_of_ports rfl
  · rw [State.onsetSteps_eq, State.respond_eq]
    refine State.noticed_trans (State.noticed_of_keeps (s.beforeResponse_keeps id (s.entry id).state detail
      (s.stepOne id detail)) (by decide)) (State.noticed_trans ?_ (State.notify_noticed _ _))
    split
    · exact State.noticed_refl _
    · exact State.noticed_trans (State.applyRemove_noticed _ _ _) (State.applyLine_noticed _ _ _ _)

theorem State.conditionChange_noticed (id : FaultId) (before after : Bool) (detail : Option Detail) :
    s.noticed (s.conditionChange id before after detail) := by
  unfold State.conditionChange
  split
  · exact s.onset_noticed id detail
  · exact s.departure_noticed id
  all_goals exact s.noticed_refl

end Noticed

/-! ### Attending to group `g` -/

/-- The record of a group attended to: the last frame stays, the service state moves only as a response moves it, and the
tracking timer and the membership of the allocation set are only given up. -/
structure State.recordGivesUp (s t : State) (g : Group) : Prop where
  frame : (t.group g).lastFrame = (s.group g).lastFrame
  service : ((t.group g).service = (s.group g).service ∧ (t.group g).linkTimer = (s.group g).linkTimer) ∨
    (s.group g).service.rank < (t.group g).service.rank
  lost : (t.group g).service = .linkLost → (s.group g).service = .linkLost
  tracking : (t.group g).trackingTimer = (s.group g).trackingTimer ∨ (t.group g).trackingTimer = none
  inSet : t.inSet g = true → s.inSet g = true
  tracked : t.inSet g = true → (t.group g).trackingTimer = (s.group g).trackingTimer

theorem State.reacts.inSet {s t : State} {g : Group} (r : s.reacts t g) (h : t.inSet g = true) : s.inSet g = true := by
  cases hs : s.inSet g
  · exact absurd h (by rw [(r.outside hs).1]; decide)
  · rfl

theorem State.reacts.recordGivesUp {s t : State} {g : Group} (r : s.reacts t g) : s.recordGivesUp t g :=
  ⟨r.frame, r.service, r.lost, r.tracking, r.inSet, fun h => (r.stays h).1⟩

theorem State.recordGivesUp_of_eq {s t : State} {g : Group} (hg : t.group g = s.group g) (hset : t.inSet g = s.inSet g) :
    s.recordGivesUp t g := by
  refine ⟨?_, .inl ⟨?_, ?_⟩, ?_, .inl ?_, ?_, fun _ => ?_⟩
  all_goals first | rw [hg] | rw [hset]
  all_goals exact id

theorem State.recordGivesUp_trans {s t u : State} {g : Group} (h : s.recordGivesUp t g) (k : t.recordGivesUp u g) :
    s.recordGivesUp u g where
  frame := k.frame.trans h.frame
  service := by
    rcases h.service with ⟨h1, h2⟩ | h1 <;> rcases k.service with ⟨h3, h4⟩ | h3
    · exact .inl ⟨h3.trans h1, h4.trans h2⟩
    · exact .inr (h1 ▸ h3)
    · exact .inr (h3.symm ▸ h1)
    · exact .inr (h1.trans h3)
  lost := fun hu => h.lost (k.lost hu)
  tracking := by
    rcases k.tracking with h1 | h1
    · rw [h1]; exact h.tracking
    · exact .inr h1
  inSet := fun hu => h.inSet (k.inSet hu)
  tracked := fun hu => (k.tracked hu).trans (h.tracked (k.inSet hu))

/-- What a step taken for group `g` leaves beside that group's record and cooling: the parts no response reaches, the ports but
for notices, the other groups but for what responses do to them, and the fault entries of the group but those of the kinds
`ks`, reduce values aside. -/
structure State.besideKept (s t : State) (g : Group) (ks : List GroupKind) : Prop where
  keeps : s.keepsAllBut t responseParts
  noticed : s.noticed t
  others : ∀ h : Group, h ≠ g → s.reacts t h
  entries : ∀ k : GroupKind, k ∉ ks → (s.entry (.group k g)).sameButReduce (t.entry (.group k g))

/-- A step that only gives up parts of the group's record besides. -/
structure State.attends (s t : State) (g : Group) (ks : List GroupKind) : Prop extends beside : s.besideKept t g ks where
  record : s.recordGivesUp t g

section Attends

variable {s t u : State} {g : Group} {ks ls : List GroupKind}

theorem State.besideKept_trans (h : s.besideKept t g ks) (k : t.besideKept u g ls) : s.besideKept u g (ks ++ ls) where
  keeps := State.keepsAllBut_trans h.keeps k.keeps
  noticed := State.noticed_trans h.noticed k.noticed
  others := fun x hx => State.reacts_trans (h.others x hx) (k.others x hx)
  entries := fun x hx => Entry.sameButReduce_trans (h.entries x fun hm => hx (List.mem_append_left _ hm))
    (k.entries x fun hm => hx (List.mem_append_right _ hm))

theorem State.besideKept.mono (h : s.besideKept t g ks) (hl : ks ⊆ ls) : s.besideKept t g ls :=
  ⟨h.keeps, h.noticed, h.others, fun k hk => h.entries k fun hm => hk (hl hm)⟩

theorem State.besideKept.timeBase (h : s.besideKept t g ks) : t.timeBase = s.timeBase := h.keeps .timeBase (by decide)

theorem State.besideKept.config (h : s.besideKept t g ks) : t.config = s.config := h.keeps .config (by decide)

theorem State.besideKept.groupConfig (h : s.besideKept t g ks) (x : Group) : t.groupConfig x = s.groupConfig x :=
  h.keeps.groupConfig (by decide) x

/-- The responses an entry may take stay those its kind allows. -/
theorem State.besideKept.allowedAt (h : s.besideKept t g ks) {k : GroupKind} (hk : k ∉ ks)
    (ha : s.allowedAt (.group k g)) : t.allowedAt (.group k g) :=
  State.allowedAt_congr ha h.config (h.entries k hk).fields.2.2.2.2

theorem State.attends_trans (h : s.attends t g ks) (k : t.attends u g ls) : s.attends u g (ks ++ ls) where
  beside := State.besideKept_trans h.beside k.beside
  record := State.recordGivesUp_trans h.record k.record

theorem State.attends.mono (h : s.attends t g ks) (hl : ks ⊆ ls) : s.attends t g ls := ⟨h.beside.mono hl, h.record⟩

/-- A step within the cooling of group `g` alone, with notices. -/
theorem State.attends_cooling (hk : s.keepsAllBut t [.cooling, .ports]) (hn : s.noticed t)
    (hc : ∀ h : Group, h ≠ g → t.cool h = s.cool h) : s.attends t g [] where
  keeps := State.keepsAllBut_mono hk (by simp [responseParts])
  noticed := hn
  record := State.recordGivesUp_of_eq (hk.group (by decide) g) (hk.inSet (by decide) (by decide) g)
  others := fun h hh => State.reacts_of_eq (hk.group (by decide) h) (hc h hh) (hk.groupConfig (by decide) h)
    (hk.inSet (by decide) (by decide) h)
  entries := fun _ _ => Entry.sameButReduce_of_eq (hk.entry (by decide) _)

theorem State.attends_refl (s : State) (g : Group) : s.attends s g [] :=
  State.attends_cooling (s.keepsAllBut_refl _) s.noticed_refl fun _ _ => rfl

theorem State.modCool_attends (s : State) (g : Group) (f : GroupCooling → GroupCooling) : s.attends (s.modCool g f) g [] := by
  refine State.attends_cooling ?_ (State.noticed_of_ports rfl) fun h hh => State.cool_modCool_ne _ hh _
  intro p hp
  cases p <;> first | rfl | exact absurd (by simp) hp

theorem State.notify_attends (s : State) (b : NoticeBody) (g : Group) : s.attends (s.notify b) g [] :=
  State.attends_cooling (State.keepsAllBut_mono (s.notify_keeps b) (by simp)) (s.notify_noticed b) fun _ _ => rfl

theorem State.departure_attends (s : State) (k : GroupKind) (g : Group) :
    s.attends (s.departure (.group k g)) g [k] := by
  have hk := s.departure_keeps (.group k g)
  have hr := fun h => State.reacts_of_keeps hk (by decide) h
  exact ⟨⟨State.keepsAllBut_mono hk (by simp [responseParts]), s.departure_noticed _, fun h _ => hr h,
    fun x hx => Entry.sameButReduce_of_eq (s.departure_entry_ne (by simpa using hx))⟩, (hr g).recordGivesUp⟩

/-- A condition of the group handed to the fault unit: a TRIP may close the adopt window, which hands mismatches. -/
theorem State.conditionChange_attends (s : State) (k : GroupKind) (g : Group) (before after : Bool)
    (detail : Option Detail) : s.attends (s.conditionChange (.group k g) before after detail) g [k, .mismatch] where
  keeps := s.conditionChange_keeps _ _ _ _
  noticed := s.conditionChange_noticed _ _ _ _
  record := (s.conditionChange_reacts _ _ _ _ g).recordGivesUp
  others := fun h _ => s.conditionChange_reacts _ _ _ _ h
  entries := fun x hx => by
    obtain ⟨h1, h2⟩ : x ≠ k ∧ x ≠ .mismatch := by simpa using hx
    exact State.conditionChange_entry_ne _ _ _ (by simpa using h1) (.inl (FaultId.not_tripped_group h2 g))

end Attends

/-! ### The steps -/

section Steps

variable (s : State) (g : Group)

theorem State.recool_attends : s.attends (s.recool g) g [] := s.modCool_attends g _

theorem State.startGrace_attends : s.attends (s.startGrace g) g [] :=
  State.attends_trans (State.attends_trans (s.modCool_attends g _) (State.recool_attends _ g)) (State.notify_attends _ _ g)

/-- The sources of the mismatch condition after a valid frame, before a change is handed (R64). -/
def State.mismatchSources (current : Nat) : State :=
  let s1 := if (s.cool g).settled then s.modCool g fun c => c.testPattern (s.groupConfig g) else s
  if current = 0 then s1.modCool g fun c => { c with adoptionSource := false } else s1

theorem State.frameMismatch_eq (current : Nat) :
    s.frameMismatch g current = (s.mismatchSources g current).conditionChange (.group .mismatch g) (s.cool g).mismatched
      ((s.mismatchSources g current).cool g).mismatched
      (some (.mismatch ((s.mismatchSources g current).cool g).differing)) := rfl

theorem State.mismatchSources_attends (current : Nat) : s.attends (s.mismatchSources g current) g [] := by
  have h : s.attends (if (s.cool g).settled then s.modCool g fun c => c.testPattern (s.groupConfig g) else s) g [] := by
    split
    · exact s.modCool_attends g _
    · exact s.attends_refl g
  unfold State.mismatchSources
  simp only
  split
  · exact State.attends_trans h (State.modCool_attends _ g _)
  · exact h

theorem State.frameMismatch_attends (current : Nat) : s.attends (s.frameMismatch g current) g [.mismatch] :=
  (State.attends_trans (s.mismatchSources_attends g current) (State.conditionChange_attends _ .mismatch g _ _ _)).mono
    (by simp)

theorem State.protectionTest_attends : s.attends (s.protectionTest g) g [.protection, .mismatch] := by
  unfold State.protectionTest
  split
  · exact State.attends_trans (s.modCool_attends g _) (State.conditionChange_attends _ _ g _ _ _)
  · exact (s.attends_refl g).mono (by simp)

theorem State.pumpTest_attends : s.attends (s.pumpTest g) g [.coolingLost] := by
  have hself := (s.attends_refl g).mono (ls := [.coolingLost]) (by simp)
  unfold State.pumpTest
  split
  · split
    · split
      · exact (s.startGrace_attends g).mono (by simp)
      · exact hself
    · split
      · exact hself
      · exact (State.attends_trans (s.modCool_attends g _) (State.recool_attends _ g)).mono (by simp)
    · split
      · exact hself
      · exact State.attends_trans (State.attends_trans (s.modCool_attends g _) (State.departure_attends _ .coolingLost g))
          (State.recool_attends _ g)
  · exact hself

theorem State.takeTemperatures_attends (f : StatusFrame) : s.attends (s.takeTemperatures g f) g [] :=
  State.attends_trans (s.modCool_attends g _) (State.recool_attends _ g)

theorem State.warningTest_attends (outlet : Int) : s.attends (s.warningTest g outlet) g [] := by
  unfold State.warningTest
  split
  · exact State.attends_trans (s.modCool_attends g _) (State.notify_attends _ _ g)
  · exact s.attends_refl g

theorem State.overtempTest_attends (outlet : Int) : s.attends (s.overtempTest g outlet) g [.overtemp, .mismatch] :=
  State.attends_trans (s.modCool_attends g _) (State.conditionChange_attends _ .overtemp g _ _ _)

end Steps

end Sys2Proof.Machine
end

