-- ==== Sys2Proof/Proofs/FrameCooling.lean ====
section
/-! What a status frame makes of its group's inputs and cooling, apart from what the fault responses can also change: the
pump-loss state with its timer, the ceiling and the adoption source (R61 to R67, R72, R75 to R78). -/

namespace Sys2Proof.Machine

/-! ### The tests as functions of one group's cooling -/

namespace GroupCooling

/-- The part of a group's cooling that no fault response touches. -/
def core (c : GroupCooling) : GroupCooling :=
  { c with pumpLoss := .none, graceTimer := none, ceiling := 0, adoptionSource := false }

/-- The pattern test of a settled group (R63). -/
def patternTested (c : GroupCooling) (gc : GroupConfig) : GroupCooling := if c.settled then c.testPattern gc else c

/-- The trip test of a settled group (R66, R67). -/
def protectionTested (c : GroupCooling) (gc : GroupConfig) : GroupCooling :=
  { c with protection := if c.settled then activeTrips gc c != 0 else c.protection }

/-- The temperatures of a frame taken (R72, R75). -/
def temperaturesTaken (c : GroupCooling) (cfg : Configuration) (f : StatusFrame) : GroupCooling :=
  { c.derateStep cfg.derate cfg.derateHysteresis f.outlet with
    lastTemps := some { outlet := f.outlet, inlet := f.inlet, flow := f.flow }
    clearLevel := cfg.warnThreshold - (cfg.alarmHysteresis : Int) }

/-- The warning latch after a frame (R76). -/
def warned (c : GroupCooling) (cfg : Configuration) (outlet : Int) : GroupCooling :=
  { c with warning := c.warning || decide (cfg.warnThreshold ≤ outlet) }

/-- Overtemperature after a frame (R78). -/
def overtempTested (c : GroupCooling) (cfg : Configuration) (outlet : Int) : GroupCooling :=
  { c with overtemp := overtempAfter c.overtemp outlet cfg.tripThreshold cfg.alarmHysteresis }

/-- The inputs of a group filtered by a frame (R61). -/
def filtered (c : GroupCooling) (gc : GroupConfig) (f : StatusFrame) : GroupCooling :=
  { c with inputs := filterInputs c.inputs gc.filterCounts f }

section Core

variable (c : GroupCooling) (cfg : Configuration) (gc : GroupConfig) (f : StatusFrame) (outlet : Int)

@[simp] theorem settled_core : c.core.settled = c.settled := rfl

theorem patternTested_core : (c.patternTested gc).core = c.core.patternTested gc := by
  unfold patternTested
  rw [settled_core]
  split <;> rfl

/-- The derate step reads the derate alone. -/
theorem derateStep_congr {c d : GroupCooling} (table : Eight (Int × Nat)) (h : Nat) (hg : c.governing = d.governing)
    (hp : c.percent = d.percent) :
    (c.derateStep table h outlet).governing = (d.derateStep table h outlet).governing ∧
      (c.derateStep table h outlet).percent = (d.derateStep table h outlet).percent := by
  unfold derateStep
  simp only [hg, hp]
  split_ifs
  · exact ⟨rfl, rfl⟩
  · exact ⟨rfl, rfl⟩
  · exact ⟨hg, hp⟩

theorem derateStep_core (table : Eight (Int × Nat)) (h : Nat) :
    (c.derateStep table h outlet).core = c.core.derateStep table h outlet := by
  obtain ⟨hg, hp⟩ := derateStep_congr outlet table h (c := c.core) (d := c) rfl rfl
  rw [c.derateStep_frame, c.core.derateStep_frame, hg, hp]
  rfl

theorem temperaturesTaken_core : (c.temperaturesTaken cfg f).core = c.core.temperaturesTaken cfg f := by
  unfold temperaturesTaken
  rw [← derateStep_core]
  rfl

end Core

end GroupCooling

/-! ### The steps of a frame on the core -/

section Steps

variable (s : State) (g : Group)

theorem State.reacts.core {s t : State} {g : Group} (r : s.reacts t g) : (t.cool g).core = (s.cool g).core := by
  rw [r.cool]
  rfl

theorem State.recool_core : ((s.recool g).cool g).core = (s.cool g).core := by
  rw [State.cool_recool]
  rfl

theorem State.departure_core (id : FaultId) : ((s.departure id).cool g).core = (s.cool g).core :=
  congrArg GroupCooling.core ((s.departure_keeps id).cool (by decide) g)

theorem State.mismatchSources_core (current : Nat) :
    ((s.mismatchSources g current).cool g).core = (s.cool g).core.patternTested (s.groupConfig g) := by
  rw [← GroupCooling.patternTested_core]
  have h : ((if (s.cool g).settled then s.modCool g fun c => c.testPattern (s.groupConfig g) else s).cool g) =
      (s.cool g).patternTested (s.groupConfig g) := by
    unfold GroupCooling.patternTested
    split <;> simp
  unfold State.mismatchSources
  simp only
  split
  · rw [State.cool_modCool_self, h]
    rfl
  · rw [h]

theorem State.frameMismatch_core (current : Nat) :
    ((s.frameMismatch g current).cool g).core = (s.cool g).core.patternTested (s.groupConfig g) := by
  rw [State.frameMismatch_eq, (State.conditionChange_reacts _ _ _ _ _ g).core, State.mismatchSources_core]

theorem State.protectionTest_core :
    ((s.protectionTest g).cool g).core = (s.cool g).core.protectionTested (s.groupConfig g) := by
  unfold State.protectionTest GroupCooling.protectionTested
  rw [GroupCooling.settled_core]
  split
  · rw [(State.conditionChange_reacts _ _ _ _ _ g).core, State.cool_modCool_self]
    rfl
  · rfl

theorem State.startGrace_core : ((s.startGrace g).cool g).core = (s.cool g).core := by
  unfold State.startGrace
  rw [State.cool_notify, State.recool_core, State.cool_modCool_self]
  rfl

theorem State.pumpTest_core : ((s.pumpTest g).cool g).core = (s.cool g).core := by
  unfold State.pumpTest
  split
  · split
    · split
      · exact s.startGrace_core g
      · rfl
    · split
      · rfl
      · rw [State.recool_core, State.cool_modCool_self]; rfl
    · split
      · rfl
      · rw [State.recool_core, State.departure_core, State.cool_modCool_self]; rfl
  · rfl

theorem State.takeTemperatures_core (f : StatusFrame) :
    ((s.takeTemperatures g f).cool g).core = (s.cool g).core.temperaturesTaken s.config f := by
  unfold State.takeTemperatures
  rw [State.recool_core, State.cool_modCool_self, ← GroupCooling.temperaturesTaken_core]
  rfl

theorem State.warningTest_cool (outlet : Int) :
    (s.warningTest g outlet).cool g = (s.cool g).warned s.config outlet := by
  unfold State.warningTest GroupCooling.warned
  split
  · next h => simp [h.2]
  · next h =>
    have hkept : ((s.cool g).warning || decide (s.config.warnThreshold ≤ outlet)) = (s.cool g).warning := by
      cases hw : (s.cool g).warning <;> simp_all
    rw [hkept]

theorem State.overtempTest_core (outlet : Int) :
    ((s.overtempTest g outlet).cool g).core = (s.cool g).core.overtempTested s.config outlet := by
  unfold State.overtempTest
  rw [(State.conditionChange_reacts _ _ _ _ _ g).core, State.cool_modCool_self]
  rfl

end Steps

end Sys2Proof.Machine
end

