-- ==== Sys2Proof/Proofs/FrameReactions.lean ====
section
/-! What the steps of a status frame make of the cooling that the fault responses can also change: the pump-loss state with its
timer, the ceiling and the adoption source (R64, R68 to R70, R73). -/

namespace Sys2Proof.Machine

/-! ### The pump-loss state and the grace timer (R68, R69) -/

/-- The pump-loss state with its grace timer. -/
def GroupCooling.loss (c : GroupCooling) : PumpLoss × Option Nat := (c.pumpLoss, c.graceTimer)

/-- What leaving the allocation set makes of them (R69). -/
def lossLeft (l : PumpLoss × Option Nat) : PumpLoss × Option Nat := if l.1 = .grace then (.none, none) else l

/-- Group `g` at most leaves the allocation set, and its pump-loss state changes only so. -/
structure State.lossFollows (s t : State) (g : Group) : Prop where
  inSet : t.inSet g = true → s.inSet g = true
  loss : (t.cool g).loss = if s.inSet g = true ∧ t.inSet g = false then lossLeft (s.cool g).loss else (s.cool g).loss

section Loss

variable {s t u : State} {g : Group}

theorem State.lossFollows_of_eq (hset : t.inSet g = s.inSet g) (hloss : (t.cool g).loss = (s.cool g).loss) :
    s.lossFollows t g := by
  refine ⟨fun h => hset ▸ h, ?_⟩
  rw [hset, hloss]
  cases s.inSet g <;> rfl

theorem State.lossFollows_refl (s : State) (g : Group) : s.lossFollows s g := State.lossFollows_of_eq rfl rfl

theorem State.lossFollows_trans (h : s.lossFollows t g) (k : t.lossFollows u g) : s.lossFollows u g := by
  refine ⟨fun hu => h.inSet (k.inSet hu), ?_⟩
  rw [k.loss, h.loss]
  have h1 := h.inSet
  have h2 := k.inSet
  cases hs : s.inSet g <;> cases ht : t.inSet g <;> cases hu : u.inSet g <;> simp_all [lossLeft]

theorem State.lossFollows.stays (h : s.lossFollows t g) (ht : t.inSet g = true) : (t.cool g).loss = (s.cool g).loss := by
  rw [h.loss, if_neg (by simp [ht])]

/-- A loss that is not a GRACE stays. -/
theorem State.lossFollows.kept (h : s.lossFollows t g) (hs : (s.cool g).pumpLoss ≠ .grace) :
    (t.cool g).loss = (s.cool g).loss := by
  rw [h.loss, lossLeft, if_neg (show ¬ (s.cool g).loss.1 = .grace from hs), ite_self]

theorem GroupCooling.loss_of_pump {c d : GroupCooling} (h : c.pump = d.pump) : c.loss = d.loss := by
  simp only [GroupCooling.pump, Prod.mk.injEq] at h
  simp only [GroupCooling.loss, Prod.mk.injEq]
  exact ⟨h.1, h.2.1⟩

theorem GroupCooling.loss_leaving (c : GroupCooling) (gc : GroupConfig) : (c.leaving gc).loss = lossLeft c.loss := by
  by_cases h : c.pumpLoss = .grace <;> simp [GroupCooling.leaving, lossLeft, GroupCooling.loss, h]

theorem State.reacts.lossFollows (r : s.reacts t g) : s.lossFollows t g := by
  refine ⟨r.inSet, ?_⟩
  cases hs : s.inSet g
  · exact GroupCooling.loss_of_pump (r.outside hs).2
  · cases ht : t.inSet g
    · exact (GroupCooling.loss_of_pump (r.left hs ht).2).trans (GroupCooling.loss_leaving _ _)
    · exact GroupCooling.loss_of_pump (r.stays ht).2

theorem State.modCool_lossFollows (s : State) (g : Group) {f : GroupCooling → GroupCooling}
    (hf : (f (s.cool g)).loss = (s.cool g).loss) : s.lossFollows (s.modCool g f) g :=
  State.lossFollows_of_eq rfl (by rw [State.cool_modCool_self, hf])

end Loss

section Steps

variable (s : State) (g : Group)

theorem State.mismatchSources_loss (current : Nat) : ((s.mismatchSources g current).cool g).loss = (s.cool g).loss := by
  have h : ((if (s.cool g).settled then s.modCool g fun c => c.testPattern (s.groupConfig g) else s).cool g).loss =
      (s.cool g).loss := by
    split
    · rw [State.cool_modCool_self]; rfl
    · rfl
  unfold State.mismatchSources
  simp only
  split
  · rw [State.cool_modCool_self]; exact h
  · exact h

theorem State.mismatchSources_inSet (current : Nat) (h : Group) : (s.mismatchSources g current).inSet h = s.inSet h := by
  unfold State.mismatchSources
  simp only
  split <;> split <;> rfl

theorem State.frameMismatch_lossFollows (current : Nat) : s.lossFollows (s.frameMismatch g current) g :=
  State.lossFollows_trans
    (State.lossFollows_of_eq (s.mismatchSources_inSet g current g) (s.mismatchSources_loss g current))
    (State.conditionChange_reacts _ _ _ _ _ g).lossFollows

theorem State.protectionTest_lossFollows : s.lossFollows (s.protectionTest g) g := by
  unfold State.protectionTest
  split
  · exact State.lossFollows_trans (s.modCool_lossFollows g rfl) (State.conditionChange_reacts _ _ _ _ _ g).lossFollows
  · exact s.lossFollows_refl g

theorem GroupCooling.temperaturesTaken_loss (c : GroupCooling) (cfg : Configuration) (f : StatusFrame) :
    (c.temperaturesTaken cfg f).loss = c.loss := by
  unfold GroupCooling.temperaturesTaken
  rw [GroupCooling.derateStep_frame]
  rfl

theorem State.takeTemperatures_eq (f : StatusFrame) :
    s.takeTemperatures g f = (s.modCool g fun c => c.temperaturesTaken s.config f).recool g := rfl

theorem State.recool_lossFollows : s.lossFollows (s.recool g) g := s.modCool_lossFollows g rfl

theorem State.takeTemperatures_lossFollows (f : StatusFrame) : s.lossFollows (s.takeTemperatures g f) g := by
  rw [State.takeTemperatures_eq]
  exact State.lossFollows_trans (s.modCool_lossFollows g (GroupCooling.temperaturesTaken_loss _ _ _))
    (State.recool_lossFollows _ g)

theorem State.warningTest_lossFollows (outlet : Int) : s.lossFollows (s.warningTest g outlet) g := by
  refine State.lossFollows_of_eq ?_ (by rw [State.warningTest_cool]; rfl)
  unfold State.warningTest
  split <;> rfl

theorem State.overtempTest_lossFollows (outlet : Int) : s.lossFollows (s.overtempTest g outlet) g :=
  State.lossFollows_trans (s.modCool_lossFollows g rfl) (State.conditionChange_reacts _ _ _ _ _ g).lossFollows

theorem State.superviseFrame_lossFollows (f : StatusFrame) : s.lossFollows (s.superviseFrame g f) g :=
  State.lossFollows_trans (s.takeTemperatures_lossFollows g f)
    (State.lossFollows_trans (State.warningTest_lossFollows _ g f.outlet) (State.overtempTest_lossFollows _ g f.outlet))

end Steps

/-! ### The pump test (R68 to R70) -/

section PumpTest

variable (s : State) (g : Group)

theorem State.pumpTest_inSet (h : Group) : (s.pumpTest g).inSet h = s.inSet h := by
  unfold State.pumpTest
  split
  · split
    · split <;> rfl
    · split <;> rfl
    · split
      · rfl
      · exact (State.departure_keeps (s.modCool g fun c => { c with pumpLoss := .none }) _).inSet (by decide) (by decide) h
  · rfl

variable {s g}

theorem State.pumpTest_loss_none (h : (s.cool g).pumpLoss = .none) :
    ((s.pumpTest g).cool g).loss =
      if (s.cool g).settled = true ∧ s.inSet g = true ∧ (s.cool g).bothLost = true then
        (.grace, some (s.timeBase + (s.groupConfig g).graceTime * 1000))
      else (s.cool g).loss := by
  unfold State.pumpTest
  simp only [h]
  by_cases hs : (s.cool g).settled = true
  · simp only [hs, if_true, true_and]
    split
    · simp [State.startGrace, GroupCooling.loss]
    · rfl
  · simp [hs]

theorem State.pumpTest_hears (h : (s.cool g).pumpLoss = .none) (hs : (s.cool g).settled = true)
    (hin : s.inSet g = true) (hb : (s.cool g).bothLost = true) :
    s.hears (s.pumpTest g) (.warningPumpLoss g (s.groupConfig g).graceTime) := by
  have heq : s.pumpTest g = s.startGrace g := by simp [State.pumpTest, h, hs, hin, hb]
  rw [heq]
  exact (State.hears_notify _ _).since rfl fun _ => rfl

theorem State.pumpTest_loss_grace (h : (s.cool g).pumpLoss = .grace) :
    ((s.pumpTest g).cool g).loss =
      if (s.cool g).settled = true ∧ (s.cool g).bothLost = false then (.none, none) else (s.cool g).loss := by
  unfold State.pumpTest
  simp only [h]
  by_cases hs : (s.cool g).settled = true <;> by_cases hb : (s.cool g).bothLost = true <;>
    simp [hs, hb, GroupCooling.loss]

/-- A pump that runs again ends EXPIRED, and with it COOLING_LOST (R70). -/
theorem State.pumpTest_expired (h : (s.cool g).pumpLoss = .expired) :
    ((s.pumpTest g).cool g).pumpLoss =
        (if (s.cool g).settled = true ∧ (s.cool g).bothLost = false then .none else .expired) ∧
      s.handed (s.pumpTest g) (.group .coolingLost g) true (((s.pumpTest g).cool g).pumpLoss == .expired) none := by
  by_cases hend : (s.cool g).settled = true ∧ (s.cool g).bothLost = false
  · have heq : s.pumpTest g =
        ((s.modCool g fun c => { c with pumpLoss := .none }).conditionChange (.group .coolingLost g) true false
          none).recool g := by
      simp [State.pumpTest, h, hend.1, hend.2, State.conditionChange]
    have hc : ((s.pumpTest g).cool g).pumpLoss = .none := by
      rw [heq, State.cool_recool]
      exact (congrArg GroupCooling.pumpLoss ((State.departure_keeps _ _).cool (by decide) g)).trans (by simp)
    rw [if_pos hend, hc]
    refine ⟨rfl, ?_⟩
    rw [heq]
    exact (State.conditionChange_handed true false none (.inl (FaultId.not_tripped_group (k := .coolingLost) (by decide) g)))
  · have heq : s.pumpTest g = s := by
      by_cases hs : (s.cool g).settled = true <;> simp_all [State.pumpTest]
    rw [if_neg hend, heq, h]
    exact ⟨rfl, fun hb => (nomatch hb), fun _ ha => (nomatch ha), fun _ => ⟨rfl, rfl⟩⟩

end PumpTest

section PumpTested

variable {s d t : State} {g : Group} (hbefore : s.lossFollows d g) (hafter : (d.pumpTest g).lossFollows t g)
include hbefore hafter

/-- From NONE a loss of both pumps of a settled group in the set leads to GRACE, and nothing else does (R68). -/
theorem State.pumpTested_of_none (h : (s.cool g).pumpLoss = .none) :
    (t.inSet g = true → (d.cool g).settled = true → (d.cool g).bothLost = true →
      (t.cool g).pumpLoss = .grace ∧ (t.cool g).graceTimer = some (d.timeBase + (d.groupConfig g).graceTime * 1000) ∧
      d.hears (d.pumpTest g) (.warningPumpLoss g (d.groupConfig g).graceTime)) ∧
    (t.inSet g = false ∨ (d.cool g).settled = false ∨ (d.cool g).bothLost = false → (t.cool g).pumpLoss = .none) := by
  have hd : (d.cool g).pumpLoss = .none :=
    (congrArg Prod.fst (hbefore.kept (by rw [h]; decide))).trans h
  have hloss := State.pumpTest_loss_none hd
  refine ⟨fun hin hs hb => ?_, fun hout => ?_⟩
  · have hin' : d.inSet g = true := by rw [← d.pumpTest_inSet g g]; exact hafter.inSet hin
    rw [if_pos ⟨hs, hin', hb⟩] at hloss
    obtain ⟨h1, h2⟩ := Prod.mk.inj ((hafter.stays hin).trans hloss)
    exact ⟨h1, h2, State.pumpTest_hears hd hs hin' hb⟩
  · by_cases hstart : (d.cool g).settled = true ∧ d.inSet g = true ∧ (d.cool g).bothLost = true
    · rw [if_pos hstart] at hloss
      obtain ⟨hs, hin, hb⟩ := hstart
      have hleft : t.inSet g = false := by simpa [hs, hb] using hout
      have hfinal := hafter.loss
      rw [if_pos ⟨(d.pumpTest_inSet g g).trans hin, hleft⟩, hloss] at hfinal
      exact congrArg Prod.fst hfinal
    · rw [if_neg hstart] at hloss
      have hnone : ((d.pumpTest g).cool g).pumpLoss = .none := (congrArg Prod.fst hloss).trans hd
      exact (congrArg Prod.fst (hafter.kept (by rw [hnone]; decide))).trans hnone

/-- From GRACE a pump that runs leads back to NONE, and the group stays in GRACE otherwise while it is in the set (R69). -/
theorem State.pumpTested_of_grace (h : (s.cool g).pumpLoss = .grace) :
    ((d.cool g).settled = true → (d.cool g).bothLost = false →
      (t.cool g).pumpLoss = .none ∧ (t.cool g).graceTimer = none) ∧
    (t.inSet g = true → (d.cool g).settled = false ∨ (d.cool g).bothLost = true →
      (t.cool g).pumpLoss = .grace ∧ (t.cool g).graceTimer = (s.cool g).graceTimer) := by
  refine ⟨fun hs hb => ?_, fun hin hor => ?_⟩
  · have hnone : ((d.pumpTest g).cool g).loss = (.none, none) := by
      have hd := hbefore.loss
      rw [lossLeft, if_pos (show (s.cool g).loss.1 = .grace from h)] at hd
      split at hd
      · have h0 : (d.cool g).pumpLoss = .none := congrArg Prod.fst hd
        rw [State.pumpTest_loss_none h0, if_neg (by simp [hb]), hd]
      · rw [State.pumpTest_loss_grace ((congrArg Prod.fst hd).trans h), if_pos ⟨hs, hb⟩]
    exact Prod.mk.inj ((hafter.kept (by rw [show ((d.pumpTest g).cool g).pumpLoss = .none from congrArg Prod.fst hnone]
                                        decide)).trans hnone)
  · have hin' : d.inSet g = true := by rw [← d.pumpTest_inSet g g]; exact hafter.inSet hin
    have hd := hbefore.stays hin'
    have hloss := State.pumpTest_loss_grace ((congrArg Prod.fst hd).trans h)
    rw [if_neg (by rcases hor with ho | ho <;> simp [ho])] at hloss
    obtain ⟨h1, h2⟩ := Prod.mk.inj ((hafter.stays hin).trans (hloss.trans hd))
    exact ⟨h1.trans h, h2⟩

/-- From EXPIRED the pump test alone decides. -/
theorem State.pumpTested_of_expired (h : (s.cool g).pumpLoss = .expired) :
    (d.cool g).pumpLoss = .expired ∧ (t.cool g).pumpLoss = ((d.pumpTest g).cool g).pumpLoss := by
  have hd : (d.cool g).pumpLoss = .expired :=
    (congrArg Prod.fst (hbefore.kept (by rw [h]; decide))).trans h
  refine ⟨hd, congrArg Prod.fst (hafter.kept ?_)⟩
  rw [(State.pumpTest_expired hd).1]
  split <;> decide

end PumpTested

end Sys2Proof.Machine
end

