-- ==== Sys2Proof/Proofs/FrameMismatch.lean ====
section
/-! The mismatch condition of a group while the rest of a status frame is taken: a forced REMOVE keeps the close of the adopt window
from it, and the other steps do not touch its sources (R15, R23, R64, R158). The cooling ceiling stays formed (R73). -/

namespace Sys2Proof.Machine

/-! ### What no step after the mismatch test touches -/

/-- The adoption source of group `g` is kept, and its mismatch entry but for the reduce value. -/
structure State.spares (s t : State) (g : Group) : Prop where
  adoption : (t.cool g).adoptionSource = (s.cool g).adoptionSource
  mismatch : (s.entry (.group .mismatch g)).sameButReduce (t.entry (.group .mismatch g))

section Spares

variable {s t u : State} {g : Group}

theorem State.spares_trans (h : s.spares t g) (k : t.spares u g) : s.spares u g :=
  ⟨k.adoption.trans h.adoption, Entry.sameButReduce_trans h.mismatch k.mismatch⟩

theorem State.spares_refl (s : State) (g : Group) : s.spares s g := ⟨rfl, Entry.sameButReduce_refl _⟩

theorem State.spares_of_keeps {l : List Part} (h : s.keepsAllBut t l) (hl : Part.cooling ∉ l ∧ Part.faults ∉ l) (g : Group) :
    s.spares t g := ⟨by rw [h.cool hl.1], Entry.sameButReduce_of_eq (h.entry hl.2 _)⟩

theorem State.modCool_spares (s : State) (g : Group) {f : GroupCooling → GroupCooling}
    (hf : (f (s.cool g)).adoptionSource = (s.cool g).adoptionSource) : s.spares (s.modCool g f) g :=
  ⟨by rw [State.cool_modCool_self, hf], Entry.sameButReduce_refl _⟩

theorem State.departure_spares (s : State) {k : GroupKind} (hk : k ≠ .mismatch) (g : Group) :
    s.spares (s.departure (.group k g)) g :=
  ⟨by rw [(s.departure_keeps _).cool (by decide)],
    Entry.sameButReduce_of_eq (s.departure_entry_ne (by simpa using Ne.symm hk))⟩

/-! ### Onsets whose kind forces REMOVE (R158) -/

theorem GroupCooling.crossing_adoptionSource (c : GroupCooling) (gc : GroupConfig) (now : Nat) (before after : Bool) :
    (c.crossing gc now before after).adoptionSource = c.adoptionSource := by
  unfold GroupCooling.crossing
  split
  · unfold GroupCooling.entering; split <;> rfl
  · unfold GroupCooling.leaving; split <;> rfl
  all_goals rfl

theorem State.removeGroup_spares (s : State) (g : Group) : s.spares (s.removeGroup g) g := by
  refine ⟨?_, Entry.sameButReduce_of_eq ((s.removeGroup_keeps_faults g).entry (by decide) _)⟩
  have h : (((s.endRamps g).setService g .removed .fault).cool g).adoptionSource = (s.cool g).adoptionSource := by
    rw [State.setService_cool_self, GroupCooling.crossing_adoptionSource]
    rfl
  rw [State.removeGroup_eq]
  split
  · rfl
  · simp only
    split <;> exact h

/-- The close of the adopt window passes over a group that is not in OUT. -/
theorem State.closeWindow_entry (s : State) (h : 3 ≤ (s.group g).service.rank) :
    (s.entry (.group .mismatch g)).sameButReduce (s.closeWindow.entry (.group .mismatch g)) := by
  have hkept := State.eachGroup_kept (f := State.classifyGroup) (fun t => 3 ≤ (t.group g).service.rank ∧
    (s.entry (.group .mismatch g)).sameButReduce (t.entry (.group .mismatch g))) ?_
    (s := { s with line := { s.line with adoptDeadline := none } }) ⟨h, Entry.sameButReduce_refl _⟩
  · exact hkept.2
  rintro t x ⟨hrank, hentry⟩
  refine ⟨?_, Entry.sameButReduce_trans hentry ?_⟩
  · rcases (t.classifyGroup_reacts x g).service with ⟨h1, -⟩ | h1
    · rw [h1]; exact hrank
    · omega
  · by_cases hx : x = g
    · subst hx
      have hout : (t.group x).service ≠ .out := fun ho => by rw [ho] at hrank; exact absurd hrank (by decide)
      rw [State.classifyGroup, if_neg fun hc => hout hc.1]
      exact Entry.sameButReduce_refl _
    · exact t.classifyGroup_entry x (by simpa using Ne.symm hx)

theorem State.tripLine_spares (s : State) (h : 3 ≤ (s.group g).service.rank) : s.spares s.tripLine g := by
  refine ⟨(s.tripLine_reacts g).adoption h, ?_⟩
  have hcap : (FaultId.group .mismatch g) ≠ .line .capacityShort := by simp
  unfold State.tripLine
  split
  · exact Entry.sameButReduce_refl _
  · exact Entry.sameButReduce_refl _
  · rw [State.enterTripped_entry _ hcap]; exact s.closeWindow_entry h
  all_goals exact Entry.sameButReduce_of_eq (s.enterTripped_entry hcap)

theorem State.applyLine_spares (s : State) (id : FaultId) (before : EntryState) (a : Action)
    (h : 3 ≤ (s.group g).service.rank) : s.spares (s.applyLine State.tripLine id before a) g := by
  cases a with
  | trip => exact s.tripLine_spares h
  | note | remove => exact s.spares_refl g
  | hold => exact ⟨(s.holdLine_reacts g).adoption h, s.holdLine_entry _⟩
  | reduce =>
    exact ⟨congrArg GroupCooling.adoptionSource ((s.reduceLine_keeps_groups id before).cool (by decide) g),
      s.reduceLine_entry id before _⟩

/-- A kind that forces REMOVE takes its group out of the reach of the adopt window before it can trip the line. -/
theorem State.onset_spares {k : GroupKind} (hk : (FaultKind.group k).forcesRemove = true)
    (h : s.allowedAt (.group k g)) (detail : Option Detail) : s.spares (s.onset (.group k g) detail) g := by
  have hne : (FaultId.group .mismatch g) ≠ .group k g := by
    rintro heq
    cases heq
    cases hk
  rw [State.onset, State.onsetWith_eq]
  split
  · exact ⟨rfl, Entry.sameButReduce_of_eq (s.entry_setEntry_ne hne _)⟩
  · rw [State.onsetSteps_eq, State.respond_eq, State.beforeResponse_entry_self]
    have hbefore : s.spares (s.beforeResponse (.group k g) (s.entry (.group k g)).state detail
        (s.stepOne (.group k g) detail)) g :=
      ⟨by rw [(s.beforeResponse_keeps _ _ _ _).cool (by decide)],
        Entry.sameButReduce_of_eq (State.beforeResponse_entry_ne _ hne _ _ _)⟩
    refine State.spares_trans hbefore (State.spares_trans ?_ (State.spares_of_keeps (State.noteOnset_keeps _ _ _ _)
      (by decide) g))
    cases hc : (s.stepOne (.group k g) detail).response with
    | none => exact State.spares_refl _ g
    | some c =>
      have hforced : c.names .remove = true :=
        (Carried.names_remove c).2 (.inr ((State.stepOne_allowed detail h hc).2.trans hk))
      have hremove : ∀ b : State, b.applyRemove (.group k g) c = b.removeGroup g := fun b => by
        simp [State.applyRemove, hforced]
      simp only [hremove]
      exact State.spares_trans (State.removeGroup_spares _ g)
        (State.applyLine_spares _ _ _ _ (State.removeGroup_rank _ g))

theorem State.conditionChange_spares {k : GroupKind} (hk : (FaultKind.group k).forcesRemove = true)
    (h : s.allowedAt (.group k g)) (before after : Bool) (detail : Option Detail) :
    s.spares (s.conditionChange (.group k g) before after detail) g := by
  unfold State.conditionChange
  split
  · exact State.onset_spares hk h detail
  · exact s.departure_spares (by rintro rfl; cases hk) g
  all_goals exact s.spares_refl g

/-! ### The mismatch test itself (R64) -/

/-- An onset that cannot trip the line leaves the adoption source of its group. -/
theorem State.onsetWith_adoption (s : State) {k : GroupKind} (detail : Option Detail) :
    ((s.onsetWith (fun t => t) (.group k g) detail).cool g).adoptionSource = (s.cool g).adoptionSource := by
  have hremove : ∀ (b : State) (c : Carried), ((b.applyRemove (.group k g) c).cool g).adoptionSource =
      (b.cool g).adoptionSource := fun b c => by
    unfold State.applyRemove
    simp only
    split
    · exact (b.removeGroup_spares g).adoption
    · rfl
  rw [State.onsetWith_eq]
  split
  · rfl
  · have hb := (s.beforeResponse_keeps (.group k g) (s.entry (.group k g)).state detail
      (s.stepOne (.group k g) detail)).cool (by decide) g
    rw [State.onsetSteps_eq, State.respond_eq, (State.noteOnset_keeps _ _ _ _).cool (by decide), ← hb]
    split
    · rfl
    · exact (congrArg (fun c : Eight GroupCooling => (c.get g).adoptionSource)
        (State.applyLine_unitsKept (State.applyRemove _ _ _) _ _ _).cooling).trans (hremove _ _)

theorem State.mismatchChange_adoption (h : s.allowedAt (.group .mismatch g)) (before after : Bool)
    (detail : Option Detail) :
    ((s.conditionChange (.group .mismatch g) before after detail).cool g).adoptionSource =
      (s.cool g).adoptionSource := by
  unfold State.conditionChange
  split
  · rw [State.onset_eq_tame detail h rfl]
    exact s.onsetWith_adoption detail
  · rw [(s.departure_keeps _).cool (by decide)]
  all_goals rfl

theorem State.mismatchSources_adoption (s : State) (g : Group) (current : Nat) :
    ((s.mismatchSources g current).cool g).adoptionSource =
      ((s.cool g).adoptionSource && decide (current ≠ 0)) := by
  have h : ((if (s.cool g).settled then s.modCool g fun c => c.testPattern (s.groupConfig g) else s).cool g).adoptionSource =
      (s.cool g).adoptionSource := by
    split
    · rw [State.cool_modCool_self]; rfl
    · rfl
  unfold State.mismatchSources
  simp only
  split
  · next h0 => rw [State.cool_modCool_self]; simp [h0]
  · next h0 => rw [h]; simp [h0]

/-! ### The steps after it -/

theorem State.modCool_allowedAt {f : GroupCooling → GroupCooling} {id : FaultId} (h : s.allowedAt id) :
    (s.modCool g f).allowedAt id := h

theorem State.protectionTest_spares (h : s.allowedAt (.group .protection g)) : s.spares (s.protectionTest g) g := by
  unfold State.protectionTest
  split
  · exact State.spares_trans
      (s.modCool_spares g (f := fun c => { c with protection := activeTrips (s.groupConfig g) (s.cool g) != 0 }) rfl)
      (State.conditionChange_spares (k := .protection) rfl (State.modCool_allowedAt h) _ _ _)
  · exact s.spares_refl g

theorem State.recool_spares (s : State) (g : Group) : s.spares (s.recool g) g := s.modCool_spares g rfl

theorem State.startGrace_spares (s : State) (g : Group) : s.spares (s.startGrace g) g :=
  State.spares_trans (State.spares_trans (s.modCool_spares g rfl) (State.recool_spares _ g))
    (State.spares_of_keeps (State.notify_keeps _ _) (by decide) g)

theorem State.pumpTest_spares (s : State) (g : Group) : s.spares (s.pumpTest g) g := by
  unfold State.pumpTest
  split
  · split
    · split
      · exact s.startGrace_spares g
      · exact s.spares_refl g
    · split
      · exact s.spares_refl g
      · exact State.spares_trans (s.modCool_spares g rfl) (State.recool_spares _ g)
    · split
      · exact s.spares_refl g
      · exact State.spares_trans (State.spares_trans (s.modCool_spares g rfl)
          (State.departure_spares _ (k := .coolingLost) (by decide) g)) (State.recool_spares _ g)
  · exact s.spares_refl g

theorem GroupCooling.temperaturesTaken_adoptionSource (c : GroupCooling) (cfg : Configuration) (f : StatusFrame) :
    (c.temperaturesTaken cfg f).adoptionSource = c.adoptionSource := by
  unfold GroupCooling.temperaturesTaken
  rw [GroupCooling.derateStep_frame]

theorem State.takeTemperatures_spares (s : State) (g : Group) (f : StatusFrame) : s.spares (s.takeTemperatures g f) g := by
  rw [State.takeTemperatures_eq]
  exact State.spares_trans (s.modCool_spares g (GroupCooling.temperaturesTaken_adoptionSource _ _ _))
    (State.recool_spares _ g)

theorem State.warningTest_spares (s : State) (g : Group) (outlet : Int) : s.spares (s.warningTest g outlet) g := by
  unfold State.warningTest
  split
  · exact State.spares_trans (s.modCool_spares g rfl) (State.spares_of_keeps (State.notify_keeps _ _) (by decide) g)
  · exact s.spares_refl g

theorem State.overtempTest_spares (h : s.allowedAt (.group .overtemp g)) (outlet : Int) :
    s.spares (s.overtempTest g outlet) g :=
  State.spares_trans
    (s.modCool_spares g (f := fun c => { c with
      overtemp := overtempAfter (s.cool g).overtemp outlet s.config.tripThreshold s.config.alarmHysteresis }) rfl)
    (State.conditionChange_spares (k := .overtemp) rfl (State.modCool_allowedAt h) _ _ _)

end Spares

/-! ### The ceiling (R73) -/

/-- The cooling ceiling is the lesser of its parts (R73). -/
def State.ceilingFormed (s : State) (g : Group) : Prop :=
  (s.cool g).ceiling = coolingCeiling (s.groupConfig g) (s.cool g).percent (s.cool g).pumpLoss

theorem State.superviseFrame_ceilingFormed (s : State) (g : Group) (f : StatusFrame) :
    (s.superviseFrame g f).ceilingFormed g := by
  have h1 : (s.takeTemperatures g f).ceilingFormed g := by
    unfold State.ceilingFormed
    rw [State.takeTemperatures_eq, State.cool_recool]
    rfl
  have h2 : ((s.takeTemperatures g f).warningTest g f.outlet).ceilingFormed g := by
    have hgc := ((s.takeTemperatures g f).warningTest_attends g f.outlet).groupConfig g
    unfold State.ceilingFormed
    rw [hgc, State.warningTest_cool]
    exact h1
  refine (State.conditionChange_reacts _ _ _ _ _ g).formed ?_
  rw [State.cool_modCool_self]
  exact h2

end Sys2Proof.Machine
end

