-- ==== Sys2Proof/Proofs/FrameSupervision.lean ====
section
/-! The first steps of a status frame: it is stored, a lost link returns, and the tracking check is made (R18 to R21). -/

namespace Sys2Proof.Machine

/-! ### The frame stored (R18, R19) -/

section Store

variable (s : State) (g : Group) (f : StatusFrame)

/-- A group's record with the frame stored. -/
def GroupRecord.stored (r : GroupRecord) (now : Nat) (f : StatusFrame) : GroupRecord :=
  { r with
    lastFrame := some f
    linkTimer := match r.linkTimer with
      | some _ => some (now + linkTime)
      | none => none }

theorem State.storeFrame_group_self : (s.storeFrame g f).group g = (s.group g).stored s.timeBase f :=
  State.group_modGroup_self ..

theorem State.storeFrame_inSet (h : Group) : (s.storeFrame g f).inSet h = s.inSet h := by
  have hg : ∀ r : GroupRecord → GroupRecord, (∀ x, (r x).service = x.service ∧ (r x).awaiting = x.awaiting) →
      (s.modGroup g r).inSet h = s.inSet h := fun r hr => by
    refine State.inSet_congr rfl ?_ ?_ <;> rw [State.group_modGroup] <;> split
    · exact (hr _).1
    · rfl
    · exact (hr _).2
    · rfl
  exact hg _ fun _ => ⟨rfl, rfl⟩

theorem State.storeFrame_beside : s.besideKept (s.storeFrame g f) g [] where
  keeps := by
    intro p hp
    cases p <;> first | rfl | exact absurd (by simp [responseParts]) hp
  noticed := State.noticed_of_ports rfl
  others := fun h hh => State.reacts_of_eq (State.group_modGroup_ne _ hh _) rfl rfl (s.storeFrame_inSet g f h)
  entries := fun _ _ => Entry.sameButReduce_refl _

end Store

/-! ### The return of a lost link (R20) -/

section LinkReturn

variable (s : State) (g : Group)

/-- A departure leaves what stands with an action: a LATCHED entry stands as an ACTIVE one does. -/
theorem State.departure_removeStands (id : FaultId) : (s.departure id).removeStands g = s.removeStands g := by
  have hentry : ∀ j : FaultId, ((s.departure id).entry j).response = (s.entry j).response ∧
      (((s.departure id).entry j).state ≠ .clear ↔ (s.entry j).state ≠ .clear) := fun j => by
    by_cases hj : j = id
    · subst hj
      rw [State.departure_entry_self]
      split
      · next h => simp [h]
      · exact ⟨rfl, Iff.rfl⟩
    · rw [State.departure_entry_ne _ hj]
      exact ⟨rfl, Iff.rfl⟩
  rw [Bool.eq_iff_iff, State.removeStands_iff, State.removeStands_iff]
  exact exists_congr fun k => exists_congr fun c => by rw [(hentry (.group k g)).1, (hentry (.group k g)).2]

/-- The state a group returns to from LINK_LOST (R20). -/
def State.returnState : ServiceState := if s.removeStands g then .removed else .out

theorem State.linkReturn_eq :
    s.linkReturn g =
      if (s.group g).service = .linkLost then
        (s.departure (.group .linkLost g)).setService g (s.returnState g) .link
      else s := by
  unfold State.linkReturn State.returnState
  rw [← s.departure_removeStands g (.group .linkLost g)]
  cases (s.group g).service <;> rfl

variable {s g}

theorem State.departure_group (id : FaultId) (h : Group) : (s.departure id).group h = s.group h :=
  (s.departure_keeps id).group (by decide) h

theorem State.linkReturn_inSet : (s.linkReturn g).inSet g = s.inSet g := by
  rw [State.linkReturn_eq]
  split
  · next h =>
    have hs : s.inSet g = false := by simp [State.inSet_eq, h, ServiceState.member]
    rw [State.setService_inSet_self, hs]
    unfold State.returnState
    split <;> simp [ServiceState.member]
  · rfl

theorem State.linkReturn_cool : (s.linkReturn g).cool g = s.cool g := by
  have hset := s.linkReturn_inSet (g := g)
  rw [State.linkReturn_eq] at hset ⊢
  split
  · next h =>
    rw [if_pos h] at hset
    have hk := s.departure_keeps (.group .linkLost g)
    rw [State.setService_cool_self, hset, hk.inSet (by decide) (by decide), GroupCooling.crossing_same,
      hk.cool (by decide)]
  · rfl

theorem State.linkReturn_group_lost (h : (s.group g).service = .linkLost) :
    (s.linkReturn g).group g = (s.group g).serve s.timeBase (s.returnState g) := by
  have hset := s.linkReturn_inSet (g := g)
  rw [State.linkReturn_eq, if_pos h] at hset ⊢
  have hk := s.departure_keeps (.group .linkLost g)
  rw [State.setService_group_self, hset, hk.inSet (by decide) (by decide), GroupRecord.crossing_same,
    hk.group (by decide), hk .timeBase (by decide)]

theorem State.linkReturn_kept (h : (s.group g).service ≠ .linkLost) : s.linkReturn g = s := by
  rw [State.linkReturn_eq, if_neg h]

theorem State.linkReturn_notLost : ((s.linkReturn g).group g).service ≠ .linkLost := by
  by_cases h : (s.group g).service = .linkLost
  · rw [State.linkReturn_group_lost h]
    unfold GroupRecord.serve State.returnState
    simp only
    split <;> decide
  · rw [State.linkReturn_kept h]
    exact h

/-- What the return leaves of the group's record: all but its service state, the link timer and the waiting mark. -/
theorem State.linkReturn_group : ∃ (service : ServiceState) (timer : Option Nat) (waits : Bool),
    (s.linkReturn g).group g = { s.group g with service := service, linkTimer := timer, awaiting := waits } := by
  by_cases h : (s.group g).service = .linkLost
  · exact ⟨_, _, _, State.linkReturn_group_lost h⟩
  · exact ⟨_, _, _, by rw [State.linkReturn_kept h]⟩

theorem State.linkReturn_beside : s.besideKept (s.linkReturn g) g [.linkLost] := by
  rw [State.linkReturn_eq]
  split
  · have hserve := (s.departure (.group .linkLost g)).setService_keeps g (s.returnState g) .link
    refine State.besideKept_trans (s.departure_attends .linkLost g).beside (ls := [])
      ⟨State.keepsAllBut_mono hserve (by simp [groupParts, responseParts]), State.setService_noticed _ _ _ _,
        fun h hh => ?_, fun _ _ => Entry.sameButReduce_of_eq (hserve.entry (by decide) _)⟩
    exact State.reacts_of_eq (State.setService_group_ne _ hh _ _) (State.setService_cool_ne _ hh _ _)
      (hserve.groupConfig (by decide) h) (State.setService_inSet_ne _ hh _ _)
  · exact (s.attends_refl g).beside.mono (by simp)

theorem State.linkReturn_hears (h : (s.group g).service = .linkLost) :
    s.hears (s.linkReturn g) (.groupState g (s.returnState g) .linkLost .link) := by
  have hheard := (s.departure (.group .linkLost g)).setService_hears g (s.returnState g) .link
  rw [State.departure_group, h] at hheard
  rw [State.linkReturn_eq, if_pos h]
  exact hheard.since (s.departure_keeps _ .timeBase (by decide)) fun p => (s.departure_noticed _).role p

theorem State.departure_handed (k : GroupKind) :
    s.handed (s.departure (.group k g)) (.group k g) true false none := by
  refine ⟨fun hb => (nomatch hb), fun _ _ => ?_, fun hb => (nomatch hb)⟩
  rw [State.departure_entry_self]
  split <;> rfl

theorem State.linkReturn_handed (h : (s.group g).service = .linkLost) :
    s.handed (s.linkReturn g) (.group .linkLost g) true false none := by
  rw [State.linkReturn_eq, if_pos h]
  exact State.departure_handed .linkLost |>.within rfl (Entry.sameButReduce_refl _)
    (Entry.sameButReduce_of_eq ((State.setService_keeps _ _ _ _).entry (by decide) _))

end LinkReturn

/-! ### The tracking check (R21) -/

section Tracking

variable {s : State} {g : Group} {f : StatusFrame}

/-- How far the measured current is from the last order. -/
def GroupRecord.strayed (r : GroupRecord) (f : StatusFrame) : Nat := (f.current - r.lastOrder) + (r.lastOrder - f.current)

/-- The frame answers the last order and follows it within the tolerance in use. -/
def GroupRecord.follows (r : GroupRecord) (f : StatusFrame) : Prop :=
  f.echo = r.sequence ∧ r.strayed f ≤ r.tolerance

theorem State.trackingCheck_follows (h : (s.group g).follows f) :
    s.trackingCheck g f =
      (s.modGroup g fun q => { q with trackingTimer := none }).departure (.group .tracking g) := by
  obtain ⟨hecho, hnear⟩ := h
  unfold State.trackingCheck
  simp only [hecho, ne_eq, not_true_eq_false, if_false]
  exact if_neg (Nat.not_lt.mpr hnear)

/-- The tracking timer after a frame that does not follow the last order (R21). -/
def State.trackingAfter (s : State) (g : Group) (f : StatusFrame) : Option Nat :=
  if f.echo = (s.group g).sequence ∧ (s.group g).trackingTimer = none ∧ s.inSet g = true ∧
    (s.entry (.group .tracking g)).state ≠ .active then some (s.timeBase + 2000) else (s.group g).trackingTimer

theorem State.trackingCheck_strays (h : ¬ (s.group g).follows f) :
    s.trackingCheck g f = s.modGroup g fun q => { q with trackingTimer := s.trackingAfter g f } := by
  have hsame : (s.modGroup g fun q => { q with trackingTimer := (s.group g).trackingTimer }) = s :=
    (show _ = s.modGroup g id from rfl).trans (s.modGroup_id g)
  unfold State.trackingCheck State.trackingAfter
  by_cases hecho : f.echo = (s.group g).sequence
  · have hfar : (s.group g).tolerance < (s.group g).strayed f := Nat.lt_of_not_le fun hn => h ⟨hecho, hn⟩
    simp only [hecho, ne_eq, not_true_eq_false, if_false, true_and]
    unfold GroupRecord.strayed at hfar
    rw [if_pos hfar]
    split
    · rfl
    · exact hsame.symm
  · simp only [ne_eq, hecho, not_false_eq_true, if_true, false_and, if_false]
    exact hsame.symm

/-- The tracking check writes the tracking timer alone of the group's record. -/
theorem State.trackingCheck_group :
    ∃ timer : Option Nat, (s.trackingCheck g f).group g = { s.group g with trackingTimer := timer } ∧
      ((s.group g).follows f → timer = none) ∧ (¬ (s.group g).follows f → timer = s.trackingAfter g f) := by
  by_cases h : (s.group g).follows f
  · exact ⟨none, by rw [State.trackingCheck_follows h, State.departure_group]; exact State.group_modGroup_self ..,
      fun _ => rfl, fun hn => absurd h hn⟩
  · exact ⟨_, by rw [State.trackingCheck_strays h]; exact State.group_modGroup_self .., fun hf => absurd hf h, fun _ => rfl⟩

theorem State.modTracking_inSet (timer : Option Nat) (h : Group) :
    (s.modGroup g fun q => { q with trackingTimer := timer }).inSet h = s.inSet h := by
  refine State.inSet_congr rfl ?_ ?_ <;> rw [State.group_modGroup] <;> split <;> rfl

theorem State.modTracking_beside (timer : Option Nat) :
    s.besideKept (s.modGroup g fun q => { q with trackingTimer := timer }) g [] where
  keeps := by
    intro p hp
    cases p <;> first | rfl | exact absurd (by simp [responseParts]) hp
  noticed := State.noticed_of_ports rfl
  others := fun h hh => State.reacts_of_eq (State.group_modGroup_ne _ hh _) rfl rfl (State.modTracking_inSet timer h)
  entries := fun _ _ => Entry.sameButReduce_refl _

theorem State.trackingCheck_inSet : (s.trackingCheck g f).inSet g = s.inSet g := by
  by_cases h : (s.group g).follows f
  · rw [State.trackingCheck_follows h, (State.departure_keeps _ _).inSet (by decide) (by decide)]
    exact State.modTracking_inSet none g
  · rw [State.trackingCheck_strays h]
    exact State.modTracking_inSet _ g

theorem State.trackingCheck_cool : (s.trackingCheck g f).cool g = s.cool g := by
  by_cases h : (s.group g).follows f
  · rw [State.trackingCheck_follows h, (State.departure_keeps _ _).cool (by decide)]
    rfl
  · rw [State.trackingCheck_strays h]
    rfl

theorem State.trackingCheck_beside : s.besideKept (s.trackingCheck g f) g [.tracking] := by
  by_cases h : (s.group g).follows f
  · rw [State.trackingCheck_follows h]
    exact State.besideKept_trans (State.modTracking_beside none) (State.departure_attends _ .tracking g).beside
  · rw [State.trackingCheck_strays h]
    exact (State.modTracking_beside _).mono (by simp)

theorem State.trackingCheck_handed :
    ((s.group g).follows f → s.handed (s.trackingCheck g f) (.group .tracking g) true false none) ∧
    (¬ (s.group g).follows f → s.handed (s.trackingCheck g f) (.group .tracking g) true true none) := by
  refine ⟨fun h => ?_, fun h => ?_⟩
  · rw [State.trackingCheck_follows h]
    exact (State.departure_handed (s := s.modGroup g fun q => { q with trackingTimer := none }) .tracking).within rfl
      (Entry.sameButReduce_refl _) (Entry.sameButReduce_refl _)
  · rw [State.trackingCheck_strays h]
    exact ⟨fun hb => (nomatch hb), fun _ ha => (nomatch ha), fun _ => ⟨rfl, rfl⟩⟩

end Tracking

end Sys2Proof.Machine
end

