-- ==== Sys2Proof/Proofs/StatusFrames.lean ====
section
/-! A status frame from its arrival to the end of its tests: the states between the steps, and what each part of the group is
afterwards (R18 to R21, R61 to R78). -/

namespace Sys2Proof.Machine

/-! ### The tests, field by field -/

namespace GroupCooling

variable (c : GroupCooling) (cfg : Configuration) (gc : GroupConfig) (f : StatusFrame) (outlet : Int)

theorem patternTested_eq :
    c.patternTested gc = { c with
      pattern := if c.settled then (if differingInputs gc c = 0 then .matching else .mismatching) else c.pattern
      differing := if c.settled then differingInputs gc c else c.differing } := by
  unfold patternTested
  split <;> rfl

/-- What the input monitor makes of the core (R61 to R67). -/
def monitored : GroupCooling := ((c.filtered gc f).patternTested gc).protectionTested gc

/-- What the cooling supervisor makes of the core (R72 to R78). -/
def supervised : GroupCooling := ((c.temperaturesTaken cfg f).warned cfg f.outlet).overtempTested cfg f.outlet

theorem monitored_eq :
    c.monitored gc f = { c with
      inputs := filterInputs c.inputs gc.filterCounts f
      pattern := ((c.filtered gc f).patternTested gc).pattern
      differing := ((c.filtered gc f).patternTested gc).differing
      protection := if (c.filtered gc f).settled then activeTrips gc (c.filtered gc f) != 0 else c.protection } := by
  unfold monitored
  rw [patternTested_eq]
  rfl

theorem supervised_eq :
    c.supervised cfg f = { c with
      governing := (c.derateStep cfg.derate cfg.derateHysteresis f.outlet).governing
      percent := (c.derateStep cfg.derate cfg.derateHysteresis f.outlet).percent
      lastTemps := some { outlet := f.outlet, inlet := f.inlet, flow := f.flow }
      clearLevel := cfg.warnThreshold - (cfg.alarmHysteresis : Int)
      warning := c.warning || decide (cfg.warnThreshold ≤ f.outlet)
      overtemp := overtempAfter c.overtemp f.outlet cfg.tripThreshold cfg.alarmHysteresis } := by
  unfold supervised temperaturesTaken
  rw [derateStep_frame]
  rfl

end GroupCooling

section States

variable (s : State) (g : Group) (f : StatusFrame)

/-! ### The states between the steps -/

/-- The frame stored, the link and the tracking seen to. -/
def State.frameHeard : State := ((s.storeFrame g f).linkReturn g).trackingCheck g f

/-- The mismatch condition tested on the filtered inputs. -/
def State.frameTested : State :=
  ((s.frameHeard g f).modCool g fun c => c.filtered ((s.frameHeard g f).groupConfig g) f).frameMismatch g f.current

/-- The protection condition tested, and the pumps not yet. -/
def State.frameGuarded : State := (s.frameTested g f).protectionTest g

/-- The input monitor done with the frame. -/
def State.frameMonitored : State := (s.frameGuarded g f).pumpTest g

/-- The temperatures and the warning seen to, and overtemperature not yet. -/
def State.frameWarned : State := ((s.frameMonitored g f).takeTemperatures g f).warningTest g f.outlet

theorem State.takeFrame_eq : s.takeFrame g f = (s.frameWarned g f).overtempTest g f.outlet := rfl

theorem State.takeFrame_eq_supervise : s.takeFrame g f = (s.frameMonitored g f).superviseFrame g f := rfl

theorem State.frameHeard_beside : s.besideKept (s.frameHeard g f) g [.linkLost, .tracking] :=
  State.besideKept_trans (State.besideKept_trans (s.storeFrame_beside g f) State.linkReturn_beside)
    State.trackingCheck_beside

theorem State.frameTested_attends : (s.frameHeard g f).attends (s.frameTested g f) g [.mismatch] :=
  State.attends_trans (State.modCool_attends _ g _) (State.frameMismatch_attends _ g f.current)

theorem State.frameGuarded_attends : (s.frameTested g f).attends (s.frameGuarded g f) g [.protection, .mismatch] :=
  State.protectionTest_attends _ g

theorem State.frameMonitored_attends : (s.frameGuarded g f).attends (s.frameMonitored g f) g [.coolingLost] :=
  State.pumpTest_attends _ g

theorem State.frameWarned_attends : (s.frameMonitored g f).attends (s.frameWarned g f) g [] :=
  State.attends_trans (State.takeTemperatures_attends _ g f) (State.warningTest_attends _ g f.outlet)

theorem State.takeFrame_attends_warned : (s.frameWarned g f).attends (s.takeFrame g f) g [.overtemp, .mismatch] :=
  State.overtempTest_attends _ g f.outlet

theorem State.takeFrame_attends_monitored : (s.frameMonitored g f).attends (s.takeFrame g f) g [.overtemp, .mismatch] :=
  State.attends_trans (s.frameWarned_attends g f) (s.takeFrame_attends_warned g f)

theorem State.takeFrame_attends_guarded :
    (s.frameGuarded g f).attends (s.takeFrame g f) g [.coolingLost, .overtemp, .mismatch] :=
  State.attends_trans (s.frameMonitored_attends g f) (s.takeFrame_attends_monitored g f)

theorem State.takeFrame_attends_heard :
    (s.frameHeard g f).attends (s.takeFrame g f) g [.mismatch, .protection, .mismatch, .coolingLost, .overtemp, .mismatch] :=
  State.attends_trans (State.attends_trans (s.frameTested_attends g f) (s.frameGuarded_attends g f))
    (s.takeFrame_attends_guarded g f)

theorem State.frameTested_beside : s.besideKept (s.frameTested g f) g [.linkLost, .tracking, .mismatch] :=
  State.besideKept_trans (s.frameHeard_beside g f) (s.frameTested_attends g f).beside

theorem State.frameGuarded_beside :
    s.besideKept (s.frameGuarded g f) g [.linkLost, .tracking, .mismatch, .protection, .mismatch] :=
  State.besideKept_trans (s.frameTested_beside g f) (s.frameGuarded_attends g f).beside

theorem State.frameMonitored_beside :
    s.besideKept (s.frameMonitored g f) g [.linkLost, .tracking, .mismatch, .protection, .mismatch, .coolingLost] :=
  State.besideKept_trans (s.frameGuarded_beside g f) (s.frameMonitored_attends g f).beside

theorem State.frameWarned_beside :
    s.besideKept (s.frameWarned g f) g [.linkLost, .tracking, .mismatch, .protection, .mismatch, .coolingLost] :=
  State.besideKept_trans (s.frameMonitored_beside g f) (s.frameWarned_attends g f).beside

theorem State.takeFrame_beside :
    s.besideKept (s.takeFrame g f) g
      [.linkLost, .tracking, .mismatch, .protection, .mismatch, .coolingLost, .overtemp, .mismatch] :=
  State.besideKept_trans (s.frameWarned_beside g f) (s.takeFrame_attends_warned g f).beside

/-! ### The group's inputs and cooling -/

theorem State.frameHeard_cool : (s.frameHeard g f).cool g = s.cool g :=
  State.trackingCheck_cool.trans State.linkReturn_cool

theorem State.frameHeard_inSet : (s.frameHeard g f).inSet g = s.inSet g :=
  State.trackingCheck_inSet.trans (State.linkReturn_inSet.trans (s.storeFrame_inSet g f g))

theorem State.frameTested_core :
    ((s.frameTested g f).cool g).core = ((s.cool g).core.filtered (s.groupConfig g) f).patternTested (s.groupConfig g) := by
  unfold State.frameTested
  rw [State.frameMismatch_core, State.cool_modCool_self, s.frameHeard_cool g f,
    State.besideKept.groupConfig (State.modCool_attends _ g _).beside, (s.frameHeard_beside g f).groupConfig]
  rfl

theorem State.frameGuarded_core : ((s.frameGuarded g f).cool g).core = (s.cool g).core.monitored (s.groupConfig g) f := by
  unfold State.frameGuarded
  rw [State.protectionTest_core, s.frameTested_core g f, (s.frameTested_beside g f).groupConfig]
  rfl

theorem State.frameMonitored_core : ((s.frameMonitored g f).cool g).core = (s.cool g).core.monitored (s.groupConfig g) f :=
  (State.pumpTest_core _ g).trans (s.frameGuarded_core g f)

theorem State.frameWarned_core :
    ((s.frameWarned g f).cool g).core =
      (((s.cool g).core.monitored (s.groupConfig g) f).temperaturesTaken s.config f).warned s.config f.outlet := by
  unfold State.frameWarned
  rw [State.warningTest_cool, (State.takeTemperatures_attends _ g f).config, (s.frameMonitored_beside g f).config,
    ← s.frameMonitored_core g f, ← (s.frameMonitored_beside g f).config, ← State.takeTemperatures_core]
  rfl

theorem State.takeFrame_core :
    ((s.takeFrame g f).cool g).core = ((s.cool g).core.monitored (s.groupConfig g) f).supervised s.config f := by
  rw [State.takeFrame_eq, State.overtempTest_core, s.frameWarned_core g f, (s.frameWarned_beside g f).config]
  rfl

/-- Every test of the frame reads the same filtered inputs. -/
theorem State.takeFrame_inputs :
    ((s.takeFrame g f).cool g).inputs = filterInputs (s.cool g).inputs (s.groupConfig g).filterCounts f := by
  have h := congrArg GroupCooling.inputs (s.takeFrame_core g f)
  rwa [GroupCooling.supervised_eq, GroupCooling.monitored_eq] at h

theorem State.frameGuarded_inputs : ((s.frameGuarded g f).cool g).inputs = ((s.takeFrame g f).cool g).inputs := by
  have h := congrArg GroupCooling.inputs (s.frameGuarded_core g f)
  rw [GroupCooling.monitored_eq] at h
  exact h.trans (s.takeFrame_inputs g f).symm

theorem State.frameTested_inputs : ((s.frameTested g f).cool g).inputs = ((s.takeFrame g f).cool g).inputs := by
  have h := congrArg GroupCooling.inputs (s.frameTested_core g f)
  rw [GroupCooling.patternTested_eq] at h
  exact h.trans (s.takeFrame_inputs g f).symm

end States

end Sys2Proof.Machine
end

