-- ==== Sys2Proof/Proofs/StatusFrameConditions.lean ====
section
/-! The conditions of a group after a status frame, each with what was handed to the fault unit (R63 to R78). -/

namespace Sys2Proof.Machine

/-! ### Functions of the filtered inputs -/

section Inputs

variable {c d : GroupCooling} (h : c.inputs = d.inputs)
include h

theorem GroupCooling.settled_congr : c.settled = d.settled := by unfold GroupCooling.settled; rw [h]

theorem GroupCooling.bothLost_congr : c.bothLost = d.bothLost := by unfold GroupCooling.bothLost; rw [h]

theorem GroupCooling.differingInputs_congr (gc : GroupConfig) : differingInputs gc c = differingInputs gc d := by
  unfold differingInputs GroupCooling.statusBits
  rw [h]

theorem GroupCooling.activeTrips_congr (gc : GroupConfig) : activeTrips gc c = activeTrips gc d := by
  unfold activeTrips GroupCooling.tripBits
  rw [h]

end Inputs

/-! ### The tests and the fault unit -/

section Handed

variable (s : State) (g : Group)

/-- A condition that stays is not handed. -/
theorem State.handed_refl (id : FaultId) (present : Bool) (detail : Option Detail) : s.handed s id present present detail :=
  ⟨fun h0 h1 => absurd (h0.symm.trans h1) (by decide), fun h1 h0 => absurd (h0.symm.trans h1) (by decide),
    fun _ => ⟨rfl, rfl⟩⟩

theorem State.handed_of_modCool {s t : State} {g : Group} {f : GroupCooling → GroupCooling} {id : FaultId}
    {before after : Bool} {detail : Option Detail} (h : (s.modCool g f).handed t id before after detail) :
    s.handed t id before after detail := h

theorem State.protectionTest_handed :
    s.handed (s.protectionTest g) (.group .protection g) (s.cool g).protection ((s.protectionTest g).cool g).protection
      (some (.protection (activeTrips (s.groupConfig g) (s.cool g)))) := by
  have hafter : ((s.protectionTest g).cool g).protection =
      if (s.cool g).settled then activeTrips (s.groupConfig g) (s.cool g) != 0 else (s.cool g).protection :=
    congrArg GroupCooling.protection (s.protectionTest_core g)
  rw [hafter]
  unfold State.protectionTest
  split
  · exact State.handed_of_modCool
      (State.conditionChange_handed _ _ _ (.inl (FaultId.not_tripped_group (k := .protection) (by decide) g)))
  · exact s.handed_refl _ _ _

theorem State.overtempTest_handed (outlet : Int) :
    s.handed (s.overtempTest g outlet) (.group .overtemp g) (s.cool g).overtemp
      (overtempAfter (s.cool g).overtemp outlet s.config.tripThreshold s.config.alarmHysteresis)
      (some (.overtemp outlet)) :=
  State.handed_of_modCool
    (State.conditionChange_handed _ _ _ (.inl (FaultId.not_tripped_group (k := .overtemp) (by decide) g)))

theorem State.warningTest_hears {outlet : Int} (h : (s.cool g).warning = false) (hhot : s.config.warnThreshold ≤ outlet) :
    s.hears (s.warningTest g outlet) (.warningTemperature g outlet s.config.warnThreshold) := by
  unfold State.warningTest
  rw [if_pos ⟨h, hhot⟩]
  exact (State.hears_notify _ _).since rfl fun _ => rfl

variable {s g}

/-- The mismatch condition, once the test has been handed, is what its sources say. -/
theorem State.frameMismatch_handed (h : s.allowedAt (.group .mismatch g)) (current : Nat) :
    ((s.frameMismatch g current).cool g).adoptionSource = ((s.cool g).adoptionSource && decide (current ≠ 0)) ∧
      s.handed (s.frameMismatch g current) (.group .mismatch g) (s.cool g).mismatched
        ((s.frameMismatch g current).cool g).mismatched
        (some (.mismatch ((s.frameMismatch g current).cool g).differing)) := by
  have hbeside := (s.mismatchSources_attends g current).beside
  have hallowed := hbeside.allowedAt (k := .mismatch) (by simp) h
  have hcore := (State.conditionChange_reacts (s.mismatchSources g current) (.group .mismatch g) (s.cool g).mismatched
    ((s.mismatchSources g current).cool g).mismatched (some (.mismatch ((s.mismatchSources g current).cool g).differing))
    g).core
  have hadoption := State.mismatchChange_adoption hallowed (s.cool g).mismatched
    ((s.mismatchSources g current).cool g).mismatched (some (.mismatch ((s.mismatchSources g current).cool g).differing))
  have hhanded := State.conditionChange_handed (s.cool g).mismatched ((s.mismatchSources g current).cool g).mismatched
    (some (.mismatch ((s.mismatchSources g current).cool g).differing)) (.inr ⟨hallowed, rfl⟩)
  rw [← State.frameMismatch_eq] at hcore hadoption hhanded
  have hpattern : ((s.frameMismatch g current).cool g).pattern = ((s.mismatchSources g current).cool g).pattern := by
    have h := congrArg GroupCooling.pattern hcore
    exact h
  have hdiffering : ((s.frameMismatch g current).cool g).differing = ((s.mismatchSources g current).cool g).differing := by
    have h := congrArg GroupCooling.differing hcore
    exact h
  have hmismatched : ((s.frameMismatch g current).cool g).mismatched = ((s.mismatchSources g current).cool g).mismatched := by
    simp only [GroupCooling.mismatched, GroupCooling.patternSource, hpattern, hadoption]
  refine ⟨hadoption.trans (s.mismatchSources_adoption g current), ?_⟩
  rw [hmismatched, hdiffering]
  exact hhanded.within hbeside.timeBase (hbeside.entries .mismatch (by simp)) (Entry.sameButReduce_refl _)

end Handed

/-! ### After the frame -/

section Frame

variable (s : State) (g : Group) (f : StatusFrame)

theorem State.takeFrame_derate :
    ((s.takeFrame g f).cool g).governing =
        ((s.cool g).derateStep s.config.derate s.config.derateHysteresis f.outlet).governing ∧
      ((s.takeFrame g f).cool g).percent =
        ((s.cool g).derateStep s.config.derate s.config.derateHysteresis f.outlet).percent ∧
      ((s.takeFrame g f).cool g).lastTemps = some { outlet := f.outlet, inlet := f.inlet, flow := f.flow } ∧
      ((s.takeFrame g f).cool g).clearLevel = s.config.warnThreshold - (s.config.alarmHysteresis : Int) := by
  have h := s.takeFrame_core g f
  have hsame := GroupCooling.derateStep_congr f.outlet s.config.derate s.config.derateHysteresis
    (c := (s.cool g).core.monitored (s.groupConfig g) f) (d := s.cool g) (by rw [GroupCooling.monitored_eq]; rfl)
    (by rw [GroupCooling.monitored_eq]; rfl)
  rw [GroupCooling.supervised_eq] at h
  exact ⟨(congrArg GroupCooling.governing h).trans hsame.1, (congrArg GroupCooling.percent h).trans hsame.2,
    congrArg GroupCooling.lastTemps h, congrArg GroupCooling.clearLevel h⟩

theorem State.takeFrame_warning :
    ((s.takeFrame g f).cool g).warning = ((s.cool g).warning || decide (s.config.warnThreshold ≤ f.outlet)) ∧
      ((s.cool g).warning = false → s.config.warnThreshold ≤ f.outlet →
        s.hears (s.takeFrame g f) (.warningTemperature g f.outlet s.config.warnThreshold)) := by
  have h := congrArg GroupCooling.warning (s.takeFrame_core g f)
  rw [GroupCooling.supervised_eq, GroupCooling.monitored_eq] at h
  refine ⟨h, fun hclear hhot => ?_⟩
  have hbeside := s.frameMonitored_beside g f
  have htemps := (State.takeTemperatures_attends (s.frameMonitored g f) g f).beside
  have hall := State.besideKept_trans hbeside htemps
  have hcool : (((s.frameMonitored g f).takeTemperatures g f).cool g).warning = (s.cool g).warning := by
    have h1 := congrArg GroupCooling.warning (State.takeTemperatures_core (s.frameMonitored g f) g f)
    have h2 := congrArg GroupCooling.warning (s.frameMonitored_core g f)
    rw [GroupCooling.temperaturesTaken, GroupCooling.derateStep_frame] at h1
    rw [GroupCooling.monitored_eq] at h2
    exact h1.trans h2
  have hheard := State.warningTest_hears _ g (hcool.trans hclear) (outlet := f.outlet) (by rw [hall.config]; exact hhot)
  rw [hall.config] at hheard
  exact (hheard.later (s.takeFrame_attends_warned g f).noticed).since hall.timeBase fun p => hall.noticed.role p

theorem State.takeFrame_overtemp :
    ((s.takeFrame g f).cool g).overtemp =
        overtempAfter (s.cool g).overtemp f.outlet s.config.tripThreshold s.config.alarmHysteresis ∧
      s.handed (s.takeFrame g f) (.group .overtemp g) (s.cool g).overtemp ((s.takeFrame g f).cool g).overtemp
        (some (.overtemp f.outlet)) := by
  have h := congrArg GroupCooling.overtemp (s.takeFrame_core g f)
  rw [GroupCooling.supervised_eq, GroupCooling.monitored_eq] at h
  have hbefore := congrArg GroupCooling.overtemp (s.frameWarned_core g f)
  rw [GroupCooling.temperaturesTaken, GroupCooling.derateStep_frame, GroupCooling.monitored_eq] at hbefore
  have hbeside := s.frameWarned_beside g f
  have hhanded := State.overtempTest_handed (s.frameWarned g f) g f.outlet
  rw [show ((s.frameWarned g f).cool g).overtemp = (s.cool g).overtemp from hbefore, hbeside.config] at hhanded
  refine ⟨h, ?_⟩
  rw [show ((s.takeFrame g f).cool g).overtemp = _ from h]
  exact hhanded.within hbeside.timeBase (hbeside.entries .overtemp (by decide)) (Entry.sameButReduce_refl _)

/-- The protection condition is that of the last frame by which the group was settled (R66, R67). -/
theorem State.takeFrame_protection :
    ((s.takeFrame g f).cool g).protection =
        (if ((s.takeFrame g f).cool g).settled then
          activeTrips (s.groupConfig g) ((s.takeFrame g f).cool g) != 0 else (s.cool g).protection) ∧
      s.handed (s.takeFrame g f) (.group .protection g) (s.cool g).protection ((s.takeFrame g f).cool g).protection
        (some (.protection (activeTrips (s.groupConfig g) ((s.takeFrame g f).cool g)))) := by
  have hinputs : ((s.cool g).core.filtered (s.groupConfig g) f).inputs = ((s.takeFrame g f).cool g).inputs :=
    (s.takeFrame_inputs g f).symm
  have h := congrArg GroupCooling.protection (s.takeFrame_core g f)
  rw [GroupCooling.supervised_eq, GroupCooling.monitored_eq] at h
  have hguarded := congrArg GroupCooling.protection (s.frameGuarded_core g f)
  rw [GroupCooling.monitored_eq] at hguarded
  have hbefore := congrArg GroupCooling.protection (s.frameTested_core g f)
  rw [GroupCooling.patternTested_eq] at hbefore
  have hbeside := s.frameTested_beside g f
  have hhanded := State.protectionTest_handed (s.frameTested g f) g
  rw [hbeside.groupConfig, GroupCooling.activeTrips_congr (s.frameTested_inputs g f),
    show ((s.frameTested g f).cool g).protection = (s.cool g).protection from hbefore,
    show (((s.frameTested g f).protectionTest g).cool g).protection = ((s.takeFrame g f).cool g).protection from
      hguarded.trans h.symm] at hhanded
  refine ⟨?_, hhanded.within hbeside.timeBase (hbeside.entries .protection (by decide))
    ((s.takeFrame_attends_guarded g f).entries .protection (by decide))⟩
  rw [← GroupCooling.settled_congr hinputs, ← GroupCooling.activeTrips_congr hinputs]
  exact h

theorem State.takeFrame_pattern :
    ((s.takeFrame g f).cool g).differing =
        (if ((s.takeFrame g f).cool g).settled then differingInputs (s.groupConfig g) ((s.takeFrame g f).cool g)
        else (s.cool g).differing) ∧
      ((s.takeFrame g f).cool g).pattern =
        if ((s.takeFrame g f).cool g).settled then
          (if differingInputs (s.groupConfig g) ((s.takeFrame g f).cool g) = 0 then .matching else .mismatching)
        else (s.cool g).pattern := by
  have hinputs : ((s.cool g).core.filtered (s.groupConfig g) f).inputs = ((s.takeFrame g f).cool g).inputs :=
    (s.takeFrame_inputs g f).symm
  have h := s.takeFrame_core g f
  rw [GroupCooling.supervised_eq, GroupCooling.monitored_eq, GroupCooling.patternTested_eq] at h
  rw [← GroupCooling.settled_congr hinputs, ← GroupCooling.differingInputs_congr hinputs]
  exact ⟨congrArg GroupCooling.differing h, congrArg GroupCooling.pattern h⟩

/-- Nothing that follows the mismatch test reaches its sources or its entry (R15, R64, R158). -/
theorem State.takeFrame_spares (h : s.responsesAllowed) : (s.frameTested g f).spares (s.takeFrame g f) g := by
  have hprotection := (s.frameTested_beside g f).allowedAt (k := .protection) (by decide) (h.at _)
  have hovertemp := (s.frameWarned_beside g f).allowedAt (k := .overtemp) (by decide) (h.at _)
  exact State.spares_trans (State.spares_trans (State.protectionTest_spares hprotection) (State.pumpTest_spares _ g))
    (State.spares_trans (State.spares_trans (State.takeTemperatures_spares _ g f) (State.warningTest_spares _ g f.outlet))
      (State.overtempTest_spares hovertemp f.outlet))

theorem State.takeFrame_mismatch (h : s.responsesAllowed) :
    ((s.takeFrame g f).cool g).adoptionSource = ((s.cool g).adoptionSource && decide (f.current ≠ 0)) ∧
      s.handed (s.takeFrame g f) (.group .mismatch g) (s.cool g).mismatched ((s.takeFrame g f).cool g).mismatched
        (some (.mismatch ((s.takeFrame g f).cool g).differing)) := by
  have hspares := s.takeFrame_spares g f h
  have hbeside := State.besideKept_trans (s.frameHeard_beside g f)
    (State.modCool_attends (s.frameHeard g f) g fun c => c.filtered ((s.frameHeard g f).groupConfig g) f).beside
  have hallowed := hbeside.allowedAt (k := .mismatch) (by decide) (h.at _)
  obtain ⟨hadoption, hhanded⟩ := State.frameMismatch_handed hallowed f.current
  rw [State.cool_modCool_self, s.frameHeard_cool g f] at hadoption hhanded
  have hcore := s.takeFrame_core g f
  rw [GroupCooling.supervised_eq, GroupCooling.monitored_eq, ← s.frameTested_core g f] at hcore
  have hdiffering : ((s.takeFrame g f).cool g).differing = ((s.frameTested g f).cool g).differing := by
    have h := congrArg GroupCooling.differing hcore
    exact h
  have hpattern : ((s.takeFrame g f).cool g).pattern = ((s.frameTested g f).cool g).pattern := by
    have h := congrArg GroupCooling.pattern hcore
    exact h
  have hmismatched : ((s.takeFrame g f).cool g).mismatched = ((s.frameTested g f).cool g).mismatched := by
    simp only [GroupCooling.mismatched, GroupCooling.patternSource, hpattern, hspares.adoption]
  refine ⟨hspares.adoption.trans hadoption, ?_⟩
  rw [hmismatched, hdiffering]
  exact hhanded.within hbeside.timeBase (hbeside.entries .mismatch (by decide)) hspares.mismatch

/-! ### The pumps -/

theorem State.frameGuarded_lossFollows : s.lossFollows (s.frameGuarded g f) g :=
  State.lossFollows_trans
    (State.lossFollows_of_eq (s.frameHeard_inSet g f) (congrArg GroupCooling.loss (s.frameHeard_cool g f)))
    (State.lossFollows_trans
      (State.lossFollows_trans
        (State.modCool_lossFollows (s.frameHeard g f) g
          (f := fun c => c.filtered ((s.frameHeard g f).groupConfig g) f) rfl)
        (State.frameMismatch_lossFollows _ g f.current))
      (State.protectionTest_lossFollows _ g))

theorem State.takeFrame_lossFollows : ((s.frameGuarded g f).pumpTest g).lossFollows (s.takeFrame g f) g :=
  State.superviseFrame_lossFollows _ g f

theorem State.takeFrame_pump_none (h : (s.cool g).pumpLoss = .none) :
    ((s.takeFrame g f).inSet g = true → ((s.takeFrame g f).cool g).settled = true →
      ((s.takeFrame g f).cool g).bothLost = true →
        ((s.takeFrame g f).cool g).pumpLoss = .grace ∧
        ((s.takeFrame g f).cool g).graceTimer = some (s.timeBase + (s.groupConfig g).graceTime * 1000) ∧
        s.hears (s.takeFrame g f) (.warningPumpLoss g (s.groupConfig g).graceTime)) ∧
    ((s.takeFrame g f).inSet g = false ∨ ((s.takeFrame g f).cool g).settled = false ∨
      ((s.takeFrame g f).cool g).bothLost = false → ((s.takeFrame g f).cool g).pumpLoss = .none) := by
  have hinputs := s.frameGuarded_inputs g f
  have hbeside := s.frameGuarded_beside g f
  have hpump := State.pumpTested_of_none (s.frameGuarded_lossFollows g f) (s.takeFrame_lossFollows g f) h
  rw [GroupCooling.settled_congr hinputs, GroupCooling.bothLost_congr hinputs, hbeside.timeBase,
    hbeside.groupConfig] at hpump
  refine ⟨fun hin hs hb => ?_, hpump.2⟩
  obtain ⟨h1, h2, h3⟩ := hpump.1 hin hs hb
  exact ⟨h1, h2, (h3.later (s.takeFrame_attends_monitored g f).noticed).since hbeside.timeBase
    fun p => hbeside.noticed.role p⟩

theorem State.takeFrame_pump_grace (h : (s.cool g).pumpLoss = .grace) :
    (((s.takeFrame g f).cool g).settled = true → ((s.takeFrame g f).cool g).bothLost = false →
      ((s.takeFrame g f).cool g).pumpLoss = .none ∧ ((s.takeFrame g f).cool g).graceTimer = none) ∧
    ((s.takeFrame g f).inSet g = true → ((s.takeFrame g f).cool g).settled = false ∨
      ((s.takeFrame g f).cool g).bothLost = true →
        ((s.takeFrame g f).cool g).pumpLoss = .grace ∧
        ((s.takeFrame g f).cool g).graceTimer = (s.cool g).graceTimer) := by
  have hinputs := s.frameGuarded_inputs g f
  have hpump := State.pumpTested_of_grace (s.frameGuarded_lossFollows g f) (s.takeFrame_lossFollows g f) h
  rwa [GroupCooling.settled_congr hinputs, GroupCooling.bothLost_congr hinputs] at hpump

theorem State.takeFrame_pump_expired (h : (s.cool g).pumpLoss = .expired) :
    ((s.takeFrame g f).cool g).pumpLoss =
        (if ((s.takeFrame g f).cool g).settled = true ∧ ((s.takeFrame g f).cool g).bothLost = false then .none
        else .expired) ∧
      s.handed (s.takeFrame g f) (.group .coolingLost g) true (((s.takeFrame g f).cool g).pumpLoss == .expired) none := by
  have hinputs := s.frameGuarded_inputs g f
  have hbeside := s.frameGuarded_beside g f
  obtain ⟨hd, ht⟩ := State.pumpTested_of_expired (s.frameGuarded_lossFollows g f) (s.takeFrame_lossFollows g f) h
  obtain ⟨hloss, hhanded⟩ := State.pumpTest_expired hd
  rw [GroupCooling.settled_congr hinputs, GroupCooling.bothLost_congr hinputs, ← ht] at hloss
  rw [← ht] at hhanded
  exact ⟨hloss, hhanded.within hbeside.timeBase (hbeside.entries .coolingLost (by decide))
    ((s.takeFrame_attends_monitored g f).entries .coolingLost (by decide))⟩

end Frame

end Sys2Proof.Machine
end

