-- ==== Sys2Proof/Proofs/StatusFrameRecord.lean ====
section
/-! The record of a group after a status frame, and the frame as a whole (R18 to R21, R61 to R78). -/

namespace Sys2Proof.Machine

section Record

variable (s : State) (g : Group) (f : StatusFrame)

/-- The frame stored and the link seen to. -/
def State.frameLinked : State := (s.storeFrame g f).linkReturn g

theorem State.frameHeard_eq : s.frameHeard g f = (s.frameLinked g f).trackingCheck g f := rfl

theorem State.frameLinked_beside : s.besideKept (s.frameLinked g f) g [.linkLost] :=
  State.besideKept_trans (s.storeFrame_beside g f) State.linkReturn_beside

/-- The record of the group once the frame is stored and its link seen to: the order and its sequence stand as they were. -/
theorem State.frameLinked_group : ∃ (service : ServiceState) (timer : Option Nat) (waits : Bool),
    (s.frameLinked g f).group g =
      { s.group g with lastFrame := some f, service := service, linkTimer := timer, awaiting := waits } := by
  obtain ⟨service, timer, waits, h⟩ := State.linkReturn_group (s := s.storeFrame g f) (g := g)
  rw [s.storeFrame_group_self g f] at h
  exact ⟨service, timer, waits, h⟩

theorem State.frameHeard_record :
    ((s.frameHeard g f).group g).lastFrame = some f ∧
      ((s.frameHeard g f).group g).service = ((s.frameLinked g f).group g).service ∧
      ((s.frameHeard g f).group g).linkTimer = ((s.frameLinked g f).group g).linkTimer := by
  obtain ⟨timer, h, -⟩ := State.trackingCheck_group (s := s.frameLinked g f) (g := g) (f := f)
  obtain ⟨service, link, waits, hlinked⟩ := s.frameLinked_group g f
  rw [State.frameHeard_eq, h]
  refine ⟨?_, rfl, rfl⟩
  rw [hlinked]

theorem State.takeFrame_lastFrame : ((s.takeFrame g f).group g).lastFrame = some f :=
  (s.takeFrame_attends_heard g f).record.frame.trans (s.frameHeard_record g f).1

/-- No frame leaves its group in LINK_LOST (R20). -/
theorem State.takeFrame_notLost : ((s.takeFrame g f).group g).service ≠ .linkLost := fun h => by
  have hheard := (s.takeFrame_attends_heard g f).record.lost h
  rw [(s.frameHeard_record g f).2.1] at hheard
  exact State.linkReturn_notLost hheard

/-- A running link timer starts again, unless the group leaves its state (R19). -/
theorem State.takeFrame_linkTimer (h : ((s.takeFrame g f).group g).service = (s.group g).service)
    (hrun : (s.group g).linkTimer.isSome = true) : ((s.takeFrame g f).group g).linkTimer = some (s.timeBase + 50) := by
  have hlost : ((s.storeFrame g f).group g).service ≠ .linkLost := by
    rw [s.storeFrame_group_self g f]
    exact h ▸ s.takeFrame_notLost g f
  have hlinked : (s.frameLinked g f).group g = (s.group g).stored s.timeBase f := by
    rw [State.frameLinked, State.linkReturn_kept hlost, s.storeFrame_group_self g f]
  obtain ⟨-, hservice, htimer⟩ := s.frameHeard_record g f
  rw [hlinked] at hservice htimer
  rcases (s.takeFrame_attends_heard g f).record.service with ⟨-, h2⟩ | hrank
  · obtain ⟨d, hd⟩ := Option.isSome_iff_exists.mp hrun
    rw [h2, htimer, GroupRecord.stored]
    simp only [hd]
    rfl
  · rw [hservice, h] at hrank
    exact absurd hrank (Nat.lt_irrefl _)

/-- The return from LINK_LOST (R20): to REMOVED while an entry with REMOVE stands, and to OUT otherwise, where a response to a
condition of the same frame may still remove the group. -/
theorem State.takeFrame_returns (h : (s.group g).service = .linkLost) :
    s.handed (s.takeFrame g f) (.group .linkLost g) true false none ∧
      (s.removeStands g = true → ((s.takeFrame g f).group g).service = .removed ∧
        s.hears (s.takeFrame g f) (.groupState g .removed .linkLost .link)) ∧
      (s.removeStands g = false → s.hears (s.takeFrame g f) (.groupState g .out .linkLost .link) ∧
        (((s.takeFrame g f).group g).service = .out ∨ ((s.takeFrame g f).group g).service = .removed)) := by
  have hstored : ((s.storeFrame g f).group g).service = .linkLost := by
    rw [s.storeFrame_group_self g f]
    exact h
  have hattends := s.takeFrame_attends_heard g f
  have hcheck := State.trackingCheck_beside (s := s.frameLinked g f) (g := g) (f := f)
  have hhanded := State.linkReturn_handed hstored
  have hheard := State.linkReturn_hears hstored
  have hservice : ((s.frameHeard g f).group g).service = s.returnState g := by
    rw [(s.frameHeard_record g f).2.1, State.frameLinked, State.linkReturn_group_lost hstored]
    rfl
  have hhears : s.hears (s.takeFrame g f) (.groupState g (s.returnState g) .linkLost .link) :=
    ((hheard.later hcheck.noticed).later hattends.noticed).since rfl fun _ => rfl
  have hrank := hattends.record.service
  have hnotLost := s.takeFrame_notLost g f
  rw [hservice] at hrank
  refine ⟨hhanded.within rfl (Entry.sameButReduce_refl _) (Entry.sameButReduce_trans
    (hcheck.entries .linkLost (by decide)) (hattends.entries .linkLost (by decide))), fun hr => ?_, fun hr => ?_⟩
  · rw [State.returnState, if_pos hr] at hrank hhears
    refine ⟨?_, hhears⟩
    rcases hrank with ⟨h1, -⟩ | h1
    · exact h1
    · cases ht : ((s.takeFrame g f).group g).service <;> rw [ht] at h1 <;> exact absurd h1 (by decide)
  · rw [State.returnState, if_neg (by simp [hr])] at hrank hhears
    refine ⟨hhears, ?_⟩
    rcases hrank with ⟨h1, -⟩ | h1
    · exact .inl h1
    · cases ht : ((s.takeFrame g f).group g).service <;> rw [ht] at h1 hnotLost
      case removed => exact .inr rfl
      case linkLost => exact absurd rfl hnotLost
      all_goals exact absurd h1 (by decide)

/-- The tracking check reads the order and its sequence as they stood when the frame came. -/
theorem State.frameLinked_follows : ((s.frameLinked g f).group g).follows f ↔ (s.group g).follows f := by
  obtain ⟨service, link, waits, h⟩ := s.frameLinked_group g f
  rw [h]
  exact Iff.rfl

theorem State.takeFrame_follows (h : (s.group g).follows f) :
    ((s.takeFrame g f).group g).trackingTimer = none ∧
      s.handed (s.takeFrame g f) (.group .tracking g) true false none := by
  have hlinked := (s.frameLinked_follows g f).2 h
  have hbeside := s.frameLinked_beside g f
  have hattends := s.takeFrame_attends_heard g f
  obtain ⟨timer, hgroup, hnone, -⟩ := State.trackingCheck_group (s := s.frameLinked g f) (g := g) (f := f)
  refine ⟨?_, (State.trackingCheck_handed.1 hlinked).within hbeside.timeBase (hbeside.entries .tracking (by decide))
    (hattends.entries .tracking (by decide))⟩
  rcases hattends.record.tracking with h1 | h1
  · rw [h1, State.frameHeard_eq, hgroup]
    exact hnone hlinked
  · exact h1

theorem State.takeFrame_strays (h : ¬ (s.group g).follows f) :
    s.handed (s.takeFrame g f) (.group .tracking g) true true none ∧
      ((s.takeFrame g f).inSet g = true →
        ((s.takeFrame g f).group g).trackingTimer =
          if f.echo = (s.group g).sequence ∧ (s.group g).trackingTimer = none ∧
            (s.entry (.group .tracking g)).state ≠ .active then some (s.timeBase + 2000)
          else (s.group g).trackingTimer) := by
  have hlinked := mt (s.frameLinked_follows g f).1 h
  have hbeside := s.frameLinked_beside g f
  have hattends := s.takeFrame_attends_heard g f
  have hentry := hbeside.entries .tracking (by decide)
  obtain ⟨timer, hgroup, -, hstrays⟩ := State.trackingCheck_group (s := s.frameLinked g f) (g := g) (f := f)
  obtain ⟨service, link, waits, hrecord⟩ := s.frameLinked_group g f
  refine ⟨(State.trackingCheck_handed.2 hlinked).within hbeside.timeBase hentry
    (hattends.entries .tracking (by decide)), fun hin => ?_⟩
  have hset : (s.frameLinked g f).inSet g = true := by
    rw [← State.trackingCheck_inSet (f := f)]
    exact hattends.record.inSet hin
  rw [hattends.record.tracked hin, State.frameHeard_eq, hgroup]
  refine (hstrays hlinked).trans ?_
  rw [State.trackingAfter, hset, hrecord, hentry.fields.1, hbeside.timeBase]
  simp only [true_and]

end Record

/-! ### The frame as a whole -/

theorem execStatusFrame_good {s : State} (g : Group) (f : StatusFrame) (h : s.loading = false) :
    exec (.statusFrame g (.good f)) s = .next (s.begin.takeFrame g (saturateFrame f)) := by
  have h' : s.begin.loading = false := h
  change execStatusFrame g (.good f) s = _
  simp only [execStatusFrame, h', Bool.false_eq_true, if_false]

theorem execStatusFrame_loading {s : State} (g : Group) (f : StatusFrame) (h : s.loading = true) :
    exec (.statusFrame g (.good f)) s = .next { s with out := [] } := by
  have h' : s.begin.loading = true := h
  change execStatusFrame g (.good f) s = _
  simp only [execStatusFrame, h', if_true]
  rfl

theorem State.begin_keeps (s : State) : s.keepsAllBut s.begin [.out] := by
  intro p hp
  cases p <;> first | rfl | exact absurd (by simp) hp

/-- Settles O22: the frame is taken step by step, each part of the group's state by the lemma on it. -/
theorem statusFrameIsStoredFilteredAndSupervised : Obligations.StatusFrameIsStoredFilteredAndSupervised := by
  intro s g f
  refine ⟨rfl, execStatusFrame_loading g f, fun hload => ⟨_, execStatusFrame_good g f hload, ?_⟩⟩
  have hbeside := s.begin.takeFrame_beside g (saturateFrame f)
  have hderate := s.begin.takeFrame_derate g (saturateFrame f)
  have hinputs := s.begin.takeFrame_inputs g (saturateFrame f)
  have hprotection := s.begin.takeFrame_protection g (saturateFrame f)
  have hpattern := s.begin.takeFrame_pattern g (saturateFrame f)
  have hceiling := State.superviseFrame_ceilingFormed (s.begin.frameMonitored g (saturateFrame f)) g (saturateFrame f)
  have hformed := hceiling.trans (by rw [← State.takeFrame_eq_supervise, hbeside.groupConfig])
  obtain ⟨hgoverning, hpercent, htemps, hclear⟩ := hderate
  have hfollows : (s.group g).follows (saturateFrame f) ↔ f.echo = (s.group g).sequence ∧
      (min f.current 12000 - (s.group g).lastOrder) + ((s.group g).lastOrder - min f.current 12000) ≤
        (s.group g).tolerance := Iff.rfl
  have hwarning := s.begin.takeFrame_warning g (saturateFrame f)
  refine ⟨⟨saturateFrame f, s.begin.takeFrame_lastFrame g (saturateFrame f), rfl, rfl, rfl, rfl, rfl, rfl, rfl, htemps⟩,
    s.begin.takeFrame_notLost g (saturateFrame f), s.begin.takeFrame_linkTimer g (saturateFrame f),
    s.begin.takeFrame_returns g (saturateFrame f),
    ⟨fun h1 h2 => s.begin.takeFrame_follows g (saturateFrame f) (hfollows.2 ⟨h1, h2⟩),
      fun h => s.begin.takeFrame_strays g (saturateFrame f) ?_⟩,
    fun n => ?_, fun n => ?_, hformed,
    ⟨⟨hgoverning, hpercent⟩, ⟨hwarning.1, hwarning.2, hclear⟩, s.begin.takeFrame_overtemp g (saturateFrame f),
      ⟨fun h => ?_, fun h => ?_, hprotection.2⟩,
      fun hresp => ⟨fun h => ?_, fun h => ?_, s.begin.takeFrame_mismatch g (saturateFrame f) hresp⟩,
      s.begin.takeFrame_pump_none g (saturateFrame f), s.begin.takeFrame_pump_grace g (saturateFrame f),
      s.begin.takeFrame_pump_expired g (saturateFrame f)⟩,
    fun h hh => ?_,
    State.keepsAllBut_trans (State.keepsAllBut_mono s.begin_keeps (by simp)) hbeside.keeps⟩
  · rw [show (s.begin.group g) = s.group g from rfl, hfollows]
    omega
  · exact (congrArg (fun i => i.status.get n) hinputs).trans (Eight.get_ofFn _ n)
  · exact (congrArg (fun i => i.trip.get n) hinputs).trans (Four.get_ofFn _ n)
  · rw [hprotection.1, if_pos h]
    exact Bool.eq_iff_iff.mpr (by rw [bne_iff_ne, decide_eq_true_iff]; exact Iff.rfl)
  · rw [hprotection.1, if_neg (by rw [h]; decide)]
    rfl
  · rw [hpattern.1, hpattern.2, if_pos h, if_pos h]
    exact ⟨rfl, rfl⟩
  · rw [hpattern.1, hpattern.2, if_neg (by rw [h]; decide), if_neg (by rw [h]; decide)]
    exact ⟨rfl, rfl⟩
  · have hr := hbeside.others h hh
    exact ⟨hr.frame, by rw [hr.cool]; rfl, hr.percent⟩

end Sys2Proof.Machine
end

