-- ==== Sys2Proof/Proofs/LimitClaims.lean ====
section
/-! The governing claim, the requests that write the claims table, and the ramp of REGULATING (R28 to R30, R33, R37 to R40). -/

namespace Sys2Proof.Machine

/-! ### The governing claim (R33) -/

/-- Slot `r.1` governs among the slots of a list with the value `r.2`: it is active and holds that value, no active slot holds
less, and none of a lower number holds as little. -/
def ClaimsTable.governedBy (t : ClaimsTable) (l : List ClaimSlot) (r : ClaimSlot × Nat) : Prop :=
  (t.get r.1).active = true ∧ (t.get r.1).value = r.2 ∧
    ∀ k ∈ l, (t.get k).active = true → r.2 ≤ (t.get k).value ∧ ((t.get k).value = r.2 → r.1.place ≤ k.place)

/-- Among no slots that are active there is no governing claim. -/
theorem leastClaim_eq_none {t : ClaimsTable} {l : List ClaimSlot} (h : leastClaim t l = none) :
    ∀ k ∈ l, (t.get k).active = false := by
  induction l with
  | nil => simp
  | cons k ks ih =>
    unfold leastClaim at h
    simp only at h
    split at h
    · next hnone =>
      split at h
      · cases h
      · next hk => exact List.forall_mem_cons.mpr ⟨by simpa using hk, ih hnone⟩
    · split at h <;> cases h

/-- In a list that ascends in slot order the least claim governs: a slot put in front displaces the one found behind it exactly
where it is active with a value no greater. -/
theorem leastClaim_governs {t : ClaimsTable} {l : List ClaimSlot} (hl : l.Pairwise fun a b => a.place < b.place)
    {r : ClaimSlot × Nat} (h : leastClaim t l = some r) : r.1 ∈ l ∧ t.governedBy l r := by
  induction l generalizing r with
  | nil => cases h
  | cons k ks ih =>
    obtain ⟨hfirst, hrest⟩ := List.pairwise_cons.mp hl
    unfold leastClaim at h
    simp only at h
    split at h
    · next hnone =>
      split at h <;> cases h
      next hk =>
      refine ⟨by simp, hk, rfl, List.forall_mem_cons.mpr ⟨fun _ => ⟨le_rfl, fun _ => le_rfl⟩, fun j hj ha => ?_⟩⟩
      rw [leastClaim_eq_none hnone j hj] at ha
      cases ha
    · next j v hsome =>
      obtain ⟨hmem, hactive, hvalue, hleast⟩ := ih hrest hsome
      split at h <;> cases h
      · next hk =>
        refine ⟨by simp, hk.1, rfl, List.forall_mem_cons.mpr ⟨fun _ => ⟨le_rfl, fun _ => le_rfl⟩, fun i hi ha => ?_⟩⟩
        exact ⟨hk.2.trans (hleast i hi ha).1, fun _ => (hfirst i hi).le⟩
      · next hk =>
        refine ⟨List.mem_cons_of_mem _ hmem, hactive, hvalue, List.forall_mem_cons.mpr ⟨fun ha => ?_, hleast⟩⟩
        have hlt : v < (t.get k).value := Nat.lt_of_not_le fun hle => hk ⟨ha, hle⟩
        exact ⟨hlt.le, fun heq => absurd heq hlt.ne'⟩

theorem mem_allSlots (k : ClaimSlot) : k ∈ allSlots := by cases k <;> decide

/-- Settles O12: SETPOINT is active, so the least claim of the seven slots is found, and it governs. -/
theorem governingClaimIsTheFirstOfLeastValue : Obligations.GoverningClaimIsTheFirstOfLeastValue := by
  intro t hset
  have hasc : allSlots.Pairwise fun a b => a.place < b.place := by decide
  unfold ClaimsTable.least
  split
  · next r hr =>
    obtain ⟨-, hactive, hvalue, hleast⟩ := leastClaim_governs hasc hr
    exact ⟨hactive, hvalue, fun k => hleast k (mem_allSlots k)⟩
  · next hnone =>
    have hnot : t.setpoint.active = false := leastClaim_eq_none hnone .setpoint (mem_allSlots _)
    rw [hset] at hnot
    cases hnot

/-! ### Requests that write the claims table (R28 to R30) -/

section Take

variable {s : State} {i : Instr} {rq : Req} {kind : ReqKind} {body : State → State × Option Answer}

/-- A request whose own rule writes the claims table alone. -/
theorem State.take_claims (hr : s.ready i) (hi : i.request? = some (rq, kind))
    (hl : i.requiredLength = some kind.payloadLength) {c : ClaimsTable} {code : ResultCode} {payload : List Field}
    (hbody : body (s.answering rq.port) = ({ s.answering rq.port with claims := c }, some ⟨code, payload⟩)) :
    s.take rq kind body = ({ s with claims := c } : State).answered rq kind code payload := by
  rw [State.take_ready hr hi hl hbody]
  exact State.respondOn_answering { s with claims := c } rq kind code payload

/-- A request is NOT_PERMITTED to every role outside those that hold it. -/
theorem State.refusesOthers_of_permits {roles : List Role} (hexec : exec i s = .next (s.take rq kind body))
    (hkind : ∀ r : Role, r ∉ roles → requestPermits kind r = false) : s.refusesOthers rq kind i roles := by
  intro hload hidle hrole
  rw [hexec, State.take_notPermitted hload hidle (hkind _ hrole)]

end Take

theorem okOrClamped_decide (value : Nat) :
    okOrClamped (decide (claimLimit < value)) = if 60000 < value then .okClamped else .ok :=
  if_congr decide_eq_true_iff rfl rfl

theorem setSetpoint_adopting {s : State} (p : Port) (value : Nat) (hs : s.line.state = some .adopting) :
    setSetpoint p value s = refuse s .badState := by
  simp only [setSetpoint, hs]

/-- SET_SETPOINT's own rule outside ADOPTING (R28). -/
theorem setSetpoint_written {s : State} {l : LineState} (p : Port) (value : Nat) (hs : s.line.state = some l)
    (hl : l ≠ .adopting) :
    setSetpoint p value s =
      answer { s with claims := { s.claims with
        setpoint :=
          { active := true, value := min value 60000, writer := some p
            changed := if s.claims.setpoint.value = min value 60000 ∧ s.claims.adopted = false then
              s.claims.setpoint.changed else s.timeBase }
        adopted := false } } (if 60000 < value then .okClamped else .ok) := by
  rw [← okOrClamped_decide]
  cases l with
  | adopting => exact absurd rfl hl
  | standby | starting | regulating | hold | stopping | tripped => simp only [setSetpoint, hs]; rfl

/-- Settles O13: the rule's two cases, each under the answer to the request. -/
theorem setpointTakesTheClampedValue : Obligations.SetpointTakesTheClampedValue := by
  intro rq value s
  have hexec : exec (.setSetpoint rq value) s = .next (s.take rq .setSetpoint (setSetpoint rq.port value)) := rfl
  refine ⟨State.refusesOthers_of_permits hexec (by intro r; cases r <;> simp [requestPermits]), fun hr =>
    ⟨fun hs => ?_, fun l hs hl => ?_⟩⟩
  · rw [hexec, State.take_answered (i := .setSetpoint rq value) hr rfl rfl]
    exact setSetpoint_adopting (s := s.answering rq.port) rq.port value hs
  · rw [hexec, State.take_claims (i := .setSetpoint rq value) hr rfl rfl]
    exact setSetpoint_written (s := s.answering rq.port) rq.port value hs hl

/-! ### CUTOUT and SERVICE (R29, R30) -/

section Limits

variable {s : State} {i : Instr} {rq : Req} {kind : ReqKind} (slot : ClaimSlot)
  (hr : s.ready i) (hi : i.request? = some (rq, kind)) (hl : i.requiredLength = some kind.payloadLength)
include hr hi hl

/-- A SET of a slot, replaced or not, writes that slot (R29). -/
theorem take_setLimit (value : Nat) :
    s.take rq kind (setLimit slot rq.port value) =
      ({ s with claims := s.claims.set slot ((s.claims.get slot).setBy s.timeBase value rq.port) } : State).answered rq kind
        (if 60000 < value then .okClamped else .ok) [] := by
  rw [← okOrClamped_decide]
  exact State.take_claims hr hi hl rfl

/-- A RELEASE of an active slot writes that slot, and of an inactive one is NOT_SET (R29). -/
theorem take_releaseLimit :
    s.take rq kind (releaseLimit slot rq.port) =
      if (s.claims.get slot).active then
        ({ s with claims := s.claims.set slot ((s.claims.get slot).releaseBy s.timeBase rq.port) } : State).answered rq kind
          .ok []
      else s.answered rq kind .notSet [] := by
  split
  · next h => exact State.take_claims hr hi hl (if_pos h)
  · next h => exact State.take_answered hr hi hl (if_neg h)

end Limits

/-- Settles O14: SET and RELEASE as they write their slot, for either slot, and the roles that hold the four requests. -/
theorem cutoutAndServiceLimitsAreSetAndReleased : Obligations.CutoutAndServiceLimitsAreSetAndReleased := by
  intro rq value s
  refine ⟨fun hr => ?_, fun hr => ?_, fun hr => ?_, fun hr => ?_, ?_, ?_, ?_, ?_⟩
  · exact congrArg _ (take_setLimit .cutout hr rfl rfl value)
  · exact congrArg _ (take_setLimit .service hr rfl rfl value)
  · exact congrArg _ (take_releaseLimit .cutout hr rfl rfl)
  · exact congrArg _ (take_releaseLimit .service hr rfl rfl)
  all_goals exact State.refusesOthers_of_permits rfl (by intro r; cases r <;> simp [requestPermits])

/-! ### The ramp of REGULATING (R37 to R40) -/

theorem State.ownStep_regulating {s : State} (hs : s.line.state = some .regulating) :
    s.ownStep.1 = s.setICmd (rampStep s.line.iCmd s.line.target s.line.governing s.line.aeHold s.config.upRate
      s.config.downRate) := by
  simp only [State.ownStep, hs]

/-- I_cmd at the end of an expiry in REGULATING is one ramp step on from the I_cmd before it, by the target, the governing claim
and the AE hold of that expiry (R32, R37). -/
theorem allocationExpiry_ramp {s : State} (hresp : s.responsesAllowed) (hs : s.line.state = some .regulating) :
    s.begin.allocationExpiry.line.iCmd =
      rampStep s.line.iCmd s.begin.allocationExpiry.line.target s.begin.allocationExpiry.line.governing
        s.begin.allocationExpiry.line.aeHold s.config.upRate s.config.downRate := by
  have hb : s.begin.responsesAllowed := hresp
  have hstate : s.begin.aimed.line.state = some .regulating := by rw [State.aimed_line]; exact hs
  have hi : s.begin.aimed.line.iCmd = s.line.iCmd := by rw [State.aimed_line]; rfl
  have hc : s.begin.aimed.config = s.config := s.begin.aimed_keeps .config (by decide)
  have hown := State.ownStep_regulating hstate
  have haim := State.allocationExpiry_aimKept hb
  rw [(State.allocationExpiry_line hb (l := .regulating) (by rw [hown]; exact hstate) rfl).1, hown, haim.target,
    haim.governing, haim.aeHold, ← hi, ← hc]
  rfl

/-- Settles O15: the outcome of the target step comes to the end of the expiry, and the ramp step there follows the row of
Table 2-3. -/
theorem regulatingRampFollowsTheTarget : Obligations.RegulatingRampFollowsTheTarget := by
  intro s d hresp hs ht
  obtain ⟨hleast, htarget, hhold, htimer⟩ := allocationExpiry_aims hresp
  refine ⟨_, execAllocationTimerExpiry_eq ht, hleast, htarget, hhold, ?_⟩
  rw [allocationExpiry_ramp hresp hs]
  generalize s.begin.allocationExpiry.line.target = target
  refine ⟨fun hlt h => ?_, fun hlt h => ?_, fun heq => ?_, fun hgt h => ?_, fun hgt h => ?_, htimer⟩
  · rw [rampStep, if_pos hlt, h]; rfl
  · rw [rampStep, if_pos hlt, h]; rfl
  · rw [rampStep, if_neg (by omega), if_neg (by omega)]
  · rw [rampStep, if_neg (by omega), if_pos hgt, if_neg h]
  · rw [rampStep, if_neg (by omega), if_pos hgt, if_pos h]

end Sys2Proof.Machine
end

