-- ==== Sys2Proof/Proofs/UnitOperations.lean ====
section
/-! The units reach the line, the configuration, the claims, the fault table, the frame store and the configuration store only
through onsets, departures, claim writes and frame pushes: a condition on those parts that these operations keep is kept by every
operation of the anode-effect unit, the scan receiver, the curtailment and metering units, the cooling supervisor and the group
interfaces. -/

namespace Sys2Proof.Machine

/-- The parts that no unit writes by itself. -/
def State.shared (s : State) : Line × Configuration × ClaimsTable × FaultUnit × SnapshotStack × Store :=
  (s.line, s.config, s.claims, s.faults, s.stack, s.store)

theorem State.keepsAllBut.shared {s t : State} {l : List Part} (h : s.keepsAllBut t l)
    (hl : ∀ p ∈ [Part.line, .config, .claims, .faults, .stack, .store], p ∉ l) : t.shared = s.shared := by
  unfold State.shared
  rw [show t.line = s.line from h .line (hl _ (by simp)), show t.config = s.config from h .config (hl _ (by simp)),
    show t.claims = s.claims from h .claims (hl _ (by simp)), show t.faults = s.faults from h .faults (hl _ (by simp)),
    show t.stack = s.stack from h .stack (hl _ (by simp)), show t.store = s.store from h .store (hl _ (by simp))]

/-- A condition on the shared parts that each of the operations by which a unit reaches them keeps. -/
structure KeptByUnits (P : State → Prop) : Prop where
  apart : ∀ {s t : State}, P s → t.shared = s.shared → P t
  writeClaim : ∀ {s : State} (slot : ClaimSlot) (v : Nat), P s → P (s.writeClaim slot v)
  withdrawClaim : ∀ {s : State} (slot : ClaimSlot), P s → P (s.withdrawClaim slot)
  push : ∀ {s : State} (cause : FrameCause), P s → P (s.push cause)
  departure : ∀ {s : State} (id : FaultId), P s → P (s.departure id)
  onset : ∀ {s : State} (id : FaultId) (detail : Option Detail), P s → P (s.onset id detail)

namespace KeptByUnits

variable {P : State → Prop} (k : KeptByUnits P) {s : State}
include k

theorem conditionChange (id : FaultId) (before after : Bool) (detail : Option Detail) (hs : P s) :
    P (s.conditionChange id before after detail) := by
  unfold State.conditionChange
  split
  · exact k.onset _ _ hs
  · exact k.departure _ hs
  · exact hs
  · exact hs

theorem setService (g : Group) (new : ServiceState) (c : GroupCause) (hs : P s) : P (s.setService g new c) :=
  k.apart hs ((s.setService_keeps g new c).shared (by decide))

theorem modCool (g : Group) (f : GroupCooling → GroupCooling) (hs : P s) : P (s.modCool g f) := k.apart hs rfl

theorem modPot (i : Nat) (f : Pot → Pot) (hs : P s) : P (s.modPot i f) := k.apart hs rfl

theorem modInterval (f : Interval → Interval) (hs : P s) : P (s.modInterval f) := k.apart hs rfl

theorem curtail (c : Curtailment) (hs : P s) : P { s with curtail := c } := k.apart hs rfl

theorem metering (m : Metering) (hs : P s) : P { s with metering := m } := k.apart hs rfl

/-- A change of a group's record with the change of its service state that follows. -/
theorem serve (g : Group) (f : GroupRecord → GroupRecord) (new : ServiceState) (c : GroupCause) (hs : P s) :
    P ((s.modGroup g f).setService g new c) :=
  k.setService g new c (k.apart hs rfl)

/-! ### The anode-effect unit -/

theorem createRecord (pot peak : Nat) (original : Option Nat) (hs : P s) : P (s.createRecord pot peak original) := by
  cases original with
  | none | some _ =>
    unfold State.createRecord State.captureAe
    dsimp only
    split
    · exact k.push _ (k.apart hs rfl)
    · exact k.apart hs rfl

theorem takeOnset (pot peak : Nat) (hs : P s) : P (s.takeOnset pot peak) := by
  unfold State.takeOnset State.overflowOnset
  simp only
  split
  · exact k.createRecord _ _ _ hs
  · split
    · exact k.apart hs rfl
    · exact k.onset _ _ (k.apart hs rfl)

theorem evaluateStorm (hs : P s) : P s.evaluateStorm := by
  unfold State.evaluateStorm
  split
  · exact k.departure _ (k.apart hs rfl)
  · exact hs

theorem evaluateUnquenched (hs : P s) : P s.evaluateUnquenched := by
  unfold State.evaluateUnquenched
  split
  · exact k.departure _ (k.apart hs rfl)
  · exact hs

theorem promote (hs : P s) : P s.promote := by
  unfold State.promote
  split
  · exact hs
  · exact k.createRecord _ _ _ (k.apart hs rfl)

theorem endAe (pot : Nat) (reason : EndReason) (hs : P s) : P (s.endAe pot reason) := by
  unfold State.endAe
  split
  · exact k.evaluateStorm (k.promote (k.evaluateUnquenched (k.apart hs rfl)))
  · split
    · exact k.evaluateStorm (k.apart hs rfl)
    · exact hs

theorem detectOnset (pot : Nat) (hs : P s) : P (s.detectOnset pot) := by
  unfold State.detectOnset
  simp only
  split
  · split
    · exact k.takeOnset _ _ (k.apart hs rfl)
    · exact k.apart hs rfl
  · exact k.apart hs rfl

theorem detectEnd (pot : Nat) (hs : P s) : P (s.detectEnd pot) := by
  unfold State.detectEnd
  simp only
  split
  · split
    · exact k.endAe _ _ (k.apart hs rfl)
    · exact k.apart hs rfl
  · exact k.apart hs rfl

theorem evaluateAe (pot : Nat) (hs : P s) : P (s.evaluateAe pot) := by
  unfold State.evaluateAe
  split
  · exact k.detectOnset _ hs
  · exact k.detectOnset _ hs
  · exact k.detectEnd _ hs
  · exact k.detectEnd _ hs

theorem nextAttempt (r : AeRecord) (hs : P s) : P (s.nextAttempt r) := by
  unfold State.nextAttempt State.exhaust
  simp only
  split
  · exact k.apart hs rfl
  · split
    · exact k.apart hs rfl
    · exact k.onset _ _ (k.apart hs rfl)

theorem startQuench (r : AeRecord) (hs : P s) : P (Machine.startQuench r s).1 := by
  unfold Machine.startQuench
  split
  · exact k.apart hs rfl
  · exact hs

/-! ### The scan receiver -/

theorem evaluateStale (hs : P s) : P s.evaluateStale := by
  unfold State.evaluateStale
  split
  · exact k.conditionChange _ _ _ _ (k.apart hs rfl)
  · exact hs

theorem restale (hs : P s) : P s.restale := k.evaluateStale (k.apart hs rfl)

theorem bandTest (i : Nat) (hs : P s) : P (s.bandTest i) := k.apart hs ((s.bandTest_keeps i).shared (by decide))

theorem sampleInCircuit (i voltage : Nat) (hs : P s) : P (s.sampleInCircuit i voltage) := by
  unfold State.sampleInCircuit
  refine k.evaluateAe i (k.bandTest i ?_)
  split
  · exact k.restale (k.apart hs rfl)
  · exact k.apart hs rfl

theorem sample (sectionNo position voltage : Nat) (hs : P s) : P (s.sample sectionNo position voltage) := by
  unfold State.sample
  split
  · exact k.apart hs rfl
  · dsimp only
    split
    · exact k.sampleInCircuit _ _ hs
    · exact k.apart hs rfl

theorem cutOut (i : Nat) (hs : P s) : P (s.cutOut i) := k.restale (k.modPot _ _ (k.endAe i .cutOut (k.modPot _ _ hs)))

theorem cutIn (i : Nat) (hs : P s) : P (s.cutIn i) := k.restale (k.apart hs rfl)

/-! ### Curtailment -/

theorem writeCurtail (hs : P s) : P s.writeCurtail := by
  unfold State.writeCurtail
  split
  · exact k.withdrawClaim _ hs
  · split <;> exact k.writeClaim _ _ (k.apart hs rfl)

theorem activateOrder (o : CurtailOrder) (hs : P s) : P (s.activateOrder o) := k.writeCurtail (k.apart hs rfl)

theorem emptyEnforced (hs : P s) : P s.emptyEnforced := by
  unfold State.emptyEnforced
  split
  · exact k.conditionChange _ _ _ _ (k.apart hs rfl)
  · exact hs

theorem removeOrder (o : CurtailOrder) (state : OrderState) (hs : P s) : P (s.removeOrder o state) := by
  unfold State.removeOrder
  dsimp only
  split
  · exact k.emptyEnforced (k.writeCurtail (k.apart hs rfl))
  all_goals exact k.apart hs rfl

theorem postOrder (p : Port) (tag delay duration ceiling : Nat) (hs : P s) :
    P (Machine.postOrder p tag delay duration ceiling s).1 := by
  unfold Machine.postOrder
  iterate 3 (split; exact hs)
  dsimp only [answer]
  split
  · exact k.activateOrder _ (k.apart hs rfl)
  · exact k.apart hs rfl

theorem cancelOrder (tag : Nat) (hs : P s) : P (Machine.cancelOrder tag s).1 := by
  unfold Machine.cancelOrder
  split
  · exact hs
  · split
    · exact hs
    · exact k.removeOrder _ _ hs

theorem complianceTest (pBill : Nat) (hs : P s) : P (s.complianceTest pBill) := by
  unfold State.complianceTest
  split
  · exact k.apart hs rfl
  · split
    · split
      · exact hs
      · split
        · exact k.modInterval _ (k.onset _ _ (k.curtail _ hs))
        · exact k.apart hs rfl
    · split
      · exact k.departure _ (k.apart hs rfl)
      · exact k.apart hs rfl

theorem curtailHandoff (u pBill : Nat) (hs : P s) : P (s.curtailHandoff u pBill) := by
  unfold State.curtailHandoff
  refine k.complianceTest _ (k.curtail _ ?_)
  dsimp only
  split
  · exact k.apart hs rfl
  · exact k.writeCurtail (k.apart hs rfl)

/-! ### Metering -/

theorem closeInterval (i : Interval) (short unsynced : Bool) (hs : P s) : P (s.closeInterval i short unsynced) := by
  unfold State.closeInterval State.endExceedance
  refine k.metering _ ?_
  dsimp only
  split
  · exact k.departure _ (k.apart hs rfl)
  · exact k.apart hs rfl

theorem noteClosed (hs : P s) : P s.noteClosed := by
  unfold State.noteClosed
  split
  · exact k.apart hs rfl
  · exact hs

theorem exceedanceTest (hs : P s) : P s.exceedanceTest := by
  unfold State.exceedanceTest
  split
  · exact hs
  · dsimp only
    split
    · exact k.onset _ _ (k.apart hs rfl)
    · exact k.apart hs rfl

theorem demandStep (hs : P s) : P s.demandStep := by
  unfold State.demandStep
  split
  · exact hs
  · split
    · exact k.writeClaim _ _ (k.apart hs rfl)
    · exact k.withdrawClaim _ (k.apart hs rfl)

theorem meteringExpiry (hs : P s) : P s.meteringExpiry :=
  k.curtailHandoff _ _ (k.demandStep (k.exceedanceTest (k.apart hs rfl)))

/-! ### The input monitor and the cooling supervisor -/

theorem retestPattern (g : Group) (hs : P s) : P (s.retestPattern g) := by
  unfold State.retestPattern
  dsimp only
  split
  · exact k.conditionChange _ _ _ _ (k.apart hs rfl)
  · exact hs

theorem protectionTest (g : Group) (hs : P s) : P (s.protectionTest g) := by
  unfold State.protectionTest
  split
  · exact k.conditionChange _ _ _ _ (k.apart hs rfl)
  · exact hs

theorem frameMismatch (g : Group) (current : Nat) (hs : P s) : P (s.frameMismatch g current) := by
  unfold State.frameMismatch
  exact k.conditionChange _ _ _ _ (k.apart hs (by split <;> split <;> rfl))

theorem pumpTest (g : Group) (hs : P s) : P (s.pumpTest g) := by
  unfold State.pumpTest
  split
  · split
    · split
      · exact k.apart hs rfl
      · exact hs
    · split
      · exact hs
      · exact k.apart hs rfl
    · split
      · exact hs
      · exact k.modCool _ _ (k.departure _ (k.modCool _ _ hs))
  · exact hs

theorem warningTest (g : Group) (outlet : Int) (hs : P s) : P (s.warningTest g outlet) := by
  unfold State.warningTest
  split
  · exact k.apart hs rfl
  · exact hs

theorem overtempTest (g : Group) (outlet : Int) (hs : P s) : P (s.overtempTest g outlet) :=
  k.conditionChange _ _ _ _ (k.apart hs rfl)

theorem graceExpired (g : Group) (hs : P s) : P (s.graceExpired g) := k.onset _ _ (k.apart hs rfl)

/-! ### The group interfaces -/

theorem linkReturn (g : Group) (hs : P s) : P (s.linkReturn g) := by
  unfold State.linkReturn
  split
  · exact k.setService _ _ _ (k.departure _ hs)
  all_goals exact hs

theorem trackingCheck (g : Group) (f : StatusFrame) (hs : P s) : P (s.trackingCheck g f) := by
  unfold State.trackingCheck
  dsimp only
  split
  · exact hs
  · split
    · split
      · exact k.apart hs rfl
      · exact hs
    · exact k.departure _ (k.apart hs rfl)

theorem takeFrame (g : Group) (f : StatusFrame) (hs : P s) : P (s.takeFrame g f) := by
  have linked : P (((s.storeFrame g f).linkReturn g).trackingCheck g f) :=
    k.trackingCheck g f (k.linkReturn g (k.apart hs rfl))
  have monitored : P ((((s.storeFrame g f).linkReturn g).trackingCheck g f).monitorFrame g f) :=
    k.pumpTest g (k.protectionTest g (k.frameMismatch g f.current (k.apart linked rfl)))
  exact k.overtempTest g f.outlet (k.warningTest g f.outlet (k.apart monitored rfl))

theorem linkLoss (g : Group) (hs : P s) : P (s.linkLoss g) := by
  unfold State.linkLoss
  have h1 := k.setService g .linkLost .link (k.apart (t := s.endRamps g) hs rfl)
  exact k.onset _ _ (k.apart h1 (by split <;> rfl))

theorem trackingExpired (g : Group) (hs : P s) : P (s.trackingExpired g) := k.onset _ _ (k.apart hs rfl)

theorem join (g : Group) (hs : P s) : P (s.join g).1 := by
  unfold State.join
  split
  · exact k.serve g _ _ _ hs
  · exact k.serve g _ _ _ hs
  all_goals exact hs

theorem leave (g : Group) (hs : P s) : P (s.leave g).1 := by
  unfold State.leave
  split
  iterate 2
    · split
      · exact k.serve g _ _ _ hs
      · exact hs
  all_goals exact hs

theorem select (g : Group) (wanted : Bool) (hs : P s) : P (s.select g wanted).1 := by
  unfold State.select
  split
  iterate 2 exact k.setService g _ _ hs
  iterate 4 exact hs
  iterate 2 exact k.setService g _ _ hs
  iterate 2 exact hs

theorem setGroupService (group mode : Nat) (hs : P s) : P (Machine.setGroupService group mode s).1 := by
  unfold Machine.setGroupService
  split
  · exact hs
  · split
    · exact hs
    · split
      · split
        · exact k.join _ hs
        · exact k.leave _ hs
      · split
        · exact k.select _ _ hs
        · exact hs

theorem restoreGroup (group : Nat) (hs : P s) : P (Machine.restoreGroup group s).1 := by
  unfold Machine.restoreGroup
  split
  · exact hs
  · split
    · exact hs
    · split
      · exact hs
      · exact k.setService _ _ _ hs

end KeptByUnits

end Sys2Proof.Machine
end

