-- ==== Sys2Proof/Proofs/UnitCommands.lean ====
section
/-! A condition of the kind of `KeptByUnits` is kept by the commands that reach the shared parts through the units alone, and by
the items of WRITE_CONFIG once a write of the configuration keeps it. -/

namespace Sys2Proof.Machine

/-- The commands whose own rule writes the line, the configuration, the claims, the fault table, the frame store or the
configuration store by itself. -/
def writesShared : Instr → Bool
  | .powerOnReset _ | .configLoadComplete | .responseSent _ | .startLine _ | .stopLine _ | .resetTrip _ | .setSetpoint _ _
  | .setCutoutLimit _ _ | .releaseCutoutLimit _ | .setServiceLimit _ _ | .releaseServiceLimit _ | .clearFault _ _ _
  | .dropTop _ _ | .dropAll _ | .saveConfig _ | .saveComplete | .writeConfig _ _ _ _ | .allocationTimerExpiry
  | .adoptWindowClose | .snapshotWriteComplete => true
  | _ => false

namespace KeptByUnits

variable {P : State → Prop} (k : KeptByUnits P) {s : State}
include k

/-! ### Requests -/

theorem modPort (p : Port) (f : PortRecord → PortRecord) (hs : P s) : P (s.modPort p f) := k.apart hs rfl

theorem takeRequest {rq : Req} {kind : ReqKind} {length : Option Nat} {body : State → State × Option Answer}
    (hbody : ∀ t : State, P t → P (body t).1) (hs : P s) : P (s.takeRequest rq kind length body) := by
  have h0 : P (s.arrive rq.port) := k.apart hs rfl
  unfold State.takeRequest
  dsimp only
  split
  · exact k.modPort _ _ h0
  · exact k.modPort _ _ h0
  · split
    · exact k.modPort _ _ h0
    · split
      · exact k.apart h0 rfl
      · split
        · exact k.apart h0 rfl
        · have h1 := hbody _ (k.modPort rq.port (fun q => { q with request := .answering }) h0)
          split
          · next he => rw [he] at h1; exact k.modPort _ _ h1
          · next he => rw [he] at h1; exact h1

/-- A request, whatever its own rule does among the operations of the units. -/
theorem request {rq : Req} {kind : ReqKind} {body : State → State × Option Answer}
    (hbody : ∀ t : State, P t → P (body t).1) (hs : P s) {t : State}
    (h : (Host.Outcome.next (s.take rq kind body) : Host.Outcome State Fault Refusal) = .next t) : P t := by
  cases h
  exact k.takeRequest hbody hs

/-- A request whose own rule leaves the shared parts. -/
theorem read {rq : Req} {kind : ReqKind} {body : State → State × Option Answer}
    (hbody : ∀ t : State, (body t).1.shared = t.shared) (hs : P s) {t : State}
    (h : (Host.Outcome.next (s.take rq kind body) : Host.Outcome State Fault Refusal) = .next t) : P t :=
  k.request (fun u hu => k.apart hu (hbody u)) hs h

end KeptByUnits

/-! ### Commands that leave the shared parts -/

section Quiet

variable {s t : State}

theorem execBadRequestFrame_shared {p : Port} {bytes : List Byte} (h : execBadRequestFrame p bytes s = .next t) :
    t.shared = s.shared := by
  unfold execBadRequestFrame at h
  dsimp only at h
  split at h <;> cases h <;> rfl

theorem execGapTimerExpiry_shared {p : Port} {bytes : List Byte} (h : execGapTimerExpiry p bytes s = .next t) :
    t.shared = s.shared := by
  unfold execGapTimerExpiry at h
  dsimp only at h
  split at h <;> cases h <;> rfl

theorem execRequestWhileBusy_shared {p : Port} {tag kind : Nat} (h : execRequestWhileBusy p tag kind s = .next t) :
    t.shared = s.shared := by
  unfold execRequestWhileBusy at h
  dsimp only at h
  split at h
  · cases h; rfl
  · cases h; rfl
  · split at h <;> cases h <;> rfl

theorem execUnknownKindRequest_shared {p : Port} {tag kind : Nat} (h : execUnknownKindRequest p tag kind s = .next t) :
    t.shared = s.shared := by
  unfold execUnknownKindRequest at h
  dsimp only at h
  split at h <;> cases h <;> rfl

theorem setCursor_shared (p : Port) (target position direction : Nat) (s : State) :
    (setCursor p target position direction s).1.shared = s.shared := by
  unfold setCursor
  split
  · dsimp only
    split
    · split <;> rfl
    · split
      · rfl
      · split <;> rfl
  · rfl

theorem readFrame_shared (selector : FrameSelector) (s : State) : (readFrame selector s).1.shared = s.shared := by
  unfold readFrame
  split
  · split <;> rfl
  · split
    · rfl
    · split <;> rfl

theorem readGroupStatus_shared (p : Port) (n : Nat) (s : State) : (readGroupStatus p n s).1.shared = s.shared := by
  unfold readGroupStatus
  split
  · rfl
  · dsimp only [answerWith]
    split <;> rfl

end Quiet

namespace KeptByUnits

variable {P : State → Prop} (k : KeptByUnits P) {s : State}
include k

/-! ### Timed commands and frames -/

theorem begin (hs : P s) : P s.begin := k.apart hs rfl

/-- A frame that is discarded during the load (R190). -/
theorem unlessLoading {f : State → State} (hf : ∀ u : State, P u → P (f u)) (hs : P s) {t : State}
    (h : (if s.begin.loading then Host.Outcome.next s.begin else .next (f s.begin) : Host.Outcome State Fault Refusal) =
      .next t) : P t := by
  split at h <;> cases h
  · exact k.begin hs
  · exact hf _ (k.begin hs)

theorem statusFrame (g : Group) (frame : GroupFrame) (hs : P s) {t : State} (h : execStatusFrame g frame s = .next t) :
    P t := by
  cases frame with
  | bad => cases h; exact k.begin hs
  | good f => exact k.unlessLoading (fun _ => k.takeFrame g (saturateFrame f)) hs h

theorem syncPulse (hs : P s) {t : State} (h : execSyncPulse s = .next t) : P t := by
  have h0 := k.begin hs
  unfold execSyncPulse at h
  dsimp only at h
  split at h
  · split at h <;> cases h
    · exact k.noteClosed (k.apart h0 rfl)
    · exact k.apart h0 rfl
  · split at h <;> cases h
    · exact h0
    · exact k.metering _ (k.noteClosed (k.closeInterval _ _ _ h0))

theorem syncWindowExpiry (hs : P s) {t : State} (h : execSyncWindowExpiry s = .next t) : P t := by
  have h0 := k.begin hs
  unfold execSyncWindowExpiry at h
  dsimp only at h
  split at h
  · cases h; exact h0
  · split at h <;> cases h
    · exact k.noteClosed (k.apart h0 rfl)
    · exact k.apart h0 rfl

theorem setClock (day tod : Nat) (hs : P s) : P (Machine.setClock day tod s).1 := by
  unfold Machine.setClock
  split
  · exact hs
  · exact k.apart hs rfl

/-- Every command but those that write the shared parts by themselves keeps the condition. -/
theorem exec {c : Instr} (hc : writesShared c = false) (hs : P s) {t : State} (h : Machine.exec c s = .next t) : P t := by
  cases c with
  | powerOnReset | configLoadComplete | responseSent | startLine | stopLine | resetTrip | setSetpoint | setCutoutLimit
  | releaseCutoutLimit | setServiceLimit | releaseServiceLimit | clearFault | dropTop | dropAll | saveConfig | saveComplete
  | writeConfig | allocationTimerExpiry | adoptWindowClose | snapshotWriteComplete => cases hc
  | badRequestFrame p bytes => exact k.apart hs (execBadRequestFrame_shared h)
  | gapTimerExpiry p bytes => exact k.apart hs (execGapTimerExpiry_shared h)
  | requestWhileBusy p tag kind => exact k.apart hs (execRequestWhileBusy_shared h)
  | unknownKindRequest p tag kind => exact k.apart hs (execUnknownKindRequest_shared h)
  | setGroupService rq group mode => exact k.request (fun _ => k.setGroupService group mode) hs h
  | restoreGroup rq group => exact k.request (fun _ => k.restoreGroup group) hs h
  | cutOutPot rq i => exact k.request (fun _ => Kept.switchPot _ (apply := State.cutOut) (fun _ i => k.cutOut i) i) hs h
  | cutInPot rq i => exact k.request (fun _ => Kept.switchPot _ (apply := State.cutIn) (fun _ i => k.cutIn i) i) hs h
  | quenchStarted rq id n => exact k.request (fun _ => Kept.quenchReply id n (fun r _ => k.startQuench r)) hs h
  | quenchFailed rq id n => exact k.request (fun _ => Kept.quenchReply id n (fun r _ => k.nextAttempt r)) hs h
  | setClock rq day tod => exact k.request (fun _ => k.setClock day tod) hs h
  | postOrder rq tag delay duration ceiling =>
    exact k.request (fun _ => k.postOrder rq.port tag delay duration ceiling) hs h
  | cancelOrder rq tag => exact k.request (fun _ => k.cancelOrder tag) hs h
  | restart => exact k.read (body := requestRestart) (fun _ => by unfold requestRestart; split <;> rfl) hs h
  | readConfig rq code index => exact k.read (body := readConfig code index) (fun _ => by unfold readConfig; split <;> rfl) hs h
  | readLineStatus | readClaims | readAllocation | readAeList | readMetering | readOrders | readFaults | readStackStatus
  | readScanStatus | readPortStatus | fetchNotices => exact k.read (fun _ => rfl) hs h
  | readGroupStatus rq n => exact k.read (readGroupStatus_shared rq.port n) hs h
  | readCooling rq n => exact k.read (body := readCooling n) (fun _ => by unfold readCooling; split <;> rfl) hs h
  | readPot rq i => exact k.read (body := readPot i) (fun _ => by unfold readPot; split <;> rfl) hs h
  | readFault rq a b => exact k.read (body := readFault a b) (fun _ => by unfold readFault; split <;> rfl) hs h
  | readFrame rq selector => exact k.read (readFrame_shared selector) hs h
  | setCursor rq a b d => exact k.read (setCursor_shared rq.port a b d) hs h
  | readNext rq =>
    exact k.read (body := readNext rq.port) (fun _ => by unfold readNext; dsimp only; split <;> rfl) hs h
  | linkTimerExpiry g =>
    obtain rfl | rfl := execLinkTimerExpiry_cases g h
    exacts [k.begin hs, k.linkLoss g (k.begin hs)]
  | trackingTimerExpiry g =>
    obtain rfl | rfl := execTrackingTimerExpiry_cases g h
    exacts [k.begin hs, k.trackingExpired g (k.begin hs)]
  | graceTimerExpiry g =>
    obtain rfl | rfl := execGraceTimerExpiry_cases g h
    exacts [k.begin hs, k.graceExpired g (k.begin hs)]
  | statusFrame g frame => exact k.statusFrame g frame hs h
  | sampleFrame a b v => exact k.unlessLoading (fun _ => k.sample a b v) hs h
  | scanFrameBad =>
    exact k.unlessLoading (f := fun u => { u with scan := { u.scan with checkFlag := true } }) (fun _ hu => k.apart hu rfl) hs h
  | cycleMarker => exact k.unlessLoading (f := State.marker) (fun _ hu => k.restale (k.apart hu rfl)) hs h
  | markerTimerExpiry =>
    obtain rfl | rfl := execMarkerTimerExpiry_cases h
    exacts [k.begin hs, k.restale (k.apart hs rfl)]
  | meteringTimerExpiry =>
    obtain rfl | rfl := execMeteringTimerExpiry_cases h
    exacts [k.begin hs, k.meteringExpiry (k.begin hs)]
  | intervalDeadlineExpiry =>
    obtain rfl | ⟨i, rfl⟩ := execIntervalDeadlineExpiry_cases h
    exacts [k.begin hs, k.metering _ (k.closeInterval i _ _ (k.begin hs))]
  | syncPulse => exact k.syncPulse hs h
  | syncWindowExpiry => exact k.syncWindowExpiry hs h
  | ackTimerExpiry id =>
    obtain rfl | ⟨r, rfl⟩ := execAckTimerExpiry_cases id h
    exacts [k.begin hs, k.nextAttempt r (k.begin hs)]
  | quenchTimerExpiry id =>
    obtain rfl | ⟨r, rfl⟩ := execQuenchTimerExpiry_cases id h
    exacts [k.begin hs, k.nextAttempt r (k.begin hs)]
  | orderStartDeadline tag =>
    obtain rfl | ⟨o, rfl⟩ := execOrderStartDeadline_cases tag h
    exacts [k.begin hs, k.activateOrder o (k.begin hs)]
  | orderEndDeadline tag =>
    obtain rfl | ⟨o, rfl⟩ := execOrderEndDeadline_cases tag h
    exacts [k.begin hs, k.removeOrder o _ (k.begin hs)]

/-- A condition of this kind is kept by every step, if the commands that write the shared parts by themselves keep it. -/
theorem keptByStep
    (hwrites : ∀ {c : Instr} {s t : State}, writesShared c = true → P s → Machine.exec c s = .next t → P t) :
    Machine.keptByStep P := by
  intro s t hs h
  unfold step at h
  split at h
  · cases h
    unfold State.tick
    split <;> exact k.apart hs rfl
  · next c rest _ =>
    have hs' : P { s with pending := rest } := k.apart hs rfl
    cases hc : writesShared c with
    | true => exact hwrites hc hs' h
    | false => exact k.exec hc hs' h

/-! ### WRITE_CONFIG (R187) -/

section WriteConfig

/-! The floor and the rows of the action table have rules of their own (R36, R157); a write of any other item leaves them. -/

variable (hmod : ∀ {t : State} (f : Configuration → Configuration), (f t.config).floor = t.config.floor →
  (f t.config).actions = t.config.actions → P t → P (t.modConfig f))
include hmod

omit k in
/-- A group's item written, with what follows the write. -/
theorem groupItem {index : Nat} {clamped : Bool} {f : GroupConfig → GroupConfig} (after : State → Group → State)
    (ha : ∀ (t : State) (g : Group), P t → P (after t g)) (hs : P s) :
    (Machine.groupItem s index clamped fun t g => after (t.modGroupConfig g f) g).meets P :=
  Kept.groupItem (fun _ g ht => ha _ g (hmod _ rfl rfl ht)) hs

theorem writeDerate (table : Eight (Int × Nat)) (hs : P s) : (Machine.writeDerate s table).meets P := by
  unfold Machine.writeDerate
  dsimp only
  split
  · exact State.eachGroup_kept P (f := State.rederive) (fun _ _ ht => k.apart ht rfl) (hmod _ rfl rfl hs)
  · trivial

theorem writeSection (index origin length : Nat) (hs : P s) : (Machine.writeSection s index origin length).meets P := by
  unfold Machine.writeSection
  split
  · next h =>
    have h1 : P (s.modConfig fun c => { c with sections := s.config.sections.set ⟨index, h⟩ ⟨origin, length⟩ }) :=
      hmod _ rfl rfl hs
    dsimp only
    iterate 4 (split; trivial)
    exact k.restale (k.apart h1 rfl)
  · trivial

omit hmod in
theorem bandRetest (hs : P s) : P s.bandRetest := by
  refine List.foldlRecOn _ _ hs fun t ht i _ => ?_
  split
  · exact k.bandTest i ht
  · exact ht

/-- Every item keeps the condition, if the floor's and the action table's own rules do. -/
theorem writeItem (hfloor : ∀ v : Nat, (writeFloor s v).meets P)
    (haction : ∀ (index route response percent : Nat) (capture : Bool),
      (writeAction s index route response percent capture).meets P)
    (index : Nat) (item : ItemWrite) (hs : P s) : (Machine.writeItem s index item).meets P := by
  cases item with
  | floor v => exact hfloor v
  | actionRow route response percent capture => exact haction _ _ _ _ _
  | rating | lossFraction => exact groupItem hmod State.recool (fun _ _ ht => k.apart ht rfl) hs
  | weight | resolution | joinRate | leaveRate | trackingTolerance | pumpGrace =>
    exact groupItem hmod noEffect (fun _ _ ht => ht) hs
  | filterCounts t => exact groupItem hmod noEffect (fun _ _ ht => ht) hs
  | expectedPattern | enableMask => exact groupItem hmod State.retestPattern (fun _ g ht => k.retestPattern g ht) hs
  | tripMask => exact groupItem hmod State.protectionTest (fun _ g ht => k.protectionTest g ht) hs
  | derateTable t => exact k.writeDerate hmod t hs
  | sectionDescriptor o l => exact k.writeSection hmod _ o l hs
  | staleLimit v => exact k.evaluateStale (hmod _ rfl rfl hs)
  | warnThreshold v => simp only [Machine.writeItem, writeWarn]; split <;> [trivial; exact hmod _ rfl rfl hs]
  | tripThreshold v => simp only [Machine.writeItem, writeTrip]; split <;> [trivial; exact hmod _ rfl rfl hs]
  | bandSet => simp only [Machine.writeItem, writeBand]; split <;> [trivial; exact k.bandRetest (hmod _ rfl rfl hs)]
  | detectionSet => simp only [Machine.writeItem, writeDetection]; split <;> [trivial; exact hmod _ rfl rfl hs]
  | intervalLength v => simp only [Machine.writeItem, writeIntervalLength]; split <;> [exact hmod _ rfl rfl hs; trivial]
  | tariffWindow =>
    simp only [Machine.writeItem, writeWindow]
    split <;> [(split <;> [trivial; exact hmod _ rfl rfl hs]); trivial]
  | unknown => trivial
  | upRate | downRate | startRate | stopRate | holdOnAe | derateHysteresis | alarmHysteresis | switchingLimit | quenchSet
  | aeCapture | headroomSet | efficiency | demandMargin | guardTime | defaultDemand | demandControl | curtailGrace =>
    exact hmod _ rfl rfl hs

end WriteConfig

end KeptByUnits

end Sys2Proof.Machine
end

