-- ==== Sys2Proof/Proofs/FloorHeld.lean ====
section
/-! I_cmd stays at or above the floor in REGULATING and HOLD after every step (R3, R23, R35, R36, R40). -/

namespace Sys2Proof.Machine

/-! ### What the condition reads -/

/-- The condition after a command that leaves the configuration and the store, from what it makes of the line. -/
theorem State.floorHeld_of_line {s t : State} (hs : s.floorHeld) (hconfig : t.config = s.config) (hstore : t.store = s.store)
    (hline : t.regulates = true → s.config.floor ≤ t.line.iCmd) : t.floorHeld := by
  obtain ⟨-, hrest⟩ := hs
  rw [← hconfig] at hline
  rw [← hconfig, ← hstore] at hrest
  exact ⟨hline, hrest⟩

theorem State.regulates_of_line {s t : State} (h : t.line.state = s.line.state) : t.regulates = s.regulates := by
  simp only [State.regulates, h]

/-- The condition reads the state of the line and I_cmd alone of the line. -/
theorem State.floorHeld_congr {s t : State} (hs : s.floorHeld) (hconfig : t.config = s.config) (hstore : t.store = s.store)
    (hline : t.line.state = s.line.state ∧ t.line.iCmd = s.line.iCmd) : t.floorHeld :=
  State.floorHeld_of_line hs hconfig hstore fun h => by
    rw [State.regulates_of_line hline.1] at h
    rw [hline.2]
    exact hs.1 h

theorem State.floorHeld_of_keeps {s t : State} {l : List Part} (hs : s.floorHeld) (h : s.keepsAllBut t l)
    (hl : Part.config ∉ l ∧ Part.store ∉ l) (hline : t.line.state = s.line.state ∧ t.line.iCmd = s.line.iCmd) :
    t.floorHeld :=
  State.floorHeld_congr hs (h .config hl.1) (h .store hl.2) hline

theorem State.floorHeld.quiet {s t : State} {l : List Part} (hs : s.floorHeld) (h : s.keepsAllBut t l)
    (hl : Part.line ∉ l ∧ Part.config ∉ l ∧ Part.store ∉ l) : t.floorHeld := by
  have hline : t.line = s.line := h .line hl.1
  exact State.floorHeld_of_keeps hs h hl.2 (by rw [hline]; exact ⟨rfl, rfl⟩)

/-! ### Changes of the line state -/

/-- A change of the line state that enters REGULATING or HOLD only with I_cmd at or above the floor. -/
theorem State.floorHeld.setLineState {s : State} (hs : s.floorHeld) {new : LineState} (c : LineCause)
    (hnew : new.regulates = true → s.config.floor ≤ s.line.iCmd) : (s.setLineState new c).floorHeld := by
  have hk := s.setLineState_keeps new c
  refine State.floorHeld_of_line hs (hk .config (by decide)) (hk .store (by decide)) fun h => ?_
  rw [State.regulates, State.setLineState_line] at h
  rw [State.setLineState_line]
  exact hnew h

theorem State.floorHeld.enterBlocked {s : State} (hs : s.floorHeld) {new : LineState} (c : LineCause)
    (hb : new.blocked = true) : (s.enterBlocked new c).floorHeld := by
  have hk : s.keepsAllBut (s.enterBlocked new c) _ := State.enterBlocked_keeps_stopped hb
  refine State.floorHeld_of_line hs (hk .config (by decide)) (hk .store (by decide)) fun h => ?_
  rw [State.regulates, State.enterBlocked_line] at h
  exact absurd h (by simp [(LineState.running_of_blocked hb).2])

theorem State.floorHeld.capacityDeparture {s : State} (hs : s.floorHeld) : s.capacityDeparture.floorHeld :=
  State.floorHeld_of_keeps hs s.capacityDeparture_keeps (by decide) (by rw [State.capacityDeparture_line]; exact ⟨rfl, rfl⟩)

theorem State.floorHeld.enterTripped {s : State} (hs : s.floorHeld) : s.enterTripped.floorHeld :=
  (hs.enterBlocked .fault rfl).capacityDeparture

theorem State.floorHeld.closeWindow {s : State} (hs : s.floorHeld) (h : s.line.state = some .adopting) :
    s.closeWindow.floorHeld :=
  State.floorHeld_of_keeps hs s.closeWindow_keeps (by decide) (by rw [State.closeWindow_line h]; exact ⟨rfl, rfl⟩)

/-- A TRIP takes the line out of REGULATING and HOLD (R7). -/
theorem State.floorHeld.tripLine {s : State} (hs : s.floorHeld) : s.tripLine.floorHeld := by
  unfold State.tripLine
  split
  · exact hs
  · exact hs
  · next h => exact (hs.closeWindow h).enterTripped
  all_goals exact hs.enterTripped

/-- A HOLD takes the line from REGULATING to HOLD with I_cmd as it stands (R4). -/
theorem State.floorHeld.holdLine {s : State} (hs : s.floorHeld) : s.holdLine.floorHeld := by
  rw [State.holdLine_eq]
  split
  · next h => exact hs.setLineState .fault fun _ => hs.1 (by simp [State.regulates, h, LineState.regulates])
  · exact hs

/-! ### Onsets and departures -/

theorem State.floorHeld.applyLine {s : State} (hs : s.floorHeld) (id : FaultId) (before : EntryState) (a : Action) :
    (s.applyLine State.tripLine id before a).floorHeld := by
  cases a with
  | note | remove => exact hs
  | hold => exact hs.holdLine
  | reduce => exact hs.quiet (s.reduceLine_keeps_groups id before) (by decide)
  | trip => exact hs.tripLine

/-- Of the steps of an onset the line-level response alone can move the line (R159). -/
theorem State.floorHeld.onset {s : State} (hs : s.floorHeld) (id : FaultId) (detail : Option Detail) :
    (s.onset id detail).floorHeld := by
  rw [State.onset, State.onsetWith_eq]
  split
  · exact State.floorHeld_congr hs rfl rfl ⟨rfl, rfl⟩
  · rw [State.onsetSteps_eq, State.respond_eq]
    have h1 := hs.quiet (s.beforeResponse_keeps id (s.entry id).state detail (s.stepOne id detail)) (by decide)
    refine State.floorHeld.quiet ?_ (State.noteOnset_keeps _ id _ detail) (by decide)
    split
    · exact h1
    · exact (h1.quiet (State.applyRemove_keeps _ id _) (by decide)).applyLine id _ _

theorem keptFloor : KeptByUnits State.floorHeld where
  apart {s t} hs h := by
    simp only [State.shared, Prod.mk.injEq] at h
    obtain ⟨hline, hconfig, -, -, -, hstore⟩ := h
    exact State.floorHeld_congr hs hconfig hstore (by rw [hline]; exact ⟨rfl, rfl⟩)
  writeClaim _ _ hs := State.floorHeld_congr hs rfl rfl ⟨rfl, rfl⟩
  withdrawClaim _ hs := State.floorHeld_congr hs rfl rfl ⟨rfl, rfl⟩
  push _ hs := State.floorHeld_congr hs rfl rfl ⟨rfl, rfl⟩
  departure {s} id hs := hs.quiet (s.departure_keeps id) (by decide)
  onset id detail hs := hs.onset id detail

/-! ### Requests -/

theorem startLine_floorHeld {s : State} (hs : s.floorHeld) : (startLine s).1.floorHeld := by
  unfold startLine
  split
  · exact hs
  · next h =>
    split
    · exact hs
    · have h0 : ({ s with line := { s.line with iCmd := 0 } } : State).floorHeld :=
        State.floorHeld_of_line hs rfl rfl fun hr => by
          have hst : s.line.state = some .standby := not_not.mp h
          simp [State.regulates, hst, LineState.regulates] at hr
      exact h0.setLineState (new := .starting) .request (fun h => nomatch h)

theorem stopLine_floorHeld {s : State} (hs : s.floorHeld) : (stopLine s).1.floorHeld := by
  unfold stopLine
  split
  iterate 3 exact hs.setLineState (new := .stopping) .request (fun h => nomatch h)
  all_goals exact hs

theorem resetTrip_floorHeld {s : State} (hs : s.floorHeld) : (resetTrip s).1.floorHeld := by
  unfold resetTrip
  split
  · exact hs
  · split
    · exact hs
    · exact hs.setLineState (new := .standby) .request (fun h => nomatch h)

/-- The end of a HOLD takes the line from HOLD to REGULATING with I_cmd as it stands (R161). -/
theorem State.floorHeld.endResponses {s : State} (hs : s.floorHeld) (e : Entry) : (s.endResponses e).floorHeld := by
  have hclaim : (if e.carries .reduce = true then s.evaluateLines.writeFaultClaim else s.evaluateLines).floorHeld := by
    have h1 : s.evaluateLines.floorHeld := State.floorHeld_congr hs rfl rfl ⟨rfl, rfl⟩
    split
    · exact h1.quiet s.evaluateLines.writeFaultClaim_keeps (by decide)
    · exact h1
  unfold State.endResponses
  dsimp only
  generalize (if e.carries .reduce = true then s.evaluateLines.writeFaultClaim else s.evaluateLines) = t at hclaim ⊢
  split
  · next h => exact hclaim.setLineState .fault fun _ => hclaim.1 (by simp [State.regulates, h.2.2, LineState.regulates])
  · exact hclaim

theorem clearFault_floorHeld {s : State} (hs : s.floorHeld) (p : Port) (kind group : Nat) :
    (clearFault p kind group s).1.floorHeld := by
  unfold clearFault
  split
  · exact hs
  · next id _ =>
    split
    · have h1 : (s.setEntry id clearEntry).floorHeld := State.floorHeld_congr hs rfl rfl ⟨rfl, rfl⟩
      exact keptFloor.apart (h1.endResponses (s.entry id)) rfl
    · exact hs
    · exact hs

/-! ### The configuration store -/

theorem State.floorHeld.modConfig {s : State} (hs : s.floorHeld) (f : Configuration → Configuration)
    (hf : (f s.config).floor = s.config.floor) : (s.modConfig f).floorHeld := by
  obtain ⟨hline, hrange, hstore⟩ := hs
  refine ⟨fun h => ?_, ?_, hstore⟩
  · exact hf.le.trans (hline h)
  · exact hf.le.trans hrange

/-- A floor above I_cmd is refused while the line regulates or holds (R36). -/
theorem writeFloor_floorHeld {s : State} (hs : s.floorHeld) (v : Nat) : (writeFloor s v).meets State.floorHeld := by
  obtain ⟨-, -, hstore⟩ := hs
  unfold writeFloor
  dsimp only
  split
  · trivial
  · next h =>
    refine ⟨fun hr => ?_, ?_, hstore⟩
    · exact Nat.le_of_not_lt fun hlt => h ⟨hr, hlt⟩
    · simp [Configuration.floorInRange, State.modConfig, clamp]

theorem writeAction_floorHeld {s : State} (hs : s.floorHeld) (index route response percent : Nat) (capture : Bool) :
    (writeAction s index route response percent capture).meets State.floorHeld := by
  unfold writeAction
  split
  · split
    · exact hs.modConfig _ rfl
    · trivial
  · trivial

theorem writeConfig_floorHeld {s : State} (hs : s.floorHeld) (p : Port) (index expected : Nat) (item : ItemWrite) :
    (writeConfig p index expected item s).1.floorHeld := by
  have hitem := keptFloor.writeItem (fun f hf _ ht => ht.modConfig f hf) (writeFloor_floorHeld hs) (writeAction_floorHeld hs)
    index item hs
  unfold writeConfig
  split
  · exact hs
  · split
    · exact hs
    · split
      · exact hs
      · split
        · exact hs
        · next heq =>
          rw [heq] at hitem
          exact hitem

/-- A save captures the configuration, whose floor is within its range (R189). -/
theorem saveConfig_floorHeld {s : State} (hs : s.floorHeld) (rq : Req) : (saveConfig rq s).1.floorHeld := by
  unfold saveConfig
  split
  · exact hs
  · exact hs
  · obtain ⟨hline, hrange, -⟩ := hs
    refine ⟨hline, hrange, fun i hi => (nomatch hi), fun v hv => ?_⟩
    cases hv
    exact hrange

theorem saveComplete_floorHeld {s t : State} (hs : s.floorHeld) (h : execSaveComplete s = .next t) : t.floorHeld := by
  unfold execSaveComplete at h
  dsimp only at h
  split at h <;> cases h
  · next v hv =>
    obtain ⟨hline, hrange, -, hsave⟩ := hs
    refine ⟨hline, hrange, fun i hi => ?_, fun w hw => (nomatch hw)⟩
    cases hi
    exact hsave v hv
  · exact keptFloor.begin hs
  · exact keptFloor.begin hs

/-! ### The resets and the load -/

theorem defaultConfiguration_floorInRange : defaultConfiguration.floorInRange := by
  unfold Configuration.floorInRange
  decide

theorem powerOn_floorHeld {s : State} (hs : s.floorHeld) (straps : Four Straps) : (powerOn straps s).floorHeld := by
  obtain ⟨-, -, himage, -⟩ := hs
  exact ⟨fun h => (nomatch h), defaultConfiguration_floorInRange, himage, fun v hv => (nomatch hv)⟩

theorem restart_floorHeld {s : State} (hs : s.floorHeld) : s.restart.floorHeld := by
  obtain ⟨-, hrange, himage, -⟩ := hs
  exact ⟨fun h => (nomatch h), hrange, himage, fun v hv => (nomatch hv)⟩

theorem loadedContents_floorInRange {image : Option Image} (h : ∀ i : Image, image = some i → i.config.floorInRange) :
    (loadedContents image).config.floorInRange := by
  cases image with
  | none => exact defaultConfiguration_floorInRange
  | some i => exact h i rfl

theorem loadDone_floorHeld {s : State} (hs : s.floorHeld) : s.loadDone.floorHeld := by
  obtain ⟨-, -, himage, -⟩ := hs
  have hk := s.taken_keeps
  have hl := s.taken.setLineState_keeps .adopting .reset
  have hconfig : s.loadDone.config = s.takeImage.config :=
    (hl .config (by decide)).trans (hk .config (by decide))
  have hstore : s.loadDone.store = s.takeImage.store := (hl .store (by decide)).trans (hk .store (by decide))
  have hstate : s.loadDone.line.state = some .adopting :=
    congrArg Line.state (State.setLineState_line s.taken .adopting .reset)
  rw [State.floorHeld, hconfig, hstore]
  refine ⟨fun h => ?_, loadedContents_floorInRange himage, himage, fun v hv => (nomatch hv)⟩
  simp [State.regulates, hstate, LineState.regulates] at h

/-! ### The close of the adopt window (R23) -/

/-- A line is adopted with a sum at or above the floor, and else it enters STANDBY. -/
theorem adoptClose_floorHeld {s : State} (hs : s.floorHeld) (h : s.line.state = some .adopting) : s.adoptClose.floorHeld := by
  have h1 := hs.closeWindow h
  unfold State.adoptClose
  dsimp only
  split
  · next hsum =>
    have hk := s.closeWindow.adoptOrders_keeps s.closeWindow.adoptionSum
    have hl := (s.closeWindow.adoptOrders s.closeWindow.adoptionSum).setLineState_keeps
      (s.closeWindow.adoptOrders s.closeWindow.adoptionSum).regulatingOrHold .adoption
    refine State.floorHeld_of_line h1 ((hl .config (by decide)).trans (hk .config (by decide)))
      ((hl .store (by decide)).trans (hk .store (by decide))) fun _ => ?_
    rw [State.adoptLine_line h]
    exact Nat.le_min.mpr ⟨hsum.2, h1.2.1⟩
  · exact (h1.enterBlocked .adoption rfl).capacityDeparture

/-! ### The expiry of the allocation timer (R32) -/

/-- The ramp comes no lower than the lesser of I_cmd and the target (R40). -/
theorem le_rampStep {floor iCmd target : Nat} (hi : floor ≤ iCmd) (ht : floor ≤ target) (governing : ClaimSlot)
    (aeHold : Bool) (upRate downRate : Nat) : floor ≤ rampStep iCmd target governing aeHold upRate downRate := by
  unfold rampStep
  split
  · split <;> omega
  · split
    · split <;> omega
    · exact hi

theorem State.floorHeld.setICmd {s : State} (hs : s.floorHeld) {i : Nat}
    (hi : s.regulates = true → s.config.floor ≤ i) : (s.setICmd i).floorHeld :=
  State.floorHeld_of_line hs rfl rfl hi

theorem State.floorHeld.aimed {s : State} (hs : s.floorHeld) : s.aimed.floorHeld :=
  State.floorHeld_of_keeps hs s.aimed_keeps (by decide) (by rw [State.aimed_line]; exact ⟨rfl, rfl⟩)

/-- The floor is below the target that a ramp of REGULATING moves to, and is reached before STARTING enters REGULATING or HOLD
(R3, R34). -/
theorem State.floorHeld.ownStep {s : State} (hs : s.floorHeld) (htarget : s.config.floor ≤ s.line.target) :
    s.ownStep.1.floorHeld := by
  unfold State.ownStep
  split
  · next h =>
    have hreg : s.regulates = true := by simp [State.regulates, h, LineState.regulates]
    exact hs.setICmd fun _ => le_rampStep (hs.1 hreg) htarget _ _ _ _
  · next h =>
    have hnot : s.regulates = false := by simp [State.regulates, h, LineState.regulates]
    have h1 := hs.setICmd (i := min 60000 (s.line.iCmd + s.config.startRate)) (by simp [hnot])
    rw [State.startRise_eq]
    split
    · next hle => exact h1.setLineState .ramp fun _ => hle
    · exact h1
  · next h =>
    have hnot : s.regulates = false := by simp [State.regulates, h, LineState.regulates]
    unfold State.stopDescent
    dsimp only
    split
    · exact hs.enterBlocked .ramp rfl
    · exact hs.setICmd (by simp [hnot])
  all_goals exact hs

theorem State.floorHeld.headroomEvent {s : State} (hs : s.floorHeld) (u : Nat) : (s.headroomEvent u).floorHeld :=
  keptFloor.conditionChange _ _ _ _ (keptFloor.apart hs rfl)

theorem State.floorHeld.runAllocation {s : State} (hs : s.floorHeld) (l : LineState) : (s.runAllocation l).floorHeld := by
  have h1 : (s.ordered l).floorHeld :=
    State.floorHeld_of_keeps hs (s.ordered_keeps l) (by decide) (by rw [State.ordered_line]; exact ⟨rfl, rfl⟩)
  exact keptFloor.conditionChange _ _ _ _ (State.floorHeld_congr h1 rfl rfl ⟨rfl, rfl⟩)

theorem State.floorHeld.sendBlocked {s : State} (hs : s.floorHeld) : s.sendBlocked.floorHeld :=
  hs.quiet s.sendBlocked_keeps (by decide)

theorem State.floorHeld.finishExpiry {s : State} (hs : s.floorHeld) (sent : Bool) : (s.finishExpiry sent).floorHeld := by
  unfold State.finishExpiry
  split
  iterate 4 exact hs.runAllocation _
  · split
    · exact hs.capacityDeparture
    · exact hs.sendBlocked
  · exact hs.sendBlocked
  · exact hs
  · exact hs

theorem State.floorHeld.allocationExpiry {s : State} (hs : s.floorHeld) : s.allocationExpiry.floorHeld := by
  have htarget : s.aimed.config.floor ≤ s.aimed.line.target := by
    rw [State.aimed_line, s.aimed_keeps .config (by decide)]
    exact le_max_left _ _
  rw [State.allocationExpiry_stepped]
  exact ((hs.aimed.ownStep htarget).headroomEvent _).finishExpiry _

/-! ### Every step -/

theorem responseSent_floorHeld {s t : State} (hs : s.floorHeld) {p : Port} (h : execResponseSent p s = .next t) :
    t.floorHeld := by
  unfold execResponseSent at h
  dsimp only at h
  split at h
  · have h1 : (s.begin.sendResponses p).floorHeld := keptFloor.apart hs rfl
    split at h
    · split at h <;> cases h
      · exact restart_floorHeld h1
      · exact h1
    · cases h; exact h1
  · cases h; exact keptFloor.begin hs
  · cases h; exact keptFloor.begin hs

/-- A request whose own rule leaves the line, the configuration and the store. -/
theorem take_floorHeld {s t : State} (hs : s.floorHeld) {rq : Req} {kind : ReqKind} {body : State → State × Option Answer}
    (hbody : ∀ u : State, (body u).1.line = u.line ∧ (body u).1.config = u.config ∧ (body u).1.store = u.store)
    (h : (Host.Outcome.next (s.take rq kind body) : Host.Outcome State Fault Refusal) = .next t) : t.floorHeld :=
  keptFloor.request (fun u hu => by
    obtain ⟨hline, hconfig, hstore⟩ := hbody u
    exact State.floorHeld_congr hu hconfig hstore (by rw [hline]; exact ⟨rfl, rfl⟩)) hs h

theorem writesShared_floorHeld {c : Instr} {s t : State} (hc : writesShared c = true) (hs : s.floorHeld)
    (h : exec c s = .next t) : t.floorHeld := by
  cases c with
  | powerOnReset straps => exact execPowerOnReset_cases straps h ▸ powerOn_floorHeld hs straps
  | configLoadComplete =>
    rcases execConfigLoadComplete_cases h with ⟨-, ht⟩ | ht <;> rw [ht]
    exacts [loadDone_floorHeld (keptFloor.begin hs), keptFloor.begin hs]
  | responseSent => exact responseSent_floorHeld hs h
  | startLine => exact keptFloor.request (fun _ => startLine_floorHeld) hs h
  | stopLine => exact keptFloor.request (fun _ => stopLine_floorHeld) hs h
  | resetTrip => exact keptFloor.request (fun _ => resetTrip_floorHeld) hs h
  | clearFault => exact keptFloor.request (fun _ hu => clearFault_floorHeld hu _ _ _) hs h
  | saveConfig => exact keptFloor.request (fun _ hu => saveConfig_floorHeld hu _) hs h
  | saveComplete => exact saveComplete_floorHeld hs h
  | writeConfig =>
    cases h
    exact keptFloor.takeRequest (fun _ hu => writeConfig_floorHeld hu _ _ _ _) hs
  | setCutoutLimit | setServiceLimit | dropAll => exact take_floorHeld hs (fun _ => ⟨rfl, rfl, rfl⟩) h
  | setSetpoint =>
    exact take_floorHeld hs (body := setSetpoint _ _) (fun _ => by unfold setSetpoint; split <;> exact ⟨rfl, rfl, rfl⟩) h
  | releaseCutoutLimit | releaseServiceLimit =>
    exact take_floorHeld hs (body := releaseLimit _ _) (fun _ => by unfold releaseLimit; split <;> exact ⟨rfl, rfl, rfl⟩) h
  | dropTop =>
    refine take_floorHeld hs (body := dropTop _) (fun _ => ?_) h
    unfold dropTop
    split
    · exact ⟨rfl, rfl, rfl⟩
    · split
      · exact ⟨rfl, rfl, rfl⟩
      · exact ⟨rfl, rfl, rfl⟩
      · split <;> exact ⟨rfl, rfl, rfl⟩
  | allocationTimerExpiry =>
    rcases execAllocationTimerExpiry_cases h with ht | ht <;> rw [ht]
    exacts [keptFloor.begin hs, (keptFloor.begin hs).allocationExpiry]
  | adoptWindowClose =>
    rcases execAdoptWindowClose_cases h with ⟨ha, ht⟩ | ht <;> rw [ht]
    exacts [adoptClose_floorHeld (keptFloor.begin hs) ha, keptFloor.begin hs]
  | snapshotWriteComplete =>
    rcases execSnapshotWriteComplete_cases h with ht | ⟨f, ht⟩ <;> rw [ht]
    exacts [keptFloor.begin hs, State.floorHeld_congr hs rfl rfl ⟨rfl, rfl⟩]
  | _ => cases hc

/-- Settles O55: the units keep the floor through the shared operations, and so do the commands that write the line, the
configuration and the store by themselves. -/
theorem stepsKeepTheFloor : Obligations.StepsKeepTheFloor := keptFloor.keptByStep writesShared_floorHeld

end Sys2Proof.Machine
end

