-- ==== Sys2Proof/Proofs/VisitOrder.lean ====
section
/-! The order of stage 3's visits (R49) and the rotation pointer (R52): the members a visit meets are those of the allocation set,
each nearer than the next from the group where the counting begins. -/

namespace Sys2Proof.Machine

/-! ### Finding an entry by its key -/

/-- In a list with distinct keys the entry found by the key of one is that one. -/
theorem find?_key_eq_some {α κ : Type} [DecidableEq κ] {key : α → κ} {l : List α} (hnd : (l.map key).Nodup) {x : α}
    (hx : x ∈ l) : (l.find? fun y => key y == key x) = some x := by
  obtain ⟨y, hy⟩ : ∃ y : α, (l.find? fun y => key y == key x) = some y := by
    rw [← Option.isSome_iff_exists, List.find?_isSome]
    exact ⟨x, hx, beq_self_eq_true (key x)⟩
  have hkey : key y = key x := eq_of_beq (List.find?_some (p := fun y => key y == key x) hy)
  rwa [List.inj_on_of_nodup_map hnd (List.mem_of_find?_eq_some hy) hx hkey] at hy

theorem find?_key_eq_none {α κ : Type} [DecidableEq κ] {key : α → κ} {l : List α} {k : κ} (h : k ∉ l.map key) :
    (l.find? fun y => key y == k) = none :=
  List.find?_eq_none.mpr fun y hy hk => h (List.mem_map.mpr ⟨y, hy, eq_of_beq hk⟩)

/-- The member of a group. -/
def memberOf (a : List Member) (g : Group) : Option Member := a.find? fun m => m.group == g

section MemberOf

variable {a : List Member} {g : Group} {m : Member}

theorem mem_of_memberOf (h : memberOf a g = some m) : m ∈ a := List.mem_of_find?_eq_some h

theorem group_of_memberOf (h : memberOf a g = some m) : m.group = g :=
  eq_of_beq (List.find?_some (p := fun n : Member => n.group == g) h)

theorem memberOf_eq_none : memberOf a g = none ↔ ∀ m ∈ a, m.group ≠ g := by simp [memberOf]

theorem exists_memberOf (h : m ∈ a) : ∃ n : Member, memberOf a m.group = some n :=
  Option.isSome_iff_exists.mp (List.find?_isSome.mpr ⟨m, h, beq_self_eq_true m.group⟩)

/-- Among members of distinct groups each is the member of its group. -/
theorem memberOf_group (hnd : (a.map Member.group).Nodup) (h : m ∈ a) : memberOf a m.group = some m :=
  find?_key_eq_some hnd h

theorem mem_filterMap_memberOf {gs : List Group} :
    m ∈ gs.filterMap (memberOf a) ↔ m.group ∈ gs ∧ memberOf a m.group = some m := by
  rw [List.mem_filterMap]
  refine ⟨fun ⟨g, hg, hm⟩ => ?_, fun ⟨hg, hm⟩ => ⟨_, hg, hm⟩⟩
  rw [group_of_memberOf hm]
  exact ⟨hg, hm⟩

theorem nodup_filterMap_memberOf {gs : List Group} (h : gs.Nodup) : (gs.filterMap (memberOf a)).Nodup :=
  h.filterMap fun _ _ _ hx hy => (group_of_memberOf hx).symm.trans (group_of_memberOf hy)

end MemberOf

/-! ### The cyclic order (R49) -/

/-- How many groups further than `p` the group `g` is, counting upward cyclically (R49). -/
def stepsFrom (p g : Group) : Nat := (g.val + 8 - p.val) % 8

theorem stepsFrom_succ (p g : Group) : stepsFrom (p + 1) g = (g.val + 7 - p.val) % 8 := by
  revert p g; decide

/-- Counted from a group met earlier, each group is nearer by the distance of that group. -/
theorem stepsFrom_of_le {p first g : Group} (h : stepsFrom p first ≤ stepsFrom p g) :
    stepsFrom first g = stepsFrom p g - stepsFrom p first := by
  unfold stepsFrom at *
  omega

theorem cyclicFrom_pairwise (p : Group) : (cyclicFrom p).Pairwise fun g h => stepsFrom p g < stepsFrom p h := by
  revert p; decide

theorem mem_cyclicFrom (p g : Group) : g ∈ cyclicFrom p := by revert p g; decide

/-! ### The visits -/

section Visits

variable {p : Group} {a : List Member} {m h : Member}

theorem visitOrder_eq (p : Group) (a : List Member) : visitOrder p a = (cyclicFrom p).filterMap (memberOf a) := rfl

@[simp] theorem visitOrder_nil (p : Group) : visitOrder p [] = [] := List.filterMap_none _

theorem mem_visitOrder : m ∈ visitOrder p a ↔ memberOf a m.group = some m := by
  rw [visitOrder_eq, mem_filterMap_memberOf, and_iff_right (mem_cyclicFrom p _)]

theorem mem_of_mem_visitOrder (h : m ∈ visitOrder p a) : m ∈ a := mem_of_memberOf (mem_visitOrder.mp h)

/-- The visit goes upward from `p`. -/
theorem visitOrder_pairwise (p : Group) (a : List Member) :
    (visitOrder p a).Pairwise fun x y => stepsFrom p x.group < stepsFrom p y.group :=
  (cyclicFrom_pairwise p).filterMap _ fun g g' hlt x hx y hy => by
    rwa [group_of_memberOf hx, group_of_memberOf hy]

/-- Every group with a member is visited. -/
theorem exists_mem_visitOrder (p : Group) (h : m ∈ a) : ∃ n ∈ visitOrder p a, n.group = m.group := by
  obtain ⟨n, hn⟩ := exists_memberOf h
  have hg := group_of_memberOf hn
  exact ⟨n, mem_visitOrder.mpr (hg ▸ hn), hg⟩

/-- Before a member the visit has met the members nearer to `p`. -/
theorem mem_before_iff {before after : List Member} (hv : visitOrder p a = before ++ m :: after) :
    h ∈ before ↔ memberOf a h.group = some h ∧ stepsFrom p h.group < stepsFrom p m.group := by
  have hpair := visitOrder_pairwise p a
  rw [hv] at hpair
  obtain ⟨-, hafter, hbefore⟩ := List.pairwise_append.mp hpair
  constructor
  · exact fun hh => ⟨mem_visitOrder.mp (hv ▸ List.mem_append_left _ hh), hbefore h hh m List.mem_cons_self⟩
  · rintro ⟨hh, hlt⟩
    have hvisit : h ∈ before ++ m :: after := hv ▸ mem_visitOrder.mpr hh
    rcases List.mem_append.mp hvisit with hh | hh
    · exact hh
    rcases List.mem_cons.mp hh with rfl | hh
    · exact absurd hlt (lt_irrefl _)
    · exact absurd hlt (List.rel_of_pairwise_cons hafter hh).not_gt

/-- A visit of some members begins at one of them. -/
theorem exists_visitOrder_head (p : Group) (h : a ≠ []) : ∃ n ∈ a, (visitOrder p a).head? = some n := by
  obtain ⟨m, hm⟩ := List.exists_mem_of_ne_nil a h
  obtain ⟨n, hn, -⟩ := exists_mem_visitOrder p hm
  have hne : visitOrder p a ≠ [] := List.ne_nil_of_mem hn
  exact ⟨_, mem_of_mem_visitOrder (List.head_mem hne), List.head?_eq_some_head hne⟩

/-- The visit begins at the first member met counting upward from `p` (R49). -/
theorem visitOrder_head_le (hh : (visitOrder p a).head? = some h) (hm : m ∈ a) :
    stepsFrom p h.group ≤ stepsFrom p m.group := by
  obtain ⟨n, hn, hg⟩ := exists_mem_visitOrder p hm
  have hp := visitOrder_pairwise p a
  obtain ⟨rest, hv⟩ := List.head?_eq_some_iff.mp hh
  rw [hv] at hn hp
  rw [← hg]
  rcases List.mem_cons.mp hn with rfl | hn
  · exact le_rfl
  · exact (List.rel_of_pairwise_cons hp hn).le

/-- Members of distinct groups are each visited once. -/
theorem visitOrder_perm (p : Group) (hnd : (a.map Member.group).Nodup) : (visitOrder p a).Perm a := by
  have hvisits : (visitOrder p a).Nodup :=
    nodup_filterMap_memberOf ((cyclicFrom_pairwise p).imp fun hlt heq => hlt.ne (congrArg _ heq))
  refine (List.perm_ext_iff_of_nodup hvisits (List.Nodup.of_map _ hnd)).mpr fun x => ⟨mem_of_mem_visitOrder, fun hx => ?_⟩
  exact mem_visitOrder.mpr (memberOf_group hnd hx)

theorem visited_groups_nodup (p : Group) (hnd : (a.map Member.group).Nodup) : ((visitOrder p a).map Member.group).Nodup :=
  ((visitOrder_perm p hnd).map _).nodup_iff.mpr hnd

/-- The members counted before a member from the start group on are those that its visit finds visited. -/
theorem before_perm (hnd : (a.map Member.group).Nodup) {first : Member} {before after : List Member}
    (hfirst : (visitOrder p a).head? = some first) (hv : visitOrder p a = before ++ m :: after) :
    ((allGroups.filter fun g => decide (stepsFrom first.group g < stepsFrom first.group m.group)).filterMap
      (memberOf a)).Perm before := by
  have hbefore : before.Nodup := by
    have hvisits := (visitOrder_perm p hnd).nodup_iff.mpr hnd.of_map
    rw [hv] at hvisits
    exact (List.nodup_append.mp hvisits).1
  have hgroups : allGroups.Nodup := by decide
  have hm : m ∈ a := mem_of_mem_visitOrder (hv ▸ List.mem_append_right _ List.mem_cons_self)
  refine (List.perm_ext_iff_of_nodup (nodup_filterMap_memberOf (hgroups.filter _)) hbefore).mpr fun x => ?_
  rw [mem_filterMap_memberOf, mem_before_iff hv, List.mem_filter, and_iff_right (mem_allGroups _), and_comm,
    decide_eq_true_iff]
  refine and_congr_right fun hx => ?_
  have hlem := visitOrder_head_le hfirst hm
  have hlex := visitOrder_head_le hfirst (mem_of_memberOf hx)
  rw [stepsFrom_of_le hlem, stepsFrom_of_le hlex]
  omega

end Visits

/-! ### The rotation pointer (R52) -/

theorem rotate_eq (p : Group) (a : List Member) :
    rotate p a = ((visitOrder (p + 1) a).head?.map Member.group).getD p := by
  unfold rotate
  cases visitOrder (p + 1) a <;> rfl

theorem allocate_rotation (now : Nat) (state : LineState) (iCmd : Nat) (p : Group) (a : List Member) :
    (allocate now state iCmd p a).record.rotation = ((visitOrder (p + 1) a).head?.map Member.group).getD p :=
  rotate_eq p a

theorem allocate_start (now : Nat) (state : LineState) (iCmd : Nat) (p : Group) (a : List Member) :
    (allocate now state iCmd p a).record.start = (visitOrder p a).head?.map Member.group := rfl

/-- Settles O20: both the start group and the pointer are the head of a visit, from the old pointer and from the group after it. -/
theorem rotationMovesToTheNextMember : Obligations.RotationMovesToTheNextMember := by
  intro now iCmd state p a
  simp only [allocate_rotation, allocate_start]
  refine ⟨?_, fun ha => ?_⟩
  · rintro rfl
    simp
  · obtain ⟨next, hnext, hpointer⟩ := exists_visitOrder_head (p + 1) ha
    obtain ⟨first, hfirst, hstart⟩ := exists_visitOrder_head p ha
    rw [hpointer, hstart]
    refine ⟨⟨next, hnext, rfl⟩, ⟨first, hfirst, rfl⟩, fun m hm => ⟨?_, ?_⟩⟩
    · have hle := visitOrder_head_le hpointer hm
      rwa [stepsFrom_succ, stepsFrom_succ] at hle
    · intro g hg
      cases hg
      exact visitOrder_head_le hstart hm

end Sys2Proof.Machine
end

