-- ==== Sys2Proof/Proofs/WeightedSplit.lean ====
section
/-! Stage 2, the weighted split with pinning (R47, R48): what every pass keeps, and what the last one leaves. -/

namespace Sys2Proof.Machine

/-! ### One pass (R47) -/

/-- The shares of one pass make up no more than what it divides. -/
theorem sum_shareOf_le {r w : Nat} {l : List Member} (h : (l.map Member.weight).sum ≤ w) :
    (l.map (shareOf r w)).sum ≤ r := by
  have hfloor : (l.map (shareOf r w)).sum ≤ r * (l.map Member.weight).sum / w := by
    clear h
    induction l with
    | nil => simp
    | cons m l ih =>
      simp only [List.map_cons, List.sum_cons, Nat.mul_add]
      exact (Nat.add_le_add_left ih _).trans Nat.div_add_div_le_add_div
  exact hfloor.trans (Nat.div_le_of_le_mul (Nat.mul_comm w r ▸ Nat.mul_le_mul_left r h))

/-- The ceilings of the members pinned. -/
def pinnedSum (p : List Pin) : Nat := (p.map fun q => q.member.ceiling).sum

/-- The share a pass computes for a member, with `n` not yet pinned and `p` pinned (R47 steps 1 to 3). -/
def passShare (t : Nat) (n : List Member) (p : List Pin) (m : Member) : Nat :=
  shareOf (t - pinnedSum p) (n.map Member.weight).sum m

/-- The members a pass pins (R47 step 4). -/
def exceeding (t : Nat) (n : List Member) (p : List Pin) : List Member :=
  n.filter fun m => decide (m.ceiling < passShare t n p m)

/-- The members a pass leaves not pinned (R47 step 4). -/
def keeping (t : Nat) (n : List Member) (p : List Pin) : List Member :=
  n.filter fun m => decide (passShare t n p m ≤ m.ceiling)

/-- The members `e` pinned by pass `k`. -/
def pinsOf (e : List Member) (k : Nat) : List Pin := e.map fun m => { member := m, pass := k }

/-- The split with which pass `k` ends stage 2 (R47 step 5). -/
def closingSplit (t k : Nat) (n : List Member) (p : List Pin) : Split :=
  { shared := n.map fun m => (m, passShare t n p m), pinned := p, passes := k
    leftover := t - pinnedSum p - (n.map (passShare t n p)).sum }

section Passes

variable {t : Nat} {n : List Member} {p : List Pin}

/-- A pass ends stage 2 where it pins no member, and the next begins with those it pinned taken out (R47 step 5). -/
theorem splitPasses_succ (t fuel k : Nat) (n : List Member) (p : List Pin) :
    splitPasses t (fuel + 1) k n p =
      if exceeding t n p = [] then closingSplit t k n p
      else splitPasses t fuel (k + 1) (keeping t n p) (p ++ pinsOf (exceeding t n p) k) := by
  simp only [splitPasses, List.map_map]
  rfl

theorem exceeding_append_keeping_perm (t : Nat) (n : List Member) (p : List Pin) :
    (exceeding t n p ++ keeping t n p).Perm n := by
  have hnot : keeping t n p = n.filter fun m => !decide (m.ceiling < passShare t n p m) :=
    List.filter_congr fun m _ => by simp [← decide_not]
  rw [hnot]
  exact List.filter_append_perm _ n

theorem keeping_length_lt (h : exceeding t n p ≠ []) : (keeping t n p).length < n.length := by
  have hlen := (exceeding_append_keeping_perm t n p).length_eq
  have hpos := List.length_pos_of_ne_nil h
  rw [List.length_append] at hlen
  omega

theorem sum_passShare_le (t : Nat) (n : List Member) (p : List Pin) : (n.map (passShare t n p)).sum ≤ t - pinnedSum p :=
  sum_shareOf_le le_rfl

/-- The ceilings of the members a pass pins lie within what it divides. -/
theorem sum_exceeding_le (t : Nat) (n : List Member) (p : List Pin) :
    ((exceeding t n p).map Member.ceiling).sum ≤ t - pinnedSum p := by
  have hbelow : ((exceeding t n p).map Member.ceiling).sum ≤ ((exceeding t n p).map (passShare t n p)).sum :=
    List.sum_le_sum fun m hm => (of_decide_eq_true (List.mem_filter.mp hm).2).le
  have hpart : ((exceeding t n p).map Member.weight).sum ≤ (n.map Member.weight).sum :=
    (List.filter_sublist.map _).sum_le_sum fun _ _ => Nat.zero_le _
  exact hbelow.trans (sum_shareOf_le hpart)

/-- Where the ceilings of the open members reach what a pass divides, it does not pin them all (R48). -/
theorem keeping_ne_nil (hn : n ≠ []) (h : t - pinnedSum p ≤ (n.map Member.ceiling).sum) : keeping t n p ≠ [] := by
  intro hnil
  have habove : (n.map Member.ceiling).sum < (n.map (passShare t n p)).sum := by
    refine List.sum_lt_sum_of_ne_nil hn _ _ fun m hm => ?_
    have hout := List.filter_eq_nil_iff.mp hnil m hm
    simpa using hout
  have hle := sum_passShare_le t n p
  omega

end Passes

/-! ### The pass that pinned a group -/

/-- The pass that pinned a group. -/
def pinOf (p : List Pin) (g : Group) : Option Nat := (p.find? fun q => q.member.group == g).map Pin.pass

theorem Split.pinnedIn_eq (w : Split) (g : Group) : w.pinnedIn g = pinOf w.pinned g := by
  unfold Split.pinnedIn pinOf
  cases w.pinned.find? fun q => q.member.group == g <;> rfl

theorem pinOf_pinsOf (e : List Member) (k : Nat) (g : Group) :
    pinOf (pinsOf e k) g = if g ∈ e.map Member.group then some k else none := by
  split
  case isTrue h =>
    obtain ⟨m, hm, rfl⟩ := List.mem_map.mp h
    obtain ⟨q, hq⟩ : ∃ q : Pin, ((pinsOf e k).find? fun q => q.member.group == m.group) = some q := by
      rw [← Option.isSome_iff_exists, List.find?_isSome]
      exact ⟨⟨m, k⟩, List.mem_map_of_mem hm, beq_self_eq_true m.group⟩
    obtain ⟨x, -, rfl⟩ := List.mem_map.mp (List.mem_of_find?_eq_some hq)
    simp only [pinOf, hq, Option.map_some]
  case isFalse h =>
    rw [pinOf, find?_key_eq_none (key := fun q : Pin => q.member.group), Option.map_none]
    simpa [pinsOf] using h

theorem pinOf_append (p q : List Pin) (g : Group) : pinOf (p ++ q) g = (pinOf p g).or (pinOf q g) := by
  simp only [pinOf, List.find?_append, Option.map_or]

/-- The set P of pass `k` among the members `a` (R47). -/
def fixedAt (p : List Pin) (k : Nat) (a : List Member) : List Member :=
  a.filter fun m => (pinOf p m.group).any fun n => decide (n < k)

/-- The set N of pass `k` among the members `a` (R47). -/
def openAt (p : List Pin) (k : Nat) (a : List Member) : List Member :=
  a.filter fun m => (pinOf p m.group).all fun n => decide (k ≤ n)

/-- The share that pass `k` computed for a member, read off the pins. -/
def shareAt (t : Nat) (a : List Member) (p : List Pin) (k : Nat) (m : Member) : Nat :=
  shareOf (t - ((fixedAt p k a).map Member.ceiling).sum) ((openAt p k a).map Member.weight).sum m

/-- The pins of a pass are not among those that it or an earlier pass finds. -/
theorem fixedAt_append_pinsOf {p : List Pin} {e : List Member} {j k : Nat} (h : k ≤ j) (a : List Member) :
    fixedAt (p ++ pinsOf e j) k a = fixedAt p k a := by
  refine List.filter_congr fun m _ => ?_
  rw [pinOf_append, pinOf_pinsOf]
  cases pinOf p m.group <;> split <;> simp [h]

theorem openAt_append_pinsOf {p : List Pin} {e : List Member} {j k : Nat} (h : k ≤ j) (a : List Member) :
    openAt (p ++ pinsOf e j) k a = openAt p k a := by
  refine List.filter_congr fun m _ => ?_
  rw [pinOf_append, pinOf_pinsOf]
  cases pinOf p m.group <;> split <;> simp [h]

theorem shareAt_append_pinsOf {p : List Pin} {e : List Member} {j k : Nat} (h : k ≤ j) (t : Nat) (a : List Member)
    (m : Member) : shareAt t a (p ++ pinsOf e j) k m = shareAt t a p k m := by
  rw [shareAt, fixedAt_append_pinsOf h, openAt_append_pinsOf h, shareAt]

/-! ### What the passes keep (R47, R48) -/

/-- The passes before pass `k` have pinned `p` and left `n` of the members `a`, each as R47 says. -/
structure PassesTaken (t : Nat) (a : List Member) (k : Nat) (n : List Member) (p : List Pin) : Prop where
  parts : (p.map Pin.member ++ n).Perm a
  within : pinnedSum p ≤ t
  left : n ≠ []
  numbered : ∀ q ∈ p, 1 ≤ q.pass ∧ q.pass < k
  count : 1 ≤ k ∧ k ≤ p.length + 1
  pinning : ∀ j : Nat, 1 ≤ j → j < k → ∃ q ∈ p, q.pass = j
  history : ∀ j : Nat, 1 ≤ j → j < k → ∀ m ∈ openAt p j a, (pinOf p m.group = some j ↔ m.ceiling < shareAt t a p j m)

namespace PassesTaken

variable {t k : Nat} {a n : List Member} {p : List Pin}

theorem start (t : Nat) (ha : a ≠ []) : PassesTaken t a 1 a [] where
  parts := List.Perm.refl a
  within := Nat.zero_le t
  left := ha
  numbered := by simp
  count := ⟨le_rfl, le_rfl⟩
  pinning := by omega
  history := by omega

theorem mem_pinned (h : PassesTaken t a k n p) {q : Pin} (hq : q ∈ p) : q.member ∈ a :=
  h.parts.subset (List.mem_append_left _ (List.mem_map_of_mem hq))

theorem mem_left (h : PassesTaken t a k n p) {m : Member} (hm : m ∈ n) : m ∈ a :=
  h.parts.subset (List.mem_append_right _ hm)

theorem mem_cases (h : PassesTaken t a k n p) {m : Member} (hm : m ∈ a) : (∃ q ∈ p, q.member = m) ∨ m ∈ n := by
  simpa using h.parts.mem_iff.mpr hm

/-- A quantity of the members is that of the pinned and of the others. -/
theorem sum_eq (h : PassesTaken t a k n p) (f : Member → Nat) :
    (a.map f).sum = (p.map fun q => f q.member).sum + (n.map f).sum := by
  rw [← (h.parts.map f).sum_nat, List.map_append, List.sum_append, List.map_map]
  rfl

theorem length_eq (h : PassesTaken t a k n p) : p.length + n.length = a.length := by
  simpa using h.parts.length_eq

section Distinct

variable (h : PassesTaken t a k n p) (hnd : (a.map Member.group).Nodup)

include h hnd

theorem groups_nodup : (p.map (fun q => q.member.group) ++ n.map Member.group).Nodup := by
  have hperm := (h.parts.map Member.group).nodup_iff.mpr hnd
  rwa [List.map_append, List.map_map] at hperm

theorem find?_pinned {q : Pin} (hq : q ∈ p) : (p.find? fun x => x.member.group == q.member.group) = some q :=
  find?_key_eq_some (key := fun x : Pin => x.member.group) (List.nodup_append.mp (h.groups_nodup hnd)).1 hq

theorem find?_left {m : Member} (hm : m ∈ n) : (p.find? fun x => x.member.group == m.group) = none :=
  find?_key_eq_none (key := fun x : Pin => x.member.group) fun hp =>
    (List.nodup_append.mp (h.groups_nodup hnd)).2.2 _ hp _ (List.mem_map_of_mem hm) rfl

theorem pinOf_pinned {q : Pin} (hq : q ∈ p) : pinOf p q.member.group = some q.pass := by
  rw [pinOf, h.find?_pinned hnd hq, Option.map_some]

theorem pinOf_left {m : Member} (hm : m ∈ n) : pinOf p m.group = none := by
  rw [pinOf, h.find?_left hnd hm, Option.map_none]

theorem mem_left_iff {m : Member} : m ∈ n ↔ m ∈ a ∧ pinOf p m.group = none := by
  refine ⟨fun hm => ⟨h.mem_left hm, h.pinOf_left hnd hm⟩, fun ⟨hm, hnone⟩ => ?_⟩
  rcases h.mem_cases hm with ⟨q, hq, rfl⟩ | hm
  · rw [h.pinOf_pinned hnd hq] at hnone
    cases hnone
  · exact hm

/-- Pass `k` finds exactly the members `n` open. -/
theorem openAt_perm : (openAt p k a).Perm n := by
  have hn : n.Nodup := (List.nodup_append.mp (h.groups_nodup hnd)).2.1.of_map
  refine (List.perm_ext_iff_of_nodup ((hnd.of_map).filter _) hn).mpr fun m => ?_
  rw [h.mem_left_iff hnd, List.mem_filter]
  refine and_congr_right fun hm => ?_
  rcases h.mem_cases hm with ⟨q, hq, rfl⟩ | hm
  · simp [h.pinOf_pinned hnd hq, (h.numbered q hq).2]
  · simp [h.pinOf_left hnd hm]

/-- Pass `k` finds exactly the members of `p` pinned. -/
theorem fixedAt_perm : (fixedAt p k a).Perm (p.map Pin.member) := by
  have hp : (p.map Pin.member).Nodup := by
    refine List.Nodup.of_map Member.group ?_
    rw [List.map_map]
    exact (List.nodup_append.mp (h.groups_nodup hnd)).1
  refine (List.perm_ext_iff_of_nodup ((hnd.of_map).filter _) hp).mpr fun m => ?_
  rw [List.mem_filter, List.mem_map]
  constructor
  · rintro ⟨hm, hany⟩
    refine (h.mem_cases hm).resolve_right fun hm => ?_
    rw [h.pinOf_left hnd hm] at hany
    cases hany
  · rintro ⟨q, hq, rfl⟩
    exact ⟨h.mem_pinned hq, by simp [h.pinOf_pinned hnd hq, (h.numbered q hq).2]⟩

theorem shareAt_eq (m : Member) : shareAt t a p k m = passShare t n p m := by
  rw [shareAt, ((h.fixedAt_perm hnd).map _).sum_nat, ((h.openAt_perm hnd).map _).sum_nat, List.map_map]
  rfl

/-- A pass that pins a member is one more pass taken. -/
theorem next (hk : t ≤ (a.map Member.ceiling).sum) (hpin : exceeding t n p ≠ []) :
    PassesTaken t a (k + 1) (keeping t n p) (p ++ pinsOf (exceeding t n p) k) where
  parts := by
    have hmembers : (pinsOf (exceeding t n p) k).map Pin.member = exceeding t n p := by
      simp [pinsOf, Function.comp_def]
    rw [List.map_append, hmembers, List.append_assoc]
    exact ((exceeding_append_keeping_perm t n p).append_left _).trans h.parts
  within := by
    have hsum : pinnedSum (p ++ pinsOf (exceeding t n p) k) =
        pinnedSum p + ((exceeding t n p).map Member.ceiling).sum := by
      simp [pinnedSum, pinsOf, Function.comp_def]
    have hle := sum_exceeding_le t n p
    have hwithin := h.within
    omega
  left := by
    refine keeping_ne_nil h.left ?_
    have hsum : (a.map Member.ceiling).sum = pinnedSum p + (n.map Member.ceiling).sum := h.sum_eq Member.ceiling
    omega
  numbered q hq := by
    rcases List.mem_append.mp hq with hq | hq
    · exact ⟨(h.numbered q hq).1, Nat.lt_succ_of_lt (h.numbered q hq).2⟩
    · obtain ⟨m, -, rfl⟩ := List.mem_map.mp hq
      exact ⟨h.count.1, Nat.lt_succ_self k⟩
  count := by
    have hpos := List.length_pos_of_ne_nil hpin
    have hcount := h.count
    simp only [List.length_append, pinsOf, List.length_map]
    omega
  pinning j hj hlt := by
    rcases Nat.lt_succ_iff_lt_or_eq.mp hlt with hlt | rfl
    · obtain ⟨q, hq, hpass⟩ := h.pinning j hj hlt
      exact ⟨q, List.mem_append_left _ hq, hpass⟩
    · obtain ⟨m, hm⟩ := List.exists_mem_of_ne_nil _ hpin
      exact ⟨⟨m, j⟩, List.mem_append_right _ (List.mem_map_of_mem hm), rfl⟩
  history j hj hlt m hm := by
    rw [openAt_append_pinsOf (Nat.le_of_lt_succ hlt)] at hm
    rw [shareAt_append_pinsOf (Nat.le_of_lt_succ hlt), pinOf_append, pinOf_pinsOf]
    rcases Nat.lt_succ_iff_lt_or_eq.mp hlt with hlt | rfl
    · rw [← h.history j hj hlt m hm]
      have hne : k ≠ j := by omega
      cases pinOf p m.group <;> simp [hne]
    · have hmn : m ∈ n := (h.openAt_perm hnd).subset hm
      have hgroup : m.group ∈ (exceeding t n p).map Member.group ↔ m ∈ exceeding t n p := by
        refine ⟨fun hg => ?_, fun hg => List.mem_map_of_mem hg⟩
        obtain ⟨x, hx, hxg⟩ := List.mem_map.mp hg
        exact List.inj_on_of_nodup_map hnd (h.mem_left (List.mem_filter.mp hx).1) (h.mem_left hmn) hxg ▸ hx
      rw [h.shareAt_eq hnd, h.pinOf_left hnd hmn, Option.none_or, ite_eq_left_iff, hgroup]
      simp [exceeding, hmn]

/-- The passes end with one that pins no member. -/
theorem exists_closing (hk : t ≤ (a.map Member.ceiling).sum) {fuel : Nat} (hfuel : n.length ≤ fuel) :
    ∃ (k' : Nat) (n' : List Member) (p' : List Pin), PassesTaken t a k' n' p' ∧ exceeding t n' p' = [] ∧
      splitPasses t fuel k n p = closingSplit t k' n' p' := by
  induction fuel generalizing k n p with
  | zero => exact absurd (List.length_eq_zero_iff.mp (Nat.le_zero.mp hfuel)) h.left
  | succ fuel ih =>
    by_cases hpin : exceeding t n p = []
    · exact ⟨k, n, p, h, hpin, by rw [splitPasses_succ, if_pos hpin]⟩
    · rw [splitPasses_succ, if_neg hpin]
      exact ih (h.next hnd hk hpin) (Nat.le_of_lt_succ ((keeping_length_lt hpin).trans_le hfuel))

end Distinct

end PassesTaken

end Sys2Proof.Machine
end

