-- ==== Sys2Proof/Proofs/SplitShares.lean ====
section
/-! What stage 2 leaves (R47, R48): the shares of the pass that ends it, read off the split. -/

namespace Sys2Proof.Machine

/-- Members of distinct groups are at most eight. -/
theorem members_length_le {a : List Member} (hnd : (a.map Member.group).Nodup) : a.length ≤ 8 := by
  simpa using hnd.length_le_card

/-! ### The shares of the closing pass -/

namespace PassesTaken

variable {t k : Nat} {a n : List Member} {p : List Pin}

section Shares

variable (h : PassesTaken t a k n p) (hnd : (a.map Member.group).Nodup)

include h hnd

theorem share_pinned {q : Pin} (hq : q ∈ p) : (closingSplit t k n p).share q.member.group = q.member.ceiling := by
  simp only [Split.share, closingSplit, h.find?_pinned hnd hq]

theorem share_left {m : Member} (hm : m ∈ n) : (closingSplit t k n p).share m.group = passShare t n p m := by
  have hshared : (n.map fun x => (x, passShare t n p x)).find? (fun x => x.1.group == m.group) =
      some (m, passShare t n p m) := by
    refine find?_key_eq_some (key := fun x : Member × Nat => x.1.group) (x := (m, passShare t n p m)) ?_
      (List.mem_map_of_mem hm)
    rw [List.map_map]
    exact (List.nodup_append.mp (h.groups_nodup hnd)).2.1
  simp only [Split.share, closingSplit, h.find?_left hnd hm, hshared]

/-- The shares and the leftover make up the total. -/
theorem sum_share : (a.map fun m => (closingSplit t k n p).share m.group).sum + (closingSplit t k n p).leftover = t := by
  have hpinned : (p.map fun q => (closingSplit t k n p).share q.member.group).sum = pinnedSum p :=
    congrArg List.sum (List.map_congr_left fun q hq => h.share_pinned hnd hq)
  have hleft : (n.map fun m => (closingSplit t k n p).share m.group) = n.map (passShare t n p) :=
    List.map_congr_left fun m hm => h.share_left hnd hm
  have hleftover : (closingSplit t k n p).leftover = t - pinnedSum p - (n.map (passShare t n p)).sum := rfl
  have hwithin := h.within
  have hle := sum_passShare_le t n p
  rw [h.sum_eq, hpinned, hleft, hleftover]
  omega

end Shares

/-- At most 8 passes are taken (R48): there are eight groups, and every pass but the last pins a member. -/
theorem le_eight (h : PassesTaken t a k n p) (hnd : (a.map Member.group).Nodup) : k ≤ 8 := by
  have hmembers := members_length_le hnd
  have hleft := List.length_pos_of_ne_nil h.left
  have hcount := h.count
  have hlen := h.length_eq
  omega

end PassesTaken

/-! ### Stage 2 as a whole -/

/-- A split of `t` over the members `a` as R47 and R48 say it. -/
structure Split.divides (w : Split) (t : Nat) (a : List Member) : Prop where
  passes_le : w.passes ≤ 8
  unpinned : a ≠ [] → 1 ≤ w.passes ∧ ∃ m ∈ a, w.pinnedIn m.group = none
  total : (a.map fun m => w.share m.group).sum + w.leftover = t
  share_le : ∀ m ∈ a, w.share m.group ≤ m.ceiling
  share_open : ∀ m ∈ a, w.pinnedIn m.group = none → w.share m.group = shareAt t a w.pinned w.passes m
  share_fixed : ∀ m ∈ a, ∀ j : Nat, w.pinnedIn m.group = some j → 1 ≤ j ∧ j < w.passes ∧ w.share m.group = m.ceiling
  pins_iff : ∀ j : Nat, 1 ≤ j → j ≤ w.passes → ∀ m ∈ openAt w.pinned j a,
    (w.pinnedIn m.group = some j ↔ m.ceiling < shareAt t a w.pinned j m)
  pinning : ∀ j : Nat, 1 ≤ j → j < w.passes → ∃ m ∈ a, w.pinnedIn m.group = some j

/-- A pass that pins no member ends a split that divides the total. -/
theorem PassesTaken.closingSplit_divides {t k : Nat} {a n : List Member} {p : List Pin} (h : PassesTaken t a k n p)
    (hnd : (a.map Member.group).Nodup) (hend : exceeding t n p = []) : (closingSplit t k n p).divides t a := by
  have hpin : ∀ g : Group, (closingSplit t k n p).pinnedIn g = pinOf p g := Split.pinnedIn_eq _
  have hkeep : ∀ m ∈ n, passShare t n p m ≤ m.ceiling := fun m hm => by
    simpa using List.filter_eq_nil_iff.mp hend m hm
  constructor
  case passes_le => exact h.le_eight hnd
  case unpinned =>
    obtain ⟨m, hm⟩ := List.exists_mem_of_ne_nil n h.left
    exact fun _ => ⟨h.count.1, m, h.mem_left hm, (hpin _).trans (h.pinOf_left hnd hm)⟩
  case total => exact h.sum_share hnd
  case share_le =>
    intro m hm
    rcases h.mem_cases hm with ⟨q, hq, rfl⟩ | hm
    · exact (h.share_pinned hnd hq).le
    · exact (h.share_left hnd hm).trans_le (hkeep m hm)
  case share_open =>
    intro m hm hnone
    rw [h.share_left hnd ((h.mem_left_iff hnd).mpr ⟨hm, (hpin _).symm.trans hnone⟩)]
    exact (h.shareAt_eq hnd m).symm
  case share_fixed =>
    intro m hm j hj
    rw [hpin] at hj
    rcases h.mem_cases hm with ⟨q, hq, rfl⟩ | hm
    · rw [h.pinOf_pinned hnd hq] at hj
      cases hj
      exact ⟨(h.numbered q hq).1, (h.numbered q hq).2, h.share_pinned hnd hq⟩
    · rw [h.pinOf_left hnd hm] at hj
      cases hj
  case pins_iff =>
    intro j hj hle m hm
    rw [hpin]
    rcases Nat.lt_or_eq_of_le hle with hlt | rfl
    · exact h.history j hj hlt m hm
    · have hmn : m ∈ n := (h.openAt_perm hnd).subset hm
      have hnot : ¬ m.ceiling < shareAt t a p j m := by
        rw [h.shareAt_eq hnd]
        exact (hkeep m hmn).not_gt
      simpa [h.pinOf_left hnd hmn, closingSplit] using hnot
  case pinning =>
    intro j hj hlt
    obtain ⟨q, hq, rfl⟩ := h.pinning j hj hlt
    exact ⟨q.member, h.mem_pinned hq, (hpin _).trans (h.pinOf_pinned hnd hq)⟩

/-- Stage 2 divides a total within the capacity of members of distinct groups. -/
theorem weightedSplit_divides {t : Nat} {a : List Member} (hnd : (a.map Member.group).Nodup)
    (hk : t ≤ (a.map Member.ceiling).sum) : (weightedSplit t a).divides t a := by
  by_cases ha : a = []
  · subst ha
    have ht : t = 0 := Nat.le_zero.mp hk
    constructor <;> simp [weightedSplit, openAt, ht]
  · obtain ⟨k, n, p, h, hend, hsplit⟩ := (PassesTaken.start t ha).exists_closing hnd hk le_rfl
    have hwhole : weightedSplit t a = splitPasses t a.length 1 a [] := by
      cases a with
      | nil => exact absurd rfl ha
      | cons m ms => rfl
    rw [hwhole, hsplit]
    exact h.closingSplit_divides hnd hend

end Sys2Proof.Machine
end

