-- ==== Sys2Proof/Proofs/Quantization.lean ====
section
/-! Stage 3, the quantization with carry (R50, R51). -/

namespace Sys2Proof.Machine

/-! ### The order of one member (R50) -/

theorem Member.orderFor_le (m : Member) (v : Nat) : m.orderFor v ≤ v := (min_le_left _ _).trans (Nat.div_mul_le_self _ _)

theorem Member.orderFor_le_cap (m : Member) (v : Nat) : m.orderFor v ≤ m.cap := min_le_right _ _

theorem Member.orderFor_mod (m : Member) (v : Nat) : m.orderFor v % m.resolution = 0 := by
  rw [Member.orderFor, Member.cap]
  rcases min_choice (v / m.resolution * m.resolution) (m.ceiling / m.resolution * m.resolution) with h | h <;>
    rw [h] <;> exact Nat.mul_mod_left _ _

/-! ### The visits -/

section Visits

variable {share : Group → Nat} {carry : Nat}

theorem quantize_cons (m : Member) (l : List Member) :
    quantize share carry (m :: l) =
      ((m.group, m.orderFor (share m.group + carry)) ::
          (quantize share (share m.group + carry - m.orderFor (share m.group + carry)) l).1,
        (quantize share (share m.group + carry - m.orderFor (share m.group + carry)) l).2) := rfl

/-- Visits go on with the carry that those before have left. -/
theorem quantize_append (l l' : List Member) :
    quantize share carry (l ++ l') =
      ((quantize share carry l).1 ++ (quantize share (quantize share carry l).2 l').1,
        (quantize share (quantize share carry l).2 l').2) := by
  induction l generalizing carry with
  | nil => rfl
  | cons m l ih => simp only [List.cons_append, quantize_cons, ih]

theorem quantize_groups (l : List Member) : (quantize share carry l).1.map Prod.fst = l.map Member.group := by
  induction l generalizing carry with
  | nil => rfl
  | cons m l ih => simp only [quantize_cons, List.map_cons, ih]

/-- What the orders do not take of the shares and the carry is the carry that remains (R51). -/
theorem quantize_sum (l : List Member) :
    ((quantize share carry l).1.map Prod.snd).sum + (quantize share carry l).2 =
      carry + (l.map fun m => share m.group).sum := by
  induction l generalizing carry with
  | nil => simp [quantize]
  | cons m l ih =>
    have hle := m.orderFor_le (share m.group + carry)
    have hrest := ih (carry := share m.group + carry - m.orderFor (share m.group + carry))
    simp only [quantize_cons, List.map_cons, List.sum_cons]
    omega

end Visits

/-! ### The orders by group -/

/-- The order of a group, 0 where it has none. -/
def orderIn (o : List (Group × Nat)) (g : Group) : Nat := ((o.find? fun x => x.1 == g).map Prod.snd).getD 0

section Orders

variable {share : Group → Nat} {carry : Nat} {o : List (Group × Nat)} {l : List Member}

theorem orderIn_of_mem (ho : (o.map Prod.fst).Nodup) {x : Group × Nat} (hx : x ∈ o) : orderIn o x.1 = x.2 := by
  rw [orderIn, find?_key_eq_some ho hx]
  rfl

/-- The orders among `o` of members that were visited are those formed at their visits. -/
theorem map_orderIn (ho : (o.map Prod.fst).Nodup) (hsub : (quantize share carry l).1 ⊆ o) :
    (l.map fun m => orderIn o m.group) = (quantize share carry l).1.map Prod.snd := by
  have hgroups : (l.map fun m => orderIn o m.group) = (l.map Member.group).map (orderIn o) := by
    rw [List.map_map]
    rfl
  rw [hgroups, ← quantize_groups (share := share) (carry := carry), List.map_map]
  exact List.map_congr_left fun x hx => orderIn_of_mem ho (hsub hx)

variable (hnd : (l.map Member.group).Nodup)

include hnd

theorem quantize_nodup : ((quantize share carry l).1.map Prod.fst).Nodup := by rwa [quantize_groups]

theorem sum_orderIn :
    (l.map fun m => orderIn (quantize share carry l).1 m.group).sum + (quantize share carry l).2 =
      carry + (l.map fun m => share m.group).sum := by
  rw [map_orderIn (quantize_nodup hnd) (List.Subset.refl _), quantize_sum]

/-- A member's order is its share and the carry of the members visited before it, rounded down and lowered to its cap (R50). -/
theorem orderIn_quantize {before after : List Member} {m : Member} (hl : l = before ++ m :: after) :
    orderIn (quantize share carry l).1 m.group = m.orderFor (share m.group +
      (carry + (before.map fun x => share x.group).sum -
        (before.map fun x => orderIn (quantize share carry l).1 x.group).sum)) := by
  have hquant := quantize_append (share := share) (carry := carry) before (m :: after)
  rw [← hl, quantize_cons] at hquant
  have horders := congrArg Prod.fst hquant
  have hbefore : (before.map fun x => orderIn (quantize share carry l).1 x.group) =
      (quantize share carry before).1.map Prod.snd :=
    map_orderIn (quantize_nodup hnd) (horders ▸ List.subset_append_left _ _)
  have hcarry : carry + (before.map fun x => share x.group).sum -
      (before.map fun x => orderIn (quantize share carry l).1 x.group).sum = (quantize share carry before).2 := by
    rw [hbefore, ← quantize_sum, Nat.add_sub_cancel_left]
  rw [hcarry]
  exact orderIn_of_mem (quantize_nodup hnd) (x := (m.group, _)) (horders ▸ List.mem_append_right _ List.mem_cons_self)

end Orders

end Sys2Proof.Machine
end

