-- ==== Sys2Proof/Proofs/AllocationRecord.lean ====
section
/-! The record of an allocation (R45, R51, R59): its members are those of the allocation set, with the shares of the weighted split
and the orders of the quantization. -/

namespace Sys2Proof.Machine

/-! ### Sound members -/

section Sound

variable {a : List Member}

theorem groups_nodup_of_ascending (h : a.Pairwise fun x y => x.group.val < y.group.val) : (a.map Member.group).Nodup :=
  List.pairwise_map.mpr (h.imp fun hlt heq => hlt.ne (congrArg Fin.val heq))

/-- In ascending order of group the members met are the members themselves. -/
theorem filterMap_memberOf (h : a.Pairwise fun x y => x.group.val < y.group.val) : allGroups.filterMap (memberOf a) = a := by
  have hgroups : allGroups.Pairwise fun g g' => g.val < g'.val := by decide
  have hmet : (allGroups.filterMap (memberOf a)).Pairwise (InvImage (· < ·) fun m : Member => m.group.val) :=
    hgroups.filterMap _ fun g g' hlt x hx y hy => by
      show x.group.val < y.group.val
      rwa [group_of_memberOf hx, group_of_memberOf hy]
  refine hmet.eq_of_mem_iff h fun m => ?_
  rw [mem_filterMap_memberOf]
  exact ⟨fun hm => mem_of_memberOf hm.2, fun hm => ⟨mem_allGroups _, memberOf_group (groups_nodup_of_ascending h) hm⟩⟩

/-- Members of distinct groups with ceilings of at most 12,000 have a capacity of at most 96,000 (R45). -/
theorem capacity_le (hnd : (a.map Member.group).Nodup) (h : ∀ m ∈ a, m.ceiling ≤ 12000) :
    (a.map Member.ceiling).sum ≤ 96000 := by
  have hsum : (a.map Member.ceiling).sum ≤ (a.map Member.ceiling).length • 12000 :=
    List.sum_le_card_nsmul _ _ (List.forall_mem_map.mpr h)
  have hlen := members_length_le hnd
  rw [List.length_map, smul_eq_mul] at hsum
  omega

end Sound

/-! ### The members of the record (R59) -/

/-- What the record keeps of a member, with the split `w` and the orders `o`. -/
def allocMember (w : Split) (o : List (Group × Nat)) (m : Member) : AllocMember :=
  { ceiling := m.ceiling, cap := m.cap, weight := m.weight, resolution := m.resolution, share := w.share m.group
    pinned := w.pinnedIn m.group, order := orderIn o m.group }

/-- A record keeps the members `a` with the split `w` and the orders `o`. -/
def AllocRecord.keeps (r : AllocRecord) (a : List Member) (w : Split) (o : List (Group × Nat)) : Prop :=
  ∀ g : Group, r.members.get g = (memberOf a g).map (allocMember w o)

/-- The split of an allocation (R45, R47). -/
def allocSplit (iCmd : Nat) (a : List Member) : Split := weightedSplit (min iCmd (a.map Member.ceiling).sum) a

theorem allocate_orders (now : Nat) (state : LineState) (iCmd : Nat) (p : Group) (a : List Member) :
    (allocate now state iCmd p a).orders =
      (quantize (allocSplit iCmd a).share (allocSplit iCmd a).leftover (visitOrder p a)).1 := rfl

theorem allocate_keeps (now : Nat) (state : LineState) (iCmd : Nat) (p : Group) (a : List Member) :
    (allocate now state iCmd p a).record.keeps a (allocSplit iCmd a) (allocate now state iCmd p a).orders := by
  intro g
  have horder : ∀ o : List (Group × Nat), orderIn o g = match o.find? fun x => x.1 == g with
      | some x => x.2
      | none => 0 := fun o => by
    unfold orderIn
    cases o.find? fun x => x.1 == g <;> rfl
  simp only [allocate, Eight.get_ofFn]
  cases hm : memberOf a g with
  | none => rw [show (a.find? fun m => m.group == g) = none from hm, Option.map_none]
  | some m =>
    rw [show (a.find? fun m => m.group == g) = some m from hm, Option.map_some, allocMember, group_of_memberOf hm, horder]
    rfl

namespace AllocRecord.keeps

variable {r : AllocRecord} {a : List Member} {w : Split} {o : List (Group × Nat)}

theorem get_none (h : r.keeps a w o) {g : Group} (hg : ∀ m ∈ a, m.group ≠ g) : r.members.get g = none := by
  rw [h g, memberOf_eq_none.mpr hg, Option.map_none]

theorem get_group (h : r.keeps a w o) (hnd : (a.map Member.group).Nodup) {m : Member} (hm : m ∈ a) :
    r.members.get m.group = some (allocMember w o m) := by
  rw [h, memberOf_group hnd hm, Option.map_some]

/-- The members of some groups are those of the allocation set in them. -/
theorem filterMap_get (h : r.keeps a w o) (gs : List Group) :
    gs.filterMap r.members.get = (gs.filterMap (memberOf a)).map (allocMember w o) := by
  rw [List.map_filterMap]
  exact List.filterMap_congr fun g _ => h g

section Ascending

variable (h : r.keeps a w o) (hasc : a.Pairwise fun x y => x.group.val < y.group.val)

include h hasc

theorem taking_eq : r.taking = a.map (allocMember w o) := by
  have hlist : r.taking = allGroups.filterMap r.members.get := by
    rw [AllocRecord.taking, show r.members.toList = allGroups.map r.members.get from rfl, List.filterMap_map]
    rfl
  rw [hlist, h.filterMap_get, filterMap_memberOf hasc]

theorem openIn_eq (k : Nat) : r.openIn k = (openAt w.pinned k a).map (allocMember w o) := by
  rw [AllocRecord.openIn, h.taking_eq hasc, List.filter_map, openAt]
  congr 1
  exact List.filter_congr fun m _ => by simp only [Function.comp, allocMember, Split.pinnedIn_eq]

theorem fixedIn_eq (k : Nat) : r.fixedIn k = (fixedAt w.pinned k a).map (allocMember w o) := by
  rw [AllocRecord.fixedIn, h.taking_eq hasc, List.filter_map, fixedAt]
  congr 1
  exact List.filter_congr fun m _ => by simp only [Function.comp, allocMember, Split.pinnedIn_eq]

theorem shareIn_eq (k : Nat) (m : Member) :
    r.shareIn k (allocMember w o m) = shareAt r.total a w.pinned k m := by
  rw [AllocRecord.shareIn, h.fixedIn_eq hasc, h.openIn_eq hasc, List.map_map, List.map_map]
  rfl

/-- The shares of a split that divides the total are those of R47. -/
theorem splitByWeight (hw : w.divides r.total a) (hpasses : r.passes = w.passes) : r.splitByWeight := by
  rw [AllocRecord.splitByWeight, h.taking_eq hasc, List.forall_mem_map, hpasses]
  refine ⟨fun m hm => ⟨fun hnone => ?_, hw.share_fixed m hm, fun k hk hle hopen => ?_⟩, fun k hk hlt => ?_⟩
  · rw [h.shareIn_eq hasc]
    exact hw.share_open m hm hnone
  · rw [h.shareIn_eq hasc]
    refine hw.pins_iff k hk hle m (List.mem_filter.mpr ⟨hm, ?_⟩)
    rw [AllocRecord.openIn, List.mem_filter] at hopen
    simpa only [allocMember, Split.pinnedIn_eq] using hopen.2
  · obtain ⟨m, hm, hpin⟩ := hw.pinning k hk hlt
    exact ⟨_, List.mem_map_of_mem hm, hpin⟩

end Ascending

/-! ### The orders of the record (R50) -/

/-- The orders of a quantization from the leftover on are those of R50. -/
theorem quantized {p : Group} (h : r.keeps a w (quantize w.share w.leftover (visitOrder p a)).1) (hnd : (a.map Member.group).Nodup)
    (hstart : r.start = (visitOrder p a).head?.map Member.group) (hleftover : r.leftover = w.leftover) : r.quantized := by
  intro first g x hfirst hx
  rw [hstart] at hfirst
  obtain ⟨start, hhead, rfl⟩ := Option.map_eq_some_iff.mp hfirst
  rw [h g] at hx
  obtain ⟨m, hm, rfl⟩ := Option.map_eq_some_iff.mp hx
  obtain rfl := group_of_memberOf hm
  obtain ⟨before, after, hv⟩ := List.append_of_mem (mem_visitOrder.mpr hm)
  have hmet := (before_perm hnd hhead hv).map (allocMember w (quantize w.share w.leftover (visitOrder p a)).1)
  have hcarry : r.carryAt start.group m.group = w.leftover + (before.map fun x => w.share x.group).sum -
      (before.map fun x => orderIn (quantize w.share w.leftover (visitOrder p a)).1 x.group).sum := by
    rw [AllocRecord.carryAt, h.filterMap_get, hleftover]
    unfold stepsFrom at hmet
    rw [(hmet.map AllocMember.share).sum_nat, (hmet.map AllocMember.order).sum_nat, List.map_map, List.map_map]
    rfl
  rw [hcarry]
  exact orderIn_quantize (visited_groups_nodup p hnd) hv

end AllocRecord.keeps

/-! ### The allocation (R45 to R52) -/

section Allocate

variable (now iCmd : Nat) (state : LineState) (p : Group) {a : List Member} (hnd : (a.map Member.group).Nodup)

include hnd

theorem allocSplit_divides : (allocSplit iCmd a).divides (min iCmd (a.map Member.ceiling).sum) a :=
  weightedSplit_divides hnd (min_le_right _ _)

/-- Every member's order is some value rounded down to its resolution and lowered to its cap (R50). -/
theorem allocate_order {m : Member} (hm : m ∈ a) :
    ∃ v : Nat, orderIn (allocate now state iCmd p a).orders m.group = m.orderFor v := by
  obtain ⟨before, after, hv⟩ := List.append_of_mem ((visitOrder_perm p hnd).mem_iff.mpr hm)
  exact ⟨_, orderIn_quantize (visited_groups_nodup p hnd) hv⟩

/-- The orders with the residual make up the total (R51). -/
theorem sum_allocate_orders :
    (a.map fun m => orderIn (allocate now state iCmd p a).orders m.group).sum +
      (allocate now state iCmd p a).record.residual = min iCmd (a.map Member.ceiling).sum := by
  have hvisits := visitOrder_perm p hnd
  have hsum := sum_orderIn (share := (allocSplit iCmd a).share) (carry := (allocSplit iCmd a).leftover)
    (visited_groups_nodup p hnd)
  rw [(hvisits.map _).sum_nat, (hvisits.map _).sum_nat, Nat.add_comm (allocSplit iCmd a).leftover,
    (allocSplit_divides iCmd hnd).total] at hsum
  exact hsum

end Allocate

/-- Settles O18: the record keeps the members with the shares of a split that divides the total and the orders of the
quantization that follows it. -/
theorem allocationDividesTheTotalExactly : Obligations.AllocationDividesTheTotalExactly := by
  intro now iCmd state p a ⟨hasc, hrange⟩ r
  have hnd := groups_nodup_of_ascending hasc
  have hceiling : ∀ m ∈ a, m.ceiling ≤ 12000 := fun m hm => by
    obtain ⟨-, -, hle⟩ := hrange m hm
    exact hle
  have hw : (allocSplit iCmd a).divides r.total a := allocSplit_divides iCmd hnd
  have hkeeps := allocate_keeps now state iCmd p a
  have htaking : r.members.toList.filterMap id = _ := hkeeps.taking_eq hasc
  refine ⟨rfl, capacity_le hnd hceiling, rfl, rfl, hw.passes_le, ?_, fun ha => ?_, ?_, ?_,
    fun g hg => hkeeps.get_none hg, fun m hm => ?_, hkeeps.splitByWeight hasc hw rfl, hkeeps.quantized hnd rfl rfl⟩
  · rintro rfl
    exact ⟨rfl, rfl⟩
  · obtain ⟨hpasses, m, hm, hnone⟩ := hw.unpinned ha
    exact ⟨hpasses, m, hm, _, hkeeps.get_group hnd hm, hnone⟩
  · rw [htaking, List.map_map]
    exact hw.total
  · rw [htaking, List.map_map]
    exact sum_allocate_orders now iCmd state p hnd
  · obtain ⟨v, hv⟩ := allocate_order now iCmd state p hnd hm
    refine ⟨_, hkeeps.get_group hnd hm, rfl, rfl, rfl, rfl, hw.share_le m hm, ?_, ?_⟩
    · exact (congrArg (· % m.resolution) hv).trans (m.orderFor_mod v)
    · exact hv.trans_le (m.orderFor_le_cap v)

/-! ### An allocation with one member (R56) -/

section Single

variable {t : Nat} {m : Member}

/-- One pass gives a single member the whole total. -/
theorem weightedSplit_single (hweight : 1 ≤ m.weight) (ht : t ≤ m.ceiling) :
    weightedSplit t [m] = { shared := [(m, t)], pinned := [], passes := 1, leftover := 0 } := by
  have hshare : passShare t [m] [] m = t := by
    simp [passShare, pinnedSum, shareOf, Nat.mul_div_cancel t hweight]
  have hnone : exceeding t [m] [] = [] := by simpa [exceeding, hshare] using ht
  calc weightedSplit t [m] = splitPasses t 1 1 [m] [] := rfl
    _ = closingSplit t 1 [m] [] := by rw [splitPasses_succ, if_pos hnone]
    _ = _ := by simp [closingSplit, hshare, pinnedSum]

theorem visitOrder_single (p : Group) (m : Member) : visitOrder p [m] = [m] :=
  List.perm_singleton.mp (visitOrder_perm p (List.nodup_singleton _))

/-- A total within the ceiling is rounded down without reaching the cap. -/
theorem Member.orderFor_of_le (ht : t ≤ m.ceiling) : m.orderFor t = t / m.resolution * m.resolution :=
  min_eq_left (Nat.mul_le_mul_right _ (Nat.div_le_div_right ht))

end Single

/-- Settles O19: the split, the visit and the quantization of one member, put together in its record. -/
theorem singleMemberTakesTheTotal : Obligations.SingleMemberTakesTheTotal := by
  intro now iCmd state p m hweight hresolution r t
  have ht : t ≤ m.ceiling := min_le_right _ _
  have horder := Member.orderFor_of_le ht
  have hsplit : allocSplit iCmd [m] = { shared := [(m, t)], pinned := [], passes := 1, leftover := 0 } :=
    weightedSplit_single hweight ht
  have hshare : (allocSplit iCmd [m]).share m.group = t := by simp [hsplit, Split.share]
  have hquant : quantize (allocSplit iCmd [m]).share (allocSplit iCmd [m]).leftover (visitOrder p [m]) =
      ([(m.group, m.orderFor t)], t - m.orderFor t) := by
    rw [visitOrder_single, quantize_cons, hshare, hsplit]
    rfl
  have hresidual : r.residual = t - t / m.resolution * m.resolution := by
    rw [← horder]
    exact congrArg Prod.snd hquant
  have hrotation : r.rotation = m.group := by
    rw [allocate_rotation, visitOrder_single]
    rfl
  refine ⟨rfl, rfl, congrArg Split.passes hsplit, congrArg Split.leftover hsplit, ?_, hresidual, ?_, hrotation, ?_⟩
  · have hmod := Nat.mod_lt t hresolution
    have hdiv := Nat.div_add_mod' t m.resolution
    omega
  · rw [← horder]
    exact m.orderFor_le_cap t
  · have hget : r.members.get m.group = _ :=
      (allocate_keeps now state iCmd p [m]).get_group (List.nodup_singleton _) List.mem_cons_self
    rw [hget, allocMember, hshare, allocate_orders, hquant, ← horder, hsplit]
    simp [Split.pinnedIn, orderIn, Member.cap]

end Sys2Proof.Machine
end

