-- ==== Sys2Proof/Proofs/Filtering.lean ====
section
/-! One input filtered by a run of equal frames (R61, R62). -/

namespace Sys2Proof.Machine

/-- The run that a frame of value `v` leaves on an input it does not settle: one frame longer, or begun anew (R61). -/
def InputFilter.counted (i : InputFilter) (v : Bool) : InputFilter :=
  if v = i.run ∧ 0 < i.count then { i with count := i.count + 1 } else { i with run := v, count := 1 }

/-- An input that has taken the value `v` (R61). -/
def takenInput (v : Bool) : InputFilter := { filtered := v, settled := true, run := v, count := 0 }

section Filter

variable {i : InputFilter} {f : Nat} {v : Bool}

theorem InputFilter.counted_run (i : InputFilter) (v : Bool) : (i.counted v).run = v := by
  unfold counted
  split
  · next h => exact h.1.symm
  · rfl

theorem InputFilter.counted_begins (h : i.count = 0 ∨ i.run ≠ v) : i.counted v = { i with run := v, count := 1 } := by
  refine if_neg fun ⟨hrun, hcount⟩ => ?_
  rcases h with h | h
  · omega
  · exact h hrun.symm

theorem InputFilter.counted_continues (hcount : 0 < i.count) (hrun : i.run = v) :
    i.counted v = { i with count := i.count + 1 } := if_pos ⟨hrun.symm, hcount⟩

/-- A frame of the settled filtered value breaks a run (R61). -/
theorem InputFilter.step_of_settled (hf : 1 ≤ f) (h : i.settled = true ∧ i.filtered = v) :
    i.step f v = { i with count := 0 } := by
  have hpos : ¬ f ≤ 0 := by omega
  simp [step, h.1, h.2, hpos]

/-- Any other frame lengthens its run, and is taken once the run has F frames (R61). -/
theorem InputFilter.step_of_unsettled (h : ¬ (i.settled = true ∧ i.filtered = v)) :
    i.step f v = if f ≤ (i.counted v).count then takenInput v else i.counted v := by
  have hother : ¬ (i.filtered = v ∧ i.settled = true) := fun h' => h h'.symm
  simp only [step, if_neg hother]
  change (if f ≤ (i.counted v).count then InputFilter.mk (i.counted v).run true (i.counted v).run 0 else i.counted v) = _
  rw [counted_run]
  rfl

end Filter

/-! ### Frames of one value -/

/-- An input after `k` frames of the value `v`. -/
def InputFilter.fed (i : InputFilter) (f : Nat) (v : Bool) (k : Nat) : InputFilter :=
  (List.replicate k v).foldl (fun j raw => j.step f raw) i

section Fed

variable {i : InputFilter} {f : Nat} {v : Bool}

theorem InputFilter.fed_succ (i : InputFilter) (f : Nat) (v : Bool) (k : Nat) :
    i.fed f v (k + 1) = (i.step f v).fed f v k := rfl

theorem InputFilter.fed_last (i : InputFilter) (f : Nat) (v : Bool) (k : Nat) :
    i.fed f v (k + 1) = (i.fed f v k).step f v := by
  rw [fed, List.replicate_succ', List.foldl_append]
  rfl

section Standing

variable (hnew : ¬ (i.settled = true ∧ i.filtered = v)) (hcount : 0 < i.count) (hrun : i.run = v)
include hnew hcount hrun

theorem InputFilter.step_standing :
    i.step f v = if f ≤ i.count + 1 then takenInput v else { i with count := i.count + 1 } := by
  rw [step_of_unsettled hnew, counted_continues hcount hrun]

/-- A run that stands is counted on while it stays below F. -/
theorem InputFilter.fed_counts {k : Nat} (hk : k = 0 ∨ i.count + k < f) :
    i.fed f v k = { i with count := i.count + k } := by
  induction k with
  | zero => rfl
  | succ k ih =>
    have hbelow : i.count + (k + 1) < f := hk.resolve_left k.succ_ne_zero
    rw [fed_last, ih (.inr (by omega)),
      step_standing (i := { i with count := i.count + k }) hnew (Nat.add_pos_left hcount k) hrun]
    exact if_neg (Nat.not_le.mpr hbelow)

/-- The frame that brings a standing run to F frames settles its value, at the latest the next one. -/
theorem InputFilter.fed_takes : i.fed f v (max 1 (f - i.count)) = takenInput v := by
  obtain ⟨k, hk⟩ : ∃ k, max 1 (f - i.count) = k + 1 := ⟨max 1 (f - i.count) - 1, by omega⟩
  have hreached : f ≤ i.count + k + 1 := by omega
  rw [hk, fed_last, fed_counts hnew hcount hrun (by omega),
    step_standing (i := { i with count := i.count + k }) hnew (Nat.add_pos_left hcount k) hrun]
  exact if_pos hreached

end Standing

/-- The first frame of a run, where F is more than one frame. -/
theorem InputFilter.step_begins (hnew : ¬ (i.settled = true ∧ i.filtered = v)) (hrun : i.count = 0 ∨ i.run ≠ v)
    (hf : 1 < f) : i.step f v = { i with run := v, count := 1 } := by
  rw [step_of_unsettled hnew, counted_begins hrun]
  exact if_neg (Nat.not_le.mpr hf)

end Fed

/-- Settles O21: the first frame begins a run, the frames after it count it on, and the one that reaches F is taken. -/
theorem filteredInputsFollowAfterFFrames : Obligations.FilteredInputsFollowAfterFFrames := by
  intro i f v hf after
  have hafter : ∀ k : Nat, after k = i.fed f v k := fun _ => rfl
  simp only [hafter]
  refine ⟨fun hnew hrun => ⟨fun k h1 hk => ?_, ?_⟩,
    fun hnew hcount hrun => ⟨fun k hk => InputFilter.fed_counts hnew hcount hrun (.inr hk),
      InputFilter.fed_takes hnew hcount hrun⟩,
    fun hs hv => InputFilter.step_of_settled hf ⟨hs, hv⟩⟩
  · obtain ⟨k, rfl⟩ := Nat.exists_eq_add_of_le' h1
    have hstand := InputFilter.fed_counts (i := { i with run := v, count := 1 }) (f := f) hnew one_pos rfl (k := k)
      (.inr (by simpa only [Nat.add_comm] using hk))
    rw [InputFilter.fed_succ, InputFilter.step_begins hnew hrun (by omega), hstand, Nat.add_comm]
  · rcases hf.eq_or_lt with rfl | hf
    · have htaken : i.step 1 v = takenInput v := by
        rw [InputFilter.step_of_unsettled hnew, InputFilter.counted_begins hrun]
        exact if_pos le_rfl
      exact htaken
    · obtain ⟨k, rfl⟩ := Nat.exists_eq_add_of_le' hf.le
      have hstand := InputFilter.fed_takes (i := { i with run := v, count := 1 }) (f := k + 1) hnew one_pos rfl
      rw [show max 1 (k + 1 - 1) = k by omega] at hstand
      rw [InputFilter.fed_succ, InputFilter.step_begins hnew hrun hf, hstand]
      rfl

end Sys2Proof.Machine
end

