-- ==== Sys2Proof/Proofs/Derate.lean ====
section
/-! The derate step (R72). -/

namespace Sys2Proof.Machine

/-! ### The candidate (R72) -/

section Candidate

variable {table : Eight (Int × Nat)} {t : Int}

theorem candidate_eq_none (h : ∀ i : Fin 8, t < (table.get i).1) : candidate table t = none :=
  List.find?_eq_none.mpr fun i _ => by simpa using h i

/-- The breakpoints are searched from the highest down. -/
theorem allGroups_reverse_get (i : Fin 8) : allGroups.reverse[7 - i.val]'(by simp [allGroups]; omega) = i := by
  fin_cases i <;> rfl

/-- The candidate is the highest breakpoint at or below the outlet temperature. -/
theorem candidate_eq_some {i : Fin 8} (hi : (table.get i).1 ≤ t) (h : ∀ j : Fin 8, i.val < j.val → t < (table.get j).1) :
    candidate table t = some i := by
  refine List.find?_eq_some_iff_getElem.mpr ⟨by simpa using hi, 7 - i.val, by simp [allGroups]; omega,
    allGroups_reverse_get i, fun n hn => ?_⟩
  have hget : allGroups.reverse[n]'(by simp [allGroups]; omega) = ⟨7 - n, by omega⟩ := by
    rw [← allGroups_reverse_get ⟨7 - n, by omega⟩]
    congr 1
    simp only
    omega
  simpa [hget] using h ⟨7 - n, by omega⟩ (by simp only; omega)

end Candidate

/-! ### The step (R72) -/

section Step

variable {c : GroupCooling} {table : Eight (Int × Nat)} {h : Nat} {t : Int}

theorem GroupCooling.derateStep_falls (hp : percentOf table (candidate table t) < c.percent) :
    c.derateStep table h t =
      { c with governing := candidate table t, percent := percentOf table (candidate table t) } := if_pos hp

theorem GroupCooling.derateStep_level (hp : percentOf table (candidate table t) = c.percent) :
    c.derateStep table h t = c := by simp [derateStep, hp]

/-- A higher percent is taken exactly at or below the governing breakpoint less the hysteresis. -/
theorem GroupCooling.derateStep_of_higher {i : Fin 8} (hg : c.governing = some i)
    (hp : c.percent < percentOf table (candidate table t)) :
    c.derateStep table h t =
      if t ≤ (table.get i).1 - (h : Int) then
        { c with governing := candidate table t, percent := percentOf table (candidate table t) }
      else c := by
  simp [derateStep, hg, hp, hp.not_gt]

end Step

/-- Settles O23: the candidate the statement describes is the one the step searches for. -/
theorem derateFallsAtOnceAndRisesWithHysteresis : Obligations.DerateFallsAtOnceAndRisesWithHysteresis := by
  intro c table h t k p hcandidate
  obtain ⟨rfl, rfl⟩ : candidate table t = k ∧ percentOf table (candidate table t) = p := by
    rcases hcandidate with ⟨rfl, rfl, hall⟩ | ⟨i, rfl, rfl, hi, hall⟩
    · rw [candidate_eq_none hall]
      exact ⟨rfl, rfl⟩
    · rw [candidate_eq_some hi hall]
      exact ⟨rfl, rfl⟩
  exact ⟨GroupCooling.derateStep_falls, GroupCooling.derateStep_level,
    fun i hg hp ht => (GroupCooling.derateStep_of_higher hg hp).trans (if_pos ht),
    fun i hg hp ht => (GroupCooling.derateStep_of_higher hg hp).trans (if_neg (not_le.mpr ht))⟩

end Sys2Proof.Machine
end

