-- ==== Sys2Proof/Proofs/GraceExpiry.lean ====
section
/-! The expiry of the grace timer (R69, R73). -/

namespace Sys2Proof.Machine

/-! ### Onsets outside ADOPTING (R23, R159) -/

section Adoption

variable {s : State} {g : Group}

/-- Outside ADOPTING a TRIP closes no adopt window, so that no group becomes a source of the mismatch condition. -/
theorem State.tripLine_adoption (h : s.line.state ≠ some .adopting) :
    (s.tripLine.cool g).adoptionSource = (s.cool g).adoptionSource := by
  have htripped : (s.enterTripped.cool g).adoptionSource = (s.cool g).adoptionSource := by
    rw [State.enterTripped, (State.capacityDeparture_keeps _).cool (by decide), State.enterBlocked_cool rfl,
      GroupCooling.crossing_adoptionSource]
  unfold State.tripLine
  split
  · rfl
  · rfl
  · contradiction
  all_goals exact htripped

theorem State.applyLine_adoption (h : s.line.state ≠ some .adopting) (id : FaultId) (before : EntryState) (a : Action) :
    ((s.applyLine State.tripLine id before a).cool g).adoptionSource = (s.cool g).adoptionSource := by
  cases a with
  | trip => exact State.tripLine_adoption h
  | note | remove => rfl
  | hold =>
    exact congrArg (fun c : Eight GroupCooling => (c.get g).adoptionSource)
      (s.applyLine_unitsKept id before .hold).cooling
  | reduce => exact congrArg GroupCooling.adoptionSource ((s.reduceLine_keeps_groups id before).cool (by decide) g)

theorem State.applyRemove_adoption (s : State) (k : GroupKind) (g : Group) (c : Carried) :
    ((s.applyRemove (.group k g) c).cool g).adoptionSource = (s.cool g).adoptionSource := by
  unfold State.applyRemove
  simp only
  split
  · exact (s.removeGroup_spares g).adoption
  · rfl

/-- An onset of a group's entry leaves the group's adoption source while the line is not ADOPTING. -/
theorem State.onset_adoption (h : s.line.state ≠ some .adopting) (k : GroupKind) (detail : Option Detail) :
    ((s.onset (.group k g) detail).cool g).adoptionSource = (s.cool g).adoptionSource := by
  rw [State.onset, State.onsetWith_eq]
  split
  · rfl
  · have hbefore := s.beforeResponse_keeps (.group k g) (s.entry (.group k g)).state detail (s.stepOne (.group k g) detail)
    rw [State.onsetSteps_eq, State.respond_eq, (State.noteOnset_keeps _ _ _ _).cool (by decide),
      ← hbefore.cool (by decide) g]
    split
    · rfl
    · rw [State.applyLine_adoption, State.applyRemove_adoption]
      rwa [State.applyRemove_keeps _ _ _ .line (by decide), hbefore .line (by decide)]

end Adoption

/-! ### The group that expires (R69) -/

/-- Responses leave the pump-loss state, the grace timer and the ceiling of a group that is not in GRACE (R69, R73). -/
theorem State.reacts.pump_kept {s t : State} {g : Group} (r : s.reacts t g) (h : (s.cool g).pumpLoss ≠ .grace) :
    (t.cool g).pump = (s.cool g).pump := by
  cases hs : s.inSet g
  · exact (r.outside hs).2
  · cases ht : t.inSet g
    · have hleaving : (s.cool g).leaving (s.groupConfig g) = s.cool g := if_neg h
      rw [(r.left hs ht).2, hleaving]
    · exact (r.stays ht).2

/-- A group whose grace timer runs is in the allocation set, so that the line runs. -/
theorem State.timersAgree.running {s : State} (hs : s.timersAgree) {g : Group} {d : Nat}
    (h : (s.cool g).graceTimer = some d) : s.running = true := by
  obtain ⟨-, -, hgrace, hin⟩ := hs g
  have hset := hin (hgrace.mp (by simp [h]))
  simp only [State.inSet_eq, Bool.and_eq_true] at hset
  exact hset.1.1

theorem execGraceTimerExpiry_eq {s : State} {g : Group} {d : Nat} (h : (s.cool g).graceTimer = some d) :
    exec (.graceTimerExpiry g) s = .next (s.begin.graceExpired g) := by
  have h' : (s.begin.cool g).graceTimer = some d := h
  change execGraceTimerExpiry g s = _
  unfold execGraceTimerExpiry
  simp only [h']

/-- Settles O24: the onset finds the group in EXPIRED and the line running, and leaves the group's cooling as it is. -/
theorem graceTimerExpiryLosesTheCooling : Obligations.GraceTimerExpiryLosesTheCooling := by
  intro s g d hagree htimer
  refine ⟨_, execGraceTimerExpiry_eq htimer, ?_⟩
  generalize hu : s.begin.modCool g (fun c => { c with pumpLoss := .expired, graceTimer := none }) = u
  have hself : u.cool g = { s.cool g with pumpLoss := .expired, graceTimer := none } :=
    hu ▸ State.cool_modCool_self ..
  have hkeeps : s.keepsAllBut u [.cooling, .out] := by
    intro p hp
    subst hu
    cases p <;> first | rfl | exact absurd (by simp) hp
  have hline : u.line.state ≠ some .adopting := by
    rw [hkeeps .line (by decide)]
    intro h
    have hrun := hagree.running htimer
    simp [State.running, h, LineState.running] at hrun
  have ht : s.begin.graceExpired g = u.onset (.group .coolingLost g) none := hu ▸ rfl
  obtain ⟨hactive, hdetail, hlast⟩ :=
    u.onset_entry_self (FaultId.not_tripped_group (k := .coolingLost) (by decide) g) none
  have hreacts := u.onset_reacts (.group .coolingLost g) none g
  have hpump := hreacts.pump_kept (by simp [hself])
  simp only [GroupCooling.pump, Prod.mk.injEq] at hpump
  obtain ⟨hloss, hgrace, hceiling⟩ := hpump
  rw [ht]
  refine ⟨?_, hactive, hdetail, hlast.trans (hkeeps .timeBase (by decide)), ?_⟩
  · rw [hreacts.cool, hloss, hgrace, hceiling, State.onset_adoption hline, hself]
  · exact State.keepsAllBut_trans (State.keepsAllBut_mono hkeeps (by simp)) (u.onset_keeps _ _)

end Sys2Proof.Machine
end

