-- ==== Sys2Proof/Proofs/ClearingReads.lean ====
section
/-! The reads that clear what they report (R77, R98, R188). -/

namespace Sys2Proof.Machine

/-- A request whose own rule answers from a changed state, from its command. -/
theorem exec_answered_changed {s u : State} {i : Instr} {rq : Req} {kind : ReqKind}
    {body : State → State × Option Answer} {code : ResultCode} {payload : List Field} (hr : s.ready i)
    (hexec : exec i s = .next (s.take rq kind body)) (hi : i.request? = some (rq, kind))
    (hl : i.requiredLength = some kind.payloadLength)
    (hbody : body (s.answering rq.port) = (u.answering rq.port, some ⟨code, payload⟩)) :
    exec i s = .next (u.answered rq kind code payload) := by
  rw [hexec, State.take_ready hr hi hl hbody, State.respondOn_answering]

/-! ### READ_GROUP_STATUS (R24, R77) -/

section GroupStatus

variable {s : State} {p : Port} {g : Group}

theorem readGroupStatus_above {n : Nat} (h : 7 < n) : readGroupStatus p n s = refuse s .outOfRange := by
  simp only [readGroupStatus, groupOf_above h]

theorem readGroupStatus_clears (hrole : s.role p = .substation) (hclear : s.clearable g = true) :
    readGroupStatus p g.val s =
      answerWith (s.modCool g fun c => { c with warning := false }) (s.groupFields g) := by
  simp only [readGroupStatus, groupOf_val, hrole, hclear, and_self, if_true]

theorem readGroupStatus_keeps (h : s.role p ≠ .substation ∨ s.clearable g = false) :
    readGroupStatus p g.val s = answerWith s (s.groupFields g) := by
  have hnot : ¬ (s.role p = .substation ∧ s.clearable g = true) := fun ⟨hrole, hclear⟩ =>
    h.elim (fun hn => hn hrole) fun hn => by simp [hn] at hclear
  simp only [readGroupStatus, groupOf_val, hnot, if_false]

theorem State.groupFields_getLast (s : State) (g : Group) :
    (s.groupFields g).getLast? = some (.mark (s.cool g).warning) := by
  unfold State.groupFields
  rw [List.getLast?_append]
  rfl

end GroupStatus

/-! ### READ_SCAN_STATUS (R98) -/

theorem badAddressFields_eq (a : Option (Nat × Nat)) :
    fOption 2 (fun a : Nat × Nat => [fOne a.1, fOne a.2]) a =
      match a with
      | none => [.noValue 1 2]
      | some a => [.present, .num 1 a.1, .num 1 a.2] := by
  cases a <;> rfl

/-! ### READ_PORT_STATUS (R188) -/

/-- The flag and the count of a port that is answering are cleared like those of the port before it. -/
theorem State.answering_modPort (s : State) (p : Port) :
    (s.answering p).modPort p (fun r => { r with badFrame := false, dropped := 0 }) =
      State.answering { s with ports := s.ports.set p { s.port p with badFrame := false, dropped := 0 } } p := by
  simp [State.answering, State.modPort, State.port]

theorem State.port_answering (s : State) (p : Port) :
    (s.answering p).port p = { s.port p with request := .answering, receiver := .hunting, gapTimer := none } := by
  simp [State.answering, State.port]

/-- Settles O51: each read's own rule answers from the state as it stood and hands back the state it has cleared. -/
theorem clearingReadsClearWhatTheyReport : Obligations.ClearingReadsClearWhatTheyReport := by
  refine ⟨fun rq n s hr hn => ?_, fun rq g s hr => ⟨fun hrole hclear => ?_, fun h => ?_, s.groupFields_getLast g⟩,
    fun rq s hr => ?_, fun rq s hr => ?_⟩
  · exact exec_answered hr rfl rfl rfl (readGroupStatus_above hn)
  · have hrole' : (s.answering rq.port).role rq.port = .substation := by rwa [State.role_answering]
    exact exec_answered_changed hr rfl rfl rfl (readGroupStatus_clears hrole' hclear)
  · have h' : (s.answering rq.port).role rq.port ≠ .substation ∨ (s.answering rq.port).clearable g = false := by
      rwa [State.role_answering]
    exact exec_answered hr rfl rfl rfl (readGroupStatus_keeps h')
  · refine exec_answered_changed hr rfl rfl rfl ?_
    simp only [readScanStatus, badAddressFields_eq]
    rfl
  · refine exec_answered_changed hr rfl rfl rfl ?_
    simp only [readPortStatus, State.port_answering, State.answering_modPort]
    rfl

end Sys2Proof.Machine
end

