-- ==== Sys2Proof/Proofs/StaleCount.lean ====
section
/-! The pot entries read after a write, the stale count with SCAN_STALE (R92), and the commands that age the entries (R86 to
R88). -/

namespace Sys2Proof.Machine

/-! ### One pot entry read after one entry written -/

section Entries

variable (s : State) {i j : Nat} (f : Pot → Pot)

theorem State.pot_modPot_self (h : i < s.pots.length) : (s.modPot i f).pot i = f (s.pot i) := by
  simp [State.pot, h]

theorem State.pot_modPot_ne (hne : j ≠ i) : (s.modPot i f).pot j = s.pot j := by
  simp [State.pot, Ne.symm hne]

theorem State.modPot_keeps : s.keepsAllBut (s.modPot i f) [.pots] := by
  intro p hp
  cases p <;> first | rfl | exact absurd (by simp) hp

/-- A modification written out as the entry that it puts in place. -/
theorem State.pots_modify_eq_set (h : i < s.pots.length) : s.pots.modify i f = s.pots.set i (f (s.pot i)) := by
  rw [List.modify_eq_set_get f h]
  simp [State.pot, h]

end Entries

theorem State.keepsAllBut.pot {s t : State} {l : List Part} (h : s.keepsAllBut t l) (hl : Part.pots ∉ l) (i : Nat) :
    t.pot i = s.pot i := congrArg (fun pots : List Pot => pots.getD i freshPot) (h .pots hl)

/-- The mapping and the place of an index are read off the configuration (R82). -/
theorem State.mapped_congr {s t : State} (h : t.config = s.config) (i : Nat) : t.mapped i = s.mapped i := by
  simp only [State.mapped, h]

theorem State.place_congr {s t : State} (h : t.config = s.config) (i : Nat) : t.place i = s.place i := by
  simp only [State.place, h]

/-- The stale count reads the mapping, and the circuit and the stale mark of each entry (R92). -/
theorem State.countStale_congr {s t : State} (h : t.config = s.config)
    (hpots : ∀ j : Nat, (t.pot j).circuit = (s.pot j).circuit ∧ (t.pot j).stale = (s.pot j).stale) :
    t.countStale = s.countStale := by
  simp only [State.countStale, State.mapped_congr h, hpots]

/-! ### The recount and SCAN_STALE (R92) -/

theorem FaultId.not_tripped_line {k : LineKind} (hk : k ≠ .capacityShort) : ¬ (FaultId.line k).tripped := by
  rintro (h | ⟨g, h⟩)
  · exact hk (FaultId.line.inj h)
  · cases h

/-- The stale count has been taken and SCAN_STALE evaluated from it while the armed mark is set (R92). -/
def State.staleJudged (s t : State) : Prop :=
  t.scan.staleCount = t.countStale ∧
  (s.scan.armed = true → t.scan.scanStale = decide (s.config.staleLimit < t.scan.staleCount) ∧
    s.handed t (.line .scanStale) s.scan.scanStale t.scan.scanStale (some (.scanStale t.scan.staleCount)))

/-- The scan receiver with the stale count `n` and, while it is armed, SCAN_STALE evaluated against the limit (R92). -/
def Scan.judged (c : Scan) (limit n : Nat) : Scan :=
  { c with staleCount := n, scanStale := if c.armed = true then decide (limit < n) else c.scanStale }

/-- The state with the stale count taken and SCAN_STALE evaluated, before the fault unit is told. -/
def State.counted (s : State) : State := { s with scan := s.scan.judged s.config.staleLimit s.countStale }

section Restale

variable (s : State)

theorem State.counted_keeps : s.keepsAllBut s.counted [.scan] := by
  intro p hp
  cases p <;> first | rfl | exact absurd (by simp) hp

/-- With the armed mark set a change of SCAN_STALE is handed to the fault unit. -/
theorem State.restale_armed (h : s.scan.armed = true) :
    s.restale = s.counted.conditionChange (.line .scanStale) s.scan.scanStale
      (decide (s.config.staleLimit < s.countStale)) (some (.scanStale s.countStale)) := by
  unfold State.restale State.evaluateStale
  simp only [State.recount_scan, h, if_true]
  simp only [State.recount, State.counted, Scan.judged, h, if_true]

theorem State.restale_unarmed (h : s.scan.armed = false) : s.restale = s.counted := by
  unfold State.restale State.evaluateStale
  simp [State.recount, State.counted, Scan.judged, h]

theorem State.restale_scan : s.restale.scan = s.scan.judged s.config.staleLimit s.countStale := by
  cases h : s.scan.armed
  · rw [s.restale_unarmed h]
    rfl
  · rw [s.restale_armed h]
    exact State.conditionChange_keeps _ _ _ _ _ .scan (by decide)

theorem State.restale_noticed : s.noticed s.restale := by
  refine State.noticed_trans (State.noticed_of_keeps s.counted_keeps (by decide)) ?_
  cases h : s.scan.armed
  · rw [s.restale_unarmed h]
    exact State.noticed_refl _
  · rw [s.restale_armed h]
    exact State.conditionChange_noticed _ _ _ _ _

theorem State.restale_countStale : s.restale.countStale = s.countStale :=
  State.countStale_congr (s.restale_keeps .config (by decide)) fun j => by
    rw [s.restale_keeps.pot (by decide)]
    exact ⟨rfl, rfl⟩

theorem State.restale_judged : s.staleJudged s.restale := by
  unfold State.staleJudged
  rw [s.restale_scan, s.restale_countStale]
  refine ⟨rfl, fun h => ?_⟩
  have hhanded : s.counted.handed s.restale (.line .scanStale) s.scan.scanStale
      (decide (s.config.staleLimit < s.countStale)) (some (.scanStale s.countStale)) := by
    rw [s.restale_armed h]
    exact State.conditionChange_handed _ _ _ (.inl (FaultId.not_tripped_line (by decide)))
  simp only [Scan.judged, h, if_true]
  exact ⟨trivial, hhanded.within rfl (Entry.sameButReduce_refl _) (Entry.sameButReduce_refl _)⟩

/-- Besides SCAN_STALE's own, the recount leaves the fault entries that no TRIP reaches, reduce values aside. -/
theorem State.restale_entry_ne {j : FaultId} (hne : j ≠ .line .scanStale) (hj : ¬ j.tripped) :
    (s.entry j).sameButReduce (s.restale.entry j) := by
  rw [← s.counted_keeps.entry (by decide) j]
  cases h : s.scan.armed
  · rw [s.restale_unarmed h]
    exact Entry.sameButReduce_refl _
  · rw [s.restale_armed h]
    exact State.conditionChange_entry_ne _ _ _ hne (.inl hj)

variable {s}

/-- SCAN_STALE neither trips the line nor removes a group (Table 9-1). -/
theorem State.restale_unitsKept (hs : s.allowedAt (.line .scanStale)) : s.unitsKept s.restale := by
  have hallowed : s.counted.allowedAt (.line .scanStale) := State.allowedAt_congr hs rfl rfl
  refine State.unitsKept_trans (State.unitsKept_of_keeps s.counted_keeps (by decide)
    (State.noticed_of_keeps s.counted_keeps (by decide))) ?_
  cases h : s.scan.armed
  · rw [s.restale_unarmed h]
    exact State.unitsKept_refl _
  · rw [s.restale_armed h]
    exact (State.conditionChange_mild _ _ _ hallowed ⟨rfl, rfl, rfl⟩).units

end Restale

/-- What was judged in the middle of a command was judged by the command, if the rest of it leaves the scan receiver, what the
stale count reads and SCAN_STALE's entry, its reduce value aside. -/
theorem State.staleJudged.within {r s t u : State} (h : s.staleJudged t)
    (hkeeps : r.keepsAllBut s [.pots, .ae, .metering, .faults, .stack, .ports, .out])
    (hbefore : (r.entry (.line .scanStale)).sameButReduce (s.entry (.line .scanStale)))
    (hscan : u.scan = t.scan) (hcount : u.countStale = t.countStale)
    (hafter : (t.entry (.line .scanStale)).sameButReduce (u.entry (.line .scanStale))) : r.staleJudged u := by
  obtain ⟨hstale, hhanded⟩ := h
  have hc : s.config = r.config := hkeeps .config (by decide)
  have hs : s.scan = r.scan := hkeeps .scan (by decide)
  unfold State.staleJudged
  rw [hscan, hcount]
  refine ⟨hstale, fun harmed => ?_⟩
  obtain ⟨hpresent, hh⟩ := hhanded (hs ▸ harmed)
  rw [hs] at hh
  exact ⟨hc ▸ hpresent, hh.within (hkeeps .timeBase (by decide)) hbefore hafter⟩

/-! ### Markers (R87, R88) -/

theorem State.ageOut_pot (s : State) (old : Pot → Bool) {i : Nat} (h : i < s.pots.length) :
    (s.ageOut old).pot i = { s.pot i with
      stale := if s.mapped i = true ∧ (s.pot i).circuit = .inCircuit ∧ old (s.pot i) = true then true
        else (s.pot i).stale } := by
  have hget : s.pot i = s.pots[i] := by simp [State.pot, h]
  simp only [State.ageOut, State.pot, List.getD_eq_getElem?_getD, List.getElem?_mapIdx, List.getElem?_eq_getElem h,
    Option.map_some, Option.getD_some, Bool.and_eq_true, beq_iff_eq, and_assoc]
  split <;> rfl

section Aged

variable {s u : State} {old : Pot → Bool}

/-- The end of a marker and of an expiry of its timer: `u` has the new state of the scan receiver, and the entries age, the
armed mark is set and SCAN_STALE is evaluated. -/
theorem State.aged_restale (hkeeps : s.keepsAllBut u [.scan, .out]) (hstale : u.scan.scanStale = s.scan.scanStale) :
    let t := (u.ageOut old).arm.restale
    t.scan = { u.scan with armed := true, staleCount := t.scan.staleCount, scanStale := t.scan.scanStale } ∧
    t.scan.staleCount = t.countStale ∧ t.scan.scanStale = decide (s.config.staleLimit < t.scan.staleCount) ∧
    s.handed t (.line .scanStale) s.scan.scanStale t.scan.scanStale (some (.scanStale t.scan.staleCount)) ∧
    (∀ i : Nat, i < s.pots.length →
      t.pot i = { s.pot i with
        stale := if s.mapped i = true ∧ (s.pot i).circuit = .inCircuit ∧ old (s.pot i) = true then true
          else (s.pot i).stale }) ∧
    s.keepsAllBut t [.line, .claims, .groups, .cooling, .pots, .scan, .faults, .stack, .ports, .out] := by
  intro t
  have hconfig : u.config = s.config := hkeeps .config (by decide)
  have hrestale : (u.ageOut old).arm.keepsAllBut t (.scan :: responseParts) := State.restale_keeps _
  obtain ⟨hcount, hjudged⟩ := (u.ageOut old).arm.restale_judged
  obtain ⟨hpresent, hhanded⟩ := hjudged rfl
  refine ⟨?_, hcount, hconfig ▸ hpresent, hstale ▸ hhanded.within (hkeeps .timeBase (by decide))
    (Entry.sameButReduce_of_eq (hkeeps.entry (by decide) _)) (Entry.sameButReduce_refl _), fun i hi => ?_, ?_⟩
  · rw [show t.scan = _ from State.restale_scan _]
    rfl
  · have hi' : i < u.pots.length := by rwa [show u.pots = s.pots from hkeeps .pots (by decide)]
    rw [hrestale.pot (by decide)]
    exact (u.ageOut_pot old hi').trans (by rw [State.mapped_congr hconfig, hkeeps.pot (by decide)])
  · refine State.keepsAllBut_trans (State.keepsAllBut_mono hkeeps (by simp)) (State.keepsAllBut_trans
      (t := (u.ageOut old).arm) ?_ (State.keepsAllBut_mono hrestale (by simp [responseParts])))
    intro p hp
    cases p <;> first | rfl | exact absurd (by simp) hp

end Aged

theorem execScanFrameBad_eq {s : State} (h : s.loading = false) :
    exec .scanFrameBad s = .next { s with out := [], scan := { s.scan with checkFlag := true } } := by
  change execScanFrameBad s = _
  unfold execScanFrameBad
  exact if_neg (by simpa [State.loading] using h)

theorem execCycleMarker_eq {s : State} (h : s.loading = false) : exec .cycleMarker s = .next s.begin.marker := by
  change execCycleMarker s = _
  unfold execCycleMarker
  exact if_neg (by simpa [State.loading] using h)

theorem execMarkerTimerExpiry_eq {s : State} {d : Nat} (h : s.scan.markerTimer = some d) :
    exec .markerTimerExpiry s = .next s.begin.markerTimeout := by
  change execMarkerTimerExpiry s = _
  unfold execMarkerTimerExpiry
  simp only [State.begin_scan, h]

/-- The scan receiver as a marker leaves it before the ageing (R87). -/
def State.marked (s : State) : State :=
  { s.begin with scan := { s.scan with
    cycleCount := satAdd 4294967295 s.scan.cycleCount 1
    stamp := (s.scan.stamp + 1) % 64
    markerTimer := some (s.timeBase + markerTime)
    timeoutMark := false } }

/-- The scan receiver as an expiry of the marker timer leaves it before the ageing (R88). -/
def State.timedOut (s : State) : State :=
  { s.begin with scan := { s.scan with markerTimer := some (s.timeBase + markerTime), timeoutMark := true } }

theorem State.begin_marker (s : State) : s.begin.marker =
    (s.marked.ageOut fun p => decide (4 ≤ ageOf ((s.scan.stamp + 1) % 64) p.stamp)).arm.restale := rfl

theorem State.begin_markerTimeout (s : State) : s.begin.markerTimeout = (s.timedOut.ageOut fun _ => true).arm.restale := rfl

theorem State.marked_keeps (s : State) : s.keepsAllBut s.marked [.scan, .out] := by
  intro p hp
  cases p <;> first | rfl | exact absurd (by simp) hp

theorem State.timedOut_keeps (s : State) : s.keepsAllBut s.timedOut [.scan, .out] := by
  intro p hp
  cases p <;> first | rfl | exact absurd (by simp) hp

/-- Settles O26: a marker and an expiry of its timer end in the same ageing, of the entries of age 4 or more and of all. -/
theorem markersAgeThePots : Obligations.MarkersAgeThePots := by
  refine ⟨fun s h => execScanFrameBad_eq h, fun s h => ⟨_, execCycleMarker_eq h, ?_⟩,
    fun s d h => ⟨_, execMarkerTimerExpiry_eq h, ?_⟩⟩
  · obtain ⟨hscan, hcount, hpresent, hhanded, hpots, hkeeps⟩ :=
      State.aged_restale (old := fun p => decide (4 ≤ ageOf ((s.scan.stamp + 1) % 64) p.stamp)) s.marked_keeps rfl
    rw [State.begin_marker]
    refine ⟨by rw [hscan]; rfl, by rw [hscan]; rfl, by rw [hscan]; rfl, by rw [hscan]; rfl,
      by rw [hscan], hcount, hpresent, hhanded, fun i hi => ?_, hkeeps⟩
    have hpot := hpots i hi
    simp only [decide_eq_true_eq] at hpot
    exact hpot
  · obtain ⟨hscan, hcount, hpresent, hhanded, hpots, hkeeps⟩ :=
      State.aged_restale (old := fun _ => true) s.timedOut_keeps rfl
    rw [State.begin_markerTimeout]
    refine ⟨by rw [hscan]; rfl, by rw [hscan]; rfl, by rw [hscan]; rfl, by rw [hscan]; rfl, by rw [hscan], hcount,
      hpresent, hhanded, fun i hi => ?_, hkeeps⟩
    simpa only [and_true] using hpots i hi

end Sys2Proof.Machine
end

