-- ==== Sys2Proof/Proofs/AnodeEffectActs.lean ====
section
/-! What the anode-effect unit leaves of the state when an anode effect begins or ends, the AE fields of the pot aside (R105 to
R109, R114 to R117). -/

namespace Sys2Proof.Machine

/-! ### Acts of the unit -/

/-- What stands in a pot entry besides its unlisted mark. -/
def Pot.sameButUnlisted (p q : Pot) : Prop := q = { p with unlisted := q.unlisted }

theorem Pot.sameButUnlisted_refl (p : Pot) : p.sameButUnlisted p := rfl

theorem Pot.sameButUnlisted_trans {p q r : Pot} (h : p.sameButUnlisted q) (k : q.sameButUnlisted r) :
    p.sameButUnlisted r := by
  unfold Pot.sameButUnlisted at *
  rw [k, h]

/-- What an entry may become, it may become by a write that stands within the table or not. -/
theorem State.pot_modPot_rel (s : State) (i : Nat) {f : Pot → Pot} {R : Pot → Pot → Prop} (hrefl : ∀ p : Pot, R p p)
    (hf : ∀ p : Pot, R p (f p)) (j : Nat) : R (s.pot j) ((s.modPot i f).pot j) := by
  by_cases hj : j = i
  · subst hj
    by_cases h : j < s.pots.length
    · rw [s.pot_modPot_self f h]
      exact hf _
    · rw [show (s.modPot j f).pot j = s.pot j by simp [State.pot, h]]
      exact hrefl _
  · rw [s.pot_modPot_ne f hj]
    exact hrefl _

/-- What the unit does in the parts `l` writes unlisted marks alone in the pot table, places notices, and leaves SCAN_STALE's
entry, its reduce value aside. -/
structure State.aeActs (l : List Part) (s t : State) : Prop where
  keeps : s.keepsAllBut t l
  noticed : s.noticed t
  size : t.pots.length = s.pots.length
  pots : ∀ j : Nat, (s.pot j).sameButUnlisted (t.pot j)
  scanStale : (s.entry (.line .scanStale)).sameButReduce (t.entry (.line .scanStale))

/-- The parts that the unit writes at an end. -/
def aeEndParts : List Part := [.pots, .ae, .metering, .faults, .stack, .ports]

/-- The parts that the unit writes at an onset, where AE_STORM may be handed to the fault unit. -/
def aeParts : List Part := .pots :: .ae :: .metering :: responseParts

theorem aeEndParts_subset : ∀ p ∈ aeEndParts, p ∈ aeParts := by decide

namespace State.aeActs

variable {l m : List Part} {s t u : State}

theorem refl (l : List Part) (s : State) : s.aeActs l s :=
  ⟨s.keepsAllBut_refl l, s.noticed_refl, rfl, fun j => (s.pot j).sameButUnlisted_refl, Entry.sameButReduce_refl _⟩

theorem trans (h : s.aeActs l t) (k : t.aeActs l u) : s.aeActs l u :=
  ⟨State.keepsAllBut_trans h.keeps k.keeps, State.noticed_trans h.noticed k.noticed, k.size.trans h.size,
    fun j => Pot.sameButUnlisted_trans (h.pots j) (k.pots j), Entry.sameButReduce_trans h.scanStale k.scanStale⟩

theorem mono (h : s.aeActs l t) (hl : ∀ p ∈ l, p ∈ m) : s.aeActs m t :=
  ⟨State.keepsAllBut_mono h.keeps hl, h.noticed, h.size, h.pots, h.scanStale⟩

/-- A change that leaves the pot table. -/
theorem of_keeps (h : s.keepsAllBut t m) (hpots : Part.pots ∉ m) (hm : ∀ p ∈ m, p ∈ l) (hn : s.noticed t)
    (he : (s.entry (.line .scanStale)).sameButReduce (t.entry (.line .scanStale))) : s.aeActs l t :=
  ⟨State.keepsAllBut_mono h hm, hn, congrArg List.length (h .pots hpots), fun j => by
    rw [h.pot hpots]
    exact Pot.sameButUnlisted_refl _, he⟩

end State.aeActs

/-! ### The operations of the unit -/

section Operations

variable (s : State)

theorem State.modInterval_keeps (f : Interval → Interval) : s.keepsAllBut (s.modInterval f) [.metering] := by
  intro p hp
  cases p <;> first | rfl | exact absurd (by simp) hp

theorem State.aeUnit_keeps (u : AeUnit) : s.keepsAllBut { s with ae := u } [.ae] := by
  intro p hp
  cases p <;> first | rfl | exact absurd (by simp) hp

theorem State.aeUnit_acts (u : AeUnit) : s.aeActs aeEndParts { s with ae := u } :=
  .of_keeps (s.aeUnit_keeps u) (by decide) (by decide) (State.noticed_of_ports rfl) (Entry.sameButReduce_refl _)

theorem State.modInterval_acts (f : Interval → Interval) : s.aeActs aeEndParts (s.modInterval f) :=
  .of_keeps (s.modInterval_keeps f) (by decide) (by decide) (State.noticed_of_ports rfl) (Entry.sameButReduce_refl _)

theorem State.notify_acts (b : NoticeBody) : s.aeActs aeEndParts (s.notify b) :=
  .of_keeps (s.notify_keeps b) (by decide) (by decide) (s.notify_noticed b) (Entry.sameButReduce_refl _)

/-- The writing of an unlisted mark. -/
theorem State.mark_acts (i : Nat) (mark : Bool) : s.aeActs aeEndParts (s.modPot i fun p => { p with unlisted := mark }) :=
  ⟨State.keepsAllBut_mono (s.modPot_keeps _) (by decide), State.noticed_of_ports rfl, by simp,
    s.pot_modPot_rel i Pot.sameButUnlisted_refl fun _ => rfl, Entry.sameButReduce_refl _⟩

theorem State.departure_acts {id : FaultId} (h : id ≠ .line .scanStale) : s.aeActs aeEndParts (s.departure id) :=
  .of_keeps (s.departure_keeps id) (by decide) (by decide) (s.departure_noticed id)
    (Entry.sameButReduce_of_eq (s.departure_entry_ne (Ne.symm h)))

theorem State.onset_acts {id : FaultId} (h : id ≠ .line .scanStale) (detail : Option Detail) :
    s.aeActs aeParts (s.onset id detail) := by
  refine .of_keeps (s.onset_keeps id detail) (by decide) (by decide) (s.onset_noticed id detail) ?_
  have hentry := s.onset_entry (j := .line .scanStale) (FaultId.not_tripped_line (by decide)) id detail
  rwa [if_neg (Ne.symm h)] at hentry

theorem State.createRecord_acts (pot peak : Nat) (original : Option Nat) :
    s.aeActs aeEndParts (s.createRecord pot peak original) := by
  have hnotices : ∀ r : AeRecord, ∀ b c : NoticeBody,
      s.aeActs aeEndParts ((({ s with ae := s.ae.enter r } : State).notify b).notify c) := fun r b c =>
    (s.aeUnit_acts _).trans ((State.notify_acts _ b).trans (State.notify_acts _ c))
  have hcapture : ∀ (t : State) (r : AeRecord), t.aeActs aeEndParts (t.captureAe r) := by
    intro t r
    refine .of_keeps (m := [.stack]) ?_ (by decide) (by decide) ?_ ?_ <;> unfold State.captureAe
    · intro p hp
      split <;> (cases p <;> first | rfl | exact absurd (by simp) hp)
    · split <;> exact State.noticed_of_ports rfl
    · split <;> exact Entry.sameButReduce_refl _
  unfold State.createRecord
  cases original with
  | none => exact (hnotices _ _ _).trans ((State.modInterval_acts _ _).trans (hcapture _ _))
  | some _ => exact (hnotices _ _ _).trans (hcapture _ _)

theorem State.overflowOnset_acts (pot peak : Nat) : s.aeActs aeParts (s.overflowOnset pot peak) := by
  unfold State.overflowOnset
  dsimp only
  have hlisted : ∀ (u : AeUnit) (b : NoticeBody), s.aeActs aeParts
      (((({ s with ae := u } : State).modPot pot fun p => { p with unlisted := true }).notify b).countOnset) :=
    fun u b => ((s.aeUnit_acts u).trans ((State.mark_acts _ pot true).trans ((State.notify_acts _ b).trans
      (State.modInterval_acts _ _)))).mono aeEndParts_subset
  split
  · exact hlisted _ _
  · exact ((hlisted _ _).trans ((State.aeUnit_acts _ _).mono aeEndParts_subset)).trans
      (State.onset_acts _ (by decide) _)

theorem State.takeOnset_acts (pot peak : Nat) : s.aeActs aeParts (s.takeOnset pot peak) := by
  unfold State.takeOnset
  split
  · exact (s.createRecord_acts pot peak none).mono aeEndParts_subset
  · exact s.overflowOnset_acts pot peak

theorem State.evaluateStorm_acts : s.aeActs aeEndParts s.evaluateStorm := by
  unfold State.evaluateStorm
  split
  · exact (s.aeUnit_acts _).trans (State.departure_acts _ (by decide))
  · exact .refl _ s

theorem State.evaluateUnquenched_acts : s.aeActs aeEndParts s.evaluateUnquenched := by
  unfold State.evaluateUnquenched
  split
  · exact (s.aeUnit_acts _).trans (State.departure_acts _ (by decide))
  · exact .refl _ s

theorem State.promote_acts : s.aeActs aeEndParts s.promote := by
  unfold State.promote
  split
  · exact .refl _ s
  · exact (s.aeUnit_acts _).trans ((State.mark_acts _ _ false).trans (State.createRecord_acts _ _ _ _))

end Operations

/-! ### The lists of the unit -/

section Lists

variable (s : State)

theorem State.evaluateStorm_ae : s.evaluateStorm.ae = { s.ae with storm := s.evaluateStorm.ae.storm } := by
  unfold State.evaluateStorm
  split
  · have h := State.departure_keeps { s with ae := { s.ae with storm := false } } (.line .aeStorm) .ae (by decide)
    rw [h]
  · rfl

theorem State.evaluateUnquenched_ae :
    s.evaluateUnquenched.ae = { s.ae with unquenched := s.evaluateUnquenched.ae.unquenched } := by
  unfold State.evaluateUnquenched
  split
  · have h := State.departure_keeps { s with ae := { s.ae with unquenched := false } } (.line .aeUnquenched) .ae (by decide)
    rw [h]
  · rfl

theorem State.createRecord_ae (pot peak : Nat) (original : Option Nat) :
    (s.createRecord pot peak original).ae = s.ae.enter (s.newRecord pot peak original) := by
  unfold State.createRecord State.captureAe
  cases original <;> (dsimp only; split <;> rfl)

variable {s}

theorem State.promote_nil (h : s.ae.overflow = []) : s.promote = s := by
  unfold State.promote
  rw [h]

theorem State.promote_overflow {o : Overflow} {os : List Overflow} (h : s.ae.overflow = o :: os) :
    s.promote.ae.overflow = os := by
  unfold State.promote
  rw [h]
  dsimp only
  rw [State.createRecord_ae]
  rfl

end Lists

end Sys2Proof.Machine
end

