-- ==== Sys2Proof/Proofs/AnodeEffectEnds.lean ====
section
/-! The end of a pot's anode effect, listed or unlisted (R107, R115, R116). -/

namespace Sys2Proof.Machine

/-! ### The record of a pot (R103) -/

/-- The unit with the peak of a pot's record raised to a sample. -/
def AeUnit.raised (u : AeUnit) (pot v : Nat) : AeUnit :=
  { u with list := u.list.map fun r => if r.pot = pot then { r with peak := max r.peak v } else r }

theorem State.raisePeak_eq (s : State) (pot : Nat) :
    s.raisePeak pot = { s with ae := s.ae.raised pot (s.pot pot).last } := rfl

section Raised

variable {u : AeUnit} {i : Nat}

theorem AeUnit.raised_zero (u : AeUnit) (i : Nat) : u.raised i 0 = u := by simp [AeUnit.raised]

theorem AeUnit.raised_ids (u : AeUnit) (i v : Nat) : (u.raised i v).list.map AeRecord.id = u.list.map AeRecord.id := by
  simp only [AeUnit.raised, List.map_map]
  refine List.map_congr_left fun r _ => ?_
  by_cases h : r.pot = i <;> simp [h]

theorem AeUnit.ofPot_pot {r : AeRecord} (h : u.ofPot i = some r) : r.pot = i := by
  simpa using List.find?_some h

theorem AeUnit.ofPot_raised (u : AeUnit) (i v : Nat) :
    (u.raised i v).ofPot i = (u.ofPot i).map fun r => { r with peak := max r.peak v } := by
  have hpot : ((fun r : AeRecord => r.pot == i) ∘
      fun r : AeRecord => if r.pot = i then { r with peak := max r.peak v } else r) = fun r => r.pot == i := by
    funext r
    by_cases h : r.pot = i <;> simp [h]
  simp only [AeUnit.ofPot, AeUnit.raised, List.find?_map, hpot]
  cases h : u.list.find? fun r => r.pot == i with
  | none => rfl
  | some r =>
    have hr : r.pot = i := AeUnit.ofPot_pot h
    simp [hr]

/-- The sample of a pot without a record raises no peak. -/
theorem AeUnit.raised_none (h : u.ofPot i = none) (v : Nat) : u.raised i v = u := by
  have hpot : ∀ r ∈ u.list, r.pot ≠ i := by simpa [AeUnit.ofPot] using h
  have hmap : (u.list.map fun r => if r.pot = i then { r with peak := max r.peak v } else r) = u.list :=
    (List.map_congr_left fun r hr => if_neg (hpot r hr)).trans u.list.map_id
  rw [AeUnit.raised, hmap]

end Raised

/-! ### Ends -/

section Ends

variable (s : State) (reason : EndReason)

/-- The record `r` has ended: counted at its pot, reported, credited and moved to the recent ends (R115). -/
def State.struck (r : AeRecord) : State :=
  let t := ((s.countEnd r.pot r.origin).notify (s.endNotice r reason)).creditEnergy (r.energy / 1000)
  { t with ae := { t.ae with
    list := t.ae.list.filter fun x => x.id != r.id
    recent := enterRecent t.ae.recent ⟨r.id, r.pot, s.timeBase, reason⟩ } }

theorem State.endListed_eq (r : AeRecord) :
    s.endListed r reason = (s.struck reason r).evaluateUnquenched.promote.evaluateStorm := rfl

theorem State.struck_acts (r : AeRecord) : (s.countEnd r.pot r.origin).aeActs aeEndParts (s.struck reason r) :=
  (State.notify_acts _ _).trans ((State.modInterval_acts _ _).trans (State.aeUnit_acts _ _))

theorem State.afterStruck_acts (t : State) : t.aeActs aeEndParts t.evaluateUnquenched.promote.evaluateStorm :=
  t.evaluateUnquenched_acts.trans ((State.promote_acts _).trans (State.evaluateStorm_acts _))

theorem State.endListed_acts (r : AeRecord) : (s.countEnd r.pot r.origin).aeActs aeEndParts (s.endListed r reason) :=
  (s.struck_acts reason r).trans (State.afterStruck_acts _)

theorem State.endListed_hears (r : AeRecord) : s.hears (s.endListed r reason) (s.endNotice r reason) := by
  have hnotice : s.hears ((s.countEnd r.pot r.origin).notify (s.endNotice r reason)) (s.endNotice r reason) :=
    (State.hears_notify _ _).since rfl fun _ => rfl
  have hstruck : ((s.countEnd r.pot r.origin).notify (s.endNotice r reason)).aeActs aeEndParts (s.struck reason r) :=
    (State.modInterval_acts _ _).trans (State.aeUnit_acts _ _)
  exact hnotice.later (hstruck.trans (State.afterStruck_acts _)).noticed

/-- With nobody on the overflow list the record goes and none comes (R108). -/
theorem State.endListed_ids (r : AeRecord) (h : s.ae.overflow = []) :
    (s.endListed r reason).ae.list.map AeRecord.id = (s.ae.list.map AeRecord.id).filter fun n => n != r.id := by
  have hoverflow : (s.struck reason r).evaluateUnquenched.ae.overflow = [] := by
    rw [State.evaluateUnquenched_ae]
    exact h
  rw [State.endListed_eq, State.evaluateStorm_ae, State.promote_nil hoverflow, State.evaluateUnquenched_ae, List.filter_map]
  rfl

/-- The head of the overflow list is promoted (R108). -/
theorem State.endListed_overflow (r : AeRecord) {o : Overflow} {os : List Overflow} (h : s.ae.overflow = o :: os) :
    (s.endListed r reason).ae.overflow = os := by
  have hoverflow : (s.struck reason r).evaluateUnquenched.ae.overflow = o :: os := by
    rw [State.evaluateUnquenched_ae]
    exact h
  rw [State.endListed_eq, State.evaluateStorm_ae, State.promote_overflow hoverflow]

/-- The overflow entry `o` has ended: off its list and counted at its pot (R107). -/
def State.unlisted (o : Overflow) : State :=
  (({ s with ae := { s.ae with overflow := s.ae.overflow.filter fun x => x.pot != o.pot } } : State).modPot o.pot
    fun p => { p with unlisted := false }).countEnd o.pot o.onset

/-- The notice of the end of an unlisted anode effect (R107). -/
def State.unlistedNotice (o : Overflow) : NoticeBody :=
  .aeEndUnlisted o.pot (s.place o.pot).1 (s.place o.pot).2 reason o.onset (s.timeBase - o.onset)

theorem State.endUnlisted_eq (o : Overflow) :
    s.endUnlisted o reason = ((s.unlisted o).notify (s.unlistedNotice reason o)).evaluateStorm := rfl

theorem State.unlisted_acts (o : Overflow) : (s.countEnd o.pot o.onset).aeActs aeEndParts (s.unlisted o) := by
  refine ⟨?_, State.noticed_of_ports rfl, by simp [State.unlisted, State.countEnd], fun j => ?_,
    Entry.sameButReduce_refl _⟩
  · intro p hp
    cases p <;> first | rfl | exact absurd (by simp [aeEndParts]) hp
  · by_cases hj : j = o.pot
    · subst hj
      by_cases h : o.pot < s.pots.length
      · simp [State.unlisted, State.countEnd, State.pot, h, Pot.sameButUnlisted]
      · simp [State.unlisted, State.countEnd, State.pot, h, Pot.sameButUnlisted]
    · rw [State.unlisted, State.countEnd, State.countEnd, State.pot_modPot_ne _ _ hj, State.pot_modPot_ne _ _ hj,
        State.pot_modPot_ne _ _ hj]
      exact Pot.sameButUnlisted_refl _

theorem State.unlisted_mark {o : Overflow} (h : o.pot < s.pots.length) : ((s.unlisted o).pot o.pot).unlisted = false := by
  simp [State.unlisted, State.countEnd, State.pot, h]

theorem State.endUnlisted_acts (o : Overflow) : (s.countEnd o.pot o.onset).aeActs aeEndParts (s.endUnlisted o reason) :=
  (s.unlisted_acts o).trans ((State.notify_acts _ _).trans (State.evaluateStorm_acts _))

theorem State.endUnlisted_hears (o : Overflow) : s.hears (s.endUnlisted o reason) (s.unlistedNotice reason o) := by
  have hnotice : s.hears ((s.unlisted o).notify (s.unlistedNotice reason o)) (s.unlistedNotice reason o) :=
    (State.hears_notify _ _).since rfl fun _ => rfl
  exact hnotice.later (State.evaluateStorm_acts _).noticed

theorem State.endUnlisted_ae (o : Overflow) :
    (s.endUnlisted o reason).ae.list = s.ae.list ∧
    (s.endUnlisted o reason).ae.overflow = s.ae.overflow.filter fun x => x.pot != o.pot := by
  rw [State.endUnlisted_eq, State.evaluateStorm_ae]
  exact ⟨rfl, rfl⟩

theorem State.evaluateStorm_pots (t : State) : t.evaluateStorm.pots = t.pots := by
  unfold State.evaluateStorm
  split
  · exact State.departure_keeps _ _ .pots (by decide)
  · rfl

end Ends

/-! ### The unit attending to one pot -/

/-- What stands in a pot entry besides what the unit writes (R102, R103, R107). -/
def Pot.sameButAe (p q : Pot) : Prop :=
  q = { p with
    aeState := q.aeState, run := q.run, unlisted := q.unlisted, aeCount := q.aeCount, lastOnset := q.lastOnset }

theorem Pot.sameButAe_trans {p q r : Pot} (h : p.sameButAe q) (k : q.sameButAe r) : p.sameButAe r := by
  unfold Pot.sameButAe at *
  rw [k, h]

theorem Pot.sameButUnlisted.sameButAe {p q : Pot} (h : p.sameButUnlisted q) : p.sameButAe q := by
  unfold Pot.sameButAe
  rw [h]

/-- The unit acts in the parts `l` on the anode effect of pot `i`: of the other entries it writes unlisted marks alone. -/
structure State.aeAttends (i : Nat) (l : List Part) (s t : State) : Prop where
  keeps : s.keepsAllBut t l
  noticed : s.noticed t
  size : t.pots.length = s.pots.length
  own : (s.pot i).sameButAe (t.pot i)
  others : ∀ j : Nat, j ≠ i → (s.pot j).sameButUnlisted (t.pot j)
  scanStale : (s.entry (.line .scanStale)).sameButReduce (t.entry (.line .scanStale))

theorem State.aeActs.attends {l : List Part} {s t : State} (h : s.aeActs l t) (i : Nat) : s.aeAttends i l t :=
  ⟨h.keeps, h.noticed, h.size, (h.pots i).sameButAe, fun j _ => h.pots j, h.scanStale⟩

namespace State.aeAttends

variable {i : Nat} {l m : List Part} {s t u : State}

theorem trans (h : s.aeAttends i l t) (k : t.aeAttends i l u) : s.aeAttends i l u :=
  ⟨State.keepsAllBut_trans h.keeps k.keeps, State.noticed_trans h.noticed k.noticed, k.size.trans h.size,
    Pot.sameButAe_trans h.own k.own, fun j hj => Pot.sameButUnlisted_trans (h.others j hj) (k.others j hj),
    Entry.sameButReduce_trans h.scanStale k.scanStale⟩

theorem mono (h : s.aeAttends i l t) (hl : ∀ p ∈ l, p ∈ m) : s.aeAttends i m t :=
  ⟨State.keepsAllBut_mono h.keeps hl, h.noticed, h.size, h.own, h.others, h.scanStale⟩

/-- What the unit does never changes what the stale count reads. -/
theorem countStale (h : s.aeAttends i l t) (hl : Part.config ∉ l) : t.countStale = s.countStale :=
  State.countStale_congr (h.keeps .config hl) fun j => by
    by_cases hj : j = i
    · subst hj
      rw [h.own]
      exact ⟨rfl, rfl⟩
    · rw [h.others j hj]
      exact ⟨rfl, rfl⟩

end State.aeAttends

section Attend

variable (s : State) (i : Nat)

/-- A write of the fields of one entry that are the unit's. -/
theorem State.modPot_attends {f : Pot → Pot} (hf : ∀ p : Pot, p.sameButAe (f p)) :
    s.aeAttends i aeEndParts (s.modPot i f) :=
  ⟨State.keepsAllBut_mono (s.modPot_keeps f) (by decide), State.noticed_of_ports rfl, by simp,
    s.pot_modPot_rel i (R := Pot.sameButAe) (fun _ => rfl) hf i,
    fun j hj => by rw [s.pot_modPot_ne f hj]; exact Pot.sameButUnlisted_refl _, Entry.sameButReduce_refl _⟩

theorem State.setAe_attends (a : AeState) (run : Nat) : s.aeAttends i aeEndParts (s.setAe i a run) :=
  s.modPot_attends i fun _ => rfl

/-- An end counts at its pot and then writes unlisted marks alone; a pot without an anode effect has none (R107, R115). -/
theorem State.endAe_acts (reason : EndReason) :
    (∃ onset : Nat, (s.countEnd i onset).aeActs aeEndParts (s.endAe i reason)) ∨ s.endAe i reason = s := by
  unfold State.endAe
  split
  · next r hr =>
    have hacts := s.endListed_acts reason r
    rw [AeUnit.ofPot_pot hr] at hacts
    exact .inl ⟨_, hacts⟩
  · split
    · next o ho =>
      have hacts := s.endUnlisted_acts reason o
      rw [show o.pot = i by simpa using List.find?_some ho] at hacts
      exact .inl ⟨_, hacts⟩
    · exact .inr rfl

theorem State.countEnd_attends (onset : Nat) : s.aeAttends i aeEndParts (s.countEnd i onset) :=
  s.modPot_attends i fun _ => rfl

theorem State.countEnd_detected (onset : Nat) :
    ((s.countEnd i onset).pot i).aeState = (s.pot i).aeState ∧ ((s.countEnd i onset).pot i).run = (s.pot i).run :=
  s.pot_modPot_rel i (R := fun p q => q.aeState = p.aeState ∧ q.run = p.run)
    (f := fun p => { p with aeCount := satAdd 65535 p.aeCount 1, lastOnset := onset }) (fun _ => ⟨rfl, rfl⟩)
    (fun _ => ⟨rfl, rfl⟩) i

theorem State.endAe_attends (reason : EndReason) : s.aeAttends i aeEndParts (s.endAe i reason) := by
  rcases s.endAe_acts i reason with ⟨onset, hacts⟩ | h
  · exact (s.countEnd_attends i onset).trans (hacts.attends i)
  · exact h.symm ▸ (State.aeActs.refl _ s).attends i

/-- An end leaves the AE state and the run count of its pot to what brought it. -/
theorem State.endAe_detected (reason : EndReason) :
    ((s.endAe i reason).pot i).aeState = (s.pot i).aeState ∧ ((s.endAe i reason).pot i).run = (s.pot i).run := by
  rcases s.endAe_acts i reason with ⟨onset, hacts⟩ | h
  · rw [hacts.pots i]
    exact s.countEnd_detected i onset
  · rw [h]
    exact ⟨rfl, rfl⟩

end Attend

/-! ### The end of a pot's anode effect in a command -/

/-- A command that began in `r` comes in `s` to the end of pot `i`'s anode effect, the peak of the pot's record raised to
`last`, and goes on from what the end makes, `t`, to `u`. -/
structure State.bringsEnd (r s t u : State) (i last : Nat) : Prop where
  inTable : i < s.pots.length
  raised : s.ae = r.ae.raised i last
  count : (s.pot i).aeCount = (r.pot i).aeCount
  timeBase : s.timeBase = r.timeBase
  config : s.config = r.config
  hears : ∀ b : NoticeBody, s.hears t b → r.hears u b
  ae : u.ae = t.ae
  pot : (u.pot i).unlisted = (t.pot i).unlisted ∧ (u.pot i).aeCount = (t.pot i).aeCount ∧
    (u.pot i).lastOnset = (t.pot i).lastOnset

namespace State.bringsEnd

variable {r s u : State} {i last : Nat} {reason : EndReason}

/-- The count and the last onset that an end leaves at its pot (R107, R115). -/
theorem counted {t : State} (h : r.bringsEnd s t u i last) {onset : Nat} (ha : (s.countEnd i onset).aeActs aeEndParts t) :
    (u.pot i).aeCount = min 65535 ((r.pot i).aeCount + 1) ∧ (u.pot i).lastOnset = onset := by
  obtain ⟨-, hcount, honset⟩ := h.pot
  rw [hcount, honset, ha.pots i, State.countEnd, s.pot_modPot_self _ h.inTable, ← h.count]
  exact ⟨rfl, rfl⟩

/-- The end of a listed anode effect, its record `x` being that of the start (R115). -/
theorem listed {x : AeRecord} (hx : x.pot = i) {y : AeRecord} (hy : y = { x with peak := max x.peak last })
    (h : r.bringsEnd s (s.endListed y reason) u i last) :
    (u.pot i).aeCount = min 65535 ((r.pot i).aeCount + 1) ∧ (u.pot i).lastOnset = x.original.getD x.onset ∧
    r.hears u (.aeEnd x.id i (r.place i).1 (r.place i).2 reason x.onset x.original (r.timeBase - x.original.getD x.onset)
      (max x.peak last) (x.energy / 1000) x.attempt x.exhausted x.reported) ∧
    (r.ae.overflow = [] → u.ae.list.map AeRecord.id = (r.ae.list.map AeRecord.id).filter fun n => n != x.id) ∧
    (∀ (o : Overflow) (os : List Overflow), r.ae.overflow = o :: os → u.ae.overflow = os) := by
  have hoverflow : s.ae.overflow = r.ae.overflow := by rw [h.raised]; rfl
  have hids : s.ae.list.map AeRecord.id = r.ae.list.map AeRecord.id := by rw [h.raised, AeUnit.raised_ids]
  have hacts := s.endListed_acts reason y
  have hheard := h.hears _ (s.endListed_hears reason y)
  subst hx hy
  obtain ⟨hcount, honset⟩ := h.counted hacts
  refine ⟨hcount, honset, ?_, fun hnil => ?_, fun o os hcons => ?_⟩
  · rwa [State.endNotice, State.place_congr h.config, h.timeBase] at hheard
  · rw [h.ae, State.endListed_ids _ _ _ (hoverflow.trans hnil), hids]
  · rw [h.ae, State.endListed_overflow _ _ _ (hoverflow.trans hcons)]

/-- The end of an unlisted anode effect (R107). -/
theorem unlisted {o : Overflow} (ho : o.pot = i) (hnone : r.ae.ofPot i = none)
    (h : r.bringsEnd s (s.endUnlisted o reason) u i last) :
    u.ae.list = r.ae.list ∧ u.ae.overflow = r.ae.overflow.filter (fun x => x.pot != i) ∧ (u.pot i).unlisted = false ∧
    (u.pot i).aeCount = min 65535 ((r.pot i).aeCount + 1) ∧ (u.pot i).lastOnset = o.onset ∧
    r.hears u (.aeEndUnlisted i (r.place i).1 (r.place i).2 reason o.onset (r.timeBase - o.onset)) := by
  have hae : s.ae = r.ae := h.raised.trans (AeUnit.raised_none hnone last)
  subst ho
  obtain ⟨hcount, honset⟩ := h.counted (s.endUnlisted_acts reason o)
  obtain ⟨hlist, hoverflow⟩ := s.endUnlisted_ae reason o
  have hheard := h.hears _ (s.endUnlisted_hears reason o)
  refine ⟨by rw [h.ae, hlist, hae], by rw [h.ae, hoverflow, hae], ?_, hcount, honset, ?_⟩
  · rw [h.pot.1, State.endUnlisted_eq, State.pot, State.evaluateStorm_pots]
    exact s.unlisted_mark h.inTable
  · rwa [State.unlistedNotice, State.place_congr h.config, h.timeBase] at hheard

/-- What the end of a pot's anode effect leaves (R107, R115, R116). -/
theorem ended (h : r.bringsEnd s (s.endAe i reason) u i last) : r.aeEnded u i last reason := by
  have hof : s.ae.ofPot i = (r.ae.ofPot i).map fun x => { x with peak := max x.peak last } := by
    rw [h.raised, AeUnit.ofPot_raised]
  have hoverflow : s.ae.overflow = r.ae.overflow := by rw [h.raised]; rfl
  refine ⟨fun x hx => ?_, fun o hnone ho => ?_, fun hnone ho => ?_⟩
  · have hend : s.endAe i reason = s.endListed { x with peak := max x.peak last } reason := by
      simp only [State.endAe, hof, hx, Option.map_some]
    exact (hend ▸ h).listed (AeUnit.ofPot_pot hx) rfl
  · have hend : s.endAe i reason = s.endUnlisted o reason := by
      simp only [State.endAe, hof, hnone, Option.map_none, hoverflow, ho]
    exact (hend ▸ h).unlisted (by simpa using List.find?_some ho) hnone
  · have hend : s.endAe i reason = s := by
      simp only [State.endAe, hof, hnone, Option.map_none, hoverflow, ho]
    rw [h.ae, hend, h.raised, AeUnit.raised_none hnone]

end State.bringsEnd

end Sys2Proof.Machine
end

