-- ==== Sys2Proof/Proofs/PotSwitching.lean ====
section
/-! CUT_OUT_POT and CUT_IN_POT (R95 to R97, R107, R116). -/

namespace Sys2Proof.Machine

/-! ### The tests in turn (R95 to R97) -/

/-- What an accepted request makes of the state, by the circuit it asks for (R96, R97). -/
def State.switched : Circuit → State → Nat → State
  | .cutOut => State.cutOut
  | .inCircuit => State.cutIn

/-- `c` is the request on `rq` that asks for the circuit `goal` for pot `i`. -/
def switches (rq : Req) (i : Nat) (goal : Circuit) (c : Instr) (kind : ReqKind) : Prop :=
  (goal = .cutOut ∧ c = .cutOutPot rq i ∧ kind = .cutOutPot) ∨
    (goal = .inCircuit ∧ c = .cutInPot rq i ∧ kind = .cutInPot)

section Tests

variable {rq : Req} {i : Nat} {s : State} {goal : Circuit} {c : Instr} {kind : ReqKind}

theorem switches.exec_eq (h : switches rq i goal c kind) (s : State) :
    exec c s = .next (s.take rq kind (switchPot goal (State.switched goal) i)) ∧
    c.request? = some (rq, kind) ∧ c.requiredLength = some kind.payloadLength := by
  rcases h with ⟨rfl, rfl, rfl⟩ | ⟨rfl, rfl, rfl⟩ <;> exact ⟨rfl, rfl, rfl⟩

theorem switchPot_above (apply : State → Nat → State) (h : 399 < i) :
    switchPot goal apply i s = (s, some ⟨.outOfRange, []⟩) := if_pos h

theorem switchPot_unmapped (apply : State → Nat → State) (h : i ≤ 399) (hm : s.mapped i = false) :
    switchPot goal apply i s = (s, some ⟨.notFound, []⟩) := by
  unfold switchPot
  rw [if_neg (by omega), if_pos (by simp [hm])]
  rfl

theorem switchPot_there (apply : State → Nat → State) (h : i ≤ 399) (hm : s.mapped i = true)
    (hc : (s.pot i).circuit = goal) : switchPot goal apply i s = (s, some ⟨.ok, []⟩) := by
  unfold switchPot
  rw [if_neg (by omega), if_neg (by simp [hm]), if_pos hc]
  rfl

theorem switchPot_locked (apply : State → Nat → State) (h : i ≤ 399) (hm : s.mapped i = true)
    (hc : (s.pot i).circuit ≠ goal) (hi : s.config.switchingLimit < s.interlockCurrent) :
    switchPot goal apply i s = (s, some ⟨.tooHigh, [fFour s.interlockCurrent]⟩) := by
  unfold switchPot
  rw [if_neg (by omega), if_neg (by simp [hm]), if_neg hc, if_pos (by simpa [State.interlockOpen] using hi)]

theorem switchPot_accepted (apply : State → Nat → State) (h : i ≤ 399) (hm : s.mapped i = true)
    (hc : (s.pot i).circuit ≠ goal) (hi : s.interlockCurrent ≤ s.config.switchingLimit) :
    switchPot goal apply i s = (apply s i, some ⟨.ok, []⟩) := by
  unfold switchPot
  rw [if_neg (by omega), if_neg (by simp [hm]), if_neg hc, if_neg (by simpa [State.interlockOpen] using hi)]
  rfl

end Tests

/-! ### The pot switched (R96, R97) -/

/-- Before the recount `w` has pot `i` of `s` in the circuit `goal`, stale, in band and NORMAL. -/
structure State.potSwitched (goal : Circuit) (i : Nat) (s w : State) : Prop where
  keeps : s.keepsAllBut w aeEndParts
  noticed : s.noticed w
  own : (w.pot i).circuit = goal ∧ (w.pot i).stale = true ∧ (w.pot i).band = .inBand ∧ (w.pot i).aeState = .normal ∧
    (w.pot i).run = 0 ∧ (w.pot i).last = (s.pot i).last
  others : ∀ j : Nat, j ≠ i → (s.pot j).sameButUnlisted (w.pot j)
  scanStale : (s.entry (.line .scanStale)).sameButReduce (w.entry (.line .scanStale))

section Switch

variable (s : State) {i : Nat}

/-- The pot out of circuit, before its anode effect ends (R96). -/
def State.isolated (i : Nat) : State :=
  s.modPot i fun p => { p with circuit := .cutOut, stale := true, band := .inBand }

/-- A cut-out before the recount (R96). -/
def State.withdrawn (i : Nat) : State := ((s.isolated i).endAe i .cutOut).setAe i .normal 0

/-- A cut-in before the recount (R97). -/
def State.inserted (i : Nat) : State :=
  s.modPot i fun p =>
    { p with circuit := .inCircuit, stale := true, band := .inBand, aeState := .normal, run := 0 }

theorem State.switched_cutOut : State.switched .cutOut s i = (s.withdrawn i).restale := rfl

theorem State.switched_inCircuit : State.switched .inCircuit s i = (s.inserted i).restale := rfl

variable {s} (h : i < s.pots.length)
include h

theorem State.inserted_switched : s.potSwitched .inCircuit i (s.inserted i) := by
  refine ⟨State.keepsAllBut_mono (s.modPot_keeps _) (by decide), State.noticed_of_ports rfl, ?_, fun j hj => ?_,
    Entry.sameButReduce_refl _⟩
  · rw [State.inserted, s.pot_modPot_self _ h]
    exact ⟨rfl, rfl, rfl, rfl, rfl, rfl⟩
  · rw [State.inserted, s.pot_modPot_ne _ hj]
    exact Pot.sameButUnlisted_refl _

theorem State.isolated_pot :
    (s.isolated i).pot i = { s.pot i with circuit := .cutOut, stale := true, band := .inBand } := s.pot_modPot_self _ h

theorem State.withdrawn_switched : s.potSwitched .cutOut i (s.withdrawn i) := by
  have hend := (s.isolated i).endAe_attends i .cutOut
  have hall := hend.trans (State.setAe_attends _ i .normal 0)
  have hin : i < ((s.isolated i).endAe i .cutOut).pots.length := by
    rw [hend.size]
    simpa [State.isolated] using h
  have hself : (s.withdrawn i).pot i = { ((s.isolated i).endAe i .cutOut).pot i with aeState := .normal, run := 0 } :=
    State.pot_modPot_self _ _ hin
  refine ⟨State.keepsAllBut_trans (State.keepsAllBut_mono (s.modPot_keeps _) (by decide)) hall.keeps,
    State.noticed_trans (State.noticed_of_ports rfl) hall.noticed, ?_, fun j hj => ?_, hall.scanStale⟩
  · rw [hself, hend.own, State.isolated_pot h]
    exact ⟨rfl, rfl, rfl, rfl, rfl, rfl⟩
  · rw [← s.pot_modPot_ne (fun p => { p with circuit := .cutOut, stale := true, band := .inBand }) hj]
    exact hall.others j hj

end Switch

/-! ### The answer -/

section Accepted

variable {s w : State} {rq : Req} {i : Nat} {goal : Circuit} {kind : ReqKind}

/-- An accepted request: the pot switched in `w`, the recount and the response. -/
theorem State.potSwitched.answered (h : (s.answering rq.port).potSwitched goal i w) (hr : s.responsesAllowed) :
    let t := w.restale.respondOn rq.port ⟨rq.tag, kind.code, .ok, []⟩
    s.portsAnswer t rq kind .ok [] ∧
    (t.pot i).circuit = goal ∧ (t.pot i).stale = true ∧ (t.pot i).band = .inBand ∧
    (t.pot i).aeState = .normal ∧ (t.pot i).run = 0 ∧ (t.pot i).last = (s.pot i).last ∧
    s.staleJudged t ∧ (s.scan.armed = false → t.scan.scanStale = s.scan.scanStale) ∧
    (∀ j : Nat, j ≠ i → t.pot j = { s.pot j with unlisted := (t.pot j).unlisted }) ∧
    t.config = s.config ∧ t.timeBase = s.timeBase ∧ t.groups = s.groups ∧ t.out = [] ∧ t.pending = s.pending := by
  intro t
  have hbefore : s.keepsAllBut w [.pots, .ae, .metering, .faults, .stack, .ports, .out] :=
    State.keepsAllBut_trans (State.keepsAllBut_mono (s.answering_keeps rq.port) (by simp))
      (State.keepsAllBut_mono h.keeps (by decide))
  have hrestale : w.keepsAllBut t (.scan :: responseParts) :=
    State.keepsAllBut_trans w.restale_keeps (State.keepsAllBut_mono (State.respondOn_keeps _ _ _) (by decide))
  have hall : s.keepsAllBut t (.pots :: .ae :: .metering :: .scan :: responseParts) :=
    State.keepsAllBut_trans (State.keepsAllBut_mono hbefore (by decide)) (State.keepsAllBut_mono hrestale (by decide))
  have hpot : ∀ j : Nat, t.pot j = w.pot j := hrestale.pot (by decide)
  have hallowed : w.allowedAt (.line .scanStale) := by
    obtain ⟨-, -, -, -, hresponse⟩ := h.scanStale.fields
    exact State.allowedAt_congr (hr.at _) (hbefore .config (by decide)) hresponse
  have hunits := State.restale_unitsKept hallowed
  obtain ⟨hcircuit, hstale, hband, hnormal, hrun, hlast⟩ := h.own
  rw [hpot i]
  refine ⟨State.portsAnswer_of_noticed rq kind .ok [] (State.noticed_trans h.noticed w.restale_noticed), hcircuit, hstale,
    hband, hnormal, hrun, hlast, w.restale_judged.within hbefore h.scanStale rfl rfl (Entry.sameButReduce_refl _),
    fun harmed => ?_, fun j hj => ?_, hall .config (by decide), hall .timeBase (by decide), ?_, ?_,
    hall .pending (by decide)⟩
  · have hscan : t.scan = w.scan.judged w.config.staleLimit w.countStale := w.restale_scan
    rw [hscan, show w.scan = s.scan from hbefore .scan (by decide)]
    simp [Scan.judged, harmed]
  · rw [hpot j]
    exact h.others j hj
  · exact hunits.groups.trans (hbefore .groups (by decide))
  · exact hunits.out.trans (h.keeps .out (by decide))

/-- A cut-out ends the pot's anode effect with reason CUT_OUT (R107, R116). -/
theorem State.withdrawn_ended (h : i < s.pots.length) (r : Reply) :
    s.aeEnded (((s.answering rq.port).withdrawn i).restale.respondOn rq.port r) i 0 .cutOut := by
  have hin : i < ((s.answering rq.port).isolated i).pots.length :=
    h.trans_eq (List.length_modify ..).symm
  have hset := State.setAe_attends (((s.answering rq.port).isolated i).endAe i .cutOut) i .normal 0
  have hself := State.pot_modPot_self (((s.answering rq.port).isolated i).endAe i .cutOut)
    (fun p => { p with aeState := .normal, run := 0 })
    (by rwa [(State.endAe_attends _ i .cutOut).size] : i < _)
  have hrestale := ((s.answering rq.port).withdrawn i).restale_keeps
  have hpot := (hrestale.pot (by decide) i).trans hself
  refine State.bringsEnd.ended (s := (s.answering rq.port).isolated i) ⟨hin, ?_, ?_, rfl, rfl, fun b hb => ?_,
    hrestale .ae (by decide), ?_⟩
  · exact (s.ae.raised_zero i).symm
  · rw [State.isolated_pot (s := s.answering rq.port) h]
    rfl
  · exact State.hears_respondOn rq rq.port r ((hb.since rfl fun _ => rfl).later
      (State.noticed_trans hset.noticed (State.restale_noticed _)))
  · exact ⟨(congrArg Pot.unlisted hpot :), (congrArg Pot.aeCount hpot :), (congrArg Pot.lastOnset hpot :)⟩

end Accepted

/-- Settles O27: the tests in turn, and both switches by the pot switched before the recount. -/
theorem potsAreCutOutAndInUnderTheInterlock : Obligations.PotsAreCutOutAndInUnderTheInterlock := by
  intro rq i s goal c kind hc hready
  obtain ⟨hexec, hrequest, hlength⟩ := switches.exec_eq hc s
  refine ⟨fun h => ?_, fun h hm => ?_, fun h hm hthere => ?_, fun h hm haway hlock => ?_,
    fun hr h hin hm haway hopen => ⟨_, hexec, ?_⟩⟩
  · exact exec_answered hready hexec hrequest hlength (switchPot_above _ h)
  · exact exec_answered hready hexec hrequest hlength (switchPot_unmapped _ h hm)
  · exact exec_answered hready hexec hrequest hlength (switchPot_there _ h hm hthere)
  · exact exec_answered hready hexec hrequest hlength (switchPot_locked _ h hm haway hlock)
  · rw [State.take_ready hready hrequest hlength (switchPot_accepted (s := s.answering rq.port) _ h hm haway hopen)]
    cases goal with
    | cutOut =>
      rw [State.switched_cutOut]
      obtain ⟨hports, hcircuit, hstale, hband, hnormal, hrun, hlast, ⟨hcount, hjudged⟩, hunarmed, hothers, hkept⟩ :=
        (State.withdrawn_switched (s := s.answering rq.port) hin).answered (kind := kind) hr
      exact ⟨hports, hcircuit, hstale, hband, hnormal, hrun, hlast, hcount, hjudged, hunarmed,
        fun _ => State.withdrawn_ended hin _, fun hne => (nomatch hne), hothers, hkept⟩
    | inCircuit =>
      rw [State.switched_inCircuit]
      obtain ⟨hports, hcircuit, hstale, hband, hnormal, hrun, hlast, ⟨hcount, hjudged⟩, hunarmed, hothers, hkept⟩ :=
        (State.inserted_switched (s := s.answering rq.port) hin).answered (kind := kind) hr
      exact ⟨hports, hcircuit, hstale, hband, hnormal, hrun, hlast, hcount, hjudged, hunarmed,
        fun hne => (nomatch hne), fun _ => State.restale_keeps _ .ae (by decide), hothers, hkept⟩

end Sys2Proof.Machine
end

