-- ==== Sys2Proof/Proofs/AnodeEffectOnsets.lean ====
section
/-! The onset of a pot's anode effect and the evaluation of a pot by the anode-effect unit (R102, R103, R105, R106). -/

namespace Sys2Proof.Machine

/-! ### A record created (R105) -/

section Record

variable (s : State) (pot peak : Nat)

/-- The AE_ONSET of a new record (R105 step 2). -/
def State.onsetNotice (r : AeRecord) : NoticeBody :=
  .aeOnset (some r.id) r.pot (s.place r.pot).1 (s.place r.pot).2 r.onset r.current r.peak (s.ae.list.length + 1) r.original

theorem State.createRecord_hears (original : Option Nat) :
    s.hears (s.createRecord pot peak original) (s.onsetNotice (s.newRecord pot peak original)) := by
  generalize hr : s.newRecord pot peak original = r
  have hpot : r.pot = pot ∧ r.original = original := by subst hr; exact ⟨rfl, rfl⟩
  obtain ⟨rfl, rfl⟩ := hpot
  have hnotice : s.hears (({ s with ae := s.ae.enter r } : State).notify (s.onsetNotice r)) (s.onsetNotice r) :=
    (State.hears_notify _ _).since rfl fun _ => rfl
  refine hnotice.later ?_
  have hquench := State.notify_noticed (({ s with ae := s.ae.enter r } : State).notify (s.onsetNotice r))
    (.quenchRequest r.id r.attempt r.pot (s.place r.pot).1 (s.place r.pot).2)
  refine State.noticed_trans hquench (State.noticed_of_ports ?_)
  unfold State.createRecord State.captureAe
  rw [hr]
  have hlength : (s.ae.enter r).list.length = s.ae.list.length + 1 := by simp [AeUnit.enter]
  cases horiginal : r.original <;>
    (dsimp only; simp only [hlength, State.onsetNotice, horiginal]; split <;> rfl)

end Record

/-! ### An onset while the list is full (R106) -/

section Full

variable (s : State) (pot peak : Nat)

/-- The state of an onset with the list full, before AE_STORM is handed (R106). -/
def State.overflowed : State :=
  (((({ s with ae := { s.ae with overflow := s.ae.overflow ++ [Overflow.mk pot s.timeBase] } } : State).modPot pot
    fun p => { p with unlisted := true }).notify (.aeOnset none pot (s.place pot).1 (s.place pot).2 s.timeBase
      s.measuredCurrent peak (s.ae.overflow.length + 1) none)).countOnset)

theorem State.overflowOnset_eq : s.overflowOnset pot peak =
    if s.ae.storm = true then s.overflowed pot peak
    else ({ s.overflowed pot peak with ae := { (s.overflowed pot peak).ae with storm := true } } : State).onset
      (.line .aeStorm) (some (.storm (s.ae.overflow.length + 1))) := by
  have hlength : (s.ae.overflow ++ [Overflow.mk pot s.timeBase]).length = s.ae.overflow.length + 1 := by simp
  unfold State.overflowOnset State.overflowed
  simp only [State.modPot_ae, hlength]
  rfl

theorem State.overflowOnset_ae : (s.overflowOnset pot peak).ae =
    { s.ae with overflow := s.ae.overflow ++ [⟨pot, s.timeBase⟩], storm := true } := by
  rw [State.overflowOnset_eq]
  split
  · next h =>
    rw [← h]
    rfl
  · rw [State.onset_keeps _ _ _ .ae (by decide)]
    rfl

theorem State.overflowOnset_mark (h : pot < s.pots.length) : ((s.overflowOnset pot peak).pot pot).unlisted = true := by
  have hmark : ((s.overflowed pot peak).pot pot).unlisted = true :=
    (congrArg Pot.unlisted (s.pot_modPot_self (fun p => { p with unlisted := true }) h) :)
  rw [State.overflowOnset_eq]
  split
  · exact hmark
  · rw [(State.onset_keeps _ _ _).pot (by decide)]
    exact hmark

/-- The first onset of a storm hands AE_STORM. -/
theorem State.overflowOnset_handed :
    s.handed (s.overflowOnset pot peak) (.line .aeStorm) s.ae.storm true
      (some (.storm (s.ae.overflow.length + 1))) := by
  rw [State.overflowOnset_eq]
  cases h : s.ae.storm
  · exact (State.conditionChange_handed (s := { s.overflowed pot peak with
      ae := { (s.overflowed pot peak).ae with storm := true } }) false true _
      (.inl (FaultId.not_tripped_line (by decide)))).within rfl (Entry.sameButReduce_refl _) (Entry.sameButReduce_refl _)
  · exact ⟨fun hb => (nomatch hb), fun _ ha => (nomatch ha), fun _ => ⟨rfl, rfl⟩⟩

end Full

/-! ### The evaluation of a pot (R102, R103) -/

section Evaluate

variable {s : State} {i : Nat}

theorem State.setAe_pot (h : i < s.pots.length) (a : AeState) (run : Nat) :
    (s.setAe i a run).pot i = { s.pot i with aeState := a, run := run } := s.pot_modPot_self _ h

theorem State.evaluateAe_waiting (h : (s.pot i).aeState = .normal ∨ (s.pot i).aeState = .rising) :
    s.evaluateAe i = s.detectOnset i := by
  unfold State.evaluateAe
  rcases h with h | h <;> rw [h]

theorem State.evaluateAe_lasting (h : (s.pot i).aeState = .ae ∨ (s.pot i).aeState = .falling) :
    s.evaluateAe i = s.detectEnd i := by
  unfold State.evaluateAe
  rcases h with h | h <;> rw [h]

theorem State.detectOnset_below (h : (s.pot i).last < s.config.detection.aeOn) :
    s.detectOnset i = s.setAe i .normal 0 := by
  simp only [State.detectOnset, Nat.not_le.mpr h, if_false]

theorem State.detectOnset_short (h : s.config.detection.aeOn ≤ (s.pot i).last)
    (hrun : (s.pot i).run + 1 < s.config.detection.nOn) :
    s.detectOnset i = s.setAe i .rising ((s.pot i).run + 1) := by
  simp only [State.detectOnset, h, Nat.not_le.mpr hrun, if_true, if_false]

theorem State.detectOnset_taken (h : s.config.detection.aeOn ≤ (s.pot i).last)
    (hrun : s.config.detection.nOn ≤ (s.pot i).run + 1) :
    s.detectOnset i = (s.setAe i .ae 0).takeOnset i (s.pot i).last := by
  simp only [State.detectOnset, h, hrun, if_true]

theorem State.detectEnd_above (h : s.config.detection.aeOff < (s.pot i).last) :
    s.detectEnd i = (s.raisePeak i).setAe i .ae 0 := by
  simp only [State.detectEnd, Nat.not_le.mpr h, if_false]

theorem State.detectEnd_short (h : (s.pot i).last ≤ s.config.detection.aeOff)
    (hrun : (s.pot i).run + 1 < s.config.detection.nOff) :
    s.detectEnd i = (s.raisePeak i).setAe i .falling ((s.pot i).run + 1) := by
  simp only [State.detectEnd, h, Nat.not_le.mpr hrun, if_true, if_false]

theorem State.detectEnd_ended (h : (s.pot i).last ≤ s.config.detection.aeOff)
    (hrun : s.config.detection.nOff ≤ (s.pot i).run + 1) :
    s.detectEnd i = ((s.raisePeak i).setAe i .normal 0).endAe i .normal := by
  simp only [State.detectEnd, h, hrun, if_true]

variable (s i)

theorem State.detectOnset_attends : s.aeAttends i aeParts (s.detectOnset i) := by
  have hset : ∀ (a : AeState) (run : Nat), s.aeAttends i aeParts (s.setAe i a run) := fun a run =>
    (s.setAe_attends i a run).mono aeEndParts_subset
  unfold State.detectOnset
  dsimp only
  split
  · split
    · exact (hset _ _).trans ((State.takeOnset_acts _ _ _).attends i)
    · exact hset _ _
  · exact hset _ _

theorem State.detectEnd_attends : s.aeAttends i aeParts (s.detectEnd i) := by
  have hset : ∀ (a : AeState) (run : Nat), s.aeAttends i aeEndParts ((s.raisePeak i).setAe i a run) := fun a run =>
    ((s.aeUnit_acts _).attends i).trans (State.setAe_attends _ i a run)
  unfold State.detectEnd
  dsimp only
  refine State.aeAttends.mono (l := aeEndParts) ?_ aeEndParts_subset
  split
  · split
    · exact (hset _ _).trans (State.endAe_attends _ i _)
    · exact hset _ _
  · exact hset _ _

theorem State.evaluateAe_attends : s.aeAttends i aeParts (s.evaluateAe i) := by
  unfold State.evaluateAe
  split
  · exact s.detectOnset_attends i
  · exact s.detectOnset_attends i
  · exact s.detectEnd_attends i
  · exact s.detectEnd_attends i

end Evaluate

end Sys2Proof.Machine
end

