-- ==== Sys2Proof/Proofs/Samples.lean ====
section
/-! SAMPLE_FRAME (R89 to R94, R102 to R107). -/

namespace Sys2Proof.Machine

/-! ### The address of a sample (R89) -/

section Address

variable {s : State} {sec pos : Nat}

theorem execSampleFrame_eq (h : s.loading = false) (v : Nat) :
    exec (.sampleFrame sec pos v) s = .next (s.begin.sample sec pos v) := by
  change execSampleFrame sec pos v s = _
  unfold execSampleFrame
  exact if_neg (by simpa [State.loading] using h)

theorem State.resolve_none (h : ∀ k : Fin 4, k.val = sec → (s.config.sections.get k).length ≤ pos) :
    s.resolve sec pos = none := by
  unfold State.resolve
  split
  · next hsec => exact if_neg (Nat.not_lt.mpr (h ⟨sec, hsec⟩ rfl))
  · rfl

theorem State.resolve_some {k : Fin 4} (hk : k.val = sec) (h : pos < (s.config.sections.get k).length) :
    s.resolve sec pos = some ((s.config.sections.get k).origin + pos) := by
  subst hk
  unfold State.resolve
  rw [dif_pos k.isLt]
  exact if_pos h

theorem State.sample_misaddressed (h : s.resolve sec pos = none) (v : Nat) :
    s.sample sec pos v =
      { s with scan := { s.scan with addressFlag := true, lastBadAddress := some (sec, pos) } } := by
  unfold State.sample
  rw [h]

variable {i v : Nat}

theorem State.sample_inCircuit (h : s.resolve sec pos = some i) (hv : v ≤ 65535) (hc : (s.pot i).circuit = .inCircuit) :
    s.sample sec pos v = s.sampleInCircuit i v := by
  unfold State.sample
  simp only [h, hc, Nat.min_eq_left hv]

theorem State.sample_cutOut (h : s.resolve sec pos = some i) (hv : v ≤ 65535) (hc : (s.pot i).circuit = .cutOut) :
    s.sample sec pos v = s.sampleCutOut i v := by
  unfold State.sample
  simp only [h, hc, Nat.min_eq_left hv]

end Address

/-! ### The sample stored and counted (R90, R92) -/

/-- An in-circuit entry with a sample stored: a stale one has no sample before it (R90). -/
def Pot.sampledAs (p : Pot) (v stamp : Nat) : Pot :=
  { p with
    last := v, previous := if p.stale = true then v else p.last, stamp := stamp, stale := false
    swing := if p.stale = true then 0 else distance v p.last }

theorem Pot.store_eq (p : Pot) (v stamp : Nat) :
    { p.store v stamp (!p.stale) with stale := false } = p.sampledAs v stamp := by
  cases h : p.stale <;> simp [Pot.store, Pot.sampledAs, h]

/-- In `u` the sample `v` of pot `i` of `s` is stored and counted, the band test aside. -/
structure State.sampled (i v : Nat) (s u : State) : Prop where
  keeps : s.keepsAllBut u (.pots :: .scan :: responseParts)
  noticed : s.noticed u
  inTable : i < u.pots.length
  own : u.pot i = { (s.pot i).sampledAs v s.scan.stamp with band := (u.pot i).band }
  others : ∀ j : Nat, j ≠ i → u.pot j = s.pot j
  judged : (s.pot i).stale = true → s.staleJudged u
  storm : (s.entry (.line .aeStorm)).sameButReduce (u.entry (.line .aeStorm))

section Store

variable (s : State) (i v : Nat)

/-- Step 1 of R90. -/
def State.sampleStored : State :=
  s.modPot i fun q => { q.store v s.scan.stamp (!(s.pot i).stale) with stale := false }

/-- Steps 1 and 2 of R90. -/
def State.sampleCounted : State :=
  if (s.pot i).stale then (s.sampleStored i v).restale else s.sampleStored i v

theorem State.sampleInCircuit_eq : s.sampleInCircuit i v = ((s.sampleCounted i v).bandTest i).evaluateAe i := rfl

variable {s i v}

theorem State.sampleStored_pot (h : i < s.pots.length) :
    (s.sampleStored i v).pot i = (s.pot i).sampledAs v s.scan.stamp :=
  (s.pot_modPot_self _ h).trans ((s.pot i).store_eq v s.scan.stamp)

/-- The recount leaves the entry as the sample has it. -/
theorem State.sampleCounted_pot (h : i < s.pots.length) :
    (s.sampleCounted i v).pot i = (s.pot i).sampledAs v s.scan.stamp := by
  unfold State.sampleCounted
  split
  · rw [(State.restale_keeps _).pot (by decide), State.sampleStored_pot h]
  · exact State.sampleStored_pot h

theorem State.sampleStored_sampled (h : i < s.pots.length) (hfresh : (s.pot i).stale = false) :
    s.sampled i v (s.sampleStored i v) := by
  refine ⟨State.keepsAllBut_mono (s.modPot_keeps _) (by decide), State.noticed_of_ports rfl,
    h.trans_eq (List.length_modify ..).symm, ?_, fun j hj => s.pot_modPot_ne _ hj,
    fun hstale => absurd (hfresh.symm.trans hstale) (by decide), Entry.sameButReduce_refl _⟩
  rw [State.sampleStored_pot h]

theorem State.sampleStored_restaled (h : i < s.pots.length) : s.sampled i v (s.sampleStored i v).restale := by
  have hstored : s.keepsAllBut (s.sampleStored i v) [.pots] := s.modPot_keeps _
  have hrestale := (s.sampleStored i v).restale_keeps
  have hpot : ∀ j : Nat, (s.sampleStored i v).restale.pot j = (s.sampleStored i v).pot j := hrestale.pot (by decide)
  refine ⟨State.keepsAllBut_trans (State.keepsAllBut_mono hstored (by decide)) (State.keepsAllBut_mono hrestale (by decide)),
    State.noticed_trans (State.noticed_of_ports rfl) (State.restale_noticed _), ?_, ?_, fun j hj => ?_, fun _ => ?_,
    State.restale_entry_ne _ (by decide) (FaultId.not_tripped_line (by decide))⟩
  · rw [show (s.sampleStored i v).restale.pots = (s.sampleStored i v).pots from hrestale .pots (by decide)]
    exact h.trans_eq (List.length_modify ..).symm
  · rw [hpot, State.sampleStored_pot h]
  · rw [hpot]
    exact s.pot_modPot_ne _ hj
  · exact (State.restale_judged _).within (State.keepsAllBut_mono hstored (by decide)) (Entry.sameButReduce_refl _) rfl rfl
      (Entry.sameButReduce_refl _)

theorem State.sampleCounted_sampled (h : i < s.pots.length) : s.sampled i v (s.sampleCounted i v) := by
  unfold State.sampleCounted
  split
  · exact State.sampleStored_restaled h
  · next hfresh => exact State.sampleStored_sampled h (by simpa using hfresh)

end Store

/-! ### The band test (R93, R94) -/

theorem BandSet.passes_iff (s : State) (p : Pot) : s.config.band.passes p = true ↔ s.inBandNow p := by
  cases hv : s.config.band.voltageCheck <;> cases hs : s.config.band.swingCheck <;>
    simp [BandSet.passes, BandSet.voltagePasses, BandSet.swingPasses, State.inBandNow, hv, hs]

/-- The checks that a POT_WATCH names are those that are ON and fail (R94). -/
theorem State.watchNotice_eq (s : State) (i : Nat) (p : Pot) : s.watchNotice i p =
    .potWatch i (s.place i).1 (s.place i).2 p.last p.swing
      (s.config.band.voltageCheck && !s.config.band.voltagePasses p)
      (s.config.band.swingCheck && !s.config.band.swingPasses p) := by
  have hvoltage : decide (p.last < s.config.band.low ∨ s.config.band.high < p.last) = !s.config.band.voltagePasses p := by
    simp only [BandSet.voltagePasses, Bool.not_and, Bool.decide_or, ← decide_not, Nat.not_le]
  have hswing : decide (s.config.band.swing < p.swing) = !s.config.band.swingPasses p := by
    simp only [BandSet.swingPasses, ← decide_not, Nat.not_le]
  rw [State.watchNotice, hvoltage, hswing]

section Band

variable {s : State} {i : Nat}

theorem State.bandTest_pot_ne (s : State) {i j : Nat} (hne : j ≠ i) : (s.bandTest i).pot j = s.pot j := by
  unfold State.bandTest
  dsimp only
  split
  · exact s.pot_modPot_ne _ hne
  · exact s.pot_modPot_ne _ hne
  · rfl
  · rfl

theorem State.bandTest_pot (h : i < s.pots.length) : (s.bandTest i).pot i =
    { s.pot i with band := if s.config.band.passes (s.pot i) = true then .inBand else .outOfBand } := by
  unfold State.bandTest
  dsimp only
  split
  · next hp => exact (s.pot_modPot_self _ h).trans (by rw [hp]; rfl)
  · next hp => exact (s.pot_modPot_self _ h).trans (by rw [hp]; rfl)
  · next hb hp => rw [hp, if_pos rfl, ← hb]
  · next hb hp => rw [hp, if_neg (by decide), ← hb]

theorem State.bandTest_size (s : State) (i : Nat) : (s.bandTest i).pots.length = s.pots.length := by
  unfold State.bandTest
  dsimp only
  split <;> simp

theorem State.bandTest_noticed (s : State) (i : Nat) : s.noticed (s.bandTest i) := by
  unfold State.bandTest
  dsimp only
  split
  · exact State.noticed_trans (State.noticed_of_ports rfl) (State.notify_noticed _ _)
  · exact State.noticed_of_ports rfl
  · exact s.noticed_refl
  · exact s.noticed_refl

/-- A pot that leaves the band is reported (R94). -/
theorem State.bandTest_hears (hb : (s.pot i).band = .inBand) (hp : s.config.band.passes (s.pot i) = false) :
    s.hears (s.bandTest i) (s.watchNotice i (s.pot i)) := by
  unfold State.bandTest
  simp only [hb, hp]
  rw [State.watchNotice_eq]
  exact (State.hears_notify _ _).since rfl fun _ => rfl

end Band

/-! ### From the sample to the evaluation (R90) -/

namespace State.sampled

variable {i v : Nat} {s u t : State}

/-- What stands in the pot's entry. -/
theorem fields (h : s.sampled i v u) : (u.pot i).last = v ∧ (u.pot i).stale = false ∧
    (u.pot i).circuit = (s.pot i).circuit ∧ (u.pot i).aeState = (s.pot i).aeState ∧ (u.pot i).run = (s.pot i).run ∧
    (u.pot i).aeCount = (s.pot i).aeCount := by
  rw [h.own]
  exact ⟨rfl, rfl, rfl, rfl, rfl, rfl⟩

theorem config (h : s.sampled i v u) : u.config = s.config := h.keeps .config (by decide)

theorem ae (h : s.sampled i v u) : u.ae = s.ae := h.keeps .ae (by decide)

theorem timeBase (h : s.sampled i v u) : u.timeBase = s.timeBase := h.keeps .timeBase (by decide)

/-- What is heard from the stored sample on is heard from the command on. -/
theorem heard (h : s.sampled i v u) {b : NoticeBody} (hb : u.hears t b) : s.hears t b :=
  hb.since h.timeBase h.noticed.role

theorem banded (h : s.sampled i v u) : s.sampled i v (u.bandTest i) := by
  have hband := u.bandTest_keeps i
  refine ⟨State.keepsAllBut_trans h.keeps (State.keepsAllBut_mono hband (by decide)),
    State.noticed_trans h.noticed (u.bandTest_noticed i), h.inTable.trans_eq (u.bandTest_size i).symm, ?_,
    fun j hj => (u.bandTest_pot_ne hj).trans (h.others j hj), fun hstale => ?_, ?_⟩
  · rw [State.bandTest_pot h.inTable, h.own]
  · refine (h.judged hstale).within (s.keepsAllBut_refl _) (Entry.sameButReduce_refl _) (hband .scan (by decide)) ?_
      (Entry.sameButReduce_of_eq (hband.entry (by decide) _))
    refine State.countStale_congr (hband .config (by decide)) fun j => ?_
    by_cases hj : j = i
    · subst hj
      rw [State.bandTest_pot h.inTable]
      exact ⟨rfl, rfl⟩
    · rw [u.bandTest_pot_ne hj]
      exact ⟨rfl, rfl⟩
  · rw [hband.entry (by decide)]
    exact h.storm

/-- What the evaluation leaves of the stored sample (R90). -/
theorem stored (h : s.sampled i v u) : let t := u.evaluateAe i
    (t.pot i).last = v ∧ (t.pot i).stamp = s.scan.stamp ∧ (t.pot i).circuit = (s.pot i).circuit ∧
    (t.pot i).stale = false ∧ (t.pot i).previous = (if (s.pot i).stale = true then v else (s.pot i).last) ∧
    (t.pot i).swing = (if (s.pot i).stale = true then 0 else distance v (s.pot i).last) := by
  intro t
  rw [(u.evaluateAe_attends i).own, h.own]
  exact ⟨rfl, rfl, rfl, rfl, rfl, rfl⟩

/-- The recount of a freshened entry stands after the evaluation (R92). -/
theorem judged_after (h : s.sampled i v u) (hstale : (s.pot i).stale = true) : s.staleJudged (u.evaluateAe i) :=
  have hattend := u.evaluateAe_attends i
  (h.judged hstale).within (s.keepsAllBut_refl _) (Entry.sameButReduce_refl _) (hattend.keeps .scan (by decide))
    (hattend.countStale (by decide)) hattend.scanStale

theorem others_after (h : s.sampled i v u) (j : Nat) (hj : j ≠ i) : (s.pot j).sameButUnlisted ((u.evaluateAe i).pot j) :=
  h.others j hj ▸ (u.evaluateAe_attends i).others j hj

theorem keeps_after (h : s.sampled i v u) : s.keepsAllBut (u.evaluateAe i) (.scan :: aeParts) :=
  State.keepsAllBut_trans (State.keepsAllBut_mono h.keeps (by decide))
    (State.keepsAllBut_mono (u.evaluateAe_attends i).keeps (by decide))

/-! ### Onsets (R102, R105, R106) -/

theorem below (h : s.sampled i v u) (hstate : (s.pot i).aeState = .normal ∨ (s.pot i).aeState = .rising)
    (hv : v < s.config.detection.aeOn) :
    ((u.evaluateAe i).pot i).aeState = .normal ∧ ((u.evaluateAe i).pot i).run = 0 ∧ (u.evaluateAe i).ae = s.ae := by
  obtain ⟨hlast, -, -, hae, -, -⟩ := h.fields
  rw [State.evaluateAe_waiting (hae ▸ hstate), State.detectOnset_below (by rwa [hlast, h.config]),
    State.setAe_pot h.inTable]
  exact ⟨rfl, rfl, h.ae⟩

theorem short (h : s.sampled i v u) (hstate : (s.pot i).aeState = .normal ∨ (s.pot i).aeState = .rising)
    (hv : s.config.detection.aeOn ≤ v) (hn : (s.pot i).run + 1 < s.config.detection.nOn) :
    ((u.evaluateAe i).pot i).aeState = .rising ∧ ((u.evaluateAe i).pot i).run = (s.pot i).run + 1 ∧
    (u.evaluateAe i).ae = s.ae := by
  obtain ⟨hlast, -, -, hae, hrun, -⟩ := h.fields
  rw [State.evaluateAe_waiting (hae ▸ hstate),
    State.detectOnset_short (by rwa [hlast, h.config]) (by rwa [hrun, h.config]), State.setAe_pot h.inTable, hrun]
  exact ⟨rfl, rfl, h.ae⟩

section Onset

variable (h : s.sampled i v u) (hstate : (s.pot i).aeState = .normal ∨ (s.pot i).aeState = .rising)
  (hv : s.config.detection.aeOn ≤ v) (hn : s.config.detection.nOn ≤ (s.pot i).run + 1)
include h hstate hv hn

theorem evaluate_onset : u.evaluateAe i = (u.setAe i .ae 0).takeOnset i v := by
  obtain ⟨hlast, -, -, hae, hrun, -⟩ := h.fields
  rw [State.evaluateAe_waiting (hae ▸ hstate),
    State.detectOnset_taken (by rwa [hlast, h.config]) (by rwa [hrun, h.config]), hlast]

theorem onset_pot : ((u.evaluateAe i).pot i).aeState = .ae ∧ ((u.evaluateAe i).pot i).run = 0 := by
  rw [h.evaluate_onset hstate hv hn, (State.takeOnset_acts _ i v).pots i, State.setAe_pot h.inTable]
  exact ⟨rfl, rfl⟩

/-- An onset with room in the list (R105). -/
theorem onset_listed (hroom : s.ae.list.length < 16) : (u.evaluateAe i).ae.overflow = s.ae.overflow ∧
    ∃ r : AeRecord, (u.evaluateAe i).ae.list = s.ae.list ++ [r] ∧ r.pot = i ∧ r.peak = v ∧ r.onset = s.timeBase ∧
      r.original = none ∧ r.state = .waitAck ∧ r.attempt = 1 ∧
      s.hears (u.evaluateAe i) (.aeOnset (some r.id) i (s.place i).1 (s.place i).2 s.timeBase r.current v
        (u.evaluateAe i).ae.list.length none) := by
  generalize hx : u.setAe i .ae 0 = x
  have hae : x.ae = s.ae := hx ▸ h.ae
  have htime : x.timeBase = s.timeBase := hx ▸ h.timeBase
  have hplace : x.place i = s.place i := State.place_congr (hx ▸ h.config) i
  have hend : u.evaluateAe i = x.createRecord i v none := by
    rw [h.evaluate_onset hstate hv hn, hx, State.takeOnset, if_pos (by rw [hae]; exact hroom)]
  have hlist : (u.evaluateAe i).ae.list = s.ae.list ++ [x.newRecord i v none] := by
    rw [hend, State.createRecord_ae, ← hae]
    rfl
  have hheard : x.hears (u.evaluateAe i) (x.onsetNotice (x.newRecord i v none)) := hend ▸ x.createRecord_hears i v none
  refine ⟨by rw [hend, State.createRecord_ae, ← hae]; rfl, x.newRecord i v none, hlist, rfl, rfl, htime, rfl, rfl,
    rfl, ?_⟩
  have hnotice : x.onsetNotice (x.newRecord i v none) = .aeOnset (some (x.newRecord i v none).id) i (s.place i).1
      (s.place i).2 s.timeBase (x.newRecord i v none).current v (u.evaluateAe i).ae.list.length none := by
    rw [hlist, List.length_append, ← hplace, ← htime, ← hae]
    rfl
  rw [← hnotice]
  exact h.heard (hheard.since (hx ▸ rfl) fun p => hx ▸ rfl)

/-- An onset with the list full (R106). -/
theorem onset_unlisted (hfull : 16 ≤ s.ae.list.length) : (u.evaluateAe i).ae.list = s.ae.list ∧
    (u.evaluateAe i).ae.storm = true ∧ (u.evaluateAe i).ae.overflow = s.ae.overflow ++ [⟨i, s.timeBase⟩] ∧
    ((u.evaluateAe i).pot i).unlisted = true ∧
    s.handed (u.evaluateAe i) (.line .aeStorm) s.ae.storm true
      (some (.storm (u.evaluateAe i).ae.overflow.length)) := by
  generalize hx : u.setAe i .ae 0 = x
  have hae : x.ae = s.ae := hx ▸ h.ae
  have htime : x.timeBase = s.timeBase := hx ▸ h.timeBase
  have hin : i < x.pots.length := by
    rw [← hx, (u.setAe_attends i .ae 0).size]
    exact h.inTable
  have hstorm : (s.entry (.line .aeStorm)).sameButReduce (x.entry (.line .aeStorm)) := hx ▸ h.storm
  have hend : u.evaluateAe i = x.overflowOnset i v := by
    rw [h.evaluate_onset hstate hv hn, hx, State.takeOnset, if_neg (by rw [hae]; exact Nat.not_lt.mpr hfull)]
  have hhanded := x.overflowOnset_handed i v
  rw [hae] at hhanded
  rw [hend, State.overflowOnset_ae, hae, htime]
  refine ⟨rfl, rfl, rfl, State.overflowOnset_mark _ _ _ hin, ?_⟩
  simpa using hhanded.within htime hstorm (Entry.sameButReduce_refl _)

end Onset

/-! ### Ends (R103, R107, R115) -/

theorem lasts (h : s.sampled i v u) (hstate : (s.pot i).aeState = .ae ∨ (s.pot i).aeState = .falling)
    (hv : s.config.detection.aeOff < v ∨ (s.pot i).run + 1 < s.config.detection.nOff) :
    ((u.evaluateAe i).pot i).aeState = (if s.config.detection.aeOff < v then .ae else .falling) ∧
    ((u.evaluateAe i).pot i).run = (if s.config.detection.aeOff < v then 0 else (s.pot i).run + 1) ∧
    (u.evaluateAe i).ae = s.ae.raised i v := by
  obtain ⟨hlast, -, -, hae, hrun, -⟩ := h.fields
  have hraised : (u.raisePeak i).ae = s.ae.raised i v := by
    rw [State.raisePeak_eq, hlast, ← h.ae]
  have hset : ∀ (a : AeState) (run : Nat),
      ((u.raisePeak i).setAe i a run).pot i = { u.pot i with aeState := a, run := run } :=
    State.setAe_pot (s := u.raisePeak i) h.inTable
  rw [State.evaluateAe_lasting (hae ▸ hstate)]
  by_cases habove : s.config.detection.aeOff < v
  · rw [State.detectEnd_above (by rwa [hlast, h.config]), hset, if_pos habove, if_pos habove]
    exact ⟨rfl, rfl, hraised⟩
  · rw [State.detectEnd_short (by rw [hlast, h.config]; exact Nat.not_lt.mp habove)
      (by rw [hrun, h.config]; exact hv.resolve_left habove), hset, hrun, if_neg habove, if_neg habove]
    exact ⟨rfl, rfl, hraised⟩

theorem ends (h : s.sampled i v u) (hstate : (s.pot i).aeState = .ae ∨ (s.pot i).aeState = .falling)
    (hv : v ≤ s.config.detection.aeOff) (hn : s.config.detection.nOff ≤ (s.pot i).run + 1) :
    ((u.evaluateAe i).pot i).aeState = .normal ∧ ((u.evaluateAe i).pot i).run = 0 ∧
    s.aeEnded (u.evaluateAe i) i v .normal := by
  obtain ⟨hlast, -, -, hae, hrun, hcount⟩ := h.fields
  generalize hx : (u.raisePeak i).setAe i .normal 0 = x
  have hend : u.evaluateAe i = x.endAe i .normal := by
    rw [State.evaluateAe_lasting (hae ▸ hstate),
      State.detectEnd_ended (by rwa [hlast, h.config]) (by rwa [hrun, h.config]), hx]
  have hpot : x.pot i = { u.pot i with aeState := .normal, run := 0 } := hx ▸ State.setAe_pot h.inTable .normal 0
  have hin : i < x.pots.length := by
    rw [← hx, (State.setAe_attends _ i .normal 0).size]
    exact h.inTable
  have hraised : x.ae = s.ae.raised i v := by
    rw [← hlast, ← h.ae, ← hx]
    rfl
  obtain ⟨hstateEnd, hrunEnd⟩ := x.endAe_detected i .normal
  rw [hend]
  refine ⟨hstateEnd.trans (by rw [hpot]), hrunEnd.trans (by rw [hpot]), State.bringsEnd.ended (s := x)
    ⟨hin, hraised, by rw [hpot]; exact hcount, hx ▸ h.timeBase, hx ▸ h.config, fun b hb => ?_, rfl, rfl, rfl, rfl⟩⟩
  exact h.heard (hb.since (hx ▸ rfl) fun p => hx ▸ rfl)

end State.sampled

/-! ### The sample as a whole -/

section Whole

variable {s : State} {i v : Nat}

/-- An in-circuit pot is stored, counted and band-tested before it is evaluated (R90). -/
theorem State.sampleInCircuit_sampled (h : i < s.pots.length) :
    s.sampled i v ((s.sampleCounted i v).bandTest i) := (State.sampleCounted_sampled h).banded

/-- The band state that a sample leaves is the band test's, and POT_WATCH goes out on leaving the band (R93, R94). -/
theorem State.sampleInCircuit_band (h : i < s.pots.length) :
    let t := s.sampleInCircuit i v
    ((t.pot i).band = .inBand ↔ s.inBandNow (t.pot i)) ∧
    ((s.pot i).band = .inBand → (t.pot i).band = .outOfBand → s.hears t (s.watchNotice i (t.pot i))) := by
  intro t
  have hcounted := State.sampleCounted_sampled (s := s) (v := v) h
  have hpot := State.sampleCounted_pot (s := s) (v := v) h
  generalize hc : s.sampleCounted i v = c at hcounted hpot
  have hattend : (c.bandTest i).aeAttends i aeParts t := hc ▸ State.evaluateAe_attends _ i
  have hown : (t.pot i).band = (if c.config.band.passes (c.pot i) = true then .inBand else .outOfBand) ∧
      (t.pot i).last = (c.pot i).last ∧ (t.pot i).swing = (c.pot i).swing := by
    rw [hattend.own, State.bandTest_pot hcounted.inTable]
    exact ⟨rfl, rfl, rfl⟩
  obtain ⟨hband, hlast, hswing⟩ := hown
  have hnow : c.config.band.passes (c.pot i) = true ↔ s.inBandNow (t.pot i) := by
    rw [BandSet.passes_iff, State.inBandNow, State.inBandNow, hlast, hswing, hcounted.config]
  have hwatch : c.watchNotice i (c.pot i) = s.watchNotice i (t.pot i) := by
    rw [State.watchNotice, State.watchNotice, hlast, hswing, State.place_congr hcounted.config, hcounted.config]
  refine ⟨?_, fun hin hout => ?_⟩
  · rw [hband, ← hnow]
    cases c.config.band.passes (c.pot i) <;> simp
  · have hleft : (c.pot i).band = .inBand := by rw [hpot]; exact hin
    have hfails : c.config.band.passes (c.pot i) = false := by
      cases hp : c.config.band.passes (c.pot i)
      · rfl
      · simp [hband, hp] at hout
    rw [← hwatch]
    exact hcounted.heard ((State.bandTest_hears hleft hfails).later hattend.noticed)

end Whole

/-- Settles O25: the sample is stored, counted, band-tested and then evaluated, each step being its own lemma above. -/
theorem samplesAreStoredAtTheirPot : Obligations.SamplesAreStoredAtTheirPot := by
  intro s sec pos v hload
  refine ⟨fun hnone => ?_, fun k i hk hpos hi hin hv => ?_⟩
  · rw [execSampleFrame_eq hload, State.sample_misaddressed (State.resolve_none (s := s.begin) hnone)]
    rfl
  have hresolve : s.begin.resolve sec pos = some i := hi ▸ State.resolve_some (s := s.begin) hk hpos
  refine ⟨_, execSampleFrame_eq hload v, ?_⟩
  cases hc : (s.pot i).circuit with
  | cutOut =>
    rw [State.sample_cutOut hresolve hv hc]
    have hpot : (s.begin.sampleCutOut i v).pot i = (s.pot i).store v s.scan.stamp true := s.begin.pot_modPot_self _ hin
    rw [hpot]
    refine ⟨rfl, rfl, hc, fun h => (nomatch h), fun h => (nomatch h), fun _ => ?_, fun j hj => ?_, rfl, rfl, rfl, rfl,
      fun h => (nomatch h)⟩
    · unfold State.sampleCutOut State.modPot
      rw [s.begin.pots_modify_eq_set _ hin]
      rfl
    · rw [show (s.begin.sampleCutOut i v).pot j = s.pot j from s.begin.pot_modPot_ne _ hj]
  | inCircuit =>
    rw [State.sample_inCircuit hresolve hv hc]
    have hsampled := State.sampleInCircuit_sampled (s := s.begin) (v := v) hin
    obtain ⟨hinBand, hwatch⟩ := State.sampleInCircuit_band (s := s.begin) (v := v) hin
    rw [State.sampleInCircuit_eq] at hinBand hwatch ⊢
    generalize (s.begin.sampleCounted i v).bandTest i = u at *
    obtain ⟨hlast, hstamp, hcircuit, hfresh, hprevious, hswing⟩ := hsampled.stored
    have hkeeps := hsampled.keeps_after
    refine ⟨hlast, hstamp, hcircuit.trans hc, fun _ hstale => ⟨hfresh, hprevious.trans (if_pos hstale),
        hswing.trans (if_pos hstale)⟩, fun _ hstale => ⟨hfresh, hprevious.trans (if_neg (ne_true_of_eq_false hstale)),
        hswing.trans (if_neg (ne_true_of_eq_false hstale))⟩, fun h => (nomatch h), hsampled.others_after,
      hkeeps .config (by decide), hkeeps .timeBase (by decide), hkeeps .store (by decide), hkeeps .pending (by decide),
      fun _ => ⟨hinBand, hwatch, hsampled.judged_after, fun hstate => ⟨hsampled.below hstate, hsampled.short hstate,
        fun hon hn => ?_⟩, fun hstate => ⟨hsampled.lasts hstate, hsampled.ends hstate⟩⟩⟩
    obtain ⟨hae, hrun⟩ := hsampled.onset_pot hstate hon hn
    exact ⟨hae, hrun, hsampled.onset_listed hstate hon hn, hsampled.onset_unlisted hstate hon hn⟩

end Sys2Proof.Machine
end

