-- ==== Sys2Proof/Proofs/FreeIds.lean ====
section
/-! The id that a new record takes is within 1 to 255 and held by no record (R104). -/

namespace Sys2Proof.Machine

/-- The ids run round from 1 to 255. -/
theorem idAfter_iterate {n : Nat} (hlo : 1 ≤ n) (hhi : n ≤ 255) (i : Nat) : idAfter^[i] n = (n - 1 + i) % 255 + 1 := by
  induction i with
  | zero => simp only [Function.iterate_zero, id]; omega
  | succ i ih =>
    rw [Function.iterate_succ_apply', ih]
    unfold idAfter
    split <;> omega

theorem idAfter_eq {n : Nat} (h : n ≤ 255) : idAfter n = if n = 255 then 1 else n + 1 := by
  unfold idAfter
  split <;> split <;> omega

theorem freeId_reached (held : List Nat) (fuel n : Nat) : ∃ i : Nat, freeId held fuel n = idAfter^[i] n := by
  induction fuel generalizing n with
  | zero => exact ⟨0, rfl⟩
  | succ k ih =>
    unfold freeId
    split
    · obtain ⟨i, hi⟩ := ih (idAfter n)
      exact ⟨i + 1, hi⟩
    · exact ⟨0, rfl⟩

/-- The search comes to an id that is held only over ids that are all held. -/
theorem freeId_held {held : List Nat} {fuel n : Nat} (h : freeId held fuel n ∈ held) :
    ∀ i ≤ fuel, idAfter^[i] n ∈ held := by
  induction fuel generalizing n with
  | zero =>
    intro i hi
    obtain rfl : i = 0 := by omega
    exact h
  | succ k ih =>
    unfold freeId at h
    split at h
    · next hn =>
      intro i hi
      cases i with
      | zero => simpa using hn
      | succ i => exact ih h i (by omega)
    · next hn => exact absurd h (by simpa using hn)

variable {held : List Nat} {fuel n : Nat}

theorem freeId_range (hlo : 1 ≤ n) (hhi : n ≤ 255) : 1 ≤ freeId held fuel n ∧ freeId held fuel n ≤ 255 := by
  obtain ⟨i, hi⟩ := freeId_reached held fuel n
  rw [hi, idAfter_iterate hlo hhi]
  omega

/-- A search that may pass over as many ids as are held finds one that is not: fewer than 255 steps meet no id twice. -/
theorem freeId_free (hlo : 1 ≤ n) (hhi : n ≤ 255) (hround : fuel < 255) (hfuel : held.length ≤ fuel) :
    freeId held fuel n ∉ held := by
  intro hmem
  have hnodup : ((List.range (fuel + 1)).map fun i => idAfter^[i] n).Nodup := by
    refine List.Nodup.map_on (fun i hi j hj heq => ?_) List.nodup_range
    rw [idAfter_iterate hlo hhi, idAfter_iterate hlo hhi] at heq
    rw [List.mem_range] at hi hj
    omega
  have hsubset : ((List.range (fuel + 1)).map fun i => idAfter^[i] n) ⊆ held := fun x hx => by
    obtain ⟨i, hi, rfl⟩ := List.mem_map.mp hx
    exact freeId_held hmem i (Nat.lt_succ_iff.mp (List.mem_range.mp hi))
  have hlength := (hnodup.subperm hsubset).length_le
  rw [List.length_map, List.length_range] at hlength
  omega

theorem AeUnit.newId_spec {u : AeUnit} (hlist : u.list.length < 255) (hlo : 1 ≤ u.nextId) (hhi : u.nextId ≤ 255) :
    1 ≤ u.newId ∧ u.newId ≤ 255 ∧ ∀ x ∈ u.list, x.id ≠ u.newId := by
  obtain ⟨h1, h2⟩ := freeId_range (held := u.list.map AeRecord.id) (fuel := u.list.length) hlo hhi
  have hfree := freeId_free (held := u.list.map AeRecord.id) hlo hhi hlist (by simp)
  exact ⟨h1, h2, fun x hx heq => hfree (List.mem_map.mpr ⟨x, hx, heq⟩)⟩

end Sys2Proof.Machine
end

