-- ==== Sys2Proof/Proofs/OnsetRecords.lean ====
section
/-! An onset taken, with room in the AE list and with the list full (R104 to R106, R172). -/

namespace Sys2Proof.Machine

/-! ### With room in the list (R104, R105) -/

section Record

variable (s : State) (pot peak : Nat) (r : AeRecord)

/-- Steps 1 to 3 of an onset: the record stands in the list and its notices are placed (R105). -/
def State.recorded : State :=
  (({ s with ae := s.ae.enter r } : State).notify (s.onsetNotice r)).requestQuench r.id r.attempt r.pot

theorem State.createRecord_eq : s.createRecord pot peak none =
    (s.recorded (s.newRecord pot peak none)).countOnset.captureAe (s.newRecord pot peak none) := by
  have hlength : ∀ x : AeRecord, (s.ae.enter x).list.length = s.ae.list.length + 1 := fun x => by simp [AeUnit.enter]
  unfold State.createRecord State.recorded State.onsetNotice
  simp only [hlength]
  rfl

theorem State.recorded_keeps : s.keepsAllBut (s.recorded r) [.ae, .ports] :=
  State.keepsAllBut_trans (State.keepsAllBut_mono (s.aeUnit_keeps _) (by decide))
    (State.keepsAllBut_trans (State.keepsAllBut_mono (State.notify_keeps _ _) (by decide))
      (State.keepsAllBut_mono (State.notify_keeps _ _) (by decide)))

theorem State.recorded_hears :
    s.hears (s.recorded r) (.quenchRequest r.id r.attempt r.pot (s.place r.pot).1 (s.place r.pot).2) := by
  generalize hu : (({ s with ae := s.ae.enter r } : State).notify (s.onsetNotice r)) = u
  have hrole : ∀ p : Port, u.role p = s.role p := fun p => hu ▸ (State.notify_noticed _ _).role p
  unfold State.recorded
  rw [hu]
  have hheard := State.hears_notify u (.quenchRequest r.id r.attempt r.pot (u.place r.pot).1 (u.place r.pot).2)
  rw [State.place_congr (s := s) (hu ▸ rfl)] at hheard
  rw [State.requestQuench, State.place_congr (s := s) (hu ▸ rfl)]
  exact hheard.since (hu ▸ rfl) hrole

theorem State.captureAe_keeps : s.keepsAllBut (s.captureAe r) [.stack] := by
  intro p hp
  unfold State.captureAe
  split <;> (cases p <;> first | rfl | exact absurd (by simp) hp)

theorem State.countOnset_interval {i : Interval} (h : s.metering.interval = some i) :
    s.countOnset.metering.interval = some { i with aeOnsets := min 65535 (i.aeOnsets + 1) } := by
  unfold State.countOnset State.modInterval
  simp only [h]
  rfl

/-- The count of an onset is not in a frame's body. -/
theorem State.countOnset_captureBody : s.countOnset.captureBody = s.captureBody := by
  unfold State.captureBody State.countOnset State.modInterval
  cases s.metering.interval <;> rfl

theorem State.recorded_captureBody :
    (s.recorded r).captureBody = { s.captureBody with aeCount := s.ae.list.length + 1 } := by
  have hlength : (s.ae.enter r).list.length = s.ae.list.length + 1 := by simp [AeUnit.enter]
  rw [← hlength]
  rfl

/-- The frame of an onset holds the body of its moment with the new record counted (R105, R172). -/
theorem State.createRecord_stack : (s.createRecord pot peak none).stack =
    if s.config.aeCapture = true then s.stack.push
      { cause := .ae false s.ae.newId 1 pot s.timeBase s.measuredCurrent peak, time := s.timeBase
        body := { s.captureBody with aeCount := s.ae.list.length + 1 } }
    else s.stack := by
  rw [State.createRecord_eq, State.captureAe, ← s.recorded_captureBody (s.newRecord pot peak none),
    ← State.countOnset_captureBody]
  split
  · next h => exact (if_pos h).symm
  · next h => exact (if_neg h).symm

theorem State.createRecord_interval {i : Interval} (h : s.metering.interval = some i) :
    (s.createRecord pot peak none).metering.interval = some { i with aeOnsets := min 65535 (i.aeOnsets + 1) } := by
  rw [State.createRecord_eq, State.captureAe_keeps _ _ .metering (by decide)]
  exact State.countOnset_interval (s.recorded _) h

theorem State.createRecord_keeps : s.keepsAllBut (s.createRecord pot peak none) [.ae, .metering, .stack, .ports] := by
  rw [State.createRecord_eq]
  exact State.keepsAllBut_trans (State.keepsAllBut_mono (s.recorded_keeps _) (by decide))
    (State.keepsAllBut_trans (State.keepsAllBut_mono (State.modInterval_keeps _ _) (by decide))
      (State.keepsAllBut_mono (State.captureAe_keeps _ _) (by decide)))

theorem State.createRecord_hearsQuench : s.hears (s.createRecord pot peak none)
    (.quenchRequest s.ae.newId 1 pot (s.place pot).1 (s.place pot).2) := by
  rw [State.createRecord_eq]
  refine (s.recorded_hears (s.newRecord pot peak none)).later ?_
  exact State.noticed_trans (t := State.countOnset _) (State.noticed_of_ports rfl)
    (State.noticed_of_keeps (State.captureAe_keeps _ _) (by decide))

end Record

/-! ### With the list full (R106) -/

section Full

variable (s : State) (pot peak : Nat)

/-- AE_STORM writes no part of the pots, the interval or the other blocks. -/
theorem State.overflowOnset_from :
    (s.overflowed pot peak).keepsAllBut (s.overflowOnset pot peak) (.ae :: responseParts) ∧
      (s.overflowed pot peak).noticed (s.overflowOnset pot peak) := by
  rw [State.overflowOnset_eq]
  split
  · exact ⟨State.keepsAllBut_refl _ _, State.noticed_refl _⟩
  · exact ⟨State.keepsAllBut_trans (State.keepsAllBut_mono (State.aeUnit_keeps _ _) (by decide))
      (State.keepsAllBut_mono (State.onset_keeps _ _ _) (by decide)),
      State.noticed_trans (State.noticed_of_ports rfl) (State.onset_noticed _ _ _)⟩

theorem State.overflowOnset_pot (j : Nat) :
    (s.overflowOnset pot peak).pot j = (s.modPot pot fun p => { p with unlisted := true }).pot j :=
  (s.overflowOnset_from pot peak).1.pot (by decide) j

theorem State.overflowOnset_hears : s.hears (s.overflowOnset pot peak)
    (.aeOnset none pot (s.place pot).1 (s.place pot).2 s.timeBase s.measuredCurrent peak (s.ae.overflow.length + 1)
      none) := by
  have hheard : s.hears (s.overflowed pot peak) (.aeOnset none pot (s.place pot).1 (s.place pot).2 s.timeBase
      s.measuredCurrent peak (s.ae.overflow.length + 1) none) := by
    exact State.hears.later (State.hears.since (State.hears_notify _ _) rfl fun _ => rfl) (State.noticed_of_ports rfl)
  exact hheard.later (s.overflowOnset_from pot peak).2

theorem State.overflowOnset_interval {i : Interval} (h : s.metering.interval = some i) :
    (s.overflowOnset pot peak).metering.interval = some { i with aeOnsets := min 65535 (i.aeOnsets + 1) } := by
  rw [(s.overflowOnset_from pot peak).1 .metering (by decide)]
  exact State.countOnset_interval (State.notify _ _) h

/-- A further onset of a storm hands nothing. -/
theorem State.overflowOnset_again (h : s.ae.storm = true) :
    (s.overflowOnset pot peak).stack = s.stack ∧ (s.overflowOnset pot peak).line = s.line := by
  rw [State.overflowOnset_eq, if_pos h]
  exact ⟨rfl, rfl⟩

end Full

/-- Settles O28: with room the onset is the record created, with its id the free one that the search finds, and with the list full
it is the overflow's. -/
theorem onsetOpensARecord : Obligations.OnsetOpensARecord := by
  refine ⟨fun s pot peak hfull => ?_, fun s pot peak hroom hlo hhi => ?_⟩
  · have htake : s.takeOnset pot peak = s.overflowOnset pot peak := if_neg (Nat.not_lt.mpr hfull)
    rw [htake]
    exact ⟨s.overflowOnset_ae pot peak, fun h => (s.overflowOnset_pot pot peak pot).trans (s.pot_modPot_self _ h),
      fun j hj => (s.overflowOnset_pot pot peak j).trans (s.pot_modPot_ne _ hj), s.overflowOnset_hears pot peak,
      fun i => s.overflowOnset_interval pot peak, s.overflowOnset_handed pot peak, s.overflowOnset_again pot peak,
      State.keepsAllBut_mono (s.overflowOnset_acts pot peak).keeps (by decide)⟩
  · have htake : s.takeOnset pot peak = s.createRecord pot peak none := if_pos hroom
    obtain ⟨hone, hmax, hfree⟩ := AeUnit.newId_spec (by omega) hlo hhi
    have hstack := s.createRecord_stack pot peak
    rw [htake]
    refine ⟨s.newRecord pot peak none, hone, hmax, hfree, rfl, rfl, rfl, rfl, rfl, rfl, rfl, rfl, rfl, rfl, rfl, ?_,
      s.createRecord_hears pot peak none, s.createRecord_hearsQuench pot peak, fun i => s.createRecord_interval pot peak,
      fun hoff => hstack.trans (if_neg (ne_true_of_eq_false hoff)), fun hon => hstack.trans (if_pos hon),
      s.createRecord_keeps pot peak⟩
    rw [State.createRecord_ae, AeUnit.enter, idAfter_eq (show (s.newRecord pot peak none).id ≤ 255 from hmax)]

end Sys2Proof.Machine
end

