-- ==== Sys2Proof/Proofs/PromotionIds.lean ====
section
/-! The id after a promotion's, from a next id out of the range of R104. -/

namespace Sys2Proof.Machine

/-- A unit whose next id is 300, which no reachable state holds: pot 0 is listed under id 1 and pot 1 waits on the overflow list. -/
def idsOutOfRange : State :=
  { State.reset with
    ae :=
      { list :=
          [{ id := 1, pot := 0, onset := 0, original := none, current := 0, peak := 0, state := .waitAck, attempt := 1
             exhausted := false, deadline := none, reported := false, energy := 0 }]
        overflow := [⟨1, 0⟩], nextId := 300, recent := [], storm := true, unquenched := false, headroom := false } }

/-- The promoted record takes 300, and the id after it is 1. -/
theorem idsOutOfRange_endAe : (idsOutOfRange.endAe 0 .normal).ae.list.map AeRecord.id = [300] ∧
    (idsOutOfRange.endAe 0 .normal).ae.nextId = 1 := by decide +kernel

/-- Refutes O29: its clause on the next id of a promotion takes every id but 255 to be followed by its successor and, unlike the
clause on the promoted id, does not ask that the next id of the start be in 1 to 255. From a next id of 300 the promoted record
takes 300, which R104's rule lets 1 follow and the clause 301. -/
theorem not_endClosesARecordAndPromotes : ¬ Obligations.EndClosesARecordAndPromotes := by
  rintro ⟨-, -, hlisted⟩
  obtain ⟨-, -, -, -, -, -, -, -, -, -, -, -, hpromoted, -⟩ := hlisted idsOutOfRange 0 .normal _ rfl (by decide +kernel)
  obtain ⟨-, -, n, hlist, -, -, -, -, -, -, -, -, -, -, -, hnext, -⟩ := hpromoted _ _ rfl
  obtain ⟨hids, hone⟩ := idsOutOfRange_endAe
  have hid : n.id = 300 := by
    rw [hlist] at hids
    simpa [idsOutOfRange] using hids
  rw [hone, hid] at hnext
  exact absurd hnext (by decide)

end Sys2Proof.Machine
end

