-- ==== Sys2Proof/Proofs/QuenchAttempts.lean ====
section
/-! The attempts of a record: the next one asked for, the exhaustion of the record, and the commands that bring them about (R110
to R114). -/

namespace Sys2Proof.Machine

theorem AeUnit.ofId_id {u : AeUnit} {id : Nat} {r : AeRecord} (h : u.ofId id = some r) : r.id = id := by
  simpa using List.find?_some h

/-! ### The end of an attempt (R113, R114) -/

/-- A record in which the attempt after `n` waits for its acknowledgement until `deadline`. -/
def AeRecord.tried (n deadline : Nat) (x : AeRecord) : AeRecord :=
  { x with attempt := n + 1, state := .waitAck, deadline := some deadline }

/-- A record once its last attempt has failed. -/
def AeRecord.spent (x : AeRecord) : AeRecord := { x with state := .quenching, exhausted := true, deadline := none }

section Attempt

variable (s : State) (r : AeRecord)

theorem State.nextAttempt_below (h : r.attempt < 3) : s.nextAttempt r =
    ({ s with ae := s.ae.modRecord r.id (AeRecord.tried r.attempt s.ackDeadline) } : State).requestQuench r.id
      (r.attempt + 1) r.pot := by
  unfold State.nextAttempt
  exact if_pos h

theorem State.nextAttempt_last (h : 3 ≤ r.attempt) : s.nextAttempt r = s.exhaust r := by
  unfold State.nextAttempt
  exact if_neg (Nat.not_lt.mpr h)

/-- An attempt below the last is followed by the next one (R113). -/
theorem State.nextAttempt_asks (h : r.attempt < 3) :
    (s.nextAttempt r).ae = s.ae.modRecord r.id (AeRecord.tried r.attempt s.ackDeadline) ∧
    s.hears (s.nextAttempt r) (.quenchRequest r.id (r.attempt + 1) r.pot (s.place r.pot).1 (s.place r.pot).2) ∧
    s.noticed (s.nextAttempt r) ∧ s.keepsAllBut (s.nextAttempt r) [.ae, .ports] := by
  rw [State.nextAttempt_below s r h]
  exact ⟨rfl, (State.hears_notify _ _).since rfl fun _ => rfl,
    State.noticed_trans (State.noticed_of_ports rfl) (State.notify_noticed _ _),
    State.keepsAllBut_trans (State.keepsAllBut_mono (s.aeUnit_keeps _) (by decide))
      (State.keepsAllBut_mono (State.notify_keeps _ _) (by decide))⟩

/-- The unit once a record is exhausted (R114). -/
def AeUnit.exhausting (u : AeUnit) (id : Nat) : AeUnit := { u.modRecord id AeRecord.spent with unquenched := true }

/-- The exhaustion of a record hands AE_UNQUENCHED as a condition that is present afterwards. -/
theorem State.exhaust_eq : s.exhaust r =
    ({ s with ae := s.ae.exhausting r.id } : State).conditionChange (.line .aeUnquenched) s.ae.unquenched true
      (some (.unquenched r.id r.pot)) := by
  have hsame : s.ae.unquenched = true → s.ae.modRecord r.id AeRecord.spent = s.ae.exhausting r.id := fun h => by
    unfold AeUnit.exhausting
    rw [← h]
    rfl
  unfold State.exhaust State.conditionChange
  cases h : s.ae.unquenched
  · exact if_neg (by simp [AeUnit.modRecord, h])
  · exact (if_pos h).trans (congrArg (fun u => { s with ae := u }) (hsame h))

theorem State.exhaust_ae : (s.exhaust r).ae = s.ae.exhausting r.id := by
  rw [State.exhaust_eq]
  exact State.conditionChange_keeps _ _ _ _ _ .ae (by decide)

theorem State.exhaust_keeps : s.keepsAllBut (s.exhaust r) (.ae :: responseParts) := by
  rw [State.exhaust_eq]
  exact State.keepsAllBut_trans (State.keepsAllBut_mono (s.aeUnit_keeps _) (by decide))
    (State.keepsAllBut_mono (State.conditionChange_keeps _ _ _ _ _) (by decide))

theorem State.exhaust_noticed : s.noticed (s.exhaust r) := by
  rw [State.exhaust_eq]
  exact State.noticed_trans (State.noticed_of_ports rfl) (State.conditionChange_noticed _ _ _ _ _)

theorem State.exhaust_handed : s.handed (s.exhaust r) (.line .aeUnquenched) s.ae.unquenched true
    (some (.unquenched r.id r.pot)) := by
  rw [State.exhaust_eq]
  exact State.conditionChange_handed (s := { s with ae := s.ae.exhausting r.id }) _ _ _
    (.inl (FaultId.not_tripped_line (by decide)))

/-- A further exhausted record hands nothing. -/
theorem State.exhaust_again (h : s.ae.unquenched = true) : (s.exhaust r).faults = s.faults ∧ (s.exhaust r).line = s.line := by
  rw [State.exhaust_eq, h]
  exact ⟨rfl, rfl⟩

end Attempt

/-! ### The timers (R113) -/

/-- The start of a command clears the frames sent alone. -/
theorem State.keepsAllBut.since_begin {s t : State} {l : List Part} (h : s.begin.keepsAllBut t l) :
    s.keepsAllBut t (.out :: l) :=
  State.keepsAllBut_trans (State.keepsAllBut_mono s.begin_keeps (by simp))
    (State.keepsAllBut_mono h fun _ hp => .tail _ hp)

theorem State.noticed.quiet {s t : State} (h : s.noticed t) : s.portsQuiet t := fun p =>
  let ⟨_, _, hport⟩ := h p
  ⟨_, _, hport⟩

theorem execAckTimerExpiry_eq {s : State} {id d : Nat} {r : AeRecord} (hr : s.ae.ofId id = some r)
    (hd : r.deadline = some d) (hstate : r.state = .waitAck) :
    exec (.ackTimerExpiry id) s = .next (s.begin.nextAttempt r) := by
  have htimed : s.begin.ae.timed id .waitAck = some r := by simp [AeUnit.timed, hr, hd, hstate]
  change execAckTimerExpiry id s = _
  unfold execAckTimerExpiry
  simp only [htimed]

theorem execQuenchTimerExpiry_eq {s : State} {id d : Nat} {r : AeRecord} (hr : s.ae.ofId id = some r)
    (hd : r.deadline = some d) (hstate : r.state = .quenching) :
    exec (.quenchTimerExpiry id) s = .next (s.begin.nextAttempt r) := by
  have htimed : s.begin.ae.timed id .quenching = some r := by simp [AeUnit.timed, hr, hd, hstate]
  change execQuenchTimerExpiry id s = _
  unfold execQuenchTimerExpiry
  simp only [htimed]

/-! ### The replies (R111 to R113) -/

/-- The command `c` is a quench reply of the kind `kind`, and `accept` is what it does past the tests of R111. -/
structure RepliesQuench (rq : Req) (id attempt : Nat) (c : Instr) (kind : ReqKind)
    (accept : AeRecord → State → State × Option Answer) : Prop where
  exec : ∀ s : State, exec c s = .next (s.take rq kind (quenchReply id attempt accept))
  request : c.request? = some (rq, kind)
  length : c.requiredLength = some kind.payloadLength
  permits : ∀ r : Role, r ∉ [Role.potline] → requestPermits kind r = false

theorem quenchStarted_replies (rq : Req) (id attempt : Nat) :
    RepliesQuench rq id attempt (.quenchStarted rq id attempt) .quenchStarted startQuench :=
  ⟨fun _ => rfl, rfl, rfl, fun r => by cases r <;> decide⟩

theorem quenchFailed_replies (rq : Req) (id attempt : Nat) :
    RepliesQuench rq id attempt (.quenchFailed rq id attempt) .quenchFailed failQuench :=
  ⟨fun _ => rfl, rfl, rfl, fun r => by cases r <;> decide⟩

section Tests

variable {id attempt : Nat} {accept : AeRecord → State → State × Option Answer} {s : State}

theorem quenchReply_outside (h : id = 0 ∨ attempt = 0 ∨ 3 < attempt) :
    quenchReply id attempt accept s = refuse s .outOfRange := by
  unfold quenchReply
  exact if_pos (by omega)

variable (hid : 1 ≤ id) (hlo : 1 ≤ attempt) (hhi : attempt ≤ 3)
include hid hlo hhi

theorem quenchReply_absent (h : s.ae.ofId id = none) : quenchReply id attempt accept s =
    refuse s (if s.ae.recent.any fun e => e.id == id then .alreadyEnded else .notFound) := by
  unfold quenchReply
  rw [if_neg (by omega)]
  simp only [h]

theorem quenchReply_held {r : AeRecord} (h : s.ae.ofId id = some r) : quenchReply id attempt accept s =
    if r.attempt < attempt then refuse s .outOfRange
    else if attempt < r.attempt then refuse s .moved
    else if r.exhausted then refuse s .badState
    else accept r s := by
  unfold quenchReply
  rw [if_neg (by omega)]
  simp only [h]

/-- A reply for the present attempt of a record that is not exhausted is accepted. -/
theorem quenchReply_accepted {r : AeRecord} (h : s.ae.ofId id = some r) (ha : attempt = r.attempt)
    (hx : r.exhausted = false) : quenchReply id attempt accept s = accept r s := by
  rw [quenchReply_held hid hlo hhi h, if_neg (by omega), if_neg (by omega), if_neg (by simp [hx])]

end Tests

section Replies

variable {rq : Req} {id attempt : Nat} {c : Instr} {kind : ReqKind} {accept : AeRecord → State → State × Option Answer}
  (h : RepliesQuench rq id attempt c kind accept) {s : State} (hr : s.ready c)
include h hr

/-- A reply that its tests answer changes nothing. -/
theorem RepliesQuench.answered {code : ResultCode}
    (hbody : quenchReply id attempt accept (s.answering rq.port) = refuse (s.answering rq.port) code) :
    Machine.exec c s = .next (s.answered rq kind code []) := by
  rw [h.exec, State.take_answered hr h.request h.length hbody]

theorem RepliesQuench.outside (ho : id = 0 ∨ attempt = 0 ∨ 3 < attempt) :
    Machine.exec c s = .next (s.answered rq kind .outOfRange []) :=
  h.answered hr (quenchReply_outside ho)

variable (hid : 1 ≤ id) (hlo : 1 ≤ attempt) (hhi : attempt ≤ 3)
include hid hlo hhi

theorem RepliesQuench.ended (hno : s.ae.ofId id = none) (he : ∃ e ∈ s.ae.recent, e.id = id) :
    Machine.exec c s = .next (s.answered rq kind .alreadyEnded []) := by
  refine h.answered hr ((quenchReply_absent (s := s.answering rq.port) hid hlo hhi hno).trans (congrArg _ (if_pos ?_)))
  obtain ⟨e, hmem, heq⟩ := he
  exact List.any_eq_true.mpr ⟨e, hmem, by simpa using heq⟩

theorem RepliesQuench.unknown (hno : s.ae.ofId id = none) (he : ∀ e ∈ s.ae.recent, e.id ≠ id) :
    Machine.exec c s = .next (s.answered rq kind .notFound []) := by
  refine h.answered hr ((quenchReply_absent (s := s.answering rq.port) hid hlo hhi hno).trans
    (congrArg _ (if_neg fun hany => ?_)))
  obtain ⟨e, hmem, heq⟩ := List.any_eq_true.mp hany
  exact he e hmem (by simpa using heq)

variable {r : AeRecord} (hrec : s.ae.ofId id = some r)
include hrec

/-- A reply for another attempt, or for an exhausted record, is refused. -/
theorem RepliesQuench.refused :
    (r.attempt < attempt → Machine.exec c s = .next (s.answered rq kind .outOfRange [])) ∧
    (attempt < r.attempt → Machine.exec c s = .next (s.answered rq kind .moved [])) ∧
    (attempt = r.attempt → r.exhausted = true → Machine.exec c s = .next (s.answered rq kind .badState [])) := by
  have hheld := quenchReply_held (accept := accept) (s := s.answering rq.port) hid hlo hhi hrec
  refine ⟨fun hlt => h.answered hr (hheld.trans (if_pos hlt)), fun hlt => h.answered hr (hheld.trans ?_),
    fun heq hx => h.answered hr (hheld.trans ?_)⟩
  · rw [if_neg (by omega), if_pos hlt]
  · rw [if_neg (by omega), if_neg (by omega), if_pos hx]

variable (ha : attempt = r.attempt) (hx : r.exhausted = false)
include ha hx

/-- An accepted reply answers OK from what it makes of the state. -/
theorem RepliesQuench.accepted {u : State} (hu : accept r (s.answering rq.port) = answer u .ok) :
    Machine.exec c s = .next (u.respondOn rq.port ⟨rq.tag, kind.code, .ok, []⟩) := by
  have hbody := quenchReply_accepted (accept := accept) (s := s.answering rq.port) hid hlo hhi hrec ha hx
  rw [h.exec, State.take_ready hr h.request h.length (hbody.trans hu)]

end Replies

/-- What an answered rule of a reply leaves of the state at the request (R182). -/
theorem State.keepsAllBut_respondOn {s u : State} {l : List Part} {p : Port} (h : (s.answering p).keepsAllBut u l)
    (r : Reply) : s.keepsAllBut (u.respondOn p r) (.ports :: .out :: l) :=
  State.keepsAllBut_trans (State.keepsAllBut_mono (s.answering_keeps p) (by simp))
    (State.keepsAllBut_trans (State.keepsAllBut_mono h fun _ hp => .tail _ (.tail _ hp))
      (State.keepsAllBut_mono (u.respondOn_keeps p r) (by simp)))

section Failed

variable {rq : Req} {id attempt : Nat} {s : State} {r : AeRecord}

/-- A failure below the last attempt asks for the next one (R113). -/
theorem quenchFailed_asks (hr : s.ready (.quenchFailed rq id attempt)) (hid : 1 ≤ id) (hlo : 1 ≤ attempt)
    (hrec : s.ae.ofId id = some r) (ha : attempt = r.attempt) (hx : r.exhausted = false) (hlt : attempt < 3) :
    ∃ t : State, exec (.quenchFailed rq id attempt) s = .next t ∧ s.portsAnswer t rq .quenchFailed .ok [] ∧ t.out = [] ∧
      t.ae = s.ae.modRecord id (AeRecord.tried attempt s.ackDeadline) ∧
      s.hears t (.quenchRequest id (attempt + 1) r.pot (s.place r.pot).1 (s.place r.pot).2) ∧
      s.keepsAllBut t [.ae, .ports, .out] := by
  obtain rfl := AeUnit.ofId_id hrec
  subst ha
  obtain ⟨hae, hears, hnoticed, hkeeps⟩ := (s.answering rq.port).nextAttempt_asks r hlt
  refine ⟨_, (quenchFailed_replies rq r.id r.attempt).accepted hr hid hlo (by omega) hrec rfl hx rfl,
    State.portsAnswer_of_noticed _ _ _ _ hnoticed, hkeeps .out (by decide), hae,
    State.hears_respondOn rq _ _ hears, State.keepsAllBut_mono (State.keepsAllBut_respondOn hkeeps _) (by decide)⟩

/-- A failure of the last attempt exhausts the record (R113, R114). -/
theorem quenchFailed_exhausts (hr : s.ready (.quenchFailed rq id attempt)) (hid : 1 ≤ id)
    (hrec : s.ae.ofId id = some r) (ha : attempt = r.attempt) (hx : r.exhausted = false) (hlast : attempt = 3) :
    ∃ t : State, exec (.quenchFailed rq id attempt) s = .next t ∧ s.portsAnswer t rq .quenchFailed .ok [] ∧
      t.ae = s.ae.exhausting id ∧
      s.handed t (.line .aeUnquenched) s.ae.unquenched true (some (.unquenched id r.pot)) ∧
      s.keepsAllBut t [.line, .claims, .groups, .cooling, .ae, .faults, .stack, .ports, .out] := by
  obtain rfl := AeUnit.ofId_id hrec
  have hfails : failQuench r (s.answering rq.port) = answer ((s.answering rq.port).exhaust r) .ok := by
    rw [failQuench, State.nextAttempt_last _ r (by omega)]
  refine ⟨_, (quenchFailed_replies rq r.id attempt).accepted hr hid (by omega) (by omega) hrec ha hx hfails,
    State.portsAnswer_of_noticed _ _ _ _ (State.exhaust_noticed _ r), State.exhaust_ae (s.answering rq.port) r,
    (State.exhaust_handed (s.answering rq.port) r).within rfl (Entry.sameButReduce_refl _)
      (Entry.sameButReduce_of_eq ((State.respondOn_keeps _ _ _).entry (by decide) _)),
    State.keepsAllBut_mono (State.keepsAllBut_respondOn (State.exhaust_keeps _ r) _) (by decide)⟩

end Failed

/-- QUENCH_STARTED past its tests (R112). -/
theorem quenchStarted_starts {rq : Req} {id attempt : Nat} {s : State} {r : AeRecord}
    (hr : s.ready (.quenchStarted rq id attempt)) (hid : 1 ≤ id) (hlo : 1 ≤ attempt) (hhi : attempt ≤ 3)
    (hrec : s.ae.ofId id = some r) (ha : attempt = r.attempt) (hx : r.exhausted = false) :
    (r.state = .quenching → exec (.quenchStarted rq id attempt) s = .next (s.answered rq .quenchStarted .ok [])) ∧
    (r.state = .waitAck → exec (.quenchStarted rq id attempt) s = .next (({ s with
      ae := s.ae.modRecord id fun x => { x with
        state := .quenching, reported := true
        deadline := some (s.timeBase + s.config.quench.quench * 1000) } } : State).answered rq .quenchStarted .ok [])) := by
  obtain rfl := AeUnit.ofId_id hrec
  have haccepted := fun u : State => (quenchStarted_replies rq r.id attempt).accepted hr hid hlo hhi hrec ha hx (u := u)
  refine ⟨fun hstate => ?_, fun hstate => ?_⟩
  · rw [haccepted (s.answering rq.port) (by simp only [startQuench, hstate]), State.respondOn_answering]
  · rw [haccepted _ (by simp only [startQuench, hstate]; rfl), ← State.respondOn_answering]
    rfl

/-- Settles O30: the tests of a reply in their order, and the end of an attempt, below the last and at the last, for the failures
and the timers alike. -/
theorem quenchRepliesAndTimersMoveTheAttempt : Obligations.QuenchRepliesAndTimersMoveTheAttempt := by
  refine ⟨fun rq id attempt s c kind hc => ?_, fun s id d r c hrec hd hc => ?_⟩
  · obtain ⟨accept, h⟩ : ∃ accept, RepliesQuench rq id attempt c kind accept := by
      rcases hc with ⟨rfl, rfl⟩ | ⟨rfl, rfl⟩
      · exact ⟨_, quenchStarted_replies rq id attempt⟩
      · exact ⟨_, quenchFailed_replies rq id attempt⟩
    refine ⟨State.refusesOthers_of_permits (h.exec s) h.permits, fun hr => ⟨h.outside hr, fun hid hlo hhi =>
      ⟨h.ended hr hid hlo hhi, h.unknown hr hid hlo hhi, fun r hrec => ?_⟩⟩⟩
    obtain ⟨hfuture, hmoved, hspent⟩ := h.refused hr hid hlo hhi hrec
    refine ⟨hfuture, hmoved, hspent, ?_⟩
    rcases hc with ⟨rfl, rfl⟩ | ⟨rfl, rfl⟩
    · exact ⟨fun ha hx _ => (quenchStarted_starts hr hid hlo hhi hrec ha hx).1,
        fun ha hx _ => (quenchStarted_starts hr hid hlo hhi hrec ha hx).2, fun _ _ hk => (nomatch hk),
        fun _ _ hk => (nomatch hk)⟩
    · exact ⟨fun _ _ hk => (nomatch hk), fun _ _ hk => (nomatch hk),
        fun ha hx _ hlt => quenchFailed_asks hr hid hlo hrec ha hx hlt,
        fun ha hx _ hlast => quenchFailed_exhausts hr hid hrec ha hx hlast⟩
  · have hexec : exec c s = .next (s.begin.nextAttempt r) := by
      rcases hc with ⟨rfl, hstate⟩ | ⟨rfl, hstate⟩
      · exact execAckTimerExpiry_eq hrec hd hstate
      · exact execQuenchTimerExpiry_eq hrec hd hstate
    obtain rfl := AeUnit.ofId_id hrec
    refine ⟨fun hlt => ⟨_, hexec, ?_⟩, fun hlast => ⟨_, hexec, ?_⟩⟩
    · obtain ⟨hae, hears, hnoticed, hkeeps⟩ := s.begin.nextAttempt_asks r hlt
      exact ⟨hkeeps .out (by decide), hnoticed.quiet, hae, hears, State.keepsAllBut_mono hkeeps.since_begin (by decide)⟩
    · rw [State.nextAttempt_last _ r hlast]
      obtain ⟨hopens, -, -⟩ := s.begin.exhaust_handed r
      refine ⟨s.begin.exhaust_ae r, fun hnot => ?_, s.begin.exhaust_again r,
        State.keepsAllBut_mono (s.begin.exhaust_keeps r).since_begin (by decide)⟩
      obtain ⟨hactive, -, hdetail⟩ := hopens hnot rfl
      exact ⟨hactive, hdetail⟩

end Sys2Proof.Machine
end

