-- ==== Sys2Proof/Proofs/ClaimsKept.lean ====
section
/-! The FAULT slot aside, no claim moves with the line state, nor in an onset that cannot trip the line, nor after the target step
of an expiry (R27, R32, R164). -/

namespace Sys2Proof.Machine

/-- Every claim slot but FAULT is kept. -/
def State.slotsKept (s t : State) : Prop := ∀ k : ClaimSlot, k ≠ .fault → t.claims.get k = s.claims.get k

namespace State.slotsKept

variable {s t u : State}

theorem refl (s : State) : s.slotsKept s := fun _ _ => rfl

theorem trans (h : s.slotsKept t) (k : t.slotsKept u) : s.slotsKept u := fun j hj => (k j hj).trans (h j hj)

theorem of_claims (h : t.claims = s.claims) : s.slotsKept t := fun k _ => congrArg (ClaimsTable.get · k) h

theorem of_keeps {l : List Part} (h : s.keepsAllBut t l) (hl : Part.claims ∉ l) : s.slotsKept t :=
  of_claims (h .claims hl)

end State.slotsKept

section Responses

variable (s : State)

theorem State.writeFaultClaim_slotsKept : s.slotsKept s.writeFaultClaim := by
  intro k hk
  unfold State.writeFaultClaim
  split
  · exact s.claims.get_set_ne hk _
  · exact s.claims.get_set_ne hk _

theorem State.settlePending_slotsKept : s.slotsKept s.settlePending := by
  unfold State.settlePending
  split
  · exact State.writeFaultClaim_slotsKept { s with faults := _ }
  · exact .refl s

theorem State.setLineState_slotsKept (new : LineState) (c : LineCause) : s.slotsKept (s.setLineState new c) := by
  have hcross : s.slotsKept ((s.withLineState new c).crossAll (Eight.ofFn s.inSet)) :=
    .of_claims (State.crossAll_keeps (s.withLineState new c) (Eight.ofFn s.inSet) .claims (by decide))
  rw [State.setLineState_eq]
  split
  · exact hcross.trans (State.settlePending_slotsKept _)
  · exact hcross

theorem State.reduceLine_slotsKept (id : FaultId) (before : EntryState) : s.slotsKept (s.reduceLine id before) := by
  unfold State.reduceLine
  split
  · simp only
    split
    · exact State.writeFaultClaim_slotsKept (s.setEntry id _)
    · exact .refl s
  · exact .refl s
  · exact .refl s

theorem State.applyLine_slotsKept (id : FaultId) (before : EntryState) (a : Action) :
    s.slotsKept (s.applyLine (fun t => t) id before a) := by
  cases a with
  | hold =>
    change s.slotsKept s.holdLine
    rw [State.holdLine_eq]
    split
    · exact s.setLineState_slotsKept .hold .fault
    · exact .refl s
  | reduce => exact s.reduceLine_slotsKept id before
  | note | remove | trip => exact .refl s

theorem State.onsetWith_slotsKept (id : FaultId) (detail : Option Detail) :
    s.slotsKept (s.onsetWith (fun t => t) id detail) := by
  rw [State.onsetWith_eq]
  split
  · exact .refl s
  · rw [State.onsetSteps_eq, State.respond_eq]
    refine .trans (.of_keeps (s.beforeResponse_keeps id (s.entry id).state detail (s.stepOne id detail)) (by decide))
      (.trans ?_ (.of_keeps (State.noteOnset_keeps _ id _ detail) (by decide)))
    split
    · exact .refl _
    · exact .trans (.of_keeps (State.applyRemove_keeps _ _ _) (by decide)) (State.applyLine_slotsKept _ _ _ _)

end Responses

theorem State.conditionChange_slotsKept {s : State} {id : FaultId} (before after : Bool) (detail : Option Detail)
    (h : s.allowedAt id) (hk : id.kind.allows .trip = false) : s.slotsKept (s.conditionChange id before after detail) := by
  unfold State.conditionChange
  split
  · rw [State.onset_eq_tame detail h hk]
    exact s.onsetWith_slotsKept id detail
  · exact .of_keeps (s.departure_keeps id) (by decide)
  · exact .refl s
  · exact .refl s

/-! ### The steps of an expiry after its target step -/

section Expiry

variable (s : State)

theorem State.ownStep_slotsKept : s.slotsKept s.ownStep.1 := by
  have hset : ∀ i : Nat, s.slotsKept (s.setICmd i) := fun i => .of_claims rfl
  unfold State.ownStep
  split
  · exact hset _
  · rw [State.startRise_eq]
    split
    · exact (hset _).trans (State.setLineState_slotsKept _ _ _)
    · exact hset _
  · change s.slotsKept s.stopDescent
    unfold State.stopDescent
    dsimp only
    split
    · exact .of_keeps (s.enterBlocked_keeps_stopped (c := .ramp) rfl) (by decide)
    · exact hset _
  all_goals exact .of_claims rfl

variable {s}

/-- What the CAPACITY_SHORT event leaves of the claims and of the other entries. -/
theorem State.capacityEvent_units (h : s.allowedAt (.line .capacityShort)) : s.slotsKept s.capacityEvent ∧
    ∀ j : FaultId, j ≠ .line .capacityShort → (s.entry j).sameButReduce (s.capacityEvent.entry j) := by
  generalize hshort : decide (s.line.record.total < s.line.record.iCmd) = short
  have hevent : s.capacityEvent = ({ s with line := { s.line with capacityShort := short } } : State).conditionChange
      (.line .capacityShort) s.line.capacityShort short (some (.capacity s.line.record.shortfall)) := hshort ▸ rfl
  generalize hu : ({ s with line := { s.line with capacityShort := short } } : State) = u at hevent
  have hallowed : u.allowedAt (.line .capacityShort) := hu ▸ h
  rw [hevent]
  refine ⟨.trans (.of_claims (hu ▸ rfl)) (State.conditionChange_slotsKept _ _ _ hallowed rfl), fun j hj => ?_⟩
  have hentry := State.conditionChange_entry_ne s.line.capacityShort short (some (.capacity s.line.record.shortfall)) hj
    (.inr ⟨hallowed, rfl⟩)
  rwa [show u.entry j = s.entry j from hu ▸ rfl] at hentry

theorem State.runAllocation_slotsKept (l : LineState) (h : s.allowedAt (.line .capacityShort)) :
    s.slotsKept (s.runAllocation l) := by
  rw [State.runAllocation_eq]
  refine .trans (.of_keeps (s.ordered_keeps l) (by decide)) ?_
  exact (State.capacityEvent_units (State.ordered_allowedAt l h)).1

theorem State.finishExpiry_slotsKept (h : s.allowedAt (.line .capacityShort)) (sent : Bool) :
    s.slotsKept (s.finishExpiry sent) := by
  unfold State.finishExpiry
  split
  iterate 4 exact State.runAllocation_slotsKept _ h
  · split
    · exact .of_keeps s.capacityDeparture_keeps (by decide)
    · exact .of_keeps s.sendBlocked_keeps (by decide)
  · exact .of_keeps s.sendBlocked_keeps (by decide)
  · exact .refl s
  · exact .refl s

theorem State.finishExpiry_entry (h : s.allowedAt (.line .capacityShort)) (sent : Bool) {j : FaultId}
    (hj : j ≠ .line .capacityShort) : (s.entry j).sameButReduce ((s.finishExpiry sent).entry j) := by
  have hrun : ∀ l : LineState, (s.entry j).sameButReduce ((s.runAllocation l).entry j) := fun l => by
    rw [← (s.ordered_keeps l).entry (by decide) j]
    exact (State.capacityEvent_units (State.ordered_allowedAt l h)).2 j hj
  have hblocked : (s.entry j).sameButReduce (s.sendBlocked.entry j) :=
    Entry.sameButReduce_of_eq (s.sendBlocked_keeps.entry (by decide) j)
  unfold State.finishExpiry
  split
  iterate 4 exact hrun _
  · split
    · exact Entry.sameButReduce_of_eq (s.capacityDeparture_entry_ne hj)
    · exact hblocked
  · exact hblocked
  · exact Entry.sameButReduce_refl _
  · exact Entry.sameButReduce_refl _

theorem State.capacityEvent_keeps (s : State) : s.keepsAllBut s.capacityEvent responseParts := by
  generalize hl : ({ s.line with capacityShort := decide (s.line.record.total < s.line.record.iCmd) } : Line) = l
  have hevent : s.capacityEvent = ({ s with line := l } : State).conditionChange (.line .capacityShort)
      s.line.capacityShort l.capacityShort (some (.capacity s.line.record.shortfall)) := hl ▸ rfl
  rw [hevent]
  refine State.keepsAllBut_trans (t := { s with line := l }) ?_ (State.conditionChange_keeps _ _ _ _ _)
  intro p hp
  cases p <;> first | rfl | exact absurd (by simp [responseParts]) hp

theorem State.ownStep_keeps (s : State) : s.keepsAllBut s.ownStep.1 responseParts := by
  by_cases h : s.line.state = some .stopping ∧ s.line.iCmd ≤ s.config.stopRate
  · rw [State.ownStep_stopped h.1 h.2]
    exact State.keepsAllBut_mono (s.enterBlocked_keeps_stopped (c := .ramp) rfl) (by decide)
  · have hstep : s.lineStep s.ownStep.1 := State.ownStep_lineStep fun hs => by by_contra hn; exact h ⟨hs, by omega⟩
    exact State.keepsAllBut_mono hstep.keeps (by decide)

theorem State.finishExpiry_keeps (s : State) (sent : Bool) : s.keepsAllBut (s.finishExpiry sent) responseParts := by
  have hrun : ∀ l : LineState, s.keepsAllBut (s.runAllocation l) responseParts := fun l =>
    State.keepsAllBut_trans (State.keepsAllBut_mono (s.ordered_keeps l) (by decide)) (State.capacityEvent_keeps _)
  have hblocked : s.keepsAllBut s.sendBlocked responseParts := State.keepsAllBut_mono s.sendBlocked_keeps (by decide)
  unfold State.finishExpiry
  split
  iterate 4 exact hrun _
  · split
    · exact State.keepsAllBut_mono s.capacityDeparture_keeps (by decide)
    · exact hblocked
  · exact hblocked
  · exact s.keepsAllBut_refl _
  · exact s.keepsAllBut_refl _

end Expiry

end Sys2Proof.Machine
end

