-- ==== Sys2Proof/Proofs/Headroom.lean ====
section
/-! The headroom step and its event (R119 to R121). -/

namespace Sys2Proof.Machine

/-! ### The headroom step (R120) -/

section Step

variable {s : State}

theorem State.headroomStep_below (h : s.busVoltage ≤ s.config.headroom.withdrawal) :
    s.headroomStep = if s.claims.headroom.active then s.withdrawClaim .headroom else s := by
  simp only [State.headroomStep, h, if_true]

theorem State.headroomStep_between (h : s.config.headroom.withdrawal < s.busVoltage)
    (hlimit : s.busVoltage < s.config.headroom.limit) : s.headroomStep = s := by
  simp only [State.headroomStep, Nat.not_le.mpr h, Nat.not_le.mpr hlimit, if_false]

theorem State.headroomStep_above (h : s.config.headroom.withdrawal < s.busVoltage)
    (hlimit : s.config.headroom.limit ≤ s.busVoltage) : s.headroomStep = s.writeClaim .headroom
      ((if s.claims.headroom.active then s.claims.headroom.value else s.line.iCmd) - s.config.headroom.step) := by
  simp only [State.headroomStep, Nat.not_le.mpr h, hlimit, if_true, if_false]
  split <;> rfl

/-- The step leaves the slot as it is, withdraws it or writes it. -/
theorem State.headroomStep_cases (s : State) : s.headroomStep = s ∨
    (s.claims.headroom.active = true ∧ s.headroomStep = s.withdrawClaim .headroom) ∨
    ∃ v : Nat, s.headroomStep = s.writeClaim .headroom v := by
  rcases Nat.lt_or_ge s.config.headroom.withdrawal s.busVoltage with hw | hw
  · rcases Nat.lt_or_ge s.busVoltage s.config.headroom.limit with hl | hl
    · exact .inl (State.headroomStep_between hw hl)
    · exact .inr (.inr ⟨_, State.headroomStep_above hw hl⟩)
  · rw [State.headroomStep_below hw]
    split
    · next ha => exact .inr (.inl ⟨ha, rfl⟩)
    · exact .inl rfl

theorem State.headroomStep_slotsBeside (s : State) {k : ClaimSlot} (hk : k ≠ .headroom) :
    s.headroomStep.claims.get k = s.claims.get k := by
  rcases s.headroomStep_cases with h | ⟨-, h⟩ | ⟨v, h⟩ <;> rw [h]
  · exact s.claims.get_set_ne hk _
  · exact s.claims.get_set_ne hk _

/-- The time of change moves only with the flag or the value (R27). -/
theorem State.headroomStep_changed (s : State)
    (hactive : s.headroomStep.claims.headroom.active = s.claims.headroom.active)
    (hvalue : s.headroomStep.claims.headroom.value = s.claims.headroom.value) :
    s.headroomStep.claims.headroom.changed = s.claims.headroom.changed := by
  rcases s.headroomStep_cases with h | ⟨ha, h⟩ | ⟨v, h⟩ <;> rw [h] at hactive hvalue ⊢
  · exact absurd (hactive.trans ha) Bool.false_ne_true
  · exact if_pos ⟨hactive.symm, hvalue.symm⟩

end Step

/-! ### The headroom step within an expiry (R121) -/

section Event

variable {s : State}

/-- The slot that comes to the HEADROOM_LOW event is the one the headroom step has written. -/
theorem State.ownStep_headroom (s : State) :
    s.begin.aimed.ownStep.1.claims.headroom = s.expiryTable.headroom := by
  rw [← State.expiryTable_restartAlloc]
  exact State.ownStep_slotsKept s.begin.aimed .headroom (by decide)

theorem State.expiryVoltage_restartAlloc (s : State) :
    s.begin.restartAlloc.expiryStart.busVoltage = s.expiryVoltage := by
  refine State.busVoltage_congr (s := s.expiryStart) (fun g => ?_) fun g => ?_
  · rw [State.expiryStart_inSet, State.expiryStart_inSet]
    rfl
  · rw [State.expiryStart_group, State.expiryStart_group]
    rfl

theorem State.headroomEvent_ae (s : State) (u : Nat) :
    (s.headroomEvent u).ae = { s.ae with headroom := s.claims.headroom.active } :=
  State.conditionChange_keeps { s with ae := { s.ae with headroom := s.claims.headroom.active } } _ _ _ _ .ae (by decide)

theorem State.headroomEvent_slotsKept {u : Nat} (h : s.allowedAt (.line .headroomLow)) :
    s.slotsKept (s.headroomEvent u) :=
  State.conditionChange_slotsKept (s := { s with ae := { s.ae with headroom := s.claims.headroom.active } }) _ _ _ h rfl

theorem State.headroomEvent_handed (s : State) (u : Nat) :
    s.handed (s.headroomEvent u) (.line .headroomLow) s.ae.headroom s.claims.headroom.active
      (some (.headroom u s.config.headroom.limit)) :=
  State.conditionChange_handed (s := { s with ae := { s.ae with headroom := s.claims.headroom.active } }) _ _ _
    (.inl (FaultId.not_tripped_line (by decide)))

theorem State.allocationExpiry_ae :
    s.begin.allocationExpiry.ae = { s.ae with headroom := s.expiryTable.headroom.active } := by
  rw [← State.ownStep_headroom, State.allocationExpiry_stepped, State.finishExpiry_keeps _ _ .ae (by decide), State.stepped,
    State.headroomEvent_ae, State.ownStep_keeps _ .ae (by decide), s.begin.aimed_keeps .ae (by decide)]
  rfl

variable (hresp : s.responsesAllowed)
include hresp

theorem State.allocationExpiry_headroom :
    s.begin.allocationExpiry.claims.headroom = s.expiryTable.headroom := by
  rw [← State.ownStep_headroom, State.allocationExpiry_stepped]
  have hevent : s.begin.aimed.ownStep.1.slotsKept s.begin.stepped :=
    State.headroomEvent_slotsKept (State.ownStep_allowedAt (State.responsesAllowed.at (s := s.begin) hresp _))
  exact (hevent.trans (State.finishExpiry_slotsKept (State.stepped_allowedAt (s := s.begin) hresp) _)) .headroom (by decide)

theorem State.allocationExpiry_handsHeadroom :
    s.handed s.begin.allocationExpiry (.line .headroomLow) s.ae.headroom s.expiryTable.headroom.active
      (some (.headroom s.expiryVoltage (s.config.headroom.uMax - s.config.headroom.margin))) := by
  generalize hu : s.begin.aimed.ownStep.1 = u
  have hkeeps : s.begin.keepsAllBut u responseParts := hu ▸ State.keepsAllBut_trans
    (State.keepsAllBut_mono s.begin.aimed_keeps (by decide)) (State.ownStep_keeps _)
  have hentry : (s.entry (.line .headroomLow)).sameButReduce (u.entry (.line .headroomLow)) := by
    have h := s.begin.aimed.ownStep_faults.2 (.line .headroomLow)
    rwa [State.aimed_entry, hu] at h
  have hevent := u.headroomEvent_handed s.expiryVoltage
  rw [← hu, State.ownStep_headroom, hu, hkeeps .ae (by decide), hkeeps .config (by decide)] at hevent
  refine hevent.within (hkeeps .timeBase (by decide)) hentry ?_
  rw [State.allocationExpiry_stepped, ← hu, ← State.expiryVoltage_restartAlloc]
  exact State.finishExpiry_entry (State.stepped_allowedAt (s := s.begin) hresp) _ (by decide)

end Event

/-- Settles O31: the slot of the target step comes to the end of the expiry, and the step's table is its three cases. -/
theorem headroomStepWritesItsSlot : Obligations.HeadroomStepWritesItsSlot := by
  refine ⟨fun s d hresp ht => ⟨_, execAllocationTimerExpiry_eq ht, State.allocationExpiry_headroom hresp,
    State.allocationExpiry_ae, State.allocationExpiry_handsHeadroom hresp⟩, fun s => ⟨fun hle => ?_, fun hw hl => ?_,
    fun hw hl hi hv => ?_, s.headroomStep_changed, fun k hk => s.headroomStep_slotsBeside hk, s.headroomStep_keeps⟩⟩
  · rw [State.headroomStep_below hle]
    split
    · exact ⟨rfl, rfl⟩
    · next ha => exact ⟨by simpa using ha, rfl⟩
  · rw [State.headroomStep_between hw hl]
  · rw [State.headroomStep_above hw hl]
    refine ⟨rfl, Nat.min_eq_left ((Nat.sub_le _ _).trans ?_)⟩
    split
    · exact hv
    · exact hi

end Sys2Proof.Machine
end

