-- ==== Sys2Proof/Proofs/Clock.lean ====
section
/-! The passing of a millisecond, the distance to an interval boundary, and SET_CLOCK (R124, R125, R129). -/

namespace Sys2Proof.Machine

/-! ### One millisecond (R124) -/

/-- A millisecond within the day moves the time of day, and the last one of the day moves the day within the week. -/
theorem Calendar.advance_eq {c : Calendar} (hday : c.day ≤ 6) (htod : c.tod < 86400000) :
    c.advance = if c.tod = 86399999 then ⟨(c.day + 1) % 7, 0⟩ else ⟨c.day, c.tod + 1⟩ := by
  by_cases hend : c.tod = 86399999
  · have hwrap : (if 6 ≤ c.day then 0 else c.day + 1) = (c.day + 1) % 7 := by
      split <;> omega
    rw [Calendar.advance, if_pos (by rw [hend]; decide), if_pos hend, hwrap]
  · have hwithin : ¬ dayLength ≤ c.tod + 1 := by
      unfold dayLength
      omega
    rw [Calendar.advance, if_neg hwithin, if_neg hend]

theorem step_empty {s : State} (h : s.pending = []) : step s = .next s.tick := by
  unfold step
  simp only [h]

/-- The state one millisecond later while the time base is below its end. -/
theorem State.tick_eq {s : State} (h : s.timeBase < 2 ^ 40 - 1) : s.tick = { s with
    out := [], timeBase := s.timeBase + 1
    metering := { s.metering with calendar := s.metering.calendar.map Calendar.advance } } := by
  have hbelow : ¬ timeLimit ≤ s.timeBase := Nat.not_le.mpr h
  rw [State.tick, if_neg hbelow]
  cases s.metering.calendar <;> rfl

theorem State.tick_keeps (s : State) : s.keepsAllBut s.tick [.timeBase, .metering, .out] := by
  unfold State.tick
  intro p hp
  split <;> (cases p <;> first | rfl | exact absurd (by simp) hp)

/-- Settles O2: on an empty queue a step is one millisecond, with the calendar absent or one millisecond later. -/
theorem emptyQueuePassesOneMillisecond : Obligations.EmptyQueuePassesOneMillisecond := by
  intro s hpending htime
  have htick := State.tick_eq htime
  refine ⟨s.tick, step_empty hpending, by rw [htick], by rw [htick], fun hnone => ?_, fun c hc hday htod => ?_,
    s.tick_keeps⟩
  · rw [htick, hnone, Option.map_none, ← hnone]
  · rw [htick, hc, Option.map_some, Calendar.advance_eq hday htod]

/-! ### The distance to a boundary (R129) -/

/-- The boundary is a whole multiple of the length, lies more than 2,000 ms after the position, and is the first that does. -/
theorem boundaryDistance_spec (tod : Nat) {minutes : Nat} (h : 0 < minutes) :
    2000 < boundaryDistance tod minutes ∧ boundaryDistance tod minutes ≤ 2000 + minutes * 60000 ∧
      (tod + boundaryDistance tod minutes) % (minutes * 60000) = 0 := by
  generalize hl : minutes * 60000 = l
  have hpos : 0 < l := by omega
  have hdistance : boundaryDistance tod minutes = ((tod + 2000) / l + 1) * l - tod := by rw [← hl]; rfl
  have hsplit : l * ((tod + 2000) / l) + (tod + 2000) % l = tod + 2000 := Nat.div_add_mod _ _
  have hrest : (tod + 2000) % l < l := Nat.mod_lt _ hpos
  have hnext : ((tod + 2000) / l + 1) * l = l * ((tod + 2000) / l) + l := by rw [Nat.mul_comm, Nat.mul_add_one]
  rw [hdistance]
  refine ⟨by omega, by omega, ?_⟩
  rw [Nat.add_sub_cancel' (by omega), Nat.mul_mod_left]

theorem deriveDeadline_invalid (now minutes : Nat) :
    deriveDeadline now none minutes = min (2 ^ 40 - 1) (now + minutes * 60000) := rfl

theorem deriveDeadline_valid (now : Nat) (c : Calendar) (minutes : Nat) :
    deriveDeadline now (some c) minutes = min (2 ^ 40 - 1) (now + boundaryDistance c.tod minutes) := rfl

/-! ### SET_CLOCK (R125) -/

/-- The interval in progress changed. -/
theorem State.modInterval_some {s : State} {i : Interval} (h : s.metering.interval = some i) (f : Interval → Interval) :
    s.modInterval f = { s with metering := { s.metering with interval := some (f i) } } := by
  unfold State.modInterval
  rw [h]

theorem setClock_outOfRange {day tod : Nat} (h : 6 < day ∨ 86399999 < tod) (s : State) :
    setClock day tod s = refuse s .outOfRange := if_pos h

/-- An accepted position is taken by the calendar and gives the interval its deadline. -/
theorem setClock_taken {day tod : Nat} (hday : day ≤ 6) (htod : tod ≤ 86399999) {s : State} {i : Interval}
    (hi : s.metering.interval = some i) :
    setClock day tod s = answer { s with metering := { s.metering with
      calendar := some ⟨day, tod⟩
      interval := some { i with
        deadline := min (2 ^ 40 - 1) (s.timeBase + boundaryDistance tod i.length) } } } .ok := by
  have hwithin : ¬ (6 < day ∨ dayLength ≤ tod) := by
    unfold dayLength
    omega
  rw [setClock, if_neg hwithin]
  exact congrArg (answer · .ok) (State.modInterval_some
    (s := { s with metering := { s.metering with calendar := some ⟨day, tod⟩ } }) hi _)

/-- Settles O35: an impossible position is refused, and another is taken with the distance to its boundary. -/
theorem setClockMovesTheDeadlineToABoundary : Obligations.SetClockMovesTheDeadlineToABoundary := by
  intro rq day tod s
  have hexec : exec (.setClock rq day tod) s = .next (s.take rq .setClock (setClock day tod)) := rfl
  refine ⟨State.refusesOthers_of_permits hexec (by intro r; cases r <;> simp [requestPermits]), fun hr =>
    ⟨fun hout => ?_, fun i hday htod hi hlength => ?_⟩⟩
  · rw [hexec, State.take_answered (i := .setClock rq day tod) hr rfl rfl (setClock_outOfRange hout _)]
  · obtain ⟨habove, hwithin, hboundary⟩ := boundaryDistance_spec tod hlength
    refine ⟨boundaryDistance tod i.length, habove, hwithin, hboundary, ?_⟩
    rw [hexec, State.take_ready (i := .setClock rq day tod) hr rfl rfl
      (setClock_taken (s := s.answering rq.port) hday htod hi), ← State.respondOn_answering]
    rfl

end Sys2Proof.Machine
end

