-- ==== Sys2Proof/Proofs/Intervals.lean ====
section
/-! The close of an interval and the begin of the next (R129 to R133, R136, R140, R141, R185). -/

namespace Sys2Proof.Machine

/-! ### The governing window (R136) -/

theorem TariffWindow.covers_iff (w : TariffWindow) (c : Calendar) :
    (w.enabled && w.contains c.day c.slot) = true ↔ w.covers c := by
  rw [TariffWindow.contains, TariffWindow.covers, Bool.and_eq_true, Bool.and_eq_true]
  refine and_congr_right fun _ => and_congr_right fun _ => ?_
  change _ ↔ (w.start ≤ w.stop ∧ w.start ≤ c.slot ∧ c.slot ≤ w.stop) ∨
    (w.stop < w.start ∧ (w.start ≤ c.slot ∨ c.slot ≤ w.stop))
  split
  · rw [decide_eq_true_iff]
    omega
  · rw [decide_eq_true_iff]
    omega

/-- The first of the eight with a property is the lowest-numbered one with it. -/
theorem find?_allGroups {p : Fin 8 → Bool} {w : Fin 8} (h : allGroups.find? p = some w) :
    p w = true ∧ ∀ v : Fin 8, v.val < w.val → p v = false := by
  have hplace : ∀ k : Fin allGroups.length, (allGroups[k.val]).val = k.val := by decide
  obtain ⟨hw, n, hn, hat, hbefore⟩ := List.find?_eq_some_iff_getElem.mp h
  have hnw : n = w.val := (hplace ⟨n, hn⟩).symm.trans (congrArg Fin.val hat)
  refine ⟨hw, fun v hv => ?_⟩
  have hfalse := hbefore v.val (hnw ▸ hv)
  rw [Fin.ext (hplace v)] at hfalse
  simpa using hfalse

theorem governingWindow_some {windows : Eight TariffWindow} {calendar : Option Calendar} {w : Fin 8}
    (h : governingWindow windows calendar = some w) : ∃ k : Calendar, calendar = some k ∧ (windows.get w).covers k ∧
      ∀ v : Fin 8, v.val < w.val → ¬ (windows.get v).covers k := by
  cases calendar with
  | none => cases h
  | some k =>
    have hfirst : allGroups.find? (fun v => (windows.get v).enabled && (windows.get v).contains k.day k.slot) = some w :=
      h
    obtain ⟨hw, hbelow⟩ := find?_allGroups hfirst
    refine ⟨k, rfl, (TariffWindow.covers_iff _ k).mp hw, fun v hv hcovers => ?_⟩
    have hfalse := hbelow v hv
    rw [(TariffWindow.covers_iff _ k).mpr hcovers] at hfalse
    cases hfalse

theorem governingWindow_none {windows : Eight TariffWindow} {calendar : Option Calendar}
    (h : governingWindow windows calendar = none) (k : Calendar) (w : Fin 8) (hk : calendar = some k) :
    ¬ (windows.get w).covers k := by
  subst hk
  exact fun hcovers => List.find?_eq_none.mp h w (mem_allGroups w) ((TariffWindow.covers_iff _ k).mpr hcovers)

/-! ### The interval that begins (R131 step 4) -/

theorem State.newInterval_endsBy (s : State) (number : Nat) :
    (s.newInterval number).endsBy s.timeBase s.metering.calendar := by
  refine ⟨fun hnone => ?_, fun c hc hlength => ?_⟩
  · rw [← deriveDeadline_invalid, ← hnone]
    rfl
  · obtain ⟨habove, hwithin, hboundary⟩ := boundaryDistance_spec c.tod hlength
    refine ⟨_, habove, hwithin, hboundary, ?_⟩
    rw [← deriveDeadline_valid, ← hc]
    rfl

theorem State.newInterval_begins (s : State) (number : Nat) :
    (s.newInterval number).begins s.config s.timeBase s.metering.calendar := by
  refine ⟨rfl, rfl, rfl, rfl, rfl, rfl, rfl, rfl, rfl, rfl, rfl, rfl, s.newInterval_endsBy number, fun w hw => ?_,
    fun hnone => ?_⟩
  · have hgoverns : governingWindow s.config.windows s.metering.calendar = some w := hw
    refine ⟨?_, ?_, governingWindow_some hgoverns⟩ <;> simp only [State.newInterval, hgoverns]
  · have hgoverns : governingWindow s.config.windows s.metering.calendar = none := hnone
    refine ⟨?_, ?_, governingWindow_none hgoverns⟩ <;> simp only [State.newInterval, hgoverns]

theorem Curtailment.active_eq_nil (c : Curtailment) : c.active = [] ↔ ∀ o ∈ c.orders, o.state ≠ .active := by
  simp [Curtailment.active, List.filter_eq_nil_iff]

theorem State.newInterval_curtailed (s : State) (number : Nat) :
    (s.newInterval number).curtailed = true ↔ ∃ o ∈ s.curtail.orders, o.state = .active := by
  change (!s.curtail.active.isEmpty) = true ↔ _
  rw [Bool.not_eq_true', List.isEmpty_eq_false_iff, ne_eq, Curtailment.active_eq_nil]
  push Not
  rfl

/-- The next interval hangs on the time base, the configuration, the calendar and the orders alone. -/
theorem State.newInterval_congr {s t : State} (htime : t.timeBase = s.timeBase) (hconfig : t.config = s.config)
    (hcalendar : t.metering.calendar = s.metering.calendar) (hcurtail : t.curtail = s.curtail) (number : Nat) :
    t.newInterval number = s.newInterval number := by
  simp only [State.newInterval, htime, hconfig, hcalendar, hcurtail]

/-! ### The close (R131) -/

theorem Interval.record_closesAs (i : Interval) (now : Nat) (short unsynced : Bool) :
    i.closesAs (i.record now short unsynced) now :=
  ⟨rfl, rfl, rfl, rfl, rfl, rfl, rfl, rfl, rfl, rfl, rfl, rfl, rfl, rfl, rfl⟩

theorem State.meteringUnit_keeps (s : State) (m : Metering) : s.keepsAllBut { s with metering := m } [.metering] := by
  intro p hp
  cases p <;> first | rfl | exact absurd (by simp) hp

theorem State.shiftCursors_keeps (s : State) : s.keepsAllBut s.shiftCursors [.ports] := by
  intro p hp
  cases p <;> first | rfl | exact absurd (by simp) hp

theorem State.port_shiftCursors (s : State) (p : Port) :
    s.shiftCursors.port p = { s.port p with cursor := (s.port p).cursor.shift } := by
  simp only [State.shiftCursors, State.port, Four.get_ofFn]

theorem State.role_shiftCursors (s : State) (p : Port) : s.shiftCursors.role p = s.role p := by
  rw [State.role, State.port_shiftCursors]
  rfl

/-- Notices placed after the cursors have moved leave the ports as R185 has them. -/
theorem State.noticed.cursorsFollow {s t : State} (h : s.shiftCursors.noticed t) : s.cursorsFollow t := by
  intro p
  obtain ⟨more, lost, hport⟩ := h p
  refine ⟨(s.port p).queue ++ more, (s.port p).overrun || lost, ?_⟩
  rw [hport, State.port_shiftCursors, Cursor.shift_eq]

section Exceedance

variable (s : State)

/-- The end of the exceedance hands DEMAND_EXCEEDED as a condition that is absent afterwards. -/
theorem State.endExceedance_eq : s.endExceedance =
    ({ s with metering := { s.metering with exceedance := false } } : State).conditionChange (.line .demandExceeded)
      s.metering.exceedance false none := by
  unfold State.endExceedance State.conditionChange
  cases h : s.metering.exceedance
  · exact (if_neg (by simp)).trans (congrArg (fun b => { s with metering := { s.metering with exceedance := b } }) h)
  · exact if_pos rfl

theorem State.endExceedance_handed :
    s.handed s.endExceedance (.line .demandExceeded) s.metering.exceedance false none := by
  rw [State.endExceedance_eq]
  exact State.conditionChange_handed (s := { s with metering := { s.metering with exceedance := false } }) _ _ _
    (.inl (FaultId.not_tripped_line (by decide)))

theorem State.endExceedance_noticed : s.noticed s.endExceedance := by
  rw [State.endExceedance_eq]
  exact State.noticed_trans (State.noticed_of_ports rfl) (State.conditionChange_noticed _ _ _ _ _)

theorem State.endExceedance_metering : s.endExceedance.metering = { s.metering with exceedance := false } := by
  rw [State.endExceedance_eq]
  exact State.conditionChange_keeps _ _ _ _ _ .metering (by decide)

theorem State.endExceedance_keeps : s.keepsAllBut s.endExceedance [.metering, .faults, .ports] := by
  unfold State.endExceedance
  split
  · exact State.keepsAllBut_trans (State.keepsAllBut_mono (s.meteringUnit_keeps _) (by decide))
      (State.keepsAllBut_mono (State.departure_keeps _ _) (by decide))
  · exact s.keepsAllBut_refl _

end Exceedance

section Close

variable (s : State) (i : Interval) (short unsynced : Bool)

/-- The state in which the record has entered the ring and the cursors have moved (R131 steps 1 and 2). -/
def State.ringEntered : State :=
  ({ s with metering := { s.metering with
    ring := enterRing s.metering.ring (i.record s.timeBase short unsynced) } }).shiftCursors

/-- What a close leaves, its notices aside: the metering unit with the record in the ring and the next interval begun, the
exceedance departed, and the cursors moved. -/
structure State.closed (t : State) : Prop where
  metering : t.metering = { s.metering with
    ring := (i.record s.timeBase short unsynced :: s.metering.ring).take 96
    interval := some (s.newInterval (min 4294967295 (i.number + 1))), exceedance := false }
  handed : s.handed t (.line .demandExceeded) s.metering.exceedance false none
  shifted : s.shiftCursors.noticed t
  keeps : s.keepsAllBut t [.metering, .faults, .ports]

theorem State.ringEntered_keeps : s.keepsAllBut (s.ringEntered i short unsynced) [.metering, .ports] :=
  State.keepsAllBut_trans (State.keepsAllBut_mono (s.meteringUnit_keeps _) (by decide))
    (State.keepsAllBut_mono (State.shiftCursors_keeps _) (by decide))

theorem State.closeInterval_closed : s.closed i short unsynced (s.closeInterval i short unsynced) := by
  generalize hu : s.ringEntered i short unsynced = u
  have hkeeps : s.keepsAllBut u [.metering, .ports] := hu ▸ s.ringEntered_keeps i short unsynced
  have hring : u.metering = { s.metering with
      ring := (i.record s.timeBase short unsynced :: s.metering.ring).take 96 } := hu ▸ rfl
  have hshifted : s.shiftCursors.noticed u := State.noticed_of_ports (hu ▸ rfl)
  have hclose : s.closeInterval i short unsynced = { u.endExceedance with metering := { u.endExceedance.metering with
      interval := some (u.endExceedance.newInterval (min 4294967295 (i.number + 1))) } } := hu ▸ rfl
  have hend : s.keepsAllBut u.endExceedance [.metering, .faults, .ports] :=
    State.keepsAllBut_trans (State.keepsAllBut_mono hkeeps (by decide)) u.endExceedance_keeps
  have hmetering := u.endExceedance_metering
  have hnew : ∀ n : Nat, u.endExceedance.newInterval n = s.newInterval n :=
    State.newInterval_congr (hend .timeBase (by decide)) (hend .config (by decide)) (by rw [hmetering, hring])
      (hend .curtail (by decide))
  rw [hclose]
  refine ⟨by rw [hnew, hmetering, hring], ?_, State.noticed_trans hshifted (State.noticed_trans u.endExceedance_noticed
    (State.noticed_of_ports rfl)), State.keepsAllBut_trans hend (State.keepsAllBut_mono (State.meteringUnit_keeps _ _)
    (by decide))⟩
  have hhanded := u.endExceedance_handed
  rw [hring] at hhanded
  exact hhanded.within (hkeeps .timeBase (by decide)) (Entry.sameButReduce_of_eq (hkeeps.entry (by decide) _))
    (Entry.sameButReduce_refl _)

end Close

/-! ### The notice of a close, and the sync window (R130, R132, R133) -/

theorem State.noteClosed_eq {s : State} {h : History} {rest : List History} (hring : s.metering.ring = h :: rest) :
    s.noteClosed = s.notify (.intervalClosed h 0) := by
  unfold State.noteClosed
  rw [hring]

theorem State.clearUnsynced_eq {s : State} {h : History} {rest : List History} (hring : s.metering.ring = h :: rest) :
    s.clearUnsynced = { s with metering := { s.metering with ring := { h with unsynced := false } :: rest } } := by
  unfold State.clearUnsynced
  rw [hring]

section Closed

variable {s t : State} {i : Interval} {short unsynced : Bool} (h : s.closed i short unsynced t)
include h

theorem State.closed.role (p : Port) : t.role p = s.role p := (h.shifted.role p).trans (s.role_shiftCursors p)

/-- The notice of a close is heard, and nothing else of the close moves with it. -/
theorem State.closed.noted : s.closed i short unsynced t.noteClosed ∧
    s.hears t.noteClosed (.intervalClosed (i.record s.timeBase short unsynced) 0) := by
  have hnote := State.noteClosed_eq (s := t) (h := i.record s.timeBase short unsynced) (by rw [h.metering]; rfl)
  rw [hnote]
  exact ⟨⟨h.metering, h.handed, State.noticed_trans h.shifted (State.notify_noticed _ _),
    State.keepsAllBut_trans h.keeps (State.keepsAllBut_mono (State.notify_keeps _ _) (by decide))⟩,
    (State.hears_notify _ _).since (h.keeps .timeBase (by decide)) h.role⟩

/-- A close with the sync window opened after it, as the command that closes leaves it. -/
theorem State.closed.opened (r : State) (hr : r.begin = s) (kind : SyncKind) :
    (t.openSync kind).metering = { r.metering with
      ring := (i.record r.timeBase short unsynced :: r.metering.ring).take 96
      interval := some (r.newInterval (min 4294967295 (i.number + 1))), exceedance := false
      sync := some ⟨kind, r.timeBase + 2000⟩ } ∧
    r.handed (t.openSync kind) (.line .demandExceeded) r.metering.exceedance false none ∧
    r.cursorsFollow (t.openSync kind) ∧ (t.openSync kind).out = [] ∧
    r.keepsAllBut (t.openSync kind) [.metering, .faults, .ports, .out] := by
  subst hr
  have hopened : t.keepsAllBut (t.openSync kind) [.metering] := t.meteringUnit_keeps _
  have htime : t.timeBase = r.timeBase := h.keeps .timeBase (by decide)
  refine ⟨?_, h.handed, h.shifted.cursorsFollow, h.keeps .out (by decide), ?_⟩
  · rw [State.openSync, h.metering, htime]
    rfl
  · exact State.keepsAllBut_mono (State.keepsAllBut_trans h.keeps (State.keepsAllBut_mono hopened
      (by decide))).since_begin (by decide)

end Closed

/-! ### The commands (R130 to R133) -/

section Commands

variable {s : State}

theorem execIntervalDeadlineExpiry_eq {i : Interval} (h : s.metering.interval = some i) :
    exec .intervalDeadlineExpiry s = .next ((s.begin.closeInterval i false true).openSync .afterTimer) := by
  change execIntervalDeadlineExpiry s = _
  unfold execIntervalDeadlineExpiry
  simp only [State.begin_metering, h]

theorem execSyncPulse_closes {i : Interval} (hsync : s.metering.sync = none) (h : s.metering.interval = some i) :
    exec .syncPulse s = .next (s.begin.pulseClose i) := by
  change execSyncPulse s = _
  unfold execSyncPulse
  simp only [State.begin_metering, hsync, h]

theorem execSyncPulse_repeats {w : SyncWindow} (h : s.metering.sync = some w) (hw : w.kind = .afterPulse) :
    exec .syncPulse s = .next { s with
      out := [], metering := { s.metering with repeated := min 65535 (s.metering.repeated + 1) } } := by
  change execSyncPulse s = _
  unfold execSyncPulse
  simp only [State.begin_metering, h, hw]
  rfl

theorem execSyncPulse_synchronises {w : SyncWindow} (h : s.metering.sync = some w) (hw : w.kind = .afterTimer) :
    exec .syncPulse s = .next s.begin.clearUnsynced.closeSync.noteClosed := by
  change execSyncPulse s = _
  unfold execSyncPulse
  simp only [State.begin_metering, h, hw]

theorem execSyncWindowExpiry_afterPulse {w : SyncWindow} (h : s.metering.sync = some w) (hw : w.kind = .afterPulse) :
    exec .syncWindowExpiry s = .next { s with out := [], metering := { s.metering with sync := none } } := by
  change execSyncWindowExpiry s = _
  unfold execSyncWindowExpiry
  simp only [State.begin_metering, h, hw]
  rfl

theorem execSyncWindowExpiry_afterTimer {w : SyncWindow} (h : s.metering.sync = some w) (hw : w.kind = .afterTimer) :
    exec .syncWindowExpiry s = .next s.begin.closeSync.noteClosed := by
  change execSyncWindowExpiry s = _
  unfold execSyncWindowExpiry
  simp only [State.begin_metering, h, hw]

/-- The notice of the newest record, placed in a state that differs from the command's start in the metering unit. -/
theorem State.noteClosed_spec {u : State} {h : History} {rest : List History}
    (hkeeps : s.begin.keepsAllBut u [.metering]) (hring : u.metering.ring = h :: rest) :
    u.noteClosed.metering = u.metering ∧ s.hears u.noteClosed (.intervalClosed h 0) ∧ s.portsQuiet u.noteClosed ∧
      s.keepsAllBut u.noteClosed [.metering, .ports, .out] := by
  rw [State.noteClosed_eq hring]
  have hports : s.noticed u := State.noticed_of_ports (hkeeps .ports (by decide))
  refine ⟨rfl, (State.hears_notify _ _).since (hkeeps .timeBase (by decide)) hports.role,
    (State.noticed_trans hports (State.notify_noticed _ _)).quiet, ?_⟩
  exact State.keepsAllBut_mono (State.keepsAllBut_trans (State.keepsAllBut_mono hkeeps (by decide))
    (State.keepsAllBut_mono (l := [.ports]) (m := [.metering, .ports]) (State.notify_keeps _ _)
      (by decide))).since_begin (by decide)

end Commands

/-- Settles O34: each command is a close with its window, a count, or the notice of the newest record. -/
theorem pulsesAndDeadlinesCloseIntervals : Obligations.PulsesAndDeadlinesCloseIntervals := by
  refine ⟨fun s i hi => ?_, fun s i hi hsync => ?_, fun s w hw hkind => ⟨execSyncPulse_repeats hw hkind,
    execSyncWindowExpiry_afterPulse hw hkind⟩, fun s w h rest hw hkind hring => ⟨⟨_,
      execSyncPulse_synchronises hw hkind, ?_⟩, ⟨_, execSyncWindowExpiry_afterTimer hw hkind, ?_⟩⟩⟩
  · have hclosed := s.begin.closeInterval_closed i false true
    obtain ⟨hmetering, hhanded, hcursors, hout, hkeeps⟩ := hclosed.opened s rfl .afterTimer
    exact ⟨_, s.newInterval (min 4294967295 (i.number + 1)), i.record s.timeBase false true,
      execIntervalDeadlineExpiry_eq hi, i.record_closesAs _ _ _, rfl, rfl, rfl, s.newInterval_begins _,
      s.newInterval_curtailed _, hmetering, hhanded, hcursors, hout, hkeeps⟩
  · obtain ⟨hclosed, hheard⟩ :=
      (s.begin.closeInterval_closed i (decide (s.timeBase + syncTime < i.deadline)) false).noted
    obtain ⟨hmetering, hhanded, hcursors, hout, hkeeps⟩ := hclosed.opened s rfl .afterPulse
    exact ⟨_, s.newInterval (min 4294967295 (i.number + 1)), i.record s.timeBase _ false,
      execSyncPulse_closes hsync hi, i.record_closesAs _ _ _, rfl, rfl, rfl, s.newInterval_begins _,
      s.newInterval_curtailed _, hmetering, hheard, hhanded, hcursors, hout, hkeeps⟩
  · have hclear := State.clearUnsynced_eq (s := s.begin) hring
    obtain ⟨hmetering, hheard, hquiet, hkeeps⟩ := State.noteClosed_spec (s := s) (u := s.begin.clearUnsynced.closeSync)
      (h := { h with unsynced := false }) (rest := rest) (by rw [hclear]; exact s.begin.meteringUnit_keeps _)
      (by rw [hclear]; rfl)
    exact ⟨by rw [hmetering, hclear]; rfl, hheard, hquiet, hkeeps⟩
  · obtain ⟨hmetering, hheard, hquiet, hkeeps⟩ := State.noteClosed_spec (s := s) (u := s.begin.closeSync)
      (s.begin.meteringUnit_keeps _) hring
    exact ⟨hmetering, hheard, hquiet, hkeeps⟩

end Sys2Proof.Machine
end

