-- ==== Sys2Proof/Proofs/HandedConditions.lean ====
section
/-! What the hand-over of a condition leaves whatever the response of its entry: every claim slot but FAULT, and the other entries
but for their reduce values (R27, R159, R160, R163 to R166). -/

namespace Sys2Proof.Machine

/-! ### The claims (R27, R164) -/

section Slots

variable (s : State)

theorem State.onsetWith_slotsKept_of {trip : State → State} (ht : ∀ u : State, u.slotsKept (trip u)) (id : FaultId)
    (detail : Option Detail) : s.slotsKept (s.onsetWith trip id detail) := by
  have hline : ∀ (u : State) (before : EntryState) (a : Action), u.slotsKept (u.applyLine trip id before a) := by
    intro u before a
    cases a with
    | trip => exact ht u
    | note => exact u.applyLine_slotsKept id before .note
    | hold => exact u.applyLine_slotsKept id before .hold
    | reduce => exact u.applyLine_slotsKept id before .reduce
    | remove => exact u.applyLine_slotsKept id before .remove
  rw [State.onsetWith_eq]
  split
  · exact .refl s
  · rw [State.onsetSteps_eq, State.respond_eq]
    refine .trans (.of_keeps (s.beforeResponse_keeps id (s.entry id).state detail (s.stepOne id detail)) (by decide))
      (.trans ?_ (.of_keeps (State.noteOnset_keeps _ id _ detail) (by decide)))
    split
    · exact .refl _
    · exact .trans (.of_keeps (State.applyRemove_keeps _ _ _) (by decide)) (hline _ _ _)

theorem State.enterTripped_slotsKept : s.slotsKept s.enterTripped :=
  .trans (.of_keeps (s.enterBlocked_keeps_stopped (c := .fault) rfl) (by decide))
    (.of_keeps (State.capacityDeparture_keeps _) (by decide))

theorem State.classifyGroup_slotsKept (g : Group) : s.slotsKept (s.classifyGroup g) := by
  have hremoved : s.slotsKept ((s.setService g .removed .adoption).modCool g fun c => { c with adoptionSource := true }) :=
    .trans (.of_keeps (s.setService_keeps g .removed .adoption) (by decide)) (.of_claims rfl)
  unfold State.classifyGroup
  split
  · dsimp only
    split
    · exact hremoved
    · exact hremoved.trans (State.onsetWith_slotsKept _ _ _)
  · exact .refl s

theorem State.closeWindow_slotsKept : s.slotsKept s.closeWindow :=
  State.eachGroup_kept (fun t => s.slotsKept t) (fun t g ht => ht.trans (t.classifyGroup_slotsKept g)) (.of_claims rfl)

theorem State.tripLine_slotsKept : s.slotsKept s.tripLine := by
  unfold State.tripLine
  split
  · exact .refl s
  · exact .refl s
  · exact s.closeWindow_slotsKept.trans (State.enterTripped_slotsKept _)
  all_goals exact s.enterTripped_slotsKept

end Slots

/-! ### Changes of the metering and curtailment units with a condition handed -/

/-- What a change of the metering and curtailment units that hands the condition `id` leaves. -/
structure State.handsOver (s t : State) (id : FaultId) : Prop where
  keeps : s.keepsAllBut t (.metering :: .curtail :: responseParts)
  slots : s.slotsKept t
  entry : ∀ j : FaultId, j ≠ id → ¬ j.tripped → (s.entry j).sameButReduce (t.entry j)

namespace State.handsOver

variable {s t u : State} {id : FaultId}

theorem trans (h : s.handsOver t id) (k : t.handsOver u id) : s.handsOver u id :=
  ⟨State.keepsAllBut_trans h.keeps k.keeps, h.slots.trans k.slots,
    fun j hne hj => Entry.sameButReduce_trans (h.entry j hne hj) (k.entry j hne hj)⟩

theorem of_units (h : s.keepsAllBut t [.metering, .curtail]) : s.handsOver t id :=
  ⟨State.keepsAllBut_mono h (by decide), .of_keeps h (by decide),
    fun j _ _ => Entry.sameButReduce_of_eq (h.entry (by decide) j)⟩

theorem conditionChange (before after : Bool) (detail : Option Detail) :
    s.handsOver (s.conditionChange id before after detail) id where
  keeps := State.keepsAllBut_mono (s.conditionChange_keeps id before after detail) (by decide)
  slots := by
    unfold State.conditionChange
    split
    · exact s.onsetWith_slotsKept_of State.tripLine_slotsKept id detail
    · exact .of_keeps (s.departure_keeps id) (by decide)
    · exact .refl s
    · exact .refl s
  entry := fun _ hne hj => State.conditionChange_entry_ne before after detail hne (.inl hj)

end State.handsOver

theorem State.curtailUnit_keeps (s : State) (c : Curtailment) : s.keepsAllBut { s with curtail := c } [.curtail] := by
  intro p hp
  cases p <;> first | rfl | exact absurd (by simp) hp

theorem State.modInterval_metering (s : State) (f : Interval → Interval) :
    (s.modInterval f).metering = { s.metering with interval := s.metering.interval.map f } := by
  unfold State.modInterval
  cases s.metering.interval <;> rfl

end Sys2Proof.Machine
end

