-- ==== Sys2Proof/Proofs/DemandStep.lean ====
section
/-! The demand step by the grounds that decide it, and what it reads (R137, R138). -/

namespace Sys2Proof.Machine

theorem State.demandStep_none {s : State} (h : s.metering.interval = none) : s.demandStep = s := by
  unfold State.demandStep
  rw [h]

section Step

variable {s : State} {i : Interval} (hi : s.metering.interval = some i)
include hi

theorem State.demandStep_on (hon : s.config.demandControl = true) (hcalendar : s.metering.calendar ≠ none) :
    s.demandStep = (s.demandCompute i).writeClaim .demand (s.demandCompute i).metering.ceiling := by
  unfold State.demandStep
  rw [hi]
  exact if_pos ⟨hon, Option.isSome_iff_ne_none.mpr hcalendar⟩

theorem State.demandStep_off (h : s.config.demandControl = false ∨ s.metering.calendar = none) :
    s.demandStep = ({ s with metering := { s.metering with
      ceiling := 60000
      holdReason := offReason (!s.config.demandControl) s.metering.calendar.isNone } } : State).withdrawClaim .demand := by
  unfold State.demandStep
  rw [hi]
  refine if_neg fun hboth => ?_
  rcases h with h | h <;> simp [h] at hboth

end Step

theorem State.demandStep_keeps (s : State) : s.keepsAllBut s.demandStep [.claims, .metering] := by
  unfold State.demandStep
  intro p hp
  split
  · exact s.keepsAllBut_refl [] p (by simp)
  · split <;> (cases p <;> first | rfl | exact absurd (by simp) hp)

theorem State.demandStep_slotsBeside (s : State) {k : ClaimSlot} (hk : k ≠ .demand) :
    s.demandStep.claims.get k = s.claims.get k := by
  unfold State.demandStep
  split
  · rfl
  · split
    · exact s.claims.get_set_ne hk _
    · exact s.claims.get_set_ne hk _

/-- The step writes the ceiling, its hold reason, D_t and E_allow of the metering unit alone. -/
theorem State.demandStep_metering (s : State) : s.demandStep.metering = { s.metering with
    ceiling := s.demandStep.metering.ceiling, holdReason := s.demandStep.metering.holdReason
    dTarget := s.demandStep.metering.dTarget, eAllow := s.demandStep.metering.eAllow } := by
  unfold State.demandStep
  split
  · rfl
  · split <;> rfl

/-! ### The slot, the ceiling and the hold reason -/

section Outcome

variable {s : State} {i : Interval} (hi : s.metering.interval = some i)
include hi

theorem State.demandStep_computes (hon : s.config.demandControl = true) (hcalendar : s.metering.calendar ≠ none)
    (hguard : s.config.guardTime < i.deadline - s.timeBase) (hvoltage : 1000 ≤ s.metering.u) :
    s.demandStep.metering.holdReason = .none ∧ s.demandStep.claims.demand.value = min 60000
      ((i.demand * (10000 - s.config.demandMargin) / 10000 * (i.length * 60) - i.eUsed) * 1000 /
        (i.deadline - s.timeBase) * 10000 / i.efficiency * 1000 / s.metering.u) := by
  have hnoGuard : decide (i.deadline - s.timeBase ≤ s.config.guardTime) = false := decide_eq_false (by omega)
  have hnoVoltage : decide (s.metering.u < voltageFloor) = false := decide_eq_false (Nat.not_lt.mpr hvoltage)
  rw [State.demandStep_on hi hon hcalendar]
  unfold State.demandCompute
  simp only [hnoGuard, hnoVoltage, Bool.or_self, Bool.false_eq_true, if_false]
  exact ⟨rfl, Nat.min_eq_left (Nat.min_le_left _ _)⟩

/-- The hold reason of a held ceiling is GUARD or VOLTAGE, and the one that alone holds. -/
theorem State.demandStep_holds (hon : s.config.demandControl = true) (hcalendar : s.metering.calendar ≠ none)
    (hheld : i.deadline - s.timeBase ≤ s.config.guardTime ∨ s.metering.u < 1000) :
    s.demandStep.claims.demand.value = min 60000 s.metering.ceiling ∧
    s.demandStep.metering.ceiling = s.metering.ceiling ∧
    (1000 ≤ s.metering.u → s.demandStep.metering.holdReason = .guard) ∧
    (s.config.guardTime < i.deadline - s.timeBase → s.demandStep.metering.holdReason = .voltage) ∧
    (s.demandStep.metering.holdReason = .guard ∨ s.demandStep.metering.holdReason = .voltage) := by
  rw [State.demandStep_on hi hon hcalendar]
  unfold State.demandCompute
  by_cases hguard : i.deadline - s.timeBase ≤ s.config.guardTime <;> by_cases hvoltage : s.metering.u < voltageFloor
  · simp only [hguard, hvoltage, decide_true, Bool.or_self, if_true]
    refine ⟨Nat.min_comm _ _, rfl, fun h => absurd hvoltage (Nat.not_lt.mpr h), fun h => absurd hguard (by omega), ?_⟩
    change heldReason true true = _ ∨ heldReason true true = _
    unfold heldReason
    dsimp only
    split
    · exact .inl rfl
    · exact .inr rfl
  · simp only [hguard, hvoltage, decide_true, Bool.true_or, if_true, decide_false]
    exact ⟨Nat.min_comm _ _, rfl, fun _ => rfl, fun h => absurd hguard (by omega), .inl rfl⟩
  · simp only [hguard, hvoltage, decide_true, Bool.or_true, if_true, decide_false]
    exact ⟨Nat.min_comm _ _, rfl, fun h => absurd hvoltage (Nat.not_lt.mpr h), fun _ => rfl, .inr rfl⟩
  · exact absurd hheld (not_or.mpr ⟨hguard, hvoltage⟩)

/-- The hold reason while nothing is computed is OFF or NO_CALENDAR, and the one that alone holds. -/
theorem State.demandStep_withdraws (hoff : s.config.demandControl = false ∨ s.metering.calendar = none) :
    s.demandStep.claims.demand.active = false ∧ s.demandStep.claims.demand.value = s.claims.demand.value ∧
    s.demandStep.metering.ceiling = 60000 ∧
    (s.metering.calendar ≠ none → s.demandStep.metering.holdReason = .off) ∧
    (s.config.demandControl = true → s.demandStep.metering.holdReason = .noCalendar) ∧
    (s.demandStep.metering.holdReason = .off ∨ s.demandStep.metering.holdReason = .noCalendar) := by
  rw [State.demandStep_off hi hoff]
  refine ⟨rfl, rfl, rfl, ?_⟩
  change (_ → offReason _ _ = _) ∧ (_ → offReason _ _ = _) ∧ (offReason _ _ = _ ∨ offReason _ _ = _)
  cases hcontrol : s.config.demandControl <;> cases hcalendar : s.metering.calendar
  · refine ⟨fun h => absurd rfl h, fun h => (nomatch h), ?_⟩
    change offReason true true = _ ∨ offReason true true = _
    unfold offReason
    dsimp only
    split
    · exact .inl rfl
    · exact .inr rfl
  · exact ⟨fun _ => rfl, fun h => (nomatch h), .inl rfl⟩
  · exact ⟨fun h => absurd rfl h, fun _ => rfl, .inr rfl⟩
  · simp [hcontrol, hcalendar] at hoff

end Outcome

/-! ### What the step reads -/

/-- The figures of an interval that the demand step reads. -/
def Interval.demandFigures (i : Interval) : Nat × Nat × Nat × Nat × Nat :=
  (i.demand, i.length, i.deadline, i.eUsed, i.efficiency)

/-- The step writes the same slot, ceiling and hold reason in states that agree in what it reads. -/
theorem State.demandStep_congr {s t : State} {i j : Interval} (hi : s.metering.interval = some i)
    (hj : t.metering.interval = some j) (hfigures : j.demandFigures = i.demandFigures) (htime : t.timeBase = s.timeBase)
    (hconfig : t.config = s.config) (hclaim : t.claims.demand = s.claims.demand)
    (hcalendar : t.metering.calendar = s.metering.calendar) (hu : t.metering.u = s.metering.u)
    (hceiling : t.metering.ceiling = s.metering.ceiling) :
    t.demandStep.claims.demand = s.demandStep.claims.demand ∧
      t.demandStep.metering.ceiling = s.demandStep.metering.ceiling ∧
      t.demandStep.metering.holdReason = s.demandStep.metering.holdReason := by
  simp only [Interval.demandFigures, Prod.mk.injEq] at hfigures
  obtain ⟨h1, h2, h3, h4, h5⟩ := hfigures
  by_cases h : s.config.demandControl = true ∧ s.metering.calendar ≠ none
  · obtain ⟨hon, hpos⟩ := h
    rw [State.demandStep_on hi hon hpos, State.demandStep_on hj (hconfig ▸ hon) (hcalendar ▸ hpos)]
    simp only [State.demandCompute, State.writeClaim, ClaimsTable.set, ClaimsTable.get, h1, h2, h3, h4, h5, htime, hconfig,
      hclaim, hu, hceiling, and_self]
  · have hoff : s.config.demandControl = false ∨ s.metering.calendar = none := by
      by_contra hn
      push Not at hn
      exact h ⟨by simpa using hn.1, hn.2⟩
    rw [State.demandStep_off hi hoff, State.demandStep_off hj (by rwa [hconfig, hcalendar])]
    simp only [State.withdrawClaim, ClaimsTable.set, ClaimsTable.get, htime, hconfig, hclaim, hcalendar, and_self]

end Sys2Proof.Machine
end

