-- ==== Sys2Proof/Proofs/Compliance.lean ====
section
/-! The hand-off of a metering expiry to the curtailment unit: the CURTAIL slot, the enforcement and the compliance test (R150 to
R153). -/

namespace Sys2Proof.Machine

/-! ### The least ceiling of a set of orders (R150, R152) -/

theorem leastCeiling_eq_min? (l : List CurtailOrder) : leastCeiling l = (l.map CurtailOrder.ceiling).min? := by
  cases l with
  | nil => rfl
  | cons o os => rw [List.map_cons, List.min?_cons', List.foldl_map]; rfl

theorem leastCeiling_eq_some_iff {l : List CurtailOrder} {c : Nat} :
    leastCeiling l = some c ↔ (∃ x ∈ l, x.ceiling = c) ∧ ∀ o ∈ l, c ≤ o.ceiling := by
  rw [leastCeiling_eq_min?, List.min?_eq_some_iff]
  simp only [List.mem_map, forall_exists_index, and_imp, forall_apply_eq_imp_iff₂]

theorem leastCeiling_nil : leastCeiling [] = none := rfl

theorem Curtailment.mem_active {c : Curtailment} {o : CurtailOrder} : o ∈ c.active ↔ o ∈ c.orders ∧ o.state = .active := by
  simp [Curtailment.active]

theorem Curtailment.mem_enforcedSet {c : Curtailment} {o : CurtailOrder} :
    o ∈ c.enforcedSet ↔ o ∈ c.orders ∧ o.state = .active ∧ o.enforced = true := by
  simp [Curtailment.enforcedSet]

/-- Of several that give the same value one is reported. -/
theorem pickTied_mem {α : Type} {l : List α} (h : l ≠ []) : ∃ a ∈ l, pickTied l = some a := by
  match l with
  | [] => exact absurd rfl h
  | [a] => exact ⟨a, by simp, rfl⟩
  | a :: b :: l =>
    have hlt : Config.tiedPlace (a :: b :: l).length % (a :: b :: l).length < (a :: b :: l).length :=
      Nat.mod_lt _ (by simp)
    exact ⟨_, List.getElem_mem hlt, List.getElem?_eq_getElem hlt⟩

/-- CURTAIL_MISSED names an order of the enforced set that gives the ceiling. -/
theorem Curtailment.givesCeiling_spec {c : Curtailment} {x : CurtailOrder} (hx : x ∈ c.enforcedSet) :
    ∃ y ∈ c.enforcedSet, y.ceiling = x.ceiling ∧ c.givesCeiling x.ceiling = y.tag := by
  have hmem : x ∈ c.enforcedSet.filter fun o => o.ceiling == x.ceiling := by simp [hx]
  obtain ⟨y, hy, hpick⟩ := pickTied_mem (List.ne_nil_of_mem hmem)
  obtain ⟨hyset, hyceiling⟩ := List.mem_filter.mp hy
  refine ⟨y, hyset, by simpa using hyceiling, ?_⟩
  unfold Curtailment.givesCeiling
  rw [hpick]

/-! ### The CURTAIL slot (R150) -/

section Write

variable (s : State)

theorem State.writeCurtail_keeps : s.keepsAllBut s.writeCurtail [.claims, .curtail] := by
  unfold State.writeCurtail
  intro p hp
  split
  · cases p <;> first | rfl | exact absurd (by simp) hp
  · split <;> (cases p <;> first | rfl | exact absurd (by simp) hp)

theorem State.writeCurtail_slotsBeside {k : ClaimSlot} (hk : k ≠ .curtail) :
    s.writeCurtail.claims.get k = s.claims.get k := by
  unfold State.writeCurtail
  split
  · exact s.claims.get_set_ne hk _
  · split <;> exact s.claims.get_set_ne hk _

/-- The write touches the value and the hold mark of the unit alone. -/
theorem State.writeCurtail_curtail : s.writeCurtail.curtail = { s.curtail with
    value := s.writeCurtail.curtail.value, holdMark := s.writeCurtail.curtail.holdMark } := by
  unfold State.writeCurtail
  split
  · rfl
  · split <;> rfl

theorem State.writeCurtail_withdrawn {s : State} (h : ∀ o ∈ s.curtail.orders, o.state ≠ .active) :
    s.writeCurtail = s.withdrawClaim .curtail := by
  unfold State.writeCurtail
  rw [(Curtailment.active_eq_nil _).mpr h, leastCeiling_nil]

theorem State.writeCurtail_least {s : State} {c : Nat} (h : leastCeiling s.curtail.active = some c) :
    s.writeCurtail = if 1000 ≤ s.curtail.lastVoltage then
      ({ s with curtail := { s.curtail with
        value := currentFor c s.efficiency s.curtail.lastVoltage, holdMark := false } } : State).writeClaim .curtail
          (currentFor c s.efficiency s.curtail.lastVoltage)
    else ({ s with curtail := { s.curtail with holdMark := true } } : State).writeClaim .curtail s.curtail.value := by
  unfold State.writeCurtail
  rw [h]
  rfl

/-- The slot is laid as R150 has it. -/
theorem State.writeCurtail_laid : s.curtailLaid s.writeCurtail s.efficiency := by
  have horders : s.writeCurtail.curtail.orders = s.curtail.orders := by rw [State.writeCurtail_curtail]
  have hvoltage : s.writeCurtail.curtail.lastVoltage = s.curtail.lastVoltage := by rw [State.writeCurtail_curtail]
  unfold State.curtailLaid
  rw [horders, hvoltage]
  refine ⟨fun h => ?_, fun x hx hactive hleast => ?_⟩
  · rw [State.writeCurtail_withdrawn h]
    exact ⟨rfl, rfl, rfl, rfl⟩
  · have hmin : leastCeiling s.curtail.active = some x.ceiling := leastCeiling_eq_some_iff.mpr
      ⟨⟨x, Curtailment.mem_active.mpr ⟨hx, hactive⟩, rfl⟩, fun o ho =>
        hleast o (Curtailment.mem_active.mp ho).1 (Curtailment.mem_active.mp ho).2⟩
    rw [State.writeCurtail_least hmin]
    split
    · next habove => exact ⟨rfl, fun _ => ⟨rfl, rfl, Nat.min_eq_left (Nat.min_le_left _ _)⟩, fun h => absurd habove (by omega)⟩
    · next hbelow => exact ⟨rfl, fun h => absurd h hbelow, fun _ => ⟨rfl, rfl, Nat.min_comm _ _⟩⟩

end Write

/-- An order as the enforcement step leaves it at `now` (R151). -/
def CurtailOrder.enforcedAt (now : Nat) (o : CurtailOrder) : CurtailOrder :=
  { o with enforced := o.enforced || (o.state == .active && o.enforcement.any fun e => decide (e ≤ now)) }

theorem State.enforce_eq (s : State) : s.enforce = s.setOrders (s.curtail.orders.map (CurtailOrder.enforcedAt s.timeBase)) := by
  unfold State.enforce
  congr 1
  refine List.map_congr_left fun o _ => ?_
  obtain ⟨tag, state, ceiling, start, duration, stop, port, activation, enforcement, enforced⟩ := o
  unfold CurtailOrder.enforcedAt
  cases state <;> cases enforcement <;> simp
  split <;> simp_all

/-- What was laid from orders stands for orders of the same states and ceilings. -/
theorem State.curtailLaid.transfer {s s' t t' : State} {efficiency : Nat} {f : CurtailOrder → CurtailOrder}
    (h : s.curtailLaid t efficiency) (hstate : ∀ o, (f o).state = o.state) (hceiling : ∀ o, (f o).ceiling = o.ceiling)
    (horders : t'.curtail.orders = t.curtail.orders.map f) (hclaim : t'.claims.curtail = t.claims.curtail)
    (hvalue : t'.curtail.value = t.curtail.value) (hmark : t'.curtail.holdMark = t.curtail.holdMark)
    (hvoltage : t'.curtail.lastVoltage = t.curtail.lastVoltage)
    (hclaim' : s'.claims.curtail.value = s.claims.curtail.value) (hvalue' : s'.curtail.value = s.curtail.value)
    (hmark' : s'.curtail.holdMark = s.curtail.holdMark) : s'.curtailLaid t' efficiency := by
  unfold State.curtailLaid at h ⊢
  simp only [horders, hclaim, hvalue, hmark, hvoltage, hclaim', hvalue', hmark', List.forall_mem_map, hstate, hceiling]
  exact h

/-! ### The state that comes to the compliance test (R150, R151) -/

/-- The unit with the bus voltage taken. -/
def State.voltageTaken (s : State) (u : Nat) : State := { s with curtail := { s.curtail with lastVoltage := u } }

/-- The hand-off without its compliance test: the voltage taken, the slot written while an order is ACTIVE, and the orders
enforced. -/
def State.enforcedWith (s : State) (u : Nat) : State :=
  (if (s.voltageTaken u).curtail.active = [] then s.voltageTaken u else (s.voltageTaken u).writeCurtail).enforce

theorem State.curtailHandoff_eq (s : State) (u pBill : Nat) :
    s.curtailHandoff u pBill = (s.enforcedWith u).complianceTest pBill := rfl

section Enforced

variable (s : State) (u : Nat)

theorem State.enforcedWith_idle {s : State} (u : Nat) (h : ∀ o ∈ s.curtail.orders, o.state ≠ .active) :
    s.enforcedWith u = (s.voltageTaken u).setOrders (s.curtail.orders.map (CurtailOrder.enforcedAt s.timeBase)) :=
  (congrArg State.enforce (if_pos ((Curtailment.active_eq_nil (s.voltageTaken u).curtail).mpr h))).trans
    (State.enforce_eq _)

theorem State.enforcedWith_writes {s : State} (u : Nat) (h : ∃ o ∈ s.curtail.orders, o.state = .active) :
    s.enforcedWith u = (s.voltageTaken u).writeCurtail.setOrders
      (s.curtail.orders.map (CurtailOrder.enforcedAt s.timeBase)) := by
  obtain ⟨o, ho, hactive⟩ := h
  have hsome : (s.voltageTaken u).curtail.active ≠ [] := fun hnil =>
    (Curtailment.active_eq_nil _).mp hnil o ho hactive
  refine (congrArg State.enforce (if_neg hsome)).trans ((State.enforce_eq _).trans ?_)
  rw [State.writeCurtail_curtail, State.writeCurtail_keeps (s.voltageTaken u) .timeBase (by decide)]
  rfl

theorem State.voltageTaken_keeps : s.keepsAllBut (s.voltageTaken u) [.curtail] := s.curtailUnit_keeps _

theorem State.setOrders_keeps (l : List CurtailOrder) : s.keepsAllBut (s.setOrders l) [.curtail] := s.curtailUnit_keeps _

/-- An order is ACTIVE or none is. -/
theorem Curtailment.active_or_idle (c : Curtailment) :
    (∃ o ∈ c.orders, o.state = .active) ∨ ∀ o ∈ c.orders, o.state ≠ .active := by
  by_cases h : ∃ o ∈ c.orders, o.state = .active
  · exact .inl h
  · exact .inr fun o ho hactive => h ⟨o, ho, hactive⟩

theorem State.enforcedWith_keeps : s.keepsAllBut (s.enforcedWith u) [.claims, .curtail] := by
  have htaken := State.keepsAllBut_mono (m := [.claims, .curtail]) (s.voltageTaken_keeps u) (by decide)
  rcases s.curtail.active_or_idle with h | h
  · rw [State.enforcedWith_writes u h]
    exact State.keepsAllBut_trans (State.keepsAllBut_trans htaken (State.writeCurtail_keeps _))
      (State.keepsAllBut_mono (State.setOrders_keeps _ _) (by decide))
  · rw [State.enforcedWith_idle u h]
    exact State.keepsAllBut_trans htaken (State.keepsAllBut_mono (State.setOrders_keeps _ _) (by decide))

theorem State.enforcedWith_slotsBeside {k : ClaimSlot} (hk : k ≠ .curtail) :
    (s.enforcedWith u).claims.get k = s.claims.get k := by
  rcases s.curtail.active_or_idle with h | h
  · rw [State.enforcedWith_writes u h]
    exact State.writeCurtail_slotsBeside (s.voltageTaken u) hk
  · rw [State.enforcedWith_idle u h]
    rfl

/-- The hand-off leaves the run and the compliance condition to the test. -/
theorem State.enforcedWith_curtail : (s.enforcedWith u).curtail = { s.curtail with
    orders := s.curtail.orders.map (CurtailOrder.enforcedAt s.timeBase), lastVoltage := u
    value := (s.enforcedWith u).curtail.value, holdMark := (s.enforcedWith u).curtail.holdMark } := by
  rcases s.curtail.active_or_idle with h | h
  · rw [State.enforcedWith_writes u h, State.setOrders_curtail, State.writeCurtail_curtail]
    rfl
  · rw [State.enforcedWith_idle u h]
    rfl

theorem State.enforcedWith_laid {s : State} (u : Nat) (h : ∃ o ∈ s.curtail.orders, o.state = .active) :
    s.curtailLaid (s.enforcedWith u) s.efficiency := by
  have hlaid : (s.voltageTaken u).curtailLaid (s.voltageTaken u).writeCurtail s.efficiency :=
    (s.voltageTaken u).writeCurtail_laid
  rw [State.enforcedWith_writes u h]
  refine hlaid.transfer (f := CurtailOrder.enforcedAt s.timeBase) (fun _ => rfl) (fun _ => rfl) ?_ rfl rfl rfl rfl rfl rfl rfl
  rw [State.writeCurtail_curtail]
  rfl

end Enforced

/-! ### The compliance test (R152, R153) -/

/-- What a compliance test leaves: a run, a condition, the hand-over of CURTAIL_MISSED from `before` to `after`, and the breaches
counted by `count`. -/
def State.tested (s : State) (run : Nat) (compliance before after : Bool) (detail : Option Detail) (count : Nat → Nat) : State :=
  (({ s with curtail := { s.curtail with compliance := compliance, run := run } } : State).conditionChange
    (.line .curtailMissed) before after detail).modInterval fun i => { i with breaches := count i.breaches }

section Tested

variable (s : State) (run : Nat) (compliance before after : Bool) (detail : Option Detail) (count : Nat → Nat)

theorem State.tested_curtail : (s.tested run compliance before after detail count).curtail =
    { s.curtail with compliance := compliance, run := run } :=
  State.conditionChange_keeps { s with curtail := { s.curtail with compliance := compliance, run := run } } _ _ _ _ .curtail
    (by decide)

theorem State.tested_metering : (s.tested run compliance before after detail count).metering =
    { s.metering with interval := s.metering.interval.map fun i => { i with breaches := count i.breaches } } := by
  rw [State.tested, State.modInterval_metering, State.conditionChange_keeps _ _ _ _ _ .metering (by decide)]

theorem State.tested_handsOver : s.handsOver (s.tested run compliance before after detail count) (.line .curtailMissed) :=
  .trans (.of_units (State.keepsAllBut_mono (s.curtailUnit_keeps _) (by decide)))
    (.trans (.conditionChange before after detail)
      (.of_units (State.keepsAllBut_mono (State.modInterval_keeps _ _) (by decide))))

theorem State.tested_handed :
    s.handed (s.tested run compliance before after detail count) (.line .curtailMissed) before after detail :=
  (State.conditionChange_handed (s := { s with curtail := { s.curtail with compliance := compliance, run := run } }) _ _ _
    (.inl (FaultId.not_tripped_line (by decide)))).within rfl (Entry.sameButReduce_refl _) (Entry.sameButReduce_refl _)

end Tested

section Test

variable {s : State} {pBill c : Nat}

/-- Breaches that are not counted leave the metering unit. -/
theorem State.modInterval_id (s : State) : (s.modInterval fun i => { i with breaches := id i.breaches }) = s := by
  unfold State.modInterval
  cases h : s.metering.interval
  all_goals exact congrArg (fun v => { s with metering := { s.metering with interval := v } }) h.symm

theorem State.complianceTest_unenforced (h : s.curtail.complianceCeiling = none) :
    s.complianceTest pBill = s.tested 0 s.curtail.compliance true true none id := by
  unfold State.complianceTest
  rw [h, State.tested, State.modInterval_id]
  rfl

theorem State.complianceTest_within (h : s.curtail.complianceCeiling = some c) (hp : pBill ≤ c) :
    s.complianceTest pBill = s.tested 0 false s.curtail.compliance false none id := by
  unfold State.complianceTest
  rw [h, State.tested, State.modInterval_id]
  dsimp only
  rw [if_neg (Nat.not_lt.mpr hp)]
  cases hc : s.curtail.compliance
  · rfl
  · rfl

theorem State.complianceTest_missed (h : s.curtail.complianceCeiling = some c) (hp : c < pBill)
    (hc : s.curtail.compliance = true) : s.complianceTest pBill = s.tested s.curtail.run true true true none id := by
  unfold State.complianceTest
  rw [h, State.tested, State.modInterval_id]
  dsimp only
  rw [if_pos hp, if_pos hc]
  exact congrArg (fun b => { s with curtail := { s.curtail with compliance := b } }) hc

theorem State.complianceTest_counted (h : s.curtail.complianceCeiling = some c) (hp : c < pBill)
    (hc : s.curtail.compliance = false) (hrun : s.curtail.run < 9) :
    s.complianceTest pBill = s.tested (s.curtail.run + 1) false true true none id := by
  have hbelow : ¬ breachRun ≤ s.curtail.run + 1 := by
    unfold breachRun
    omega
  unfold State.complianceTest
  rw [h, State.tested, State.modInterval_id]
  dsimp only
  rw [if_pos hp, if_neg (by simp [hc]), if_neg hbelow]
  exact congrArg (fun b => { s with curtail := { s.curtail with compliance := b, run := s.curtail.run + 1 } }) hc

theorem State.complianceTest_breach (h : s.curtail.complianceCeiling = some c) (hp : c < pBill)
    (hc : s.curtail.compliance = false) (hrun : 9 ≤ s.curtail.run) :
    s.complianceTest pBill = s.tested 0 true false true (some (.curtail pBill c (s.curtail.givesCeiling c)))
      fun n => min 65535 (n + 1) := by
  have htenth : breachRun ≤ s.curtail.run + 1 := by
    unfold breachRun
    omega
  unfold State.complianceTest
  rw [h]
  dsimp only
  rw [if_pos hp, if_neg (by simp [hc]), if_pos htenth]
  rfl

/-- Every test is one of these. -/
theorem State.complianceTest_tested (s : State) (pBill : Nat) :
    ∃ (run : Nat) (compliance before after : Bool) (detail : Option Detail) (count : Nat → Nat),
      s.complianceTest pBill = s.tested run compliance before after detail count := by
  cases h : s.curtail.complianceCeiling with
  | none => exact ⟨_, _, _, _, _, _, State.complianceTest_unenforced h⟩
  | some c =>
    rcases Nat.lt_or_ge c pBill with hp | hp
    · cases hc : s.curtail.compliance with
      | true => exact ⟨_, _, _, _, _, _, State.complianceTest_missed h hp hc⟩
      | false =>
        rcases Nat.lt_or_ge s.curtail.run 9 with hrun | hrun
        · exact ⟨_, _, _, _, _, _, State.complianceTest_counted h hp hc hrun⟩
        · exact ⟨_, _, _, _, _, _, State.complianceTest_breach h hp hc hrun⟩
    · exact ⟨_, _, _, _, _, _, State.complianceTest_within h hp⟩

theorem Curtailment.complianceCeiling_least {u : Curtailment} {x : CurtailOrder} (hx : x ∈ u.enforcedSet)
    (hleast : ∀ o ∈ u.orders, o.state = .active → o.enforced = true → x.ceiling ≤ o.ceiling) :
    u.complianceCeiling = some x.ceiling := by
  refine leastCeiling_eq_some_iff.mpr ⟨⟨x, hx, rfl⟩, fun o ho => ?_⟩
  obtain ⟨hmem, hactive, henforced⟩ := Curtailment.mem_enforcedSet.mp ho
  exact hleast o hmem hactive henforced

theorem Curtailment.complianceCeiling_none {u : Curtailment}
    (h : ∀ o ∈ u.orders, ¬ (o.state = .active ∧ o.enforced = true)) : u.complianceCeiling = none := by
  have hnil : u.enforcedSet = [] := List.eq_nil_iff_forall_not_mem.mpr fun o ho =>
    h o (Curtailment.mem_enforcedSet.mp ho).1 (Curtailment.mem_enforcedSet.mp ho).2
  rw [Curtailment.complianceCeiling, hnil, leastCeiling_nil]

end Test

end Sys2Proof.Machine
end

