-- ==== Sys2Proof/Proofs/MeteringExpiry.lean ====
section
/-! The metering expiry: the account of the interval, the demand step within it, and the hand-off (R118, R127, R137 to R139, R150
to R153). -/

namespace Sys2Proof.Machine

/-! ### The account (R127 steps 1 to 6, R139) -/

theorem State.efficiency_of {s : State} {i : Interval} (h : s.metering.interval = some i) : s.efficiency = i.efficiency := by
  unfold State.efficiency
  rw [h]

/-- The timer started again (R127). -/
def State.meterStarted (s : State) : State :=
  { s with metering := { s.metering with timer := some (s.timeBase + meterTime) } }

theorem State.meterAccount_eq {s : State} {i : Interval} (h : s.metering.interval = some i) : s.meterAccount = { s with
    ae := { s.ae with list := s.ae.list.map (s.accrueRecord s.measuredCurrent) }
    metering := { s.metering with
      iM := s.measuredCurrent, u := s.busVoltage, pDc := dcPower s.measuredCurrent s.busVoltage
      pBill := billedPower (dcPower s.measuredCurrent s.busVoltage) i.efficiency
      interval := some (i.account (dcPower s.measuredCurrent s.busVoltage)) } } := by
  unfold State.meterAccount State.modInterval State.accrueAe
  simp only [h, State.efficiency_of h]
  rfl

/-- The interval with its EXCEEDED mark as the exceedance test leaves it while the condition stands at `exceedance` (R139). -/
def Interval.exceedanceMarked (i : Interval) (exceedance : Bool) : Interval :=
  { i with exceeded := i.exceeded || (!exceedance && decide (i.contractEnergy < i.eUsed)) }

/-- The metering unit after the exceedance test (R139). -/
def State.exceedanceNoted (s : State) (i : Interval) : State := { s with metering := { s.metering with
  contract := i.contractEnergy, exceedance := s.metering.exceedance || decide (i.contractEnergy < i.eUsed)
  interval := some (i.exceedanceMarked s.metering.exceedance) } }

theorem State.exceedanceTest_eq {s : State} {i : Interval} (h : s.metering.interval = some i) :
    s.exceedanceTest = (s.exceedanceNoted i).conditionChange (.line .demandExceeded) s.metering.exceedance
      (s.exceedanceNoted i).metering.exceedance (some (.demand i.eUsed i.contractEnergy)) := by
  unfold State.exceedanceTest State.exceedanceNoted Interval.exceedanceMarked
  rw [h]
  dsimp only
  cases hstands : s.metering.exceedance with
  | true =>
    rw [if_neg (by simp)]
    simp only [State.conditionChange, Bool.true_or, Bool.not_true, Bool.false_and, Bool.or_false, h]
  | false =>
    by_cases hover : i.contractEnergy < i.eUsed
    · rw [if_pos ⟨hover, rfl⟩]
      simp only [State.conditionChange, State.modInterval, hover, h, decide_true, Bool.not_false, Bool.true_and,
        Bool.or_true]
    · rw [if_neg fun hboth => hover hboth.1]
      simp only [State.conditionChange, hover, h, decide_false, Bool.or_self, Bool.and_false, Bool.or_false]

/-- The state that comes to the demand step of a metering expiry. -/
def State.accounted (s : State) : State := s.meterStarted.meterAccount.exceedanceTest

/-- The interval that comes to the demand step of a metering expiry. -/
def State.charged (s : State) (i : Interval) : Interval :=
  (i.account (dcPower s.measuredCurrent s.busVoltage)).exceedanceMarked s.metering.exceedance

section Account

variable {s : State} {i : Interval} (hi : s.metering.interval = some i)
include hi

theorem State.accounted_eq : s.accounted = (s.meterStarted.meterAccount.exceedanceNoted
    (i.account (dcPower s.measuredCurrent s.busVoltage))).conditionChange (.line .demandExceeded) s.metering.exceedance
      (s.metering.exceedance || decide ((s.charged i).contractEnergy < (s.charged i).eUsed))
      (some (.demand (s.charged i).eUsed (s.charged i).contractEnergy)) := by
  have haccount := State.meterAccount_eq (s := s.meterStarted) hi
  exact (State.exceedanceTest_eq (by rw [haccount])).trans (by rw [haccount]; rfl)

theorem State.accounted_metering : s.accounted.metering = { s.metering with
    timer := some (s.timeBase + 100), iM := s.measuredCurrent, u := s.busVoltage
    pDc := dcPower s.measuredCurrent s.busVoltage
    pBill := billedPower (dcPower s.measuredCurrent s.busVoltage) i.efficiency, contract := i.contractEnergy
    exceedance := s.metering.exceedance || decide ((s.charged i).contractEnergy < (s.charged i).eUsed)
    interval := some (s.charged i) } := by
  rw [State.accounted_eq hi, State.conditionChange_keeps _ _ _ _ _ .metering (by decide),
    State.meterAccount_eq (s := s.meterStarted) hi]
  rfl

theorem State.accounted_ae :
    s.accounted.ae = { s.ae with list := s.ae.list.map (s.accrueRecord s.measuredCurrent) } := by
  rw [State.accounted_eq hi, State.conditionChange_keeps _ _ _ _ _ .ae (by decide),
    State.meterAccount_eq (s := s.meterStarted) hi]
  rfl

theorem State.exceedanceNoted_keeps : s.keepsAllBut (s.meterStarted.meterAccount.exceedanceNoted
    (i.account (dcPower s.measuredCurrent s.busVoltage))) [.ae, .metering] := by
  rw [State.meterAccount_eq (s := s.meterStarted) hi]
  intro p hp
  cases p <;> first | rfl | exact absurd (by simp) hp

theorem State.accounted_keeps : s.keepsAllBut s.accounted (.ae :: .metering :: responseParts) := by
  rw [State.accounted_eq hi]
  exact State.keepsAllBut_trans (State.keepsAllBut_mono (State.exceedanceNoted_keeps hi) (by decide))
    (State.keepsAllBut_mono (State.conditionChange_keeps _ _ _ _ _) (by decide))

theorem State.accounted_slotsKept : s.slotsKept s.accounted := by
  rw [State.accounted_eq hi]
  exact .trans (.of_keeps (State.exceedanceNoted_keeps hi) (by decide)) (State.handsOver.conditionChange _ _ _).slots

theorem State.accounted_entry {j : FaultId} (hne : j ≠ .line .demandExceeded) (hj : ¬ j.tripped) :
    (s.entry j).sameButReduce (s.accounted.entry j) := by
  rw [State.accounted_eq hi, ← (State.exceedanceNoted_keeps hi).entry (by decide) j]
  exact State.conditionChange_entry_ne _ _ _ hne (.inl hj)

theorem State.accounted_handed : s.handed s.accounted (.line .demandExceeded) s.metering.exceedance
    (s.metering.exceedance || decide ((s.charged i).contractEnergy < (s.charged i).eUsed))
    (some (.demand (s.charged i).eUsed (s.charged i).contractEnergy)) := by
  have hkeeps := State.exceedanceNoted_keeps hi
  rw [State.accounted_eq hi]
  exact (State.conditionChange_handed _ _ _ (.inl (FaultId.not_tripped_line (by decide)))).within
    (hkeeps .timeBase (by decide)) (Entry.sameButReduce_of_eq (hkeeps.entry (by decide) _)) (Entry.sameButReduce_refl _)

end Account

/-- With no interval in progress nothing is accounted. -/
theorem State.accounted_none {s : State} (h : s.metering.interval = none) : s.accounted.metering.interval = none ∧
    s.accounted.metering.ceiling = s.metering.ceiling ∧ s.accounted.claims = s.claims := by
  have hnone : s.meterStarted.meterAccount.metering.interval = none := by
    simp only [State.meterAccount, State.modInterval_metering, State.accrueAe, State.meterStarted, h, Option.map_none]
  have hsame : s.accounted = s.meterStarted.meterAccount := by
    unfold State.accounted State.exceedanceTest
    rw [hnone]
  rw [hsame]
  exact ⟨hnone, by simp only [State.meterAccount, State.modInterval_metering]; rfl, rfl⟩

/-! ### The parts of an expiry (R127) -/

theorem execMeteringTimerExpiry_eq {s : State} {d : Nat} (h : s.metering.timer = some d) :
    exec .meteringTimerExpiry s = .next s.begin.meteringExpiry := by
  change execMeteringTimerExpiry s = _
  unfold execMeteringTimerExpiry
  simp only [State.begin_metering, h]

/-- The state that comes to the compliance test of a metering expiry. -/
def State.beforeTest (s : State) : State := s.accounted.demandStep.enforcedWith s.accounted.demandStep.metering.u

theorem State.meteringExpiry_eq (s : State) :
    s.meteringExpiry = s.beforeTest.complianceTest s.accounted.demandStep.metering.pBill :=
  State.curtailHandoff_eq _ _ _

section Parts

variable (s : State)

theorem State.beforeTest_keeps : s.accounted.keepsAllBut s.beforeTest [.claims, .metering, .curtail] :=
  State.keepsAllBut_trans (State.keepsAllBut_mono (State.demandStep_keeps _) (by decide))
    (State.keepsAllBut_mono (State.enforcedWith_keeps _ _) (by decide))

theorem State.beforeTest_metering : s.beforeTest.metering = s.accounted.demandStep.metering :=
  State.enforcedWith_keeps _ _ .metering (by decide)

theorem State.meteringExpiry_handsOver : s.beforeTest.handsOver s.meteringExpiry (.line .curtailMissed) := by
  obtain ⟨_, _, _, _, _, _, htest⟩ := s.beforeTest.complianceTest_tested s.accounted.demandStep.metering.pBill
  rw [State.meteringExpiry_eq, htest]
  exact State.tested_handsOver _ _ _ _ _ _ _

/-- After the demand step the expiry changes the breaches of the metering unit alone. -/
theorem State.meteringExpiry_metering : ∃ count : Nat → Nat, s.meteringExpiry.metering =
    { s.accounted.demandStep.metering with
      interval := s.accounted.metering.interval.map fun i => { i with breaches := count i.breaches } } := by
  obtain ⟨_, _, _, _, _, count, htest⟩ := s.beforeTest.complianceTest_tested s.accounted.demandStep.metering.pBill
  refine ⟨count, ?_⟩
  rw [State.meteringExpiry_eq, htest, State.tested_metering, State.beforeTest_metering, State.demandStep_metering]

/-- After the hand-off the test changes the run and the compliance condition of the curtailment unit alone. -/
theorem State.meteringExpiry_curtail : s.meteringExpiry.curtail = { s.beforeTest.curtail with
    run := s.meteringExpiry.curtail.run, compliance := s.meteringExpiry.curtail.compliance } := by
  obtain ⟨_, _, _, _, _, _, htest⟩ := s.beforeTest.complianceTest_tested s.accounted.demandStep.metering.pBill
  rw [State.meteringExpiry_eq, htest, State.tested_curtail]

theorem State.meteringExpiry_slot {k : ClaimSlot} (hk : k ≠ .fault) :
    s.meteringExpiry.claims.get k = s.beforeTest.claims.get k := s.meteringExpiry_handsOver.slots k hk

theorem State.meteringExpiry_demandSlot : s.meteringExpiry.claims.demand = s.accounted.demandStep.claims.demand :=
  (s.meteringExpiry_slot (k := .demand) (by decide)).trans
    (State.enforcedWith_slotsBeside s.accounted.demandStep _ (k := .demand) (by decide))

end Parts

/-! ### The demand step within an expiry -/

/-- A metering expiry takes the demand step from the account it has formed and the slot and ceiling held before it (R127, R137). -/
theorem State.meteringExpiry_demand (s : State) :
    let t := s.meteringExpiry
    let u : State := { t with claims := s.claims, metering := { t.metering with ceiling := s.metering.ceiling } }
    t.claims.demand = u.demandStep.claims.demand ∧ t.metering.ceiling = u.demandStep.metering.ceiling ∧
      t.metering.holdReason = u.demandStep.metering.holdReason := by
  intro t u
  obtain ⟨count, hmetering⟩ := s.meteringExpiry_metering
  change t.metering = _ at hmetering
  have hdemand : t.claims.demand = s.accounted.demandStep.claims.demand := s.meteringExpiry_demandSlot
  cases hi : s.metering.interval with
  | none =>
    obtain ⟨hinterval, hceiling, hclaims⟩ := State.accounted_none hi
    have hu : u.metering.interval = none := (congrArg Metering.interval hmetering).trans (by rw [hinterval]; rfl)
    rw [State.demandStep_none hinterval] at hdemand hmetering
    rw [State.demandStep_none hu, hdemand, hclaims, hmetering]
    exact ⟨rfl, hceiling, (congrArg Metering.holdReason hmetering).symm⟩
  | some i =>
    have haccounted := State.accounted_metering hi
    have hkeeps : s.keepsAllBut t (.ae :: .metering :: .curtail :: responseParts) :=
      State.keepsAllBut_trans (State.keepsAllBut_mono (State.accounted_keeps hi) (by decide))
        (State.keepsAllBut_trans (State.keepsAllBut_mono s.beforeTest_keeps (by decide))
          (State.keepsAllBut_mono s.meteringExpiry_handsOver.keeps (by decide)))
    have hfrom := State.accounted_keeps hi
    rw [State.demandStep_metering, haccounted] at hmetering
    obtain ⟨h1, h2, h3⟩ := State.demandStep_congr (s := s.accounted) (t := u) (i := s.charged i)
      (j := { s.charged i with breaches := count (s.charged i).breaches }) (by rw [haccounted])
      (congrArg Metering.interval hmetering) rfl
      ((hkeeps .timeBase (by decide)).trans (hfrom .timeBase (by decide)).symm)
      ((hkeeps .config (by decide)).trans (hfrom .config (by decide)).symm)
      (State.accounted_slotsKept hi .demand (by decide)).symm
      ((congrArg Metering.calendar hmetering).trans (by rw [haccounted]))
      ((congrArg Metering.u hmetering).trans (by rw [haccounted])) (by rw [haccounted])
    exact ⟨hdemand.trans h1.symm, (congrArg Metering.ceiling hmetering).trans h2.symm,
      (congrArg Metering.holdReason hmetering).trans h3.symm⟩

/-- Settles O33: the step within an expiry, and the step itself by the grounds that decide it. -/
theorem demandStepLaysTheDemandClaim : Obligations.DemandStepLaysTheDemandClaim := by
  refine ⟨fun s d htimer => ⟨_, execMeteringTimerExpiry_eq htimer, s.begin.meteringExpiry_demand⟩, fun s i hi =>
    ⟨fun hon hcalendar => ⟨?_, fun hguard hvoltage _ => State.demandStep_computes hi hon hcalendar hguard hvoltage,
      State.demandStep_holds hi hon hcalendar⟩, State.demandStep_withdraws hi, s.demandStep_keeps⟩⟩
  rw [State.demandStep_on hi hon hcalendar]
  rfl

/-! ### The compliance test within an expiry (R152, R153) -/

/-- The state `e` comes to the compliance test of an expiry that began in `s` with the interval `i`. -/
structure State.comesToTest (s e : State) (i : Interval) : Prop where
  time : e.timeBase = s.timeBase
  run : e.curtail.run = s.curtail.run
  compliance : e.curtail.compliance = s.curtail.compliance
  entry : (s.entry (.line .curtailMissed)).sameButReduce (e.entry (.line .curtailMissed))
  breaches : ∀ j : Interval, e.metering.interval = some j → j.breaches = i.breaches

section Test

variable {s e t : State} {i j : Interval} {pBill : Nat} (h : s.comesToTest e i) (ht : e.complianceTest pBill = t)
  (hj : t.metering.interval = some j)
include h ht hj

/-- What a test of a known form leaves of the unit, of the breaches, and of CURTAIL_MISSED. -/
theorem State.comesToTest.outcome {run : Nat} {compliance before after : Bool} {detail : Option Detail} {count : Nat → Nat}
    (htest : e.complianceTest pBill = e.tested run compliance before after detail count) :
    t.curtail.run = run ∧ t.curtail.compliance = compliance ∧ j.breaches = count i.breaches ∧
      s.handed t (.line .curtailMissed) before after detail := by
  obtain rfl := htest.symm.trans ht
  have hhanded := e.tested_handed run compliance before after detail count
  rw [State.tested_metering] at hj
  obtain ⟨k, hk, rfl⟩ := Option.map_eq_some_iff.mp hj
  rw [State.tested_curtail]
  exact ⟨rfl, rfl, congrArg count (h.breaches k hk), hhanded.within h.time h.entry (Entry.sameButReduce_refl _)⟩

theorem State.comesToTest.unenforced (hno : ∀ o ∈ e.curtail.orders, ¬ (o.state = .active ∧ o.enforced = true)) :
    t.curtail.run = 0 ∧ t.curtail.compliance = s.curtail.compliance ∧ j.breaches = i.breaches ∧
      s.handed t (.line .curtailMissed) true true none := by
  rw [← h.compliance]
  exact h.outcome ht hj (State.complianceTest_unenforced (Curtailment.complianceCeiling_none hno))

variable {x : CurtailOrder} (hx : x ∈ e.curtail.orders) (hactive : x.state = .active) (henforced : x.enforced = true)
  (hleast : ∀ o ∈ e.curtail.orders, o.state = .active → o.enforced = true → x.ceiling ≤ o.ceiling)
include hx hactive henforced hleast

theorem State.comesToTest.within (hp : pBill ≤ x.ceiling) :
    t.curtail.run = 0 ∧ t.curtail.compliance = false ∧ j.breaches = i.breaches ∧
      s.handed t (.line .curtailMissed) s.curtail.compliance false none := by
  rw [← h.compliance]
  exact h.outcome ht hj (State.complianceTest_within
    (Curtailment.complianceCeiling_least (Curtailment.mem_enforcedSet.mpr ⟨hx, hactive, henforced⟩) hleast) hp)

theorem State.comesToTest.missed (hp : x.ceiling < pBill) (hc : s.curtail.compliance = true) :
    t.curtail.run = s.curtail.run ∧ t.curtail.compliance = true ∧ j.breaches = i.breaches ∧
      s.handed t (.line .curtailMissed) true true none := by
  rw [← h.run]
  exact h.outcome ht hj (State.complianceTest_missed
    (Curtailment.complianceCeiling_least (Curtailment.mem_enforcedSet.mpr ⟨hx, hactive, henforced⟩) hleast) hp
    (h.compliance.trans hc))

theorem State.comesToTest.counted (hp : x.ceiling < pBill) (hc : s.curtail.compliance = false)
    (hrun : s.curtail.run < 9) :
    t.curtail.run = s.curtail.run + 1 ∧ t.curtail.compliance = false ∧ j.breaches = i.breaches ∧
      s.handed t (.line .curtailMissed) true true none := by
  rw [← h.run] at hrun ⊢
  exact h.outcome ht hj (State.complianceTest_counted
    (Curtailment.complianceCeiling_least (Curtailment.mem_enforcedSet.mpr ⟨hx, hactive, henforced⟩) hleast) hp
    (h.compliance.trans hc) hrun)

/-- The tenth expiry above the ceiling is a breach, and names an order that gives the ceiling. -/
theorem State.comesToTest.breach (hp : x.ceiling < pBill) (hc : s.curtail.compliance = false)
    (hrun : 9 ≤ s.curtail.run) :
    t.curtail.run = 0 ∧ t.curtail.compliance = true ∧ j.breaches = min 65535 (i.breaches + 1) ∧
      ∃ y ∈ e.curtail.orders, y.state = .active ∧ y.enforced = true ∧ y.ceiling = x.ceiling ∧
        s.handed t (.line .curtailMissed) false true (some (.curtail pBill x.ceiling y.tag)) := by
  have hset : x ∈ e.curtail.enforcedSet := Curtailment.mem_enforcedSet.mpr ⟨hx, hactive, henforced⟩
  obtain ⟨y, hy, hceiling, htag⟩ := Curtailment.givesCeiling_spec hset
  obtain ⟨hmem, hyactive, hyenforced⟩ := Curtailment.mem_enforcedSet.mp hy
  rw [← h.run] at hrun
  obtain ⟨hrun', hc', hbreaches, hhanded⟩ := h.outcome ht hj (State.complianceTest_breach
    (Curtailment.complianceCeiling_least hset hleast) hp (h.compliance.trans hc) hrun)
  rw [htag] at hhanded
  exact ⟨hrun', hc', hbreaches, y, hmem, hyactive, hyenforced, hceiling, hhanded⟩

end Test

/-! ### The expiry (R127) -/

section Expiry

variable {s : State} {i : Interval} (hi : s.metering.interval = some i)
include hi

theorem State.demanded_curtail : s.accounted.demandStep.curtail = s.curtail :=
  (State.demandStep_keeps _ .curtail (by decide)).trans (State.accounted_keeps hi .curtail (by decide))

theorem State.demanded_curtailSlot : s.accounted.demandStep.claims.curtail = s.claims.curtail :=
  (s.accounted.demandStep_slotsBeside (k := .curtail) (by decide)).trans (State.accounted_slotsKept hi .curtail (by decide))

theorem State.beforeTest_curtail : s.beforeTest.curtail = { s.curtail with
    orders := s.curtail.orders.map (CurtailOrder.enforcedAt s.timeBase), lastVoltage := s.busVoltage
    value := s.beforeTest.curtail.value, holdMark := s.beforeTest.curtail.holdMark } := by
  have hcurtail := State.demanded_curtail hi
  have htime : s.accounted.demandStep.timeBase = s.timeBase :=
    (State.demandStep_keeps _ .timeBase (by decide)).trans (State.accounted_keeps hi .timeBase (by decide))
  have hu : s.accounted.demandStep.metering.u = s.busVoltage := by
    rw [State.demandStep_metering, State.accounted_metering hi]
  rw [State.beforeTest, hu]
  have h := s.accounted.demandStep.enforcedWith_curtail s.busVoltage
  rw [hcurtail, htime] at h
  exact h

theorem State.beforeTest_comesToTest : s.comesToTest s.beforeTest i where
  time := (s.beforeTest_keeps .timeBase (by decide)).trans (State.accounted_keeps hi .timeBase (by decide))
  run := by rw [State.beforeTest_curtail hi]
  compliance := by rw [State.beforeTest_curtail hi]
  entry := by
    rw [s.beforeTest_keeps.entry (by decide)]
    exact State.accounted_entry hi (by decide) (FaultId.not_tripped_line (by decide))
  breaches := fun j hj => by
    rw [State.beforeTest_metering, State.demandStep_metering, State.accounted_metering hi] at hj
    exact (congrArg Interval.breaches (Option.some.inj hj)).symm

/-- The CURTAIL slot is the one the hand-off laid. -/
theorem State.meteringExpiry_laid (h : ∃ o ∈ s.curtail.orders, o.state = .active) :
    s.curtailLaid s.meteringExpiry i.efficiency := by
  have hcurtail := State.demanded_curtail hi
  have hefficiency : s.accounted.demandStep.efficiency = i.efficiency := by
    rw [State.efficiency_of (i := s.charged i) (by rw [State.demandStep_metering, State.accounted_metering hi])]
    rfl
  have hlaid := State.enforcedWith_laid s.accounted.demandStep.metering.u (hcurtail.symm ▸ h)
  rw [hefficiency] at hlaid
  have hunit := s.meteringExpiry_curtail
  exact hlaid.transfer (f := id) (fun _ => rfl) (fun _ => rfl)
    (by rw [hunit]; exact (List.map_id _).symm) (s.meteringExpiry_slot (k := .curtail) (by decide))
    (by rw [hunit]; rfl) (by rw [hunit]; rfl) (by rw [hunit]; rfl) (by rw [State.demanded_curtailSlot hi])
    (by rw [hcurtail]) (by rw [hcurtail])

/-- With no order ACTIVE the slot is left. -/
theorem State.meteringExpiry_idle (h : ∀ o ∈ s.curtail.orders, o.state ≠ .active) :
    s.meteringExpiry.claims.curtail = s.claims.curtail ∧ s.meteringExpiry.curtail.value = s.curtail.value ∧
      s.meteringExpiry.curtail.holdMark = s.curtail.holdMark := by
  have hcurtail := State.demanded_curtail hi
  have hidle := State.enforcedWith_idle s.accounted.demandStep.metering.u (hcurtail.symm ▸ h)
  have hslot : s.beforeTest.claims.curtail = s.claims.curtail := by
    rw [State.beforeTest, hidle]
    exact State.demanded_curtailSlot hi
  rw [State.meteringExpiry_curtail, State.beforeTest, hidle, ← hcurtail]
  exact ⟨(s.meteringExpiry_slot (k := .curtail) (by decide)).trans hslot, rfl, rfl⟩

theorem State.meteringExpiry_handed : s.handed s.meteringExpiry (.line .demandExceeded) s.metering.exceedance
    (s.metering.exceedance || decide ((s.charged i).contractEnergy < (s.charged i).eUsed))
    (some (.demand (s.charged i).eUsed (s.charged i).contractEnergy)) := by
  refine (State.accounted_handed hi).within rfl (Entry.sameButReduce_refl _) ?_
  rw [← s.beforeTest_keeps.entry (by decide)]
  exact s.meteringExpiry_handsOver.entry _ (by decide) (FaultId.not_tripped_line (by decide))

theorem State.meteringExpiry_keeps : s.keepsAllBut s.meteringExpiry (.ae :: .metering :: .curtail :: responseParts) :=
  State.keepsAllBut_trans (State.keepsAllBut_mono (State.accounted_keeps hi) (by decide))
    (State.keepsAllBut_trans (State.keepsAllBut_mono s.beforeTest_keeps (by decide))
      (State.keepsAllBut_mono s.meteringExpiry_handsOver.keeps (by decide)))

theorem State.meteringExpiry_ae :
    s.meteringExpiry.ae = { s.ae with list := s.ae.list.map (s.accrueRecord s.measuredCurrent) } :=
  (s.meteringExpiry_handsOver.keeps .ae (by decide)).trans
    ((s.beforeTest_keeps .ae (by decide)).trans (State.accounted_ae hi))

end Expiry

/-- Settles O32: the account, the records, DEMAND_EXCEEDED, the CURTAIL slot and the compliance test of the expiry in turn. -/
theorem meteringExpiryAccountsTheInterval : Obligations.MeteringExpiryAccountsTheInterval := by
  intro s d i htimer hinterval
  have hi : s.begin.metering.interval = some i := hinterval
  obtain ⟨count, hmetering⟩ := s.begin.meteringExpiry_metering
  rw [State.demandStep_metering, State.accounted_metering hi] at hmetering
  have hcurtail := s.begin.meteringExpiry_curtail
  rw [State.beforeTest_curtail hi] at hcurtail
  have htest := State.beforeTest_comesToTest hi
  have horders : s.begin.beforeTest.curtail.orders = s.begin.meteringExpiry.curtail.orders := by
    rw [hcurtail, State.beforeTest_curtail hi]
  have hbill : s.begin.accounted.demandStep.metering.pBill = s.begin.meteringExpiry.metering.pBill := by
    rw [hmetering, State.demandStep_metering, State.accounted_metering hi]
  have hrun := s.begin.meteringExpiry_eq.symm
  rw [hbill] at hrun
  have hj : s.begin.meteringExpiry.metering.interval =
      some { s.begin.charged i with breaches := count i.breaches } := by rw [hmetering]; rfl
  refine ⟨_, _, execMeteringTimerExpiry_eq htimer, hj, by rw [hmetering]; rfl, by rw [hmetering]; rfl, by rw [hmetering]; rfl,
    by rw [hmetering]; rfl, by rw [hmetering]; rfl, by rw [hmetering]; rfl, rfl, by rw [hmetering]; rfl, rfl,
    by rw [hmetering]; rfl, rfl, rfl, rfl, rfl, rfl, by rw [hcurtail]; rfl, State.meteringExpiry_ae hi, ?_,
    by rw [hcurtail]; rfl, State.meteringExpiry_laid hi, State.meteringExpiry_idle hi, ?_, ?_,
    State.keepsAllBut_mono (State.meteringExpiry_keeps hi).since_begin (by decide)⟩
  · have hhanded := State.meteringExpiry_handed hi
    rw [hmetering]
    exact hhanded
  · rw [← horders]
    exact htest.unenforced hrun hj
  · rw [← horders]
    exact fun x hx hactive henforced hleast => ⟨htest.within hrun hj hx hactive henforced hleast,
      htest.missed hrun hj hx hactive henforced hleast, htest.counted hrun hj hx hactive henforced hleast,
      htest.breach hrun hj hx hactive henforced hleast⟩

end Sys2Proof.Machine
end

