-- ==== Sys2Proof/Proofs/OrderEntry.lean ====
section
/-! An order enters the list and is activated (R145, R146, R148, R150). -/

namespace Sys2Proof.Machine

/-! ### The order list (R145) -/

theorem Curtailment.ofTag_spec {c : Curtailment} {tag : Nat} {o : CurtailOrder} (h : c.ofTag tag = some o) :
    o ∈ c.orders ∧ o.tag = tag :=
  ⟨List.mem_of_find?_eq_some h, by simpa using List.find?_some h⟩

theorem Curtailment.ofTag_isSome {c : Curtailment} {tag : Nat} :
    (c.ofTag tag).isSome = true ↔ ∃ o ∈ c.orders, o.tag = tag := by
  simp [Curtailment.ofTag]

theorem Curtailment.ofTag_eq_none {c : Curtailment} {tag : Nat} :
    c.ofTag tag = none ↔ ∀ o ∈ c.orders, o.tag ≠ tag := by
  simp [Curtailment.ofTag]

/-- The place of an order: after those that start no later, before one that starts later. -/
theorem insertOrder_splits (o : CurtailOrder) (l : List CurtailOrder) : ∃ before after : List CurtailOrder,
    l = before ++ after ∧ insertOrder o l = before ++ o :: after ∧ (∀ x ∈ before, x.start ≤ o.start) ∧
      ∀ x ∈ after.take 1, o.start < x.start := by
  induction l with
  | nil => exact ⟨[], [], rfl, rfl, by simp, by simp⟩
  | cons x xs ih =>
    rw [insertOrder]
    split
    · next hle =>
      obtain ⟨before, after, hsplit, hinsert, hbefore, hafter⟩ := ih
      exact ⟨x :: before, after, by rw [hsplit]; rfl, by rw [hinsert]; rfl,
        List.forall_mem_cons.mpr ⟨hle, hbefore⟩, hafter⟩
    · next hlt => exact ⟨[], x :: xs, rfl, rfl, by simp, by simpa using hlt⟩

theorem length_insertOrder (o : CurtailOrder) (l : List CurtailOrder) : (insertOrder o l).length = l.length + 1 := by
  obtain ⟨before, after, hsplit, hinsert, -⟩ := insertOrder_splits o l
  rw [hinsert, hsplit]
  simp only [List.length_append, List.length_cons]
  omega

theorem mem_insertOrder_self (o : CurtailOrder) (l : List CurtailOrder) : o ∈ insertOrder o l := by
  obtain ⟨before, after, -, hinsert, -⟩ := insertOrder_splits o l
  simp [hinsert]

/-- An order goes to the same place in a changed list where no start time has changed. -/
theorem map_insertOrder {f : CurtailOrder → CurtailOrder} (hf : ∀ x, (f x).start = x.start) (o : CurtailOrder)
    (l : List CurtailOrder) : (insertOrder o l).map f = insertOrder (f o) (l.map f) := by
  induction l with
  | nil => rfl
  | cons x xs ih =>
    simp only [insertOrder, List.map_cons, hf]
    split
    · rw [List.map_cons, ih]
    · rfl

/-! ### The activation (R148, R150) -/

/-- An order as its activation at `now` leaves it, its enforcement `grace` seconds later. -/
def CurtailOrder.activatedAt (now grace : Nat) (o : CurtailOrder) : CurtailOrder :=
  { o with state := .active, activation := some now, enforcement := some (min (2 ^ 40 - 1) (now + grace * 1000)) }

/-- The order of a tag activated and the others kept. -/
def activateTag (tag now grace : Nat) (x : CurtailOrder) : CurtailOrder := if x.tag = tag then x.activatedAt now grace else x

theorem activateTag_self (o : CurtailOrder) (now grace : Nat) : activateTag o.tag now grace o = o.activatedAt now grace :=
  if_pos rfl

theorem activateTag_start (tag now grace : Nat) (x : CurtailOrder) : (activateTag tag now grace x).start = x.start := by
  unfold activateTag
  split <;> rfl

theorem map_activateTag_others {tag : Nat} (now grace : Nat) {l : List CurtailOrder} (h : ∀ x ∈ l, x.tag ≠ tag) :
    l.map (activateTag tag now grace) = l :=
  (List.map_congr_left fun x hx => if_neg (h x hx)).trans l.map_id

section Activation

variable (s : State)

/-- The slot is active while an order is (R150). -/
theorem State.writeCurtail_active {s : State} (h : ∃ o ∈ s.curtail.orders, o.state = .active) :
    s.writeCurtail.claims.curtail.active = true := by
  obtain ⟨o, ho, hactive⟩ := h
  cases hleast : leastCeiling s.curtail.active with
  | none =>
    rw [leastCeiling_eq_min?, List.min?_eq_none_iff, List.map_eq_nil_iff] at hleast
    exact absurd hactive ((Curtailment.active_eq_nil _).mp hleast o ho)
  | some c =>
    rw [State.writeCurtail_least hleast]
    split <;> rfl

/-- The list replaced and the notice of an order's state placed. -/
def State.relisted (l : List CurtailOrder) (o : CurtailOrder) (state : OrderState) : State := (s.setOrders l).noteOrder o state

theorem State.relisted_noticed (l : List CurtailOrder) (o : CurtailOrder) (state : OrderState) :
    s.noticed (s.relisted l o state) := (s.setOrders l).notify_noticed _

theorem State.relisted_keeps (l : List CurtailOrder) (o : CurtailOrder) (state : OrderState) :
    s.keepsAllBut (s.relisted l o state) [.curtail, .ports] :=
  State.keepsAllBut_trans (State.keepsAllBut_mono (s.setOrders_keeps l) (by decide))
    (State.keepsAllBut_mono (State.notify_keeps _ _) (by decide))

theorem State.relisted_hears (l : List CurtailOrder) (o : CurtailOrder) (state : OrderState) :
    s.hears (s.relisted l o state) (.orderState o.tag state o.ceiling o.start o.stop l.length) :=
  ((s.setOrders l).hears_notify _).since rfl fun _ => rfl

theorem State.markCurtailed_efficiency : s.markCurtailed.efficiency = s.efficiency := by
  unfold State.efficiency State.markCurtailed State.modInterval
  cases s.metering.interval <;> rfl

theorem State.markCurtailed_metering : s.markCurtailed.metering =
    { s.metering with interval := s.metering.interval.map fun i => { i with curtailed := true } } :=
  s.modInterval_metering _

/-- What the activation of an order leaves (R148). -/
structure State.activates (s t : State) (o : CurtailOrder) : Prop where
  orders : t.curtail.orders = s.curtail.orders.map (activateTag o.tag s.timeBase s.config.curtailGrace)
  metering : t.metering =
    { s.metering with interval := s.metering.interval.map fun i => { i with curtailed := true } }
  voltage : t.curtail.lastVoltage = s.curtail.lastVoltage
  laid : s.curtailLaid t s.efficiency
  slot : (∃ x ∈ t.curtail.orders, x.state = .active) → t.claims.curtail.active = true
  heard : s.hears t (.orderState o.tag .active o.ceiling o.start o.stop s.curtail.orders.length)
  noticed : s.noticed t
  keeps : s.keepsAllBut t [.claims, .metering, .curtail, .ports]

/-- The state in which the slot is written at an activation. -/
def State.orderMarked (o : CurtailOrder) : State :=
  (s.relisted (s.curtail.orders.map (activateTag o.tag s.timeBase s.config.curtailGrace)) o .active).markCurtailed

theorem State.activateOrder_eq (o : CurtailOrder) : s.activateOrder o = (s.orderMarked o).writeCurtail := rfl

theorem State.orderMarked_efficiency (o : CurtailOrder) : (s.orderMarked o).efficiency = s.efficiency :=
  State.markCurtailed_efficiency _

theorem State.orderMarked_heard (o : CurtailOrder) :
    s.hears (s.orderMarked o) (.orderState o.tag .active o.ceiling o.start o.stop s.curtail.orders.length) := by
  have h := s.relisted_hears (s.curtail.orders.map (activateTag o.tag s.timeBase s.config.curtailGrace)) o .active
  rw [List.length_map] at h
  exact h

theorem State.orderMarked_keeps (o : CurtailOrder) : s.keepsAllBut (s.orderMarked o) [.metering, .curtail, .ports] :=
  State.keepsAllBut_trans (State.keepsAllBut_mono (s.relisted_keeps _ o .active) (by decide))
    (State.keepsAllBut_mono (State.modInterval_keeps _ _) (by decide))

theorem State.orderMarked_noticed (o : CurtailOrder) : s.noticed (s.orderMarked o) := s.relisted_noticed _ o .active

theorem State.activateOrder_activates (o : CurtailOrder) : s.activates (s.activateOrder o) o := by
  rw [State.activateOrder_eq]
  have hwrite := (s.orderMarked o).writeCurtail_keeps
  have hcurtail := (s.orderMarked o).writeCurtail_curtail
  have hnoticed : (s.orderMarked o).noticed (s.orderMarked o).writeCurtail := State.noticed_of_keeps hwrite (by decide)
  have hlaid := (s.orderMarked o).writeCurtail_laid
  rw [State.orderMarked_efficiency] at hlaid
  exact {
    orders := by rw [hcurtail]; rfl
    metering := (hwrite .metering (by decide)).trans (State.markCurtailed_metering _)
    voltage := by rw [hcurtail]; rfl
    laid := hlaid
    slot := fun h => State.writeCurtail_active (by rwa [hcurtail] at h)
    heard := (s.orderMarked_heard o).later hnoticed
    noticed := State.noticed_trans (s.orderMarked_noticed o) hnoticed
    keeps := State.keepsAllBut_trans (State.keepsAllBut_mono (s.orderMarked_keeps o) (by decide))
      (State.keepsAllBut_mono hwrite (by decide)) }

end Activation

/-! ### POST_ORDER (R146) -/

/-- A request whose own rule answers with a code alone leaves the response in the state the rule has made (R182). -/
theorem exec_responds {s u : State} {i : Instr} {rq : Req} {kind : ReqKind} {body : State → State × Option Answer}
    {code : ResultCode} (hr : s.ready i) (hexec : exec i s = .next (s.take rq kind body))
    (hi : i.request? = some (rq, kind)) (hl : i.requiredLength = some kind.payloadLength)
    (hbody : body (s.answering rq.port) = answer u code) :
    exec i s = .next (u.respondOn rq.port ⟨rq.tag, kind.code, code, []⟩) := by
  rw [hexec, State.take_ready hr hi hl hbody]

section Post

variable {s : State} {p : Port} {tag delay duration ceiling : Nat}

theorem postOrder_outOfRange (h : tag = 0 ∨ 255 < tag ∨ 86400 < delay ∨ duration < 60 ∨ 14400 < duration) :
    postOrder p tag delay duration ceiling s = refuse s .outOfRange := if_pos h

/-- What an accepted order has made of the state: it stands in its place as `o` and its PENDING notice is placed. -/
structure State.takesOrder (s t : State) (o : CurtailOrder) : Prop where
  orders : t.curtail.orders = insertOrder o s.curtail.orders
  heard : s.hears t (.orderState o.tag .pending o.ceiling o.start o.stop (s.curtail.orders.length + 1))
  noticed : s.noticed t
  keeps : s.keepsAllBut t [.claims, .metering, .curtail, .ports]

/-- The order put in its place, with its PENDING notice. -/
def State.entered (s : State) (o : CurtailOrder) : State := s.relisted (insertOrder o s.curtail.orders) o .pending

theorem State.entered_takesOrder (s : State) (o : CurtailOrder) : s.takesOrder (s.entered o) o where
  orders := rfl
  heard := by
    rw [← length_insertOrder o]
    exact s.relisted_hears _ o .pending
  noticed := s.relisted_noticed _ o .pending
  keeps := State.keepsAllBut_mono (s.relisted_keeps _ o .pending) (by decide)

/-- An order activated as it enters stands ACTIVE in the place it entered. -/
theorem State.entered_activates_takesOrder {o : CurtailOrder} (hfree : ∀ x ∈ s.curtail.orders, x.tag ≠ o.tag) :
    s.takesOrder ((s.entered o).activateOrder o) (o.activatedAt s.timeBase s.config.curtailGrace) := by
  have hentered := s.entered_takesOrder o
  have hactivates := (s.entered o).activateOrder_activates o
  exact {
    orders := by
      rw [hactivates.orders, hentered.orders, map_insertOrder (activateTag_start _ _ _), activateTag_self,
        map_activateTag_others _ _ hfree]
      rfl
    heard := hentered.heard.later hactivates.noticed
    noticed := State.noticed_trans hentered.noticed hactivates.noticed
    keeps := State.keepsAllBut_trans hentered.keeps hactivates.keeps }

variable (s p tag delay duration ceiling)

/-- The order that an accepted POST_ORDER leaves in the list: ACTIVE at once for a delay of 0. -/
def State.postedOrder : CurtailOrder :=
  if delay = 0 then (s.newOrder p tag delay duration ceiling).activatedAt s.timeBase s.config.curtailGrace
  else s.newOrder p tag delay duration ceiling

/-- The state that an accepted POST_ORDER leaves, its answer aside. -/
def State.posted : State :=
  if delay = 0 then
    (s.entered (s.newOrder p tag delay duration ceiling)).activateOrder (s.newOrder p tag delay duration ceiling)
  else s.entered (s.newOrder p tag delay duration ceiling)

/-- The activation writes the state and the two times of it alone. -/
theorem State.postedOrder_eq : s.postedOrder p tag delay duration ceiling =
    { s.newOrder p tag delay duration ceiling with
      state := (s.postedOrder p tag delay duration ceiling).state
      activation := (s.postedOrder p tag delay duration ceiling).activation
      enforcement := (s.postedOrder p tag delay duration ceiling).enforcement } := by
  unfold State.postedOrder
  split <;> rfl

variable {s p tag delay duration ceiling}

theorem State.posted_takesOrder (hfree : ∀ x ∈ s.curtail.orders, x.tag ≠ tag) :
    s.takesOrder (s.posted p tag delay duration ceiling) (s.postedOrder p tag delay duration ceiling) := by
  unfold State.posted State.postedOrder
  split
  · exact State.entered_activates_takesOrder hfree
  · exact s.entered_takesOrder _

theorem State.posted_later (h : 0 < delay) : (s.postedOrder p tag delay duration ceiling).state = .pending ∧
    (s.posted p tag delay duration ceiling).claims = s.claims ∧
    (s.posted p tag delay duration ceiling).metering = s.metering := by
  have hdelay : delay ≠ 0 := by omega
  simp only [State.posted, State.postedOrder, if_neg hdelay]
  exact ⟨rfl, rfl, rfl⟩

/-- With a delay of 0 the order is ACTIVE at once, its ACTIVE notice follows, and the slot is written (R148, R150). -/
theorem State.posted_atOnce (hfree : ∀ x ∈ s.curtail.orders, x.tag ≠ tag) {t : State} {o : CurtailOrder}
    (ht : s.posted p tag 0 duration ceiling = t) (ho : s.postedOrder p tag 0 duration ceiling = o) :
    o.state = .active ∧ o.activation = some s.timeBase ∧
    o.enforcement = some (min (2 ^ 40 - 1) (s.timeBase + s.config.curtailGrace * 1000)) ∧
    s.hears t (.orderState tag .active o.ceiling o.start o.stop (s.curtail.orders.length + 1)) ∧
    t.metering = { s.metering with interval := s.metering.interval.map fun i => { i with curtailed := true } } ∧
    t.curtail.lastVoltage = s.curtail.lastVoltage ∧ s.curtailLaid t s.efficiency ∧ t.claims.curtail.active = true := by
  have htakes : s.takesOrder t o := by
    rw [← ht, ← ho]
    exact State.posted_takesOrder hfree
  have hactivates : (s.entered (s.newOrder p tag 0 duration ceiling)).activates t (s.newOrder p tag 0 duration ceiling) := by
    rw [← ht]
    exact State.activateOrder_activates _ _
  have hactive : o.state = .active := by
    rw [← ho]
    rfl
  have hheard := hactivates.heard.since (r := s) rfl (s.entered_takesOrder _).noticed.role
  rw [(s.entered_takesOrder _).orders, length_insertOrder] at hheard
  refine ⟨hactive, by rw [← ho]; rfl, by rw [← ho]; rfl, ?_, hactivates.metering, hactivates.voltage, hactivates.laid,
    hactivates.slot ⟨o, by rw [htakes.orders]; exact mem_insertOrder_self _ _, hactive⟩⟩
  rw [← ho]
  exact hheard

/-! ### The tests in turn -/

section InRange

variable (hin : ¬ (tag = 0 ∨ 255 < tag ∨ 86400 < delay ∨ duration < 60 ∨ 14400 < duration))
include hin

/-- POST_ORDER with its values in range. -/
theorem postOrder_inRange : postOrder p tag delay duration ceiling s =
    if (s.curtail.ofTag tag).isSome then refuse s .duplicate
    else if orderLimit ≤ s.curtail.orders.length then refuse s .full
    else answer (s.posted p tag delay duration ceiling) (okOrClamped (powerLimit < ceiling)) :=
  if_neg hin

theorem postOrder_duplicate (hused : ∃ x ∈ s.curtail.orders, x.tag = tag) :
    postOrder p tag delay duration ceiling s = refuse s .duplicate :=
  (postOrder_inRange hin).trans (if_pos (Curtailment.ofTag_isSome.mpr hused))

variable (hfree : ∀ x ∈ s.curtail.orders, x.tag ≠ tag)
include hfree

theorem postOrder_unused : postOrder p tag delay duration ceiling s =
    if orderLimit ≤ s.curtail.orders.length then refuse s .full
    else answer (s.posted p tag delay duration ceiling) (okOrClamped (powerLimit < ceiling)) :=
  (postOrder_inRange hin).trans (if_neg (by rw [Curtailment.ofTag_eq_none.mpr hfree]; decide))

theorem postOrder_full (hfull : 4 ≤ s.curtail.orders.length) :
    postOrder p tag delay duration ceiling s = refuse s .full := (postOrder_unused hin hfree).trans (if_pos hfull)

theorem postOrder_accepted (hroom : s.curtail.orders.length < 4) : postOrder p tag delay duration ceiling s =
    answer (s.posted p tag delay duration ceiling) (if 2000000 < ceiling then .okClamped else .ok) :=
  (postOrder_unused hin hfree).trans ((if_neg (Nat.not_le.mpr hroom)).trans
    (congrArg (answer _) (if_congr decide_eq_true_iff rfl rfl)))

end InRange

end Post

/-- Settles O36: the tests in turn, then the order in its place, and what its activation at once adds. -/
theorem postedOrdersEnterTheList : Obligations.PostedOrdersEnterTheList := by
  intro rq tag delay duration ceiling s c
  refine ⟨State.refusesOthers_of_permits (kind := .postOrder) rfl (by intro r; cases r <;> simp [requestPermits]),
    fun hr => ⟨fun hout => exec_answered hr rfl rfl rfl (postOrder_outOfRange hout),
      fun htag htag' hdelay hduration hduration' => ?_⟩⟩
  have hin : ¬ (tag = 0 ∨ 255 < tag ∨ 86400 < delay ∨ duration < 60 ∨ 14400 < duration) := by omega
  refine ⟨fun hused => exec_answered hr rfl rfl rfl (postOrder_duplicate (s := s.answering rq.port) hin hused),
    fun hfree hfull => exec_answered hr rfl rfl rfl (postOrder_full (s := s.answering rq.port) hin hfree hfull),
    fun hfree hroom => ?_⟩
  have hexec := exec_responds (i := c) hr rfl rfl rfl
    (postOrder_accepted (s := s.answering rq.port) (p := rq.port) (ceiling := ceiling) hin hfree hroom)
  have htakes := State.posted_takesOrder (s := s.answering rq.port) (p := rq.port) (delay := delay)
    (duration := duration) (ceiling := ceiling) hfree
  have hfields := (s.answering rq.port).postedOrder_eq rq.port tag delay duration ceiling
  generalize hu : (s.answering rq.port).posted rq.port tag delay duration ceiling = u at hexec htakes
  generalize ho : (s.answering rq.port).postedOrder rq.port tag delay duration ceiling = o at htakes hfields
  have htagged : o.tag = tag := congrArg CurtailOrder.tag hfields
  have hheard := htakes.heard
  rw [htagged] at hheard
  obtain ⟨before, after, hsplit, hinsert, hbefore, hafter⟩ := insertOrder_splits o s.curtail.orders
  refine ⟨_, o, before, after, hexec, hsplit, htakes.orders.trans hinsert, fun x hx _ => hbefore x hx, hafter,
    htagged, congrArg CurtailOrder.ceiling hfields, congrArg CurtailOrder.start hfields, State.hears_respondOn _ _ _ hheard,
    (congrArg CurtailOrder.stop hfields).trans ?_, congrArg CurtailOrder.duration hfields,
    congrArg CurtailOrder.port hfields, congrArg CurtailOrder.enforced hfields,
    State.portsAnswer_of_noticed _ _ _ _ htakes.noticed, htakes.keeps .out (by decide), fun hdelay => ?_, fun hdelay => ?_,
    State.keepsAllBut_mono (State.keepsAllBut_respondOn htakes.keeps _) (by decide)⟩
  · rw [congrArg CurtailOrder.start hfields]
    rfl
  · rw [← hu, ← ho]
    exact State.posted_later hdelay
  · subst hdelay
    obtain ⟨hactive, hactivation, henforcement, hheard, hparts⟩ :=
      State.posted_atOnce (s := s.answering rq.port) hfree hu ho
    exact ⟨hactive, hactivation, henforcement, State.hears_respondOn _ _ _ hheard, hparts⟩

end Sys2Proof.Machine
end

