-- ==== Sys2Proof/Proofs/OrderEnds.lean ====
section
/-! An order leaves the list: cancelled, or at its end (R147, R149, R150, R153); and its start deadline (R148). -/

namespace Sys2Proof.Machine

/-! ### The compliance condition after a removal (R152, R153) -/

section Compliance

variable {s : State}

/-- A condition that is absent afterwards departs at most. -/
theorem State.conditionChange_absent_keeps (s : State) (id : FaultId) (before : Bool) (detail : Option Detail) :
    s.keepsAllBut (s.conditionChange id before false detail) [.faults, .ports] := by
  cases before
  · exact s.keepsAllBut_refl _
  · exact s.departure_keeps id

/-- With no enforced order left the run is 0 and a present condition departs. -/
theorem State.emptyEnforced_empty (h : ∀ o ∈ s.curtail.orders, ¬ (o.state = .active ∧ o.enforced = true)) :
    s.emptyEnforced = ({ s with curtail := { s.curtail with compliance := false, run := 0 } } : State).conditionChange
      (.line .curtailMissed) s.curtail.compliance false none :=
  if_pos (List.eq_nil_iff_forall_not_mem.mpr fun o ho =>
    h o (Curtailment.mem_enforcedSet.mp ho).1 (Curtailment.mem_enforcedSet.mp ho).2)

theorem State.emptyEnforced_remaining (h : ∃ o ∈ s.curtail.orders, o.state = .active ∧ o.enforced = true) :
    s.emptyEnforced = s := by
  obtain ⟨o, ho, hset⟩ := h
  exact if_neg (List.ne_nil_of_mem (Curtailment.mem_enforcedSet.mpr ⟨ho, hset⟩))

theorem Curtailment.enforced_or_none (c : Curtailment) :
    (∃ o ∈ c.orders, o.state = .active ∧ o.enforced = true) ∨
      ∀ o ∈ c.orders, ¬ (o.state = .active ∧ o.enforced = true) := by
  by_cases h : ∃ o ∈ c.orders, o.state = .active ∧ o.enforced = true
  · exact .inl h
  · exact .inr fun o ho hset => h ⟨o, ho, hset⟩

/-- Only the run and the condition of the unit are touched. -/
theorem State.emptyEnforced_curtail (s : State) : s.emptyEnforced.curtail =
    { s.curtail with compliance := s.emptyEnforced.curtail.compliance, run := s.emptyEnforced.curtail.run } := by
  rcases s.curtail.enforced_or_none with h | h
  · rw [State.emptyEnforced_remaining h]
  · rw [State.emptyEnforced_empty h, State.conditionChange_absent_keeps _ _ _ _ .curtail (by decide)]

theorem State.emptyEnforced_keeps (s : State) : s.keepsAllBut s.emptyEnforced [.curtail, .faults, .ports] := by
  rcases s.curtail.enforced_or_none with h | h
  · rw [State.emptyEnforced_remaining h]
    exact s.keepsAllBut_refl _
  · rw [State.emptyEnforced_empty h]
    exact State.keepsAllBut_trans (State.keepsAllBut_mono (s.curtailUnit_keeps _) (by decide))
      (State.keepsAllBut_mono (State.conditionChange_absent_keeps _ _ _ _) (by decide))

theorem State.emptyEnforced_noticed (s : State) : s.noticed s.emptyEnforced := by
  rcases s.curtail.enforced_or_none with h | h
  · rw [State.emptyEnforced_remaining h]
    exact s.noticed_refl
  · rw [State.emptyEnforced_empty h]
    exact State.noticed_trans (State.noticed_of_keeps (s.curtailUnit_keeps _) (by decide))
      (State.conditionChange_noticed _ _ _ _ _)

theorem State.emptyEnforced_departs (h : ∀ o ∈ s.curtail.orders, ¬ (o.state = .active ∧ o.enforced = true)) :
    s.emptyEnforced.curtail.run = 0 ∧ s.emptyEnforced.curtail.compliance = false ∧
      s.handed s.emptyEnforced (.line .curtailMissed) s.curtail.compliance false none := by
  rw [State.emptyEnforced_empty h, State.conditionChange_absent_keeps _ _ _ _ .curtail (by decide)]
  exact ⟨rfl, rfl, State.conditionChange_handed
    (s := { s with curtail := { s.curtail with compliance := false, run := 0 } }) _ _ _
    (.inl (FaultId.not_tripped_line (by decide)))⟩

theorem State.emptyEnforced_stays (h : ∃ o ∈ s.curtail.orders, o.state = .active ∧ o.enforced = true) :
    s.emptyEnforced.curtail.run = s.curtail.run ∧ s.emptyEnforced.curtail.compliance = s.curtail.compliance ∧
      s.handed s.emptyEnforced (.line .curtailMissed) true true none := by
  rw [State.emptyEnforced_remaining h]
  exact ⟨rfl, rfl, s.handed_refl _ true none⟩

end Compliance

/-! ### The removal of an order (R147, R149) -/

section Removal

variable {s : State} {o : CurtailOrder} {state : OrderState}

/-- The order gone from the list, with the notice of its new state. -/
def State.delisted (s : State) (o : CurtailOrder) (state : OrderState) : State :=
  s.relisted (s.curtail.orders.filter fun x => x.tag != o.tag) o state

theorem State.removeOrder_pending (h : o.state = .pending) : s.removeOrder o state = s.delisted o state := by
  unfold State.removeOrder
  rw [h]
  rfl

theorem State.removeOrder_active (h : o.state = .active) :
    s.removeOrder o state = (s.delisted o state).writeCurtail.emptyEnforced := by
  unfold State.removeOrder
  rw [h]
  rfl

/-- What the removal of an ACTIVE order with the notice of `state` leaves. -/
structure State.removes (s t : State) (o : CurtailOrder) (state : OrderState) : Prop where
  orders : t.curtail.orders = s.curtail.orders.filter fun x => x.tag != o.tag
  heard : s.hears t (.orderState o.tag state o.ceiling o.start o.stop t.curtail.orders.length)
  idle : (∀ x ∈ t.curtail.orders, x.state ≠ .active) → t.claims.curtail.active = false
  slot : (∃ x ∈ t.curtail.orders, x.state = .active) → t.claims.curtail.active = true
  laid : s.curtailLaid t s.efficiency
  voltage : t.curtail.lastVoltage = s.curtail.lastVoltage
  departs : (∀ x ∈ t.curtail.orders, ¬ (x.state = .active ∧ x.enforced = true)) →
    t.curtail.run = 0 ∧ t.curtail.compliance = false ∧
      s.handed t (.line .curtailMissed) s.curtail.compliance false none
  stays : (∃ x ∈ t.curtail.orders, x.state = .active ∧ x.enforced = true) →
    t.curtail.run = s.curtail.run ∧ t.curtail.compliance = s.curtail.compliance ∧
      s.handed t (.line .curtailMissed) true true none
  noticed : s.noticed t
  keeps : s.keepsAllBut t [.claims, .curtail, .faults, .ports]

/-- The order gone and the slot written from those that remain. -/
def State.delistedWritten (s : State) (o : CurtailOrder) (state : OrderState) : State := (s.delisted o state).writeCurtail

theorem State.delistedWritten_curtail : (s.delistedWritten o state).curtail = { s.curtail with
    orders := s.curtail.orders.filter fun x => x.tag != o.tag
    value := (s.delistedWritten o state).curtail.value, holdMark := (s.delistedWritten o state).curtail.holdMark } :=
  (s.delisted o state).writeCurtail_curtail

theorem State.delistedWritten_keeps : s.keepsAllBut (s.delistedWritten o state) [.claims, .curtail, .ports] :=
  State.keepsAllBut_trans (State.keepsAllBut_mono (s.relisted_keeps _ o state) (by decide))
    (State.keepsAllBut_mono (State.writeCurtail_keeps _) (by decide))

theorem State.delistedWritten_noticed : s.noticed (s.delistedWritten o state) :=
  State.noticed_trans (s.relisted_noticed _ o state) (State.noticed_of_keeps (State.writeCurtail_keeps _) (by decide))

theorem State.delistedWritten_heard : s.hears (s.delistedWritten o state)
    (.orderState o.tag state o.ceiling o.start o.stop (s.curtail.orders.filter fun x => x.tag != o.tag).length) :=
  (s.relisted_hears _ o state).later (State.noticed_of_keeps (State.writeCurtail_keeps _) (by decide))

/-- A condition handed after the write of the slot is handed by the removal. -/
theorem State.delistedWritten_handed {t : State} {id : FaultId} {before after : Bool} {detail : Option Detail}
    (h : (s.delistedWritten o state).handed t id before after detail) : s.handed t id before after detail :=
  h.within (State.delistedWritten_keeps .timeBase (by decide))
    (Entry.sameButReduce_of_eq (State.delistedWritten_keeps.entry (by decide) id)) (Entry.sameButReduce_refl _)

theorem State.removeOrder_removes (h : o.state = .active) : s.removes (s.removeOrder o state) o state := by
  have hlaid : s.curtailLaid (s.delistedWritten o state) s.efficiency := (s.delisted o state).writeCurtail_laid
  have hcurtail := State.delistedWritten_curtail (s := s) (o := o) (state := state)
  have hend := (s.delistedWritten o state).emptyEnforced_curtail
  have horders : (s.delistedWritten o state).emptyEnforced.curtail.orders =
      s.curtail.orders.filter fun x => x.tag != o.tag := by rw [hend, hcurtail]
  have hclaims := (s.delistedWritten o state).emptyEnforced_keeps .claims (by decide)
  rw [State.removeOrder_active h, ← State.delistedWritten]
  exact {
    orders := horders
    heard := by
      rw [horders]
      exact State.delistedWritten_heard.later (State.emptyEnforced_noticed _)
    idle := fun hidle => by
      rw [horders] at hidle
      rw [hclaims, State.delistedWritten, State.writeCurtail_withdrawn hidle]
      rfl
    slot := fun hactive => by
      rw [horders] at hactive
      rw [hclaims]
      exact State.writeCurtail_active hactive
    laid := hlaid.transfer (f := id) (fun _ => rfl) (fun _ => rfl) (by rw [hend, List.map_id]) (by rw [hclaims])
      (by rw [hend]) (by rw [hend]) (by rw [hend]) rfl rfl rfl
    voltage := by rw [hend, hcurtail]
    departs := fun hnone => by
      obtain ⟨hrun, hcompliance, hhanded⟩ := State.emptyEnforced_departs (s := s.delistedWritten o state)
        (by rwa [hend] at hnone)
      rw [hcurtail] at hhanded
      exact ⟨hrun, hcompliance, State.delistedWritten_handed hhanded⟩
    stays := fun hsome => by
      obtain ⟨hrun, hcompliance, hhanded⟩ := State.emptyEnforced_stays (s := s.delistedWritten o state)
        (by rwa [hend] at hsome)
      rw [hcurtail] at hrun hcompliance
      exact ⟨hrun, hcompliance, State.delistedWritten_handed hhanded⟩
    noticed := State.noticed_trans State.delistedWritten_noticed (State.emptyEnforced_noticed _)
    keeps := State.keepsAllBut_trans (State.keepsAllBut_mono State.delistedWritten_keeps (by decide))
      (State.keepsAllBut_mono (State.emptyEnforced_keeps _) (by decide)) }

end Removal

/-! ### CANCEL_ORDER (R147) -/

section Cancel

variable {s : State} {tag : Nat} {o : CurtailOrder}

theorem cancelOrder_outOfRange (h : tag = 0 ∨ 255 < tag) : cancelOrder tag s = refuse s .outOfRange := if_pos h

theorem cancelOrder_notFound (hin : ¬ (tag = 0 ∨ 255 < tag)) (hno : ∀ o ∈ s.curtail.orders, o.tag ≠ tag) :
    cancelOrder tag s = refuse s .notFound := by
  rw [cancelOrder, if_neg hin, Curtailment.ofTag_eq_none.mpr hno]

theorem cancelOrder_found (hin : ¬ (tag = 0 ∨ 255 < tag)) (ho : s.curtail.ofTag tag = some o) :
    cancelOrder tag s = answer (s.removeOrder o .cancelled) .ok := by
  rw [cancelOrder, if_neg hin, ho]

end Cancel

/-! ### The deadlines (R148, R149) -/

section Deadlines

variable {s : State} {tag : Nat} {o : CurtailOrder}

theorem Curtailment.inState_of {c : Curtailment} {state : OrderState} (ho : c.ofTag tag = some o)
    (hstate : o.state = state) : c.inState tag state = some o := by
  rw [Curtailment.inState, ho]
  exact if_pos hstate

theorem execOrderStartDeadline_eq (ho : s.curtail.ofTag tag = some o) (hstate : o.state = .pending) :
    exec (.orderStartDeadline tag) s = .next (s.begin.activateOrder o) := by
  change execOrderStartDeadline tag s = _
  unfold execOrderStartDeadline
  simp only [State.begin_curtail, Curtailment.inState_of ho hstate]

theorem execOrderEndDeadline_eq (ho : s.curtail.ofTag tag = some o) (hstate : o.state = .active) :
    exec (.orderEndDeadline tag) s = .next (s.begin.removeOrder o .done) := by
  change execOrderEndDeadline tag s = _
  unfold execOrderEndDeadline
  simp only [State.begin_curtail, Curtailment.inState_of ho hstate]

end Deadlines

/-- Settles O37: the answers and removals of CANCEL_ORDER, the activation at a start deadline and the removal at an end. -/
theorem ordersStartEndAndAreCancelled : Obligations.OrdersStartEndAndAreCancelled := by
  refine ⟨fun rq tag s hr => ⟨fun hout => exec_answered hr rfl rfl rfl (cancelOrder_outOfRange hout),
    fun hlo hhi hno => exec_answered hr rfl rfl rfl (cancelOrder_notFound (s := s.answering rq.port) (by omega) hno),
    fun o hlo hhi ho hstate => ?_, fun o hlo hhi ho hstate => ?_⟩, fun s tag o ho hstate => ?_, fun s tag o ho hstate => ?_⟩
  · have hexec := exec_responds hr rfl rfl rfl (cancelOrder_found (s := s.answering rq.port) (by omega) ho)
    obtain ⟨-, rfl⟩ := Curtailment.ofTag_spec ho
    rw [State.removeOrder_pending hstate] at hexec
    exact ⟨_, hexec, rfl, State.portsAnswer_of_noticed _ _ _ _ (State.relisted_noticed _ _ _ _),
      State.hears_respondOn _ _ _ (State.relisted_hears _ _ _ _),
      State.keepsAllBut_mono (State.keepsAllBut_respondOn (State.relisted_keeps _ _ _ _) _) (by decide)⟩
  · have hexec := exec_responds hr rfl rfl rfl (cancelOrder_found (s := s.answering rq.port) (by omega) ho)
    obtain ⟨-, rfl⟩ := Curtailment.ofTag_spec ho
    have hremoves := State.removeOrder_removes (s := s.answering rq.port) (state := .cancelled) hstate
    exact ⟨_, hexec, hremoves.orders, State.portsAnswer_of_noticed _ _ _ _ hremoves.noticed,
      State.hears_respondOn _ _ _ hremoves.heard, hremoves.idle, hremoves.slot, hremoves.laid, hremoves.voltage,
      hremoves.departs, hremoves.stays,
      State.keepsAllBut_mono (State.keepsAllBut_respondOn hremoves.keeps _) (by decide)⟩
  · have hexec := execOrderStartDeadline_eq ho hstate
    obtain ⟨hmem, rfl⟩ := Curtailment.ofTag_spec ho
    have hactivates := s.begin.activateOrder_activates o
    refine ⟨_, hexec, hactivates.orders, hactivates.voltage, hactivates.laid, hactivates.heard, fun i hi => ?_,
      hactivates.slot ⟨o.activatedAt s.timeBase s.config.curtailGrace, ?_, rfl⟩, hactivates.noticed.quiet,
      State.keepsAllBut_mono hactivates.keeps.since_begin (by decide)⟩
    · rw [hactivates.metering, State.begin_metering, hi]
      rfl
    · rw [hactivates.orders]
      exact List.mem_map.mpr ⟨o, hmem, activateTag_self o _ _⟩
  · have hexec := execOrderEndDeadline_eq ho hstate
    obtain ⟨-, rfl⟩ := Curtailment.ofTag_spec ho
    have hremoves := State.removeOrder_removes (s := s.begin) (state := .done) hstate
    exact ⟨_, hexec, hremoves.orders, hremoves.heard, hremoves.idle, hremoves.slot, hremoves.laid, hremoves.voltage,
      hremoves.departs, hremoves.stays, State.keepsAllBut_mono hremoves.keeps.since_begin (by decide)⟩

end Sys2Proof.Machine
end

