-- ==== Sys2Proof/Proofs/FaultTable.lean ====
section
/-! The operations that write the fault table, and the conditions on it that they keep: reduce values alone move with the line,
and an onset, a departure and CLEAR_FAULT write one entry each (R156 to R167). -/

namespace Sys2Proof.Machine

/-! ### Reduce values (R164) -/

/-- An entry after the settling of the PENDING reduce values: it differs only where it was PENDING, in its reduce value. -/
def Entry.settles (e f : Entry) : Prop := e.sameButReduce f ∧ (e.reduceValue ≠ .pending → f = e)

/-- An entry that only its reduce value may have left, and not even that in an entry that holds nothing. -/
def Entry.revalued (e f : Entry) : Prop := e.sameButReduce f ∧ (e = clearEntry → f = clearEntry)

theorem Entry.settles_of_eq {e f : Entry} (h : f = e) : e.settles f := ⟨Entry.sameButReduce_of_eq h, fun _ => h⟩

theorem Entry.settles.revalued {e f : Entry} (h : e.settles f) : e.revalued f :=
  ⟨h.1, fun he => by rw [h.2 (by rw [he]; decide), he]⟩

theorem Entry.settle_settles (i : Nat) (e : Entry) : e.settles (Entry.settle i e) := by
  refine ⟨Entry.settle_sameButReduce i e, fun h => ?_⟩
  unfold Entry.settle
  split
  · next hp => exact absurd hp h
  · rfl
  · rfl

section Reduce

variable (s : State)

theorem State.writeFaultClaim_faults : s.writeFaultClaim.faults = s.faults := s.writeFaultClaim_keeps .faults (by decide)

/-- Both fault lines of `t` are asserted as those of `s` are. -/
def State.linesKept (s t : State) : Prop := t.faults.lineA = s.faults.lineA ∧ t.faults.lineB = s.faults.lineB

theorem State.linesKept_of_faults {s t : State} (h : t.faults = s.faults) : s.linesKept t := by
  unfold State.linesKept
  rw [h]
  exact ⟨rfl, rfl⟩

theorem State.settlePending_settles (id : FaultId) : (s.entry id).settles (s.settlePending.entry id) := by
  unfold State.settlePending
  split
  · rw [State.writeFaultClaim_entry]
    simp only [State.entry, FaultTable.get_map]
    exact Entry.settle_settles _ _
  · exact Entry.settles_of_eq rfl

theorem State.settlePending_lines : s.linesKept s.settlePending := by
  unfold State.settlePending
  split
  · unfold State.linesKept
    rw [State.writeFaultClaim_faults]
    exact ⟨rfl, rfl⟩
  · exact ⟨rfl, rfl⟩

/-- A change of the line state up to the PENDING reduce values leaves the fault unit. -/
theorem State.crossAll_faults (new : LineState) (c : LineCause) :
    ((s.withLineState new c).crossAll (Eight.ofFn s.inSet)).faults = s.faults :=
  State.crossAll_keeps (s.withLineState new c) (Eight.ofFn s.inSet) .faults (by decide)

theorem State.setLineState_settles (new : LineState) (c : LineCause) (id : FaultId) :
    (s.entry id).settles ((s.setLineState new c).entry id) := by
  have h : ((s.withLineState new c).crossAll (Eight.ofFn s.inSet)).entry id = s.entry id :=
    congrArg (fun u : FaultUnit => u.table.get id) (s.crossAll_faults new c)
  rw [State.setLineState_eq, ← h]
  split
  · exact State.settlePending_settles _ _
  · exact Entry.settles_of_eq rfl

theorem State.setLineState_lines (new : LineState) (c : LineCause) : s.linesKept (s.setLineState new c) := by
  have h : s.linesKept ((s.withLineState new c).crossAll (Eight.ofFn s.inSet)) :=
    State.linesKept_of_faults (s.crossAll_faults new c)
  rw [State.setLineState_eq]
  split
  · obtain ⟨h1, h2⟩ := State.settlePending_lines ((s.withLineState new c).crossAll (Eight.ofFn s.inSet))
    exact ⟨h1.trans h.1, h2.trans h.2⟩
  · exact h

theorem State.reduceLine_entry_ne {id j : FaultId} (hne : j ≠ id) (before : EntryState) :
    (s.reduceLine id before).entry j = s.entry j := by
  unfold State.reduceLine
  split
  · dsimp only
    split
    · rw [State.writeFaultClaim_entry, State.entry_setEntry_ne _ hne]
    · exact State.entry_setEntry_ne _ hne _
  · rfl
  · rfl

theorem State.reduceLine_lines (id : FaultId) (before : EntryState) : s.linesKept (s.reduceLine id before) := by
  unfold State.reduceLine
  split
  · dsimp only
    split
    · unfold State.linesKept
      rw [State.writeFaultClaim_faults]
      exact ⟨rfl, rfl⟩
    · exact ⟨rfl, rfl⟩
  · exact ⟨rfl, rfl⟩
  · exact ⟨rfl, rfl⟩

end Reduce

/-! ### The end of a cleared entry's responses (R161) -/

/-- The first of what follows the clearing of an entry `e`: the fault lines, and the FAULT claim where `e` carried REDUCE. -/
def State.linesAndClaim (s : State) (e : Entry) : State :=
  if e.carries .reduce = true then s.evaluateLines.writeFaultClaim else s.evaluateLines

theorem State.endResponses_eq (s : State) (e : Entry) :
    s.endResponses e =
      if e.carries .hold = true ∧ (s.linesAndClaim e).holdStands = false ∧ (s.linesAndClaim e).line.state = some .hold then
        (s.linesAndClaim e).setLineState .regulating .fault
      else s.linesAndClaim e := rfl

/-! ### Conditions on the fault table -/

/-- A condition on the configuration, the fault unit and the store that each write of the fault table keeps: step 1 of an onset
with the lines evaluated (R159), a departure (R160), a cleared entry with the lines evaluated (R161), and the reduce values
(R164). -/
structure KeptByFaults (P : State → Prop) : Prop where
  apart : ∀ {s t : State}, P s → t.config = s.config → t.faults = s.faults → t.store = s.store → P t
  revalue : ∀ {s t : State}, P s → t.config = s.config → t.store = s.store → s.linesKept t →
    (∀ id : FaultId, (s.entry id).revalued (t.entry id)) → P t
  opened : ∀ {s : State} (id : FaultId) (detail : Option Detail), P s → (s.entry id).state ≠ .active →
    P (s.setEntry id (s.stepOne id detail)).evaluateLines
  again : ∀ {s : State} (id : FaultId) (detail : Option Detail), P s → (s.entry id).state = .active →
    P (s.setEntry id (s.stepOne id detail))
  latch : ∀ {s : State} (id : FaultId), P s → (s.entry id).state = .active →
    P (s.setEntry id { s.entry id with state := .latched })
  cleared : ∀ {s : State} (id : FaultId), P s → P (s.setEntry id clearEntry).evaluateLines

namespace KeptByFaults

variable {P : State → Prop} (k : KeptByFaults P) {s : State}
include k

theorem quiet {t : State} {l : List Part} (hs : P s) (h : s.keepsAllBut t l)
    (hl : Part.config ∉ l ∧ Part.faults ∉ l ∧ Part.store ∉ l) : P t :=
  k.apart hs (h .config hl.1) (h .faults hl.2.1) (h .store hl.2.2)

/-! ### Changes of the line state -/

theorem setLineState (new : LineState) (c : LineCause) (hs : P s) : P (s.setLineState new c) := by
  have hk := s.setLineState_keeps new c
  exact k.revalue hs (hk .config (by decide)) (hk .store (by decide)) (s.setLineState_lines new c)
    fun id => (s.setLineState_settles new c id).revalued

theorem enterBlocked {new : LineState} (c : LineCause) (hb : new.blocked = true) (hs : P s) : P (s.enterBlocked new c) :=
  k.quiet hs (State.enterBlocked_keeps_stopped hb) (by decide)

theorem departure (id : FaultId) (hs : P s) : P (s.departure id) := by
  unfold State.departure
  split
  · next h => exact k.apart (k.latch id hs h) rfl rfl rfl
  · exact hs
  · exact hs

theorem capacityDeparture (hs : P s) : P s.capacityDeparture := by
  unfold State.capacityDeparture
  split
  · exact k.departure _ (k.apart hs rfl rfl rfl)
  · exact hs

theorem enterTripped (hs : P s) : P s.enterTripped := k.capacityDeparture (k.enterBlocked .fault rfl hs)

/-! ### Onsets (R159) -/

theorem holdLine (hs : P s) : P s.holdLine := by
  rw [State.holdLine_eq]
  split
  · exact k.setLineState _ _ hs
  · exact hs

theorem reduceLine {id : FaultId} (before : EntryState) (hs : P s) (hstands : (s.entry id).state ≠ .clear) :
    P (s.reduceLine id before) := by
  have hk := s.reduceLine_keeps_groups id before
  refine k.revalue hs (hk .config (by decide)) (hk .store (by decide)) (s.reduceLine_lines id before) fun j =>
    ⟨s.reduceLine_entry id before j, fun hj => ?_⟩
  have hne : j ≠ id := by
    rintro rfl
    exact hstands (by rw [hj]; rfl)
  rw [s.reduceLine_entry_ne hne, hj]

theorem applyLine {trip : State → State} (ht : ∀ u : State, P u → P (trip u)) {id : FaultId} (before : EntryState)
    (a : Action) (hs : P s) (hstands : (s.entry id).state ≠ .clear) : P (s.applyLine trip id before a) := by
  cases a with
  | note | remove => exact hs
  | hold => exact k.holdLine hs
  | reduce => exact k.reduceLine before hs hstands
  | trip => exact ht _ hs

theorem onsetWith {trip : State → State} (ht : ∀ u : State, P u → P (trip u)) (id : FaultId) (detail : Option Detail)
    (hs : P s) : P (s.onsetWith trip id detail) := by
  rw [State.onsetWith_eq]
  split
  · next h => exact k.again id detail hs h
  · next h =>
    have h1 : P (s.beforeResponse id (s.entry id).state detail (s.stepOne id detail)) :=
      k.quiet (k.opened id detail hs h) (State.captureFault_keeps _ id _ detail) (by decide)
    rw [State.onsetSteps_eq, State.respond_eq]
    refine k.quiet ?_ (State.noteOnset_keeps _ id _ detail) (by decide)
    split
    · exact h1
    · next c _ =>
      have hrem := State.applyRemove_keeps (s.beforeResponse id (s.entry id).state detail (s.stepOne id detail)) id c
      refine k.applyLine ht _ _ (k.quiet h1 hrem (by decide)) ?_
      rw [hrem.entry (by decide), State.beforeResponse_entry_self, State.stepOne_state]
      decide

theorem classifyGroup (g : Group) (hs : P s) : P (s.classifyGroup g) := by
  unfold State.classifyGroup
  split
  · have h1 : P ((s.setService g .removed .adoption).modCool g fun c => { c with adoptionSource := true }) :=
      k.apart (k.quiet hs (s.setService_keeps g .removed .adoption) (by decide)) rfl rfl rfl
    dsimp only
    split
    · exact h1
    · exact k.onsetWith (fun _ hu => hu) _ _ h1
  · exact hs

theorem closeWindow (hs : P s) : P s.closeWindow :=
  State.eachGroup_kept P (fun _ g ht => k.classifyGroup g ht) (k.apart hs rfl rfl rfl)

theorem tripLine (hs : P s) : P s.tripLine := by
  unfold State.tripLine
  split
  · exact hs
  · exact hs
  · exact k.enterTripped (k.closeWindow hs)
  all_goals exact k.enterTripped hs

theorem onset (id : FaultId) (detail : Option Detail) (hs : P s) : P (s.onset id detail) :=
  k.onsetWith (fun _ => k.tripLine) id detail hs

/-- The units reach the fault table through onsets and departures alone. -/
theorem units : KeptByUnits P where
  apart hs h := by
    simp only [State.shared, Prod.mk.injEq] at h
    obtain ⟨-, hconfig, -, hfaults, -, hstore⟩ := h
    exact k.apart hs hconfig hfaults hstore
  writeClaim _ _ hs := k.apart hs rfl rfl rfl
  withdrawClaim _ hs := k.apart hs rfl rfl rfl
  push _ hs := k.apart hs rfl rfl rfl
  departure := k.departure
  onset := k.onset

/-! ### Requests -/

theorem startLine (hs : P s) : P (Machine.startLine s).1 := by
  unfold Machine.startLine
  split
  · exact hs
  · split
    · exact hs
    · exact k.setLineState .starting .request (k.apart hs rfl rfl rfl)

theorem stopLine (hs : P s) : P (Machine.stopLine s).1 := by
  unfold Machine.stopLine
  split
  iterate 3 exact k.setLineState .stopping .request hs
  all_goals exact hs

theorem resetTrip (hs : P s) : P (Machine.resetTrip s).1 := by
  unfold Machine.resetTrip
  split
  · exact hs
  · split
    · exact hs
    · exact k.setLineState .standby .request hs

theorem endResponses (e : Entry) (hs : P s.evaluateLines) : P (s.endResponses e) := by
  have h1 : P (s.linesAndClaim e) := by
    unfold State.linesAndClaim
    split
    · exact k.quiet hs (State.writeFaultClaim_keeps _) (by decide)
    · exact hs
  rw [State.endResponses_eq]
  split
  · exact k.setLineState _ _ h1
  · exact h1

theorem clearLatched (id : FaultId) (p : Port) (hs : P s) : P (s.clearLatched id p) :=
  k.apart (k.endResponses (s.entry id) (k.cleared id hs)) rfl rfl rfl

theorem clearFault (p : Port) (kind group : Nat) (hs : P s) : P (Machine.clearFault p kind group s).1 := by
  unfold Machine.clearFault
  split
  · exact hs
  · split
    · exact k.clearLatched _ p hs
    · exact hs
    · exact hs

/-- WRITE_CONFIG, once a write of the configuration and the step of the generation keep the condition (R187). -/
theorem writeConfig
    (hmod : ∀ {t : State} (f : Configuration → Configuration), (f t.config).floor = t.config.floor →
      (f t.config).actions = t.config.actions → P t → P (t.modConfig f))
    (hfloor : ∀ v : Nat, (writeFloor s v).meets P)
    (haction : ∀ (index route response percent : Nat) (capture : Bool),
      (writeAction s index route response percent capture).meets P)
    (hbump : ∀ {t : State} (code index : Nat) (p : Port), P t → P (t.bumpGeneration code index p))
    (p : Port) (index expected : Nat) (item : ItemWrite) (hs : P s) :
    P (Machine.writeConfig p index expected item s).1 := by
  have hitem := k.units.writeItem hmod hfloor haction index item hs
  unfold Machine.writeConfig
  split
  · exact hs
  · split
    · exact hs
    · split
      · exact hs
      · split
        · exact hs
        · next heq =>
          rw [heq] at hitem
          exact hbump _ _ _ hitem

/-! ### The close of the adopt window (R23) -/

theorem adoptClose (hs : P s) : P s.adoptClose := by
  have h1 := k.closeWindow hs
  unfold State.adoptClose
  dsimp only
  split
  · rw [State.adoptLine_eq]
    exact k.setLineState _ _ (k.quiet h1 (s.closeWindow.adoptOrders_keeps _) (by decide))
  · exact k.capacityDeparture (k.enterBlocked .adoption rfl h1)

/-! ### The expiry of the allocation timer (R32) -/

theorem ownStep (hs : P s) : P s.ownStep.1 := by
  unfold State.ownStep
  split
  · exact k.apart hs rfl rfl rfl
  · have h1 := k.apart (t := s.setICmd (min 60000 (s.line.iCmd + s.config.startRate))) hs rfl rfl rfl
    rw [State.startRise_eq]
    split
    · exact k.setLineState _ _ h1
    · exact h1
  · unfold State.stopDescent
    dsimp only
    split
    · exact k.enterBlocked .ramp rfl hs
    · exact k.apart hs rfl rfl rfl
  all_goals exact hs

theorem runAllocation (l : LineState) (hs : P s) : P (s.runAllocation l) :=
  k.units.conditionChange _ _ _ _ (k.apart (k.quiet hs (s.ordered_keeps l) (by decide)) rfl rfl rfl)

theorem finishExpiry (sent : Bool) (hs : P s) : P (s.finishExpiry sent) := by
  unfold State.finishExpiry
  split
  iterate 4 exact k.runAllocation _ hs
  · split
    · exact k.capacityDeparture hs
    · exact k.quiet hs s.sendBlocked_keeps (by decide)
  · exact k.quiet hs s.sendBlocked_keeps (by decide)
  · exact hs
  · exact hs

theorem allocationExpiry (hs : P s) : P s.allocationExpiry := by
  rw [State.allocationExpiry_stepped]
  exact k.finishExpiry _ (k.units.conditionChange _ _ _ _
    (k.apart (k.ownStep (k.quiet hs s.aimed_keeps (by decide))) rfl rfl rfl))

/-! ### Every step -/

theorem loadDone (htake : P s.takeImage) : P s.loadDone :=
  k.apart (k.setLineState .adopting .reset (k.quiet htake s.taken_keeps (by decide))) rfl rfl rfl

theorem responseSent (hrestart : ∀ {u : State}, P u → P u.restart) (hs : P s) {p : Port} {t : State}
    (h : execResponseSent p s = .next t) : P t := by
  have h1 : P (s.begin.sendResponses p) := k.apart hs rfl rfl rfl
  unfold execResponseSent at h
  dsimp only at h
  split at h
  · split at h
    · split at h <;> cases h
      · exact hrestart h1
      · exact h1
    · cases h; exact h1
  · cases h; exact k.units.begin hs
  · cases h; exact k.units.begin hs

/-- A request whose own rule leaves the configuration, the fault unit and the store. -/
theorem take {rq : Req} {kind : ReqKind} {body : State → State × Option Answer}
    (hbody : ∀ u : State, (body u).1.config = u.config ∧ (body u).1.faults = u.faults ∧ (body u).1.store = u.store)
    (hs : P s) {t : State} (h : (Host.Outcome.next (s.take rq kind body) : Host.Outcome State Fault Refusal) = .next t) :
    P t :=
  k.units.request (fun u hu => by
    obtain ⟨hconfig, hfaults, hstore⟩ := hbody u
    exact k.apart hu hconfig hfaults hstore) hs h

/-- A condition of this kind is kept by every step, if the resets, the load, the saves and WRITE_CONFIG keep it. -/
theorem keptByStep (hpower : ∀ {u : State} (straps : Four Straps), P u → P (powerOn straps u))
    (htake : ∀ {u : State}, P u → P u.takeImage) (hrestart : ∀ {u : State}, P u → P u.restart)
    (hsave : ∀ {u : State} (rq : Req), P u → P (saveConfig rq u).1)
    (hsaved : ∀ {u t : State}, P u → execSaveComplete u = .next t → P t)
    (hconfig : ∀ {u : State} (p : Port) (index expected : Nat) (item : ItemWrite), P u →
      P (Machine.writeConfig p index expected item u).1) : Machine.keptByStep P := by
  refine k.units.keptByStep fun {c s t} hc hs h => ?_
  cases c with
  | powerOnReset straps => exact execPowerOnReset_cases straps h ▸ hpower straps hs
  | configLoadComplete =>
    rcases execConfigLoadComplete_cases h with ⟨-, ht⟩ | ht <;> rw [ht]
    exacts [k.loadDone (htake (k.units.begin hs)), k.units.begin hs]
  | responseSent => exact k.responseSent hrestart hs h
  | startLine => exact k.units.request (fun _ => k.startLine) hs h
  | stopLine => exact k.units.request (fun _ => k.stopLine) hs h
  | resetTrip => exact k.units.request (fun _ => k.resetTrip) hs h
  | clearFault => exact k.units.request (fun _ => k.clearFault _ _ _) hs h
  | saveConfig => exact k.units.request (fun _ => hsave _) hs h
  | saveComplete => exact hsaved hs h
  | writeConfig =>
    cases h
    exact k.units.takeRequest (fun _ => hconfig _ _ _ _) hs
  | setCutoutLimit | setServiceLimit | dropAll => exact k.take (fun _ => ⟨rfl, rfl, rfl⟩) hs h
  | setSetpoint =>
    exact k.take (body := setSetpoint _ _) (fun _ => by unfold setSetpoint; split <;> exact ⟨rfl, rfl, rfl⟩) hs h
  | releaseCutoutLimit | releaseServiceLimit =>
    exact k.take (body := releaseLimit _ _) (fun _ => by unfold releaseLimit; split <;> exact ⟨rfl, rfl, rfl⟩) hs h
  | dropTop =>
    refine k.take (body := dropTop _) (fun _ => ?_) hs h
    unfold dropTop
    split
    · exact ⟨rfl, rfl, rfl⟩
    · split
      · exact ⟨rfl, rfl, rfl⟩
      · exact ⟨rfl, rfl, rfl⟩
      · split <;> exact ⟨rfl, rfl, rfl⟩
  | allocationTimerExpiry =>
    rcases execAllocationTimerExpiry_cases h with ht | ht <;> rw [ht]
    exacts [k.units.begin hs, k.allocationExpiry (k.units.begin hs)]
  | adoptWindowClose =>
    rcases execAdoptWindowClose_cases h with ⟨-, ht⟩ | ht <;> rw [ht]
    exacts [k.adoptClose (k.units.begin hs), k.units.begin hs]
  | snapshotWriteComplete =>
    rcases execSnapshotWriteComplete_cases h with ht | ⟨f, ht⟩ <;> rw [ht]
    exacts [k.units.begin hs, k.apart hs rfl rfl rfl]
  | _ => cases hc

end KeptByFaults

end Sys2Proof.Machine
end

