-- ==== Sys2Proof/Proofs/FaultTableSound.lean ====
section
/-! Every step keeps the fault table sound: its responses (R157, R158), its fault lines (R167) and its entries in CLEAR (R161). -/

namespace Sys2Proof.Machine

/-! ### The fault lines (R167) -/

theorem FaultTable.drivenA_iff (t : FaultTable) :
    t.drivenA = true ↔ ∃ id : FaultId, ((t.get id).state = .active ∨ (t.get id).state = .latched) ∧
      ((t.get id).route = .lineA ∨ (t.get id).route = .both) := by
  have hstands : ∀ x : EntryState, x.stands = true ↔ x = .active ∨ x = .latched := by intro x; cases x <;> decide
  have hdrives : ∀ r : Route, r.drivesA = true ↔ r = .lineA ∨ r = .both := by intro r; cases r <;> decide
  simp only [FaultTable.drivenA, List.any_eq_true, FaultTable.mem_entries, Bool.and_eq_true, hstands, hdrives]
  exact ⟨fun ⟨_, ⟨id, h⟩, hd⟩ => ⟨id, h ▸ hd⟩, fun ⟨id, hd⟩ => ⟨_, ⟨id, rfl⟩, hd⟩⟩

theorem FaultTable.drivenB_iff (t : FaultTable) :
    t.drivenB = true ↔ ∃ id : FaultId, ((t.get id).state = .active ∨ (t.get id).state = .latched) ∧
      ((t.get id).route = .lineB ∨ (t.get id).route = .both) := by
  have hstands : ∀ x : EntryState, x.stands = true ↔ x = .active ∨ x = .latched := by intro x; cases x <;> decide
  have hdrives : ∀ r : Route, r.drivesB = true ↔ r = .lineB ∨ r = .both := by intro r; cases r <;> decide
  simp only [FaultTable.drivenB, List.any_eq_true, FaultTable.mem_entries, Bool.and_eq_true, hstands, hdrives]
  exact ⟨fun ⟨_, ⟨id, h⟩, hd⟩ => ⟨id, h ▸ hd⟩, fun ⟨id, hd⟩ => ⟨_, ⟨id, rfl⟩, hd⟩⟩

/-- The lines are exact when they are as R167 evaluates them. -/
theorem State.linesExact_iff (s : State) :
    s.linesExact ↔ s.faults.lineA = s.faults.table.drivenA ∧ s.faults.lineB = s.faults.table.drivenB := by
  have hA := s.faults.table.drivenA_iff
  have hB := s.faults.table.drivenB_iff
  rw [Bool.eq_iff_iff (a := s.faults.lineA), Bool.eq_iff_iff (a := s.faults.lineB), hA, hB]
  rfl

theorem State.evaluateLines_exact (s : State) : s.evaluateLines.linesExact := s.evaluateLines.linesExact_iff.mpr ⟨rfl, rfl⟩

/-- The lines read of each entry whether it stands and its route. -/
theorem State.linesExact_congr {s t : State} (hs : s.linesExact) (hlines : s.linesKept t)
    (hentry : ∀ id : FaultId, (((t.entry id).state = .active ∨ (t.entry id).state = .latched) ↔
      ((s.entry id).state = .active ∨ (s.entry id).state = .latched)) ∧ (t.entry id).route = (s.entry id).route) :
    t.linesExact := by
  obtain ⟨hA, hB⟩ := hlines
  unfold State.linesExact
  simp only [hA, hB, fun id => (hentry id).1, fun id => (hentry id).2]
  exact hs

/-- A write of one entry that keeps whether it stands and its route. -/
theorem State.linesExact.setEntry {s : State} (hs : s.linesExact) (id : FaultId) (e : Entry)
    (hstands : (e.state = .active ∨ e.state = .latched) ↔
      ((s.entry id).state = .active ∨ (s.entry id).state = .latched)) (hroute : e.route = (s.entry id).route) :
    (s.setEntry id e).linesExact := by
  refine State.linesExact_congr hs ⟨rfl, rfl⟩ fun j => ?_
  by_cases hj : j = id
  · subst hj
    rw [State.entry_setEntry_self]
    exact ⟨hstands, hroute⟩
  · rw [State.entry_setEntry_ne _ hj]
    exact ⟨Iff.rfl, rfl⟩

/-- An onset in ACTIVE moves the count, the last time and the detail alone (R159). -/
theorem State.stepOne_active {s : State} {id : FaultId} (h : (s.entry id).state = .active) (detail : Option Detail) :
    s.stepOne id detail = (s.entry id).again s.timeBase detail := by
  unfold State.stepOne
  rw [h]

theorem State.linesExact_of_faults {s t : State} (hs : s.linesExact) (h : t.faults = s.faults) : t.linesExact := by
  unfold State.linesExact State.entry at hs ⊢
  rwa [h]

theorem keptLines : KeptByFaults State.linesExact where
  apart hs _ hfaults _ := State.linesExact_of_faults hs hfaults
  revalue hs _ _ hlines hentry := State.linesExact_congr hs hlines fun id => by
    rw [(hentry id).1]
    exact ⟨Iff.rfl, rfl⟩
  opened _ _ _ _ := State.evaluateLines_exact _
  again id detail hs h := by
    rw [State.stepOne_active h]
    exact hs.setEntry id _ Iff.rfl rfl
  latch id hs h := hs.setEntry id _ (by simp [h]) rfl
  cleared _ _ := State.evaluateLines_exact _

/-! ### Entries in CLEAR (R161) -/

theorem State.clearEntriesEmpty.setEntry {s : State} (hs : s.clearEntriesEmpty) (id : FaultId) {e : Entry}
    (he : (e.state = .clear → e = clearEntry) ∧ (e.state ≠ .clear → e.response.isSome = true)) :
    (s.setEntry id e).clearEntriesEmpty := by
  intro j
  by_cases hj : j = id
  · subst hj
    rwa [State.entry_setEntry_self]
  · rw [State.entry_setEntry_ne _ hj]
    exact hs j

/-- A standing entry has a response after step 1 of an onset (R158). -/
theorem State.clearEntriesEmpty.stepOne {s : State} (hs : s.clearEntriesEmpty) (id : FaultId) (detail : Option Detail) :
    (s.stepOne id detail).response.isSome = true := by
  unfold State.stepOne
  split
  · rfl
  · next h => exact (hs id).2 (by rw [h]; decide)
  · next h => exact (hs id).2 (by rw [h]; decide)

theorem State.clearEntriesEmpty.setStepOne {s : State} (hs : s.clearEntriesEmpty) (id : FaultId) (detail : Option Detail) :
    (s.setEntry id (s.stepOne id detail)).clearEntriesEmpty :=
  hs.setEntry id ⟨fun h => (nomatch (s.stepOne_state id detail).symm.trans h), fun _ => hs.stepOne id detail⟩

theorem State.clearEntriesEmpty_of_faults {s t : State} (hs : s.clearEntriesEmpty) (h : t.faults = s.faults) :
    t.clearEntriesEmpty := by
  unfold State.clearEntriesEmpty State.entry at hs ⊢
  rwa [h]

theorem keptClear : KeptByFaults State.clearEntriesEmpty where
  apart hs _ hfaults _ := State.clearEntriesEmpty_of_faults hs hfaults
  revalue {s t} hs _ _ _ hentry id := by
    obtain ⟨hsame, hclear⟩ := hentry id
    obtain ⟨hempty, hresponse⟩ := hs id
    obtain ⟨hstate, -, -, -, hresp⟩ := hsame.fields
    rw [hstate, hresp]
    exact ⟨fun h => hclear (hempty h), hresponse⟩
  opened id detail hs _ := hs.setStepOne id detail
  again id detail hs _ := hs.setStepOne id detail
  latch id hs h := hs.setEntry id ⟨fun hc => (nomatch hc), fun _ => (hs id).2 (by rw [h]; decide)⟩
  cleared id hs := hs.setEntry id ⟨fun _ => rfl, fun hn => absurd rfl hn⟩

/-- A condition on the fault unit alone that the writes of the table keep, and that the fault unit meets as a reset leaves it, is
kept by every step (R169, R170). -/
theorem KeptByFaults.keptByStep_of_faults {P : State → Prop} (k : KeptByFaults P)
    (hfaults : ∀ {s t : State}, P s → t.faults = s.faults → P t) (hclear : ∀ s : State, s.faults = clearFaults → P s) :
    Machine.keptByStep P := by
  refine k.keptByStep (fun straps _ => hclear _ rfl) (fun hu => hfaults hu rfl) (fun _ => hclear _ rfl) (fun rq hu => ?_)
    (fun hu h => ?_) (fun p index expected item hu => ?_)
  · unfold saveConfig
    split
    · exact hu
    · exact hu
    · exact hfaults hu rfl
  · unfold execSaveComplete at h
    dsimp only at h
    split at h <;> cases h <;> exact hfaults hu rfl
  · exact k.writeConfig (fun _ _ _ ht => hfaults ht rfl)
      (fun v => by unfold writeFloor; dsimp only; split <;> [trivial; exact hfaults hu rfl])
      (fun i r a pc cp => by
        unfold writeAction
        split <;> [(split <;> [exact hfaults hu rfl; trivial]); trivial])
      (fun _ _ _ ht => hfaults ht rfl) p index expected item hu

/-! ### The responses of Table 9-1 (R157, R158) -/

theorem ActionTable.get_set (a : ActionTable) (k j : FaultKind) (r : ActionRow) :
    (a.set k r).get j = if j = k then r else a.get j := by
  rcases k with k | k <;> rcases j with j | j <;> cases k <;> cases j <;> rfl

/-- The entries and the action table of `s` carry responses that Table 9-1 allows, whatever the store holds. -/
theorem State.responsesAllowed_of_entries {s t : State} (hs : s.responsesAllowed) (hconfig : t.config = s.config)
    (hstore : t.store = s.store)
    (hentry : ∀ (id : FaultId) (c : Carried), (t.entry id).response = some c →
      (s.entry id).response = some c ∨ (id.kind.allows c.configured = true ∧ c.forced = id.kind.forcesRemove)) :
    t.responsesAllowed := by
  obtain ⟨htable, himage, hsave, hcarried⟩ := hs
  rw [State.responsesAllowed, hconfig, hstore]
  exact ⟨htable, himage, hsave, fun id c hc => (hentry id c hc).elim (hcarried id c) fun h => h⟩

theorem State.responsesAllowed.setEntry {s : State} (hs : s.responsesAllowed) (id : FaultId) {e : Entry}
    (he : ∀ c : Carried, e.response = some c →
      (s.entry id).response = some c ∨ (id.kind.allows c.configured = true ∧ c.forced = id.kind.forcesRemove)) :
    (s.setEntry id e).responsesAllowed := by
  refine State.responsesAllowed_of_entries hs rfl rfl fun j c hc => ?_
  by_cases hj : j = id
  · subst hj
    rw [State.entry_setEntry_self] at hc
    exact he c hc
  · rw [State.entry_setEntry_ne _ hj] at hc
    exact .inl hc

theorem State.responsesAllowed.setStepOne {s : State} (hs : s.responsesAllowed) (id : FaultId) (detail : Option Detail) :
    (s.setEntry id (s.stepOne id detail)).responsesAllowed :=
  hs.setEntry id fun _ hc => .inr (State.stepOne_allowed detail (hs.at id) hc)

theorem keptResponses : KeptByFaults State.responsesAllowed where
  apart hs hconfig hfaults hstore := State.responsesAllowed_of_entries hs hconfig hstore fun id c hc => by
    rw [State.entry, hfaults] at hc
    exact .inl hc
  revalue hs hconfig hstore _ hentry := State.responsesAllowed_of_entries hs hconfig hstore fun id c hc => by
    obtain ⟨-, -, -, -, hresponse⟩ := (hentry id).1.fields
    exact .inl (hresponse ▸ hc)
  opened id detail hs _ := hs.setStepOne id detail
  again id detail hs _ := hs.setStepOne id detail
  latch id hs _ := hs.setEntry id fun _ hc => .inl hc
  cleared id hs := hs.setEntry id fun _ hc => nomatch hc

section Responses

variable {s : State} (hs : s.responsesAllowed)
include hs

/-- A change of the configuration that leaves its action table allowed. -/
theorem State.responsesAllowed.modConfig (f : Configuration → Configuration) (hf : (f s.config).responsesAllowed) :
    (s.modConfig f).responsesAllowed := by
  obtain ⟨-, hrest⟩ := hs
  exact ⟨hf, hrest⟩

/-- A row that Table 9-1 does not allow is refused (R157). -/
theorem writeAction_responsesAllowed (index route response percent : Nat) (capture : Bool) :
    (writeAction s index route response percent capture).meets State.responsesAllowed := by
  unfold writeAction
  split
  · split
    · next hallows =>
      refine hs.modConfig _ fun j => ?_
      dsimp only
      rw [ActionTable.get_set]
      split
      · next hj => exact hj ▸ hallows
      · exact hs.1 j
    · trivial
  · trivial

theorem writeConfig_responsesAllowed (p : Port) (index expected : Nat) (item : ItemWrite) :
    (writeConfig p index expected item s).1.responsesAllowed := by
  have hmod : ∀ {t : State} (f : Configuration → Configuration), (f t.config).actions = t.config.actions →
      t.responsesAllowed → (t.modConfig f).responsesAllowed := fun f hf ht => ht.modConfig f fun j => by
    rw [hf]
    exact ht.1 j
  refine keptResponses.writeConfig (fun f _ hf => hmod f hf) (fun v => ?_)
    (writeAction_responsesAllowed hs) (fun _ _ _ ht => ht) p index expected item hs
  unfold writeFloor
  dsimp only
  split
  · trivial
  · exact hmod _ rfl hs

/-- A save captures the action table in force (R189). -/
theorem saveConfig_responsesAllowed (rq : Req) : (saveConfig rq s).1.responsesAllowed := by
  unfold saveConfig
  split
  · exact hs
  · exact hs
  · obtain ⟨htable, -, -, hentry⟩ := hs
    refine ⟨htable, fun i hi => (nomatch hi), fun v hv => ?_, hentry⟩
    cases hv
    exact htable

theorem saveComplete_responsesAllowed {t : State} (h : execSaveComplete s = .next t) : t.responsesAllowed := by
  unfold execSaveComplete at h
  dsimp only at h
  split at h <;> cases h
  · next v hv =>
    obtain ⟨htable, -, hsave, hentry⟩ := hs
    refine ⟨htable, fun i hi => ?_, fun w hw => (nomatch hw), hentry⟩
    cases hi
    exact hsave v hv
  · exact hs
  · exact hs

end Responses

theorem defaultConfiguration_responsesAllowed : defaultConfiguration.responsesAllowed := by
  rintro (k | k) <;> cases k <;> rfl

theorem clearFaults_response (id : FaultId) : (clearFaults.table.get id).response = none := by
  match id with
  | .group k g => cases k <;> exact congrArg Entry.response (Eight.get_fill clearEntry g)
  | .line k => cases k <;> rfl

theorem powerOn_responsesAllowed {s : State} (hs : s.responsesAllowed) (straps : Four Straps) :
    (powerOn straps s).responsesAllowed := by
  obtain ⟨-, himage, -, -⟩ := hs
  exact ⟨defaultConfiguration_responsesAllowed, himage, fun v hv => (nomatch hv), fun id c hc =>
    nomatch (clearFaults_response id).symm.trans hc⟩

theorem restart_responsesAllowed {s : State} (hs : s.responsesAllowed) : s.restart.responsesAllowed := by
  obtain ⟨htable, himage, -, -⟩ := hs
  exact ⟨htable, himage, fun v hv => (nomatch hv), fun id c hc => nomatch (clearFaults_response id).symm.trans hc⟩

theorem takeImage_responsesAllowed {s : State} (hs : s.responsesAllowed) : s.takeImage.responsesAllowed := by
  obtain ⟨-, himage, -, hentry⟩ := hs
  refine ⟨?_, himage, fun v hv => (nomatch hv), hentry⟩
  change (loadedContents s.store.image).config.responsesAllowed
  cases h : s.store.image with
  | none => exact defaultConfiguration_responsesAllowed
  | some i => exact himage i h

/-! ### Every step -/

theorem clearFaults_linesExact {s : State} (h : s.faults = clearFaults) : s.linesExact := by
  rw [State.linesExact_iff, h]
  decide

theorem clearFaults_clearEntriesEmpty {s : State} (h : s.faults = clearFaults) : s.clearEntriesEmpty := by
  intro id
  have hclear : s.entry id = clearEntry := by
    rw [State.entry, h]
    match id with
    | .group k g => cases k <;> exact Eight.get_fill clearEntry g
    | .line k => cases k <;> rfl
  rw [hclear]
  exact ⟨fun _ => rfl, fun hn => absurd rfl hn⟩

/-- Settles O54: the writes of the fault table keep each of the three conditions, and so do the resets, the load, the saves and
WRITE_CONFIG. -/
theorem stepsKeepTheFaultTableSound : Obligations.StepsKeepTheFaultTableSound := by
  refine ⟨keptResponses.keptByStep (fun straps hu => powerOn_responsesAllowed hu straps) takeImage_responsesAllowed
    restart_responsesAllowed (fun rq hu => saveConfig_responsesAllowed hu rq) (fun hu => saveComplete_responsesAllowed hu)
    (fun p index expected item hu => writeConfig_responsesAllowed hu p index expected item), ?_⟩
  have hlines := keptLines.keptByStep_of_faults State.linesExact_of_faults fun _ => clearFaults_linesExact
  have hclear := keptClear.keptByStep_of_faults State.clearEntriesEmpty_of_faults fun _ => clearFaults_clearEntriesEmpty
  exact fun s t hs h => ⟨hlines s t hs.1 h, hclear s t hs.2 h⟩

end Sys2Proof.Machine
end

