-- ==== Sys2Proof/Proofs/OnsetTaken.lean ====
section
/-! An onset taken in CLEAR or LATCHED: the state with its REMOVE applied, the state with its line-level response applied, and
what each leaves of the entries, the lines and the frame store; the departure (R158 to R160, R163 to R167, R172). -/

namespace Sys2Proof.Machine

/-! ### The response of an entry (R156, R158) -/

/-- The line-level response that an entry carries; an entry without a response acts as NOTE does. -/
def Entry.lineAction (e : Entry) : Action :=
  match e.response with
  | none => .note
  | some c => c.configured

/-- The REMOVE of the response that an entry carries (R165). -/
def State.withRemove (s : State) (id : FaultId) (e : Entry) : State :=
  match e.response with
  | none => s
  | some c => s.applyRemove id c

theorem Entry.carries_iff_lineAction {a : Action} (ha : a ≠ .note ∧ a ≠ .remove) (e : Entry) :
    e.carries a = true ↔ e.lineAction = a := by
  obtain ⟨hnote, hremove⟩ := ha
  unfold Entry.carries Entry.lineAction
  cases e.response with
  | none => simp [Ne.symm hnote]
  | some c => simp [Carried.names, hremove]

theorem Entry.lineAction_ne {e : Entry} {a : Action} (ha : a ≠ .note ∧ a ≠ .remove) (h : e.carries a = false) :
    e.lineAction ≠ a := fun he => by
  rw [(e.carries_iff_lineAction ha).mpr he] at h
  cases h

/-- A kind that can trip the line is none that a TRIP reaches. -/
theorem FaultId.not_tripped_of_trips {id : FaultId} (h : id.kind.allows .trip = true) : ¬ id.tripped := by
  rintro (rfl | ⟨g, rfl⟩) <;> cases h

/-! ### The states of an onset (R159) -/

section Taken

variable (s : State) (id : FaultId) (detail : Option Detail)

/-- An onset up to its REMOVE: step 1, the lines, the capture and the removal. -/
def State.removedAt : State :=
  (s.beforeResponse id (s.entry id).state detail (s.stepOne id detail)).withRemove id (s.stepOne id detail)

/-- An onset up to its line-level response. -/
def State.respondedAt : State :=
  (s.removedAt id detail).applyLine State.tripLine id (s.entry id).state (s.stepOne id detail).lineAction

theorem State.onset_taken_eq (h : (s.entry id).state ≠ .active) :
    s.onset id detail = (s.respondedAt id detail).noteOnset id (s.entry id).state detail := by
  rw [State.onset, State.onsetWith_eq, if_neg h, State.onsetSteps_eq, State.respond_eq, State.beforeResponse_entry_self]
  unfold State.respondedAt State.removedAt State.withRemove Entry.lineAction
  cases (s.stepOne id detail).response <;> rfl

theorem State.withRemove_keeps (e : Entry) : s.keepsAllBut (s.withRemove id e) [.groups, .cooling, .ports, .out] := by
  unfold State.withRemove
  split
  · exact s.keepsAllBut_refl _
  · exact s.applyRemove_keeps id _

theorem State.withRemove_noticed (e : Entry) : s.noticed (s.withRemove id e) := by
  unfold State.withRemove
  split
  · exact s.noticed_refl
  · exact s.applyRemove_noticed id _

theorem State.removedAt_keeps : s.keepsAllBut (s.removedAt id detail) [.groups, .cooling, .faults, .stack, .ports, .out] :=
  State.keepsAllBut_trans
    (State.keepsAllBut_mono (s.beforeResponse_keeps id (s.entry id).state detail (s.stepOne id detail)) (by decide))
    (State.keepsAllBut_mono (State.withRemove_keeps _ id _) (by decide))

theorem State.removedAt_noticed : s.noticed (s.removedAt id detail) :=
  State.noticed_trans (State.noticed_of_keeps (s.beforeResponse_keeps id _ detail _) (by decide))
    (State.withRemove_noticed _ id _)

theorem State.respondedAt_noticed : s.noticed (s.respondedAt id detail) :=
  State.noticed_trans (s.removedAt_noticed id detail) (State.applyLine_noticed _ _ _ _)

theorem State.applyLine_keeps (before : EntryState) (a : Action) :
    s.keepsAllBut (s.applyLine State.tripLine id before a) responseParts := by
  cases a with
  | note | remove => exact s.keepsAllBut_refl _
  | hold => exact s.holdLine_keeps
  | reduce => exact s.reduceLine_keeps id before
  | trip => exact s.tripLine_keeps

theorem State.respondedAt_keeps : s.keepsAllBut (s.respondedAt id detail) responseParts :=
  State.keepsAllBut_trans (State.keepsAllBut_mono (s.removedAt_keeps id detail) (by decide)) (State.applyLine_keeps _ _ _ _)

/-! ### The entries -/

theorem State.removedAt_entry (j : FaultId) :
    (s.removedAt id detail).entry j = if j = id then s.stepOne id detail else s.entry j := by
  rw [State.removedAt, (State.withRemove_keeps _ id _).entry (by decide)]
  split
  · next hj => rw [hj, State.beforeResponse_entry_self]
  · next hj => rw [State.beforeResponse_entry_ne _ hj]

theorem State.removedAt_entry_self : (s.removedAt id detail).entry id = s.stepOne id detail := by
  rw [State.removedAt_entry, if_pos rfl]

/-- The response that an onset carries is one its kind allows. -/
theorem State.lineAction_allowed {s : State} {id : FaultId} (hs : s.responsesAllowed) {a : Action} (ha : a ≠ .note)
    (h : (s.stepOne id detail).lineAction = a) : id.kind.allows a = true := by
  unfold Entry.lineAction at h
  cases hc : (s.stepOne id detail).response with
  | none =>
    rw [hc] at h
    exact absurd h.symm ha
  | some c =>
    rw [hc] at h
    exact h ▸ (State.stepOne_allowed detail (hs.at id) hc).1

end Taken

section Entries

variable {s : State} {id j : FaultId}

/-- A line-level response leaves an entry that it does not reach: a HOLD outside REGULATING, a REDUCE of another entry or at an
onset from LATCHED, a TRIP as `trip` does. -/
theorem State.applyLine_entry_eq {trip : State → State} {before : EntryState} {a : Action}
    (hhold : a = .hold → s.line.state ≠ some .regulating) (hreduce : a = .reduce → j ≠ id ∨ before ≠ .clear)
    (htrip : a = .trip → (trip s).entry j = s.entry j) : (s.applyLine trip id before a).entry j = s.entry j := by
  cases a with
  | note | remove => rfl
  | hold =>
    change s.holdLine.entry j = _
    rw [State.holdLine_eq, if_neg (hhold rfl)]
  | reduce =>
    rcases hreduce rfl with hj | hb
    · exact s.reduceLine_entry_ne hj before
    · change (s.reduceLine id before).entry j = _
      unfold State.reduceLine
      cases before with
      | clear => exact absurd rfl hb
      | active | latched => rfl
  | trip => exact htrip rfl

/-- An onset that cannot trip the line leaves the other entries while the line does not regulate. -/
theorem State.onsetWith_entry_ne (hline : s.line.state ≠ some .regulating) (hj : j ≠ id) (detail : Option Detail) :
    (s.onsetWith (fun t => t) id detail).entry j = s.entry j := by
  rw [State.onsetWith_eq]
  split
  · exact s.entry_setEntry_ne hj _
  · have hw := s.beforeResponse_keeps id (s.entry id).state detail (s.stepOne id detail)
    have hentry : (s.beforeResponse id (s.entry id).state detail (s.stepOne id detail)).entry j = s.entry j :=
      State.beforeResponse_entry_ne _ hj _ _ _
    rw [State.onsetSteps_eq, State.respond_eq, (State.noteOnset_keeps _ id _ detail).entry (by decide)]
    split
    · exact hentry
    · have hr := State.applyRemove_keeps (s.beforeResponse id (s.entry id).state detail (s.stepOne id detail)) id ‹Carried›
      rw [State.applyLine_entry_eq (fun _ => by rwa [hr .line (by decide), hw .line (by decide)]) (fun _ => .inl hj)
        (fun _ => rfl), hr.entry (by decide), hentry]

/-- The close of the adopt window leaves the entries but those of GROUP_STATE_MISMATCH (R23). -/
theorem State.closeWindow_entry_ne (h : s.line.state = some .adopting) (hj : ∀ g : Group, j ≠ .group .mismatch g) :
    s.closeWindow.entry j = s.entry j := by
  refine (State.eachGroup_kept (f := State.classifyGroup) (fun t => t.entry j = s.entry j ∧ t.line.state = some .adopting)
    (fun t g ht => ?_) (s := { s with line := { s.line with adoptDeadline := none } }) ⟨rfl, h⟩).1
  obtain ⟨hentry, hline⟩ := ht
  have hk := t.adoptStray_keeps g
  have hstray : (t.adoptStray g).line.state = some .adopting := by rwa [hk .line (by decide)]
  have hnot : (t.adoptStray g).line.state ≠ some .regulating := by simp [hstray]
  rw [State.classifyGroup_eq]
  split
  · split
    · exact ⟨(hk.entry (by decide) j).trans hentry, hstray⟩
    · exact ⟨((State.onsetWith_entry_ne hnot (hj g) _).trans (hk.entry (by decide) j)).trans hentry,
        by rwa [State.onsetWith_id_line _ _ _ hnot]⟩
  · exact ⟨hentry, hline⟩

/-- A TRIP leaves the entries that it does not reach. -/
theorem State.tripLine_entry_eq (hj : ¬ j.tripped) : s.tripLine.entry j = s.entry j := by
  have hcap : j ≠ .line .capacityShort := fun h => hj (.inl h)
  unfold State.tripLine
  split
  · rfl
  · rfl
  · next h => rw [State.enterTripped_entry _ hcap, State.closeWindow_entry_ne h fun g hg => hj (.inr ⟨g, hg⟩)]
  all_goals exact s.enterTripped_entry hcap

/-- A line-level response settles the entries that REDUCE and TRIP do not reach, and leaves them where it is no HOLD. -/
theorem State.applyLine_settles {before : EntryState} {a : Action} (hreduce : a = .reduce → j ≠ id ∨ before ≠ .clear)
    (htrip : a = .trip → ¬ j.tripped) :
    (s.entry j).settles ((s.applyLine State.tripLine id before a).entry j) ∧
      (a ≠ .hold → (s.applyLine State.tripLine id before a).entry j = s.entry j) := by
  have hother (hhold : a ≠ .hold) : (s.applyLine State.tripLine id before a).entry j = s.entry j :=
    State.applyLine_entry_eq (fun h => absurd h hhold) hreduce fun h => State.tripLine_entry_eq (htrip h)
  refine ⟨?_, hother⟩
  by_cases hhold : a = .hold
  · subst hhold
    change (s.entry j).settles (s.holdLine.entry j)
    rw [State.holdLine_eq]
    split
    · exact s.setLineState_settles _ _ j
    · exact Entry.settles_of_eq rfl
  · exact Entry.settles_of_eq (hother hhold)

end Entries

/-! ### The fault lines (R167) -/

/-- The lines are evaluated after step 1, and no response moves them from what the entries drive. -/
theorem State.respondedAt_lines (s : State) (id : FaultId) (detail : Option Detail) :
    (s.respondedAt id detail).linesExact := by
  have hbefore : (s.beforeResponse id (s.entry id).state detail (s.stepOne id detail)).linesExact :=
    keptLines.quiet (State.evaluateLines_exact _) (State.captureFault_keeps _ id _ detail) (by decide)
  refine keptLines.applyLine (fun _ => keptLines.tripLine) _ _
    (keptLines.quiet hbefore (State.withRemove_keeps _ id _) (by decide)) ?_
  rw [s.removedAt_entry_self, State.stepOne_state]
  decide

/-! ### The frame store (R172, R173) -/

/-- The frame that an onset pushes is that of its entry after step 1 and of the moment before the response. -/
theorem State.beforeResponse_stack (s : State) (id : FaultId) (before : EntryState) (detail : Option Detail) (e : Entry) :
    (s.beforeResponse id before detail e).stack = s.onsetStack id before detail e := by
  have hentry : (s.setEntry id e).evaluateLines.entry id = e := s.entry_setEntry_self id e
  unfold State.beforeResponse State.captureFault State.onsetStack
  rw [hentry]
  dsimp only
  split <;> rfl

/-- The close of the adopt window with no group to remove. -/
theorem State.closeWindow_stack {s : State} (h : ∀ g : Group, (s.group g).service = .out → (s.group g).measured = 0) :
    s.closeWindow.stack = s.stack := by
  refine (State.eachGroup_kept (f := State.classifyGroup) (fun t => t.stack = s.stack ∧ t.groups = s.groups)
    (fun t g ht => ?_) (s := { s with line := { s.line with adoptDeadline := none } }) ⟨rfl, rfl⟩).1
  have hg : t.group g = s.group g := congrArg (Eight.get · g) ht.2
  rw [State.classifyGroup_eq, if_neg fun hstray => ?_]
  · exact ht
  · rw [hg, GroupRecord.strays_iff] at hstray
    have := h g hstray.1
    omega

theorem State.enterTripped_stack (s : State) : s.enterTripped.stack = s.stack :=
  (State.capacityDeparture_keeps _ .stack (by decide)).trans
    (State.enterBlocked_keeps_stopped (s := s) (c := .fault) (new := .tripped) rfl .stack (by decide))

theorem State.tripLine_stack {s : State} (h : s.line.state = some .adopting →
    ∀ g : Group, (s.group g).service = .out → (s.group g).measured = 0) : s.tripLine.stack = s.stack := by
  unfold State.tripLine
  split
  · rfl
  · rfl
  · next ha => rw [State.enterTripped_stack, State.closeWindow_stack (h ha)]
  all_goals exact s.enterTripped_stack

theorem State.applyLine_stack {s : State} {id : FaultId} {before : EntryState} {a : Action}
    (h : a = .trip → s.line.state = some .adopting →
      ∀ g : Group, (s.group g).service = .out → (s.group g).measured = 0) :
    (s.applyLine State.tripLine id before a).stack = s.stack := by
  cases a with
  | note | remove => rfl
  | hold =>
    change s.holdLine.stack = _
    rw [State.holdLine_eq]
    split
    · exact s.setLineState_keeps _ _ .stack (by decide)
    · rfl
  | reduce => exact s.reduceLine_keeps_groups id before .stack (by decide)
  | trip => exact State.tripLine_stack (h rfl)

/-- A REMOVE leaves a group's record, or takes the group out of the reach of the adopt window. -/
theorem State.withRemove_group (s : State) (id : FaultId) (e : Entry) (g : Group) :
    (s.withRemove id e).group g = s.group g ∨ 3 ≤ ((s.withRemove id e).group g).service.rank := by
  unfold State.withRemove
  split
  · exact .inl rfl
  · unfold State.applyRemove
    split
    · next k h =>
      split
      · by_cases hg : g = h
        · exact .inr (hg ▸ s.removeGroup_rank h)
        · exact .inl (s.removeGroup_group_ne hg)
      · exact .inl rfl
    · exact .inl rfl

theorem State.respondedAt_stack {s : State} {id : FaultId} {detail : Option Detail}
    (h : (s.stepOne id detail).lineAction = .trip → s.line.state = some .adopting →
      ∀ g : Group, (s.group g).service = .out → (s.group g).measured = 0) :
    (s.respondedAt id detail).stack = s.onsetStack id (s.entry id).state detail (s.stepOne id detail) := by
  have hw := s.beforeResponse_keeps id (s.entry id).state detail (s.stepOne id detail)
  rw [← State.beforeResponse_stack, State.respondedAt, State.applyLine_stack, State.removedAt,
    State.withRemove_keeps _ id _ .stack (by decide)]
  intro htrip hline g hout
  rw [s.removedAt_keeps id detail .line (by decide)] at hline
  rcases State.withRemove_group (s.beforeResponse id (s.entry id).state detail (s.stepOne id detail)) id
    (s.stepOne id detail) g with hg | hg
  · rw [State.removedAt, hg, hw.group (by decide)] at hout ⊢
    exact h htrip hline g hout
  · rw [State.removedAt] at hout
    rw [hout] at hg
    exact absurd hg (by decide)

/-! ### The onset as a whole (R158, R159) -/

section Onset

variable {s : State} {id : FaultId} (detail : Option Detail)

/-- The entries besides its own that an onset without a TRIP leaves, PENDING values that a HOLD settles aside. -/
theorem State.onset_others (h : (s.entry id).state ≠ .active) {j : FaultId} (hj : j ≠ id)
    (htrip : (s.stepOne id detail).lineAction ≠ .trip) :
    (s.entry j).settles ((s.onset id detail).entry j) ∧
      ((s.stepOne id detail).lineAction ≠ .hold → (s.onset id detail).entry j = s.entry j) := by
  rw [State.onset_taken_eq _ _ _ h, (State.noteOnset_keeps _ id _ detail).entry (by decide)]
  have hr : (s.removedAt id detail).entry j = s.entry j := by rw [State.removedAt_entry, if_neg hj]
  rw [← hr]
  exact State.applyLine_settles (fun _ => .inl hj) fun ht => absurd ht htrip

/-- Its own entry stands as step 1 left it, but for a value that a REDUCE from CLEAR sets and one that a HOLD settles. -/
theorem State.onset_own (hs : s.responsesAllowed) (h : (s.entry id).state ≠ .active)
    (hreduce : (s.stepOne id detail).lineAction ≠ .reduce ∨ (s.entry id).state ≠ .clear) :
    (s.stepOne id detail).settles ((s.onset id detail).entry id) ∧
      ((s.stepOne id detail).lineAction ≠ .hold → (s.onset id detail).entry id = s.stepOne id detail) := by
  rw [State.onset_taken_eq _ _ _ h, (State.noteOnset_keeps _ id _ detail).entry (by decide)]
  have hsettles := State.applyLine_settles (s := s.removedAt id detail) (id := id) (j := id) (before := (s.entry id).state)
    (a := (s.stepOne id detail).lineAction) (fun ha => hreduce.elim (fun hne => absurd ha hne) .inr) fun ha =>
      FaultId.not_tripped_of_trips (State.lineAction_allowed detail hs (by decide) ha)
  rwa [s.removedAt_entry_self id detail] at hsettles

theorem State.onset_lines (h : (s.entry id).state ≠ .active) : (s.onset id detail).linesExact := by
  rw [State.onset_taken_eq _ _ _ h]
  exact State.linesExact_of_faults (s.respondedAt_lines id detail) rfl

/-- FAULT_ONSET gives the entry and the lines as they stand when it is placed. -/
theorem State.onset_hears (h : (s.entry id).state ≠ .active) :
    let t := s.onset id detail
    s.hears t (.faultOnset id (s.entry id).state (t.entry id).count (t.entry id).first (t.entry id).last
      (t.entry id).response (t.entry id).route (t.entry id).reduceValue detail t.faults.lineA t.faults.lineB) := by
  rw [State.onset_taken_eq _ _ _ h]
  exact (State.hears_notify (s.respondedAt id detail) _).since (s.respondedAt_keeps id detail .timeBase (by decide))
    (s.respondedAt_noticed id detail).role

/-- An onset taken in CLEAR or LATCHED (R159). -/
theorem State.onset_taken (hs : s.responsesAllowed) (h : (s.entry id).state ≠ .active) :
    s.onsetTaken (s.onset id detail) id (s.entry id).state detail (s.stepOne id detail) := by
  have hown : (s.stepOne id detail).sameButReduce ((s.onset id detail).entry id) := by
    refine State.onset_entry_own detail ?_
    by_cases ht : id.kind.allows .trip = true
    · exact .inl (FaultId.not_tripped_of_trips ht)
    · exact .inr ⟨hs.at id, by simpa using ht⟩
  obtain ⟨hlineA, hlineB⟩ := (State.linesExact_iff _).mp (State.onset_lines detail h)
  refine ⟨hown, fun hstray => ?_, fun htrip j hj => ?_, hlineA, hlineB, ?_, s.onset_keeps id detail⟩
  · rw [State.onset_taken_eq _ _ _ h, State.noteOnset_keeps _ id _ detail .stack (by decide)]
    exact State.respondedAt_stack fun ha => hstray ((Entry.carries_iff_lineAction (by decide) _).mpr ha)
  · obtain ⟨hsettles, hkept⟩ := State.onset_others detail h hj (Entry.lineAction_ne (by decide) htrip)
    exact ⟨hsettles.1, fun hor => hor.elim (fun hhold => hkept (Entry.lineAction_ne (by decide) hhold)) hsettles.2⟩
  · have hears := State.onset_hears detail h
    dsimp only at hears
    rw [show (s.onset id detail).entry id = _ from hown] at hears
    exact hears

/-- An onset whose entry carries NOTE alone and captures nothing: step 1, the lines and the notice. -/
theorem State.onset_note (h : (s.entry id).state ≠ .active) (hnote : (s.stepOne id detail).response = some ⟨.note, false⟩)
    (hcapture : (s.stepOne id detail).capture = false) :
    s.onset id detail =
      (s.setEntry id (s.stepOne id detail)).evaluateLines.noteOnset id (s.entry id).state detail := by
  have hentry : (s.setEntry id (s.stepOne id detail)).evaluateLines.entry id = s.stepOne id detail :=
    s.entry_setEntry_self id _
  have hbefore : s.beforeResponse id (s.entry id).state detail (s.stepOne id detail) =
      (s.setEntry id (s.stepOne id detail)).evaluateLines := by
    unfold State.beforeResponse State.captureFault
    dsimp only
    rw [hentry, hcapture]
    rfl
  have hremoved : s.removedAt id detail = (s.setEntry id (s.stepOne id detail)).evaluateLines := by
    rw [State.removedAt, hbefore, State.withRemove, hnote]
    exact State.applyRemove_unnamed rfl _ id
  rw [State.onset_taken_eq _ _ _ h, State.respondedAt, hremoved, Entry.lineAction, hnote]
  rfl

theorem State.onset_note_keeps (h : (s.entry id).state ≠ .active)
    (hnote : (s.stepOne id detail).response = some ⟨.note, false⟩) (hcapture : (s.stepOne id detail).capture = false) :
    let t := s.onset id detail
    let e := s.stepOne id detail
    t.entry id = e ∧ (∀ j : FaultId, j ≠ id → t.entry j = s.entry j) ∧
    t.faults.lineA = t.faults.table.drivenA ∧ t.faults.lineB = t.faults.table.drivenB ∧
    s.hears t (.faultOnset id (s.entry id).state e.count e.first e.last (some ⟨.note, false⟩) e.route e.reduceValue detail
      t.faults.lineA t.faults.lineB) ∧
    s.keepsAllBut t [.faults, .ports] := by
  have hown : (s.onset id detail).entry id = s.stepOne id detail := by
    rw [State.onset_note detail h hnote hcapture]
    exact s.entry_setEntry_self id _
  have hears := State.onset_hears detail h
  dsimp only at hears ⊢
  rw [hown, hnote] at hears
  refine ⟨hown, fun j hj => ?_, ?_, ?_, hears, ?_⟩ <;> rw [State.onset_note detail h hnote hcapture]
  · exact s.entry_setEntry_ne hj _
  · rfl
  · rfl
  · intro p hp
    cases p <;> first | rfl | exact absurd (by simp) hp

end Onset

theorem State.stepOne_clear {s : State} {id : FaultId} (h : (s.entry id).state = .clear) (detail : Option Detail) :
    s.stepOne id detail = Entry.openWith s.timeBase id.kind (s.config.actions.get id.kind) detail := by
  unfold State.stepOne
  rw [h]

theorem State.stepOne_latched {s : State} {id : FaultId} (h : (s.entry id).state = .latched) (detail : Option Detail) :
    s.stepOne id detail = (s.entry id).reopen s.timeBase detail := by
  unfold State.stepOne
  rw [h]

theorem principalOf_named : principalsNamed :=
  ⟨rfl, fun _ => rfl, fun _ => rfl, fun _ => rfl, fun _ => rfl, fun _ _ => rfl, fun _ => rfl, fun _ _ => rfl, fun _ => rfl,
    fun _ _ => rfl, fun _ => rfl, fun _ _ => rfl, fun _ _ _ => rfl⟩

/-- Settles O38: step 1 from the entry's state, then the steps of an onset, of which only the responses write besides. -/
theorem noteOnsetRecordsDrivesAndReports : Obligations.NoteOnsetRecordsDrivesAndReports := by
  refine ⟨principalOf_named, fun s id detail => ⟨fun h hs => ?_, fun h hs => ?_, fun h hnote hcap hforce => ?_,
    fun h hnote hcap => ?_, fun h => ?_⟩⟩
  · have hne : (s.entry id).state ≠ .active := by simp [h]
    have htaken := State.onset_taken detail hs hne
    have hown := State.onset_own detail hs hne
    rw [State.stepOne_clear h] at htaken hown
    rw [h] at htaken
    refine ⟨htaken, fun hreduce => ?_⟩
    rw [(hown (.inl hreduce)).1.2 (by simp [Entry.openWith])]
    rfl
  · have hne : (s.entry id).state ≠ .active := by simp [h]
    have htaken := State.onset_taken detail hs hne
    obtain ⟨hsettles, hkept⟩ := State.onset_own detail hs hne (.inr (by simp [h]))
    rw [State.stepOne_latched h] at htaken hsettles hkept
    rw [h] at htaken
    refine ⟨htaken, fun hor => ?_⟩
    rcases hor with hpending | hhold
    · rw [hsettles.2 hpending]
      rfl
    · rw [hkept (Entry.lineAction_ne (e := (s.entry id).reopen s.timeBase detail) (by decide) hhold)]
      rfl
  · have hkeeps := State.onset_note_keeps (s := s) (id := id) detail (by simp [h])
    rw [State.stepOne_clear h, h, Entry.openWith, carriedFrom, hnote, hcap, hforce] at hkeeps
    exact hkeeps rfl rfl
  · have hkeeps := State.onset_note_keeps (s := s) (id := id) detail (by simp [h])
    rw [State.stepOne_latched h, h] at hkeeps
    exact hkeeps hnote hcap
  · rw [State.onset, State.onsetWith_eq, if_pos h, State.stepOne_active h]
    rfl

/-- Settles O40: a departure writes the entry and places its notice where the entry is ACTIVE, and is nothing elsewhere. -/
theorem departureLatchesAnActiveEntry : Obligations.DepartureLatchesAnActiveEntry := by
  intro s id
  have heq : s.departure id = if (s.entry id).state = .active then
      (s.setEntry id { s.entry id with state := .latched }).notify (.faultLatched id (s.entry id).count s.timeBase)
      else s := by
    unfold State.departure
    cases (s.entry id).state <;> rfl
  refine ⟨fun h => ?_, fun h => by rw [heq, if_neg h]⟩
  have hnoticed := s.departure_noticed id
  refine ⟨by rw [State.departure_entry_self, if_pos h], fun j hj => s.departure_entry_ne hj, ?_, ?_, ?_,
    fun p => ?_, s.departure_keeps id⟩
  · rw [heq, if_pos h]; rfl
  · rw [heq, if_pos h]; rfl
  · rw [heq, if_pos h]
    exact (State.hears_notify _ _).since rfl fun _ => rfl
  · obtain ⟨more, lost, hp⟩ := hnoticed p
    exact ⟨_, _, hp⟩

end Sys2Proof.Machine
end

