-- ==== Sys2Proof/Proofs/ClearFault.lean ====
section
/-! The FAULT claim as the entries give it (R164), and CLEAR_FAULT (R161). -/

namespace Sys2Proof.Machine

/-! ### The FAULT claim (R164) -/

/-- An entry gives a value to the FAULT claim while it stands, carries REDUCE and holds a set reduce value. -/
theorem Entry.contributes_iff (e : Entry) (v : Nat) :
    e.contributes = some v ↔ e.state ≠ .clear ∧ e.carries .reduce = true ∧ e.reduceValue = .set v := by
  have hstands : e.standsWith .reduce = true ↔ e.state ≠ .clear ∧ e.carries .reduce = true := by
    unfold Entry.standsWith
    cases e.state <;> simp [EntryState.stands]
  unfold Entry.contributes
  split
  · next w hw =>
    rw [hw, ← and_assoc, ← hstands, ReduceValue.set.injEq]
    split <;> simp_all
  · next hw => simp [hw]
  · next hw => simp [hw]

theorem State.mem_reduceValues (s : State) (v : Nat) :
    v ∈ s.faults.table.reduceValues ↔ ∃ j : FaultId, (s.entry j).state ≠ .clear ∧ (s.entry j).carries .reduce = true ∧
      (s.entry j).reduceValue = .set v := by
  simp only [FaultTable.reduceValues, List.mem_filterMap, FaultTable.mem_entries, ← Entry.contributes_iff]
  exact ⟨fun ⟨_, ⟨j, h⟩, hv⟩ => ⟨j, (congrArg Entry.contributes h).trans hv⟩, fun ⟨j, hv⟩ => ⟨_, ⟨j, rfl⟩, hv⟩⟩

/-- The FAULT slot is written with the least of the values given, and withdrawn while there is none. -/
theorem State.writeFaultClaim_eq (s : State) :
    s.writeFaultClaim =
      match s.faults.table.reduceValues.min? with
      | none => s.withdrawClaim .fault
      | some m => s.writeClaim .fault m := by
  unfold State.writeFaultClaim
  cases s.faults.table.reduceValues with
  | nil => rfl
  | cons v vs => rw [List.min?_cons']

/-- The FAULT slot as R164 lays it reads the entries of the one state and the slot's value of the other. -/
theorem State.faultLaid_congr {s s' t t' : State} (h : s.faultLaid t) (hs : s'.claims.fault = s.claims.fault)
    (ht : t'.claims.fault = t.claims.fault) (hentry : ∀ j : FaultId, t'.entry j = t.entry j) : s'.faultLaid t' := by
  unfold State.faultLaid
  simp only [hs, ht, hentry]
  exact h

theorem State.writeFaultClaim_laid (s : State) : s.faultLaid s.writeFaultClaim := by
  have hgives (j : FaultId) (v : Nat) (h : (s.writeFaultClaim.entry j).state ≠ .clear ∧
      (s.writeFaultClaim.entry j).carries .reduce = true ∧ (s.writeFaultClaim.entry j).reduceValue = .set v) :
      v ∈ s.faults.table.reduceValues := by
    rw [State.writeFaultClaim_entry] at h
    exact (s.mem_reduceValues v).mpr ⟨j, h⟩
  have heq := s.writeFaultClaim_eq
  cases hmin : s.faults.table.reduceValues.min? with
  | none =>
    rw [hmin] at heq
    refine ⟨fun _ => by rw [heq]; exact ⟨rfl, rfl⟩, fun j v h _ => ?_⟩
    have hmem := hgives j v h
    rw [List.min?_eq_none_iff.mp hmin] at hmem
    cases hmem
  | some m =>
    rw [hmin] at heq
    obtain ⟨hmem, hleast⟩ := List.min?_eq_some_iff.mp hmin
    obtain ⟨i, hi⟩ := (s.mem_reduceValues m).mp hmem
    simp only [← s.writeFaultClaim_entry] at hi
    refine ⟨fun hnone => absurd hi (hnone i m), fun j v h hall => ?_⟩
    have hv : v = m := Nat.le_antisymm (hall i m hi) (hleast v (hgives j v h))
    rw [heq, hv, Nat.min_comm]
    exact ⟨rfl, rfl⟩

/-! ### The end of the responses of a cleared entry (R161) -/

section EndResponses

variable (s : State) (e : Entry)

theorem State.evaluateLines_keeps : s.keepsAllBut s.evaluateLines [.faults] := by
  intro p hp
  cases p <;> first | rfl | exact absurd (by simp) hp

theorem State.linesAndClaim_keeps : s.keepsAllBut (s.linesAndClaim e) [.claims, .faults] := by
  have h := State.keepsAllBut_mono (m := [.claims, .faults]) s.evaluateLines_keeps (by decide)
  unfold State.linesAndClaim
  split
  · exact State.keepsAllBut_trans h (State.keepsAllBut_mono (State.writeFaultClaim_keeps _) (by decide))
  · exact h

theorem State.linesAndClaim_entry (j : FaultId) : (s.linesAndClaim e).entry j = s.entry j := by
  unfold State.linesAndClaim
  split
  · exact s.evaluateLines.writeFaultClaim_entry j
  · rfl

theorem State.linesAndClaim_slotsKept :
    s.slotsKept (s.linesAndClaim e) ∧ (s.linesAndClaim e).claims.adopted = s.claims.adopted := by
  unfold State.linesAndClaim
  split
  · exact ⟨s.evaluateLines.writeFaultClaim_slotsKept, s.evaluateLines.writeFaultClaim_setpoint.2⟩
  · exact ⟨.refl s, rfl⟩

/-- What follows the FAULT claim is nothing, or the line's return from HOLD to REGULATING. -/
theorem State.endResponses_cases :
    (s.endResponses e = s.linesAndClaim e ∧
      ¬ (e.carries .hold = true ∧ (s.linesAndClaim e).holdStands = false ∧ s.line.state = some .hold)) ∨
    (s.endResponses e = (s.linesAndClaim e).setLineState .regulating .fault ∧
      e.carries .hold = true ∧ (s.linesAndClaim e).holdStands = false ∧ s.line.state = some .hold) := by
  rw [State.endResponses_eq, s.linesAndClaim_keeps e .line (by decide)]
  split
  · next h => exact .inr ⟨rfl, h⟩
  · next h => exact .inl ⟨rfl, h⟩

theorem State.endResponses_settles (j : FaultId) : (s.entry j).settles ((s.endResponses e).entry j) := by
  rcases s.endResponses_cases e with ⟨h, -⟩ | ⟨h, -⟩ <;> rw [h, ← s.linesAndClaim_entry e j]
  · exact Entry.settles_of_eq rfl
  · exact State.setLineState_settles _ _ _ j

theorem State.endResponses_lines : (s.endResponses e).linesExact := keptLines.endResponses e s.evaluateLines_exact

theorem State.endResponses_noticed : s.noticed (s.endResponses e) := by
  have hm : s.noticed (s.linesAndClaim e) := State.noticed_of_keeps (s.linesAndClaim_keeps e) (by decide)
  rcases s.endResponses_cases e with ⟨h, -⟩ | ⟨h, -⟩ <;> rw [h]
  · exact hm
  · exact State.noticed_trans hm (State.setLineState_noticed _ _ _)

/-- The return to REGULATING leaves the groups and their cooling, since HOLD runs as well. -/
theorem State.endResponses_keeps : s.keepsAllBut (s.endResponses e) [.line, .claims, .faults, .ports] := by
  have hm := State.keepsAllBut_mono (m := [.line, .claims, .faults, .ports]) (s.linesAndClaim_keeps e) (by decide)
  rcases s.endResponses_cases e with ⟨h, -⟩ | ⟨h, -, -, hhold⟩ <;> rw [h]
  · exact hm
  · have hrun : LineState.regulating.running = (s.linesAndClaim e).running := by
      rw [State.running_of_line (congrArg Line.state (s.linesAndClaim_keeps e .line (by decide))), State.running, hhold]
      rfl
    obtain ⟨hgroups, hcool⟩ := (s.linesAndClaim e).setLineState_keeps_units .fault hrun
    refine State.keepsAllBut_trans hm (State.keepsAllBut.except (State.setLineState_keeps _ _ _) fun p hp hn => ?_)
    have hp : p = .groups ∨ p = .cooling := by revert hp hn; cases p <;> simp
    rcases hp with rfl | rfl
    exacts [hgroups, hcool]

theorem State.endResponses_slotsKept :
    s.slotsKept (s.endResponses e) ∧ (s.endResponses e).claims.adopted = s.claims.adopted := by
  obtain ⟨hslots, hadopted⟩ := s.linesAndClaim_slotsKept e
  rcases s.endResponses_cases e with ⟨h, -⟩ | ⟨h, -⟩ <;> rw [h]
  · exact ⟨hslots, hadopted⟩
  · exact ⟨hslots.trans (State.setLineState_slotsKept _ _ _), (State.setLineState_setpoint _ _ _).2.trans hadopted⟩

theorem State.holdStands_congr {s t : State} (h : ∀ j : FaultId, (s.entry j).sameButReduce (t.entry j)) :
    t.holdStands = s.holdStands := by
  have hfields (j : FaultId) : (t.entry j).state = (s.entry j).state ∧ (t.entry j).response = (s.entry j).response := by
    obtain ⟨hstate, -, -, -, hresponse⟩ := (h j).fields
    exact ⟨hstate, hresponse⟩
  rw [Bool.eq_iff_iff, State.holdStands_iff, State.holdStands_iff]
  simp only [fun j => (hfields j).1, fun j => (hfields j).2]

/-- A line in HOLD regulates again exactly when the entry carried HOLD and no other HOLD stands (R161). -/
theorem State.endResponses_line (hhold : s.line.state = some .hold) :
    ((s.endResponses e).line.state = some .regulating ↔ e.carries .hold = true ∧ (s.endResponses e).holdStands = false) ∧
      (s.endResponses e).line.iCmd = s.line.iCmd := by
  have hline : (s.linesAndClaim e).line = s.line := s.linesAndClaim_keeps e .line (by decide)
  rcases s.endResponses_cases e with ⟨h, hnot⟩ | ⟨h, hcarries, hstands, -⟩ <;> rw [h]
  · rw [hline, hhold]
    exact ⟨⟨fun hr => (nomatch hr), fun ⟨hc, hs⟩ => absurd ⟨hc, hs, hhold⟩ hnot⟩, rfl⟩
  · rw [State.holdStands_congr fun j => (State.setLineState_settles _ _ _ j).1, State.setLineState_line, hline]
    exact ⟨⟨fun _ => ⟨hcarries, hstands⟩, fun _ => rfl⟩, rfl⟩

/-- An entry that carries REDUCE carries no HOLD, and the claim is laid from the entries that remain. -/
theorem State.endResponses_laid (hreduce : e.carries .reduce = true) : s.faultLaid (s.endResponses e) := by
  have hclaim : s.linesAndClaim e = s.evaluateLines.writeFaultClaim := if_pos hreduce
  rcases s.endResponses_cases e with ⟨h, -⟩ | ⟨-, hhold, -⟩
  · rw [h, hclaim]
    exact State.faultLaid_congr s.evaluateLines.writeFaultClaim_laid rfl rfl fun _ => rfl
  · rw [Entry.carries_iff_lineAction (by decide)] at hreduce hhold
    cases hreduce.symm.trans hhold

/-- Without a PENDING value a change of the line state leaves the claims (R164). -/
theorem State.setLineState_claims (new : LineState) (c : LineCause) (h : ∀ j : FaultId, (s.entry j).reduceValue ≠ .pending) :
    (s.setLineState new c).claims = s.claims := by
  have hfaults := s.crossAll_faults new c
  have hcross : ((s.withLineState new c).crossAll (Eight.ofFn s.inSet)).claims = s.claims :=
    State.crossAll_keeps (s.withLineState new c) (Eight.ofFn s.inSet) .claims (by decide)
  have hnone : ((s.withLineState new c).crossAll (Eight.ofFn s.inSet)).settlePending =
      (s.withLineState new c).crossAll (Eight.ofFn s.inSet) := by
    rw [State.settlePending, if_neg]
    simp only [hfaults, List.any_eq_true, FaultTable.mem_entries, beq_iff_eq]
    rintro ⟨_, ⟨j, rfl⟩, hj⟩
    exact h j hj
  rw [State.setLineState_eq, hnone, ite_self, hcross]

theorem State.endResponses_claims (hreduce : e.carries .reduce = false)
    (hpending : s.line.state = some .hold → ∀ j : FaultId, (s.entry j).reduceValue ≠ .pending) :
    (s.endResponses e).claims = s.claims := by
  have hclaim : s.linesAndClaim e = s.evaluateLines := if_neg (by simp [hreduce])
  rcases s.endResponses_cases e with ⟨h, -⟩ | ⟨h, -, -, hhold⟩ <;> rw [h, hclaim]
  · rfl
  · exact s.evaluateLines.setLineState_claims _ _ (hpending hhold)

end EndResponses

/-! ### CLEAR_FAULT (R161) -/

section Own

variable {s : State} {p : Port} {kind group : Nat} {id : FaultId}

theorem clearFault_outOfRange (h : 12 < kind ∨ (kind < 6 ∧ 7 < group)) :
    clearFault p kind group s = refuse s .outOfRange := by
  unfold clearFault
  rw [faultIdOf_none h]

/-- The answer that the state of the named entry gives. -/
theorem clearFault_named (hkind : id.kind.number = kind) (hgroup : ∀ g : Group, id.group? = some g → group = g.val) :
    ((s.entry id).state = .active → clearFault p kind group s = refuse s .conditionPresent) ∧
    ((s.entry id).state = .clear → clearFault p kind group s = refuse s .notSet) ∧
    ((s.entry id).state = .latched → clearFault p kind group s = answer (s.clearLatched id p) .ok) := by
  subst hkind
  have hid : faultIdOf id.kind.number group = some id := faultIdOf_number id group fun g hg => (hgroup g hg).symm
  unfold clearFault
  simp only [hid]
  refine ⟨fun h => ?_, fun h => ?_, fun h => ?_⟩ <;> simp only [h]

end Own

section ClearLatched

variable (s : State) (id : FaultId) (p : Port)

/-- The notice of a cleared entry gives the count it held and both lines as they stand. -/
theorem State.clearLatched_hears :
    s.hears (s.clearLatched id p) (.faultCleared id (s.entry id).count p (s.clearLatched id p).faults.lineA
      (s.clearLatched id p).faults.lineB) :=
  (State.hears_notify ((s.setEntry id clearEntry).endResponses (s.entry id)) _).since
    (State.endResponses_keeps _ _ .timeBase (by decide)) (State.endResponses_noticed (s.setEntry id clearEntry) _).role

theorem State.clearLatched_noticed : s.noticed (s.clearLatched id p) :=
  State.noticed_trans (t := s.setEntry id clearEntry) (State.noticed_of_ports rfl)
    (State.noticed_trans (State.endResponses_noticed _ _) (State.notify_noticed _ _))

theorem State.clearLatched_entry_self : (s.clearLatched id p).entry id = clearEntry := by
  obtain ⟨-, hkept⟩ := (s.setEntry id clearEntry).endResponses_settles (s.entry id) id
  rw [State.entry_setEntry_self] at hkept
  exact hkept (by decide)

theorem State.clearLatched_lines : (s.clearLatched id p).faults.lineA = (s.clearLatched id p).faults.table.drivenA ∧
    (s.clearLatched id p).faults.lineB = (s.clearLatched id p).faults.table.drivenB :=
  (State.linesExact_iff _).mp ((s.setEntry id clearEntry).endResponses_lines (s.entry id))

/-- Outside HOLD nothing follows the FAULT claim. -/
theorem State.clearLatched_outside_hold (h : s.line.state ≠ some .hold) :
    (s.clearLatched id p).line = s.line ∧ ∀ j : FaultId, j ≠ id → (s.clearLatched id p).entry j = s.entry j := by
  rcases (s.setEntry id clearEntry).endResponses_cases (s.entry id) with ⟨heq, -⟩ | ⟨-, -, -, hhold⟩
  · unfold State.clearLatched
    dsimp only
    rw [heq]
    exact ⟨State.linesAndClaim_keeps _ _ .line (by decide), fun j hj =>
      (State.linesAndClaim_entry _ _ j).trans (s.entry_setEntry_ne hj _)⟩
  · exact absurd hhold h

theorem State.clearLatched_keeps : s.keepsAllBut (s.clearLatched id p) [.line, .claims, .faults, .ports] := by
  refine State.keepsAllBut_trans (t := s.setEntry id clearEntry) ?_
    (State.keepsAllBut_trans (State.endResponses_keeps _ (s.entry id)) (State.keepsAllBut_mono (State.notify_keeps _ _) (by decide)))
  intro q hq
  cases q <;> first | rfl | exact absurd (by simp) hq

/-- The values that are PENDING after an entry is cleared are those of other entries. -/
theorem State.clearLatched_claims (hreduce : (s.entry id).carries .reduce = false)
    (hpending : s.line.state = some .hold → ∀ j : FaultId, (s.entry j).reduceValue ≠ .pending) :
    (s.clearLatched id p).claims = s.claims := by
  refine (s.setEntry id clearEntry).endResponses_claims (s.entry id) hreduce fun hhold j => ?_
  by_cases hj : j = id
  · rw [hj, State.entry_setEntry_self]
    decide
  · rw [State.entry_setEntry_ne _ hj]
    exact hpending hhold j

theorem State.clearLatched_line (hhold : s.line.state = some .hold) :
    ((s.clearLatched id p).line.state = some .regulating ↔
      (s.entry id).carries .hold = true ∧ (s.clearLatched id p).holdStands = false) ∧
    (s.clearLatched id p).line.iCmd = s.line.iCmd :=
  (s.setEntry id clearEntry).endResponses_line (s.entry id) hhold

theorem State.clearLatched_laid (hreduce : (s.entry id).carries .reduce = true) : s.faultLaid (s.clearLatched id p) :=
  State.faultLaid_congr ((s.setEntry id clearEntry).endResponses_laid (s.entry id) hreduce) rfl rfl fun _ => rfl

theorem State.clearLatched_slotsKept :
    s.slotsKept (s.clearLatched id p) ∧ (s.clearLatched id p).claims.adopted = s.claims.adopted :=
  (s.setEntry id clearEntry).endResponses_slotsKept (s.entry id)

end ClearLatched

/-- Settles O41: a cleared entry takes its CLEAR values, and the end of its responses does the rest. -/
theorem clearFaultEndsALatchedEntry : Obligations.ClearFaultEndsALatchedEntry := by
  intro rq kind group s hr
  refine ⟨fun hout => exec_answered hr rfl rfl rfl (clearFault_outOfRange hout), fun id hkind hgroup => ?_⟩
  obtain ⟨hactive, hclear, hlatched⟩ := clearFault_named (s := s.answering rq.port) (p := rq.port) hkind hgroup
  refine ⟨fun h => exec_answered hr rfl rfl rfl (hactive h), fun h => exec_answered hr rfl rfl rfl (hclear h), fun h => ?_⟩
  obtain ⟨hlineA, hlineB⟩ := (s.answering rq.port).clearLatched_lines id rq.port
  obtain ⟨hslots, hadopted⟩ := (s.answering rq.port).clearLatched_slotsKept id rq.port
  have hkeeps := (s.answering rq.port).clearLatched_keeps id rq.port
  have hlaid := (s.answering rq.port).clearLatched_laid id rq.port
  exact ⟨_, exec_responds hr rfl rfl rfl (hlatched h), State.clearLatched_entry_self _ id rq.port, hlineA, hlineB,
    State.portsAnswer_of_noticed _ _ _ _ (State.clearLatched_noticed _ id rq.port), hkeeps .out (by decide),
    State.hears_respondOn _ _ _ (State.clearLatched_hears _ id rq.port),
    (s.answering rq.port).clearLatched_outside_hold id rq.port,
    (s.answering rq.port).clearLatched_line id rq.port, fun hreduce => State.faultLaid_congr (hlaid hreduce) rfl rfl fun _ => rfl,
    (s.answering rq.port).clearLatched_claims id rq.port, hslots, hadopted,
    State.keepsAllBut_trans (State.keepsAllBut_mono (s.answering_keeps rq.port) (by decide))
      (State.keepsAllBut_trans (State.keepsAllBut_mono hkeeps (by decide))
        (State.keepsAllBut_mono (State.respondOn_keeps _ _ _) (by decide)))⟩

end Sys2Proof.Machine
end

