-- ==== Sys2Proof/Proofs/ResponseActs.lean ====
section
/-! What the responses of an onset make of the line, the groups, the claims and the order frames (R4, R7, R15, R17, R22, R46, R68,
R69, R163 to R166). -/

namespace Sys2Proof.Machine

/-! ### GRACE follows the set (R68, R69) -/

/-- What fault responses do to every group leaves no group entering the set, and GRACE ends with the leaving of it. -/
theorem State.graceFollows_of_reacts {s t : State} (h : ∀ g : Group, s.reacts t g) : s.graceFollows t := by
  intro g
  refine ⟨fun hbefore hafter => ?_, fun hbefore hafter => ((h g).left hbefore hafter).2, fun _ hafter => ((h g).stays hafter).2⟩
  cases hafter.symm.trans ((h g).outside hbefore).1

/-! ### REMOVE (R15) -/

/-- A group's record after its removal, the order frame aside (R15, R19). -/
def GroupRecord.withdrawn (r : GroupRecord) : GroupRecord :=
  { r with
    service := .removed, joinCeiling := 0, leaveCeiling := 0, linkTimer := none, trackingTimer := none, awaiting := false }

/-- A group's record after the order of 0 with the block flag (R17). -/
def GroupRecord.orderedOff (r : GroupRecord) : GroupRecord :=
  { r with lastOrder := 0, blockFlag := true, sequence := (r.sequence + 1) % 256 }

/-- A REMOVE finds nothing to do at a group in REMOVED or LINK_LOST. -/
def GroupRecord.outOfReach (r : GroupRecord) : Prop := r.service = .removed ∨ r.service = .linkLost

section Remove

variable (s : State) (g : Group)

theorem State.removeGroup_outOfReach (h : (s.group g).outOfReach) : s.removeGroup g = s := by
  unfold GroupRecord.outOfReach at h
  rw [State.removeGroup_eq, if_pos h]

/-- The removal itself: the ramps ended and the service state changed. -/
theorem State.withdraw_group :
    ((s.endRamps g).setService g .removed .fault).group g = (s.group g).withdrawn := by
  have hout : ((s.endRamps g).setService g .removed .fault).inSet g = false := by
    rw [State.setService_inSet_self]
    simp [ServiceState.member]
  have h := (s.endRamps g).setService_group_self g .removed .fault
  rw [hout, State.endRamps_inSet] at h
  rw [h]
  unfold GroupRecord.crossing
  split <;> simp [State.endRamps, GroupRecord.serve, GroupRecord.withdrawn, linkTimerAfter, awaitingAfter, ServiceState.member]

/-- A REMOVE of a group in its reach: the removal, and in a running state the order of 0 with the block flag. -/
theorem State.removeGroup_reached (h : ¬ (s.group g).outOfReach) :
    s.removeGroup g =
      if s.running = true then ((s.endRamps g).setService g .removed .fault).sendOrder g 0 true
      else (s.endRamps g).setService g .removed .fault := by
  have hrun : ((s.endRamps g).setService g .removed .fault).running = s.running :=
    State.running_of_line (congrArg Line.state ((s.endRamps g).setService_line g _ _))
  unfold GroupRecord.outOfReach at h
  rw [State.removeGroup_eq, if_neg h]
  dsimp only
  rw [hrun]

theorem State.removeGroup_group_self (h : ¬ (s.group g).outOfReach) :
    (s.removeGroup g).group g =
      if s.running = true then (s.group g).withdrawn.orderedOff else (s.group g).withdrawn := by
  rw [State.removeGroup_reached s g h]
  split
  · rw [State.sendOrder_group, if_pos rfl, State.withdraw_group]
    rfl
  · exact s.withdraw_group g

theorem State.removeGroup_out (h : ¬ (s.group g).outOfReach) :
    (s.removeGroup g).out =
      s.out ++ if s.running = true then [Sent.order g 0 true (((s.group g).sequence + 1) % 256)] else [] := by
  have hout : ((s.endRamps g).setService g .removed .fault).out = s.out :=
    (s.endRamps g).setService_keeps g .removed .fault .out (by decide)
  rw [State.removeGroup_reached s g h]
  split
  · rw [State.sendOrder, s.withdraw_group, hout]
    rfl
  · rw [hout, List.append_nil]

/-- The removal places its GROUP_STATE notice (R9). -/
theorem State.removeGroup_hears (h : ¬ (s.group g).outOfReach) :
    s.hears (s.removeGroup g) (.groupState g .removed (s.group g).service .fault) := by
  have hold : ((s.endRamps g).group g).service = (s.group g).service := by simp [State.endRamps]
  have hears : s.hears ((s.endRamps g).setService g .removed .fault)
      (.groupState g .removed (s.group g).service .fault) := by
    rw [← hold]
    exact ((s.endRamps g).setService_hears g .removed .fault).since rfl fun _ => rfl
  rw [State.removeGroup_reached s g h]
  split
  · exact hears.later (State.noticed_of_keeps (State.sendOrder_keeps _ _ _ _) (by decide))
  · exact hears

end Remove

/-! ### The REMOVE of an onset (R15, R165) -/

theorem filter_allGroups_eq (g : Group) : allGroups.filter (fun x => decide (x = g)) = [g] := by revert g; decide

section OrderedAt

variable (s : State) (id : FaultId) (c : Carried)

/-- The groups besides the entry's own, and the entry's own where its REMOVE sends nothing, are none that the REMOVE orders. -/
theorem State.orderedAtRemove_none
    (h : ∀ g : Group, id.group? = some g → c.names .remove = true → s.running = true → (s.group g).outOfReach) :
    s.orderedAtRemove id c = [] := by
  refine List.filter_eq_nil_iff.mpr fun g _ hg => ?_
  obtain ⟨hid, hnames, hrun, hremoved, hlost⟩ := of_decide_eq_true hg
  exact (h g hid hnames hrun).elim hremoved hlost

theorem State.orderedAtRemove_one {g : Group} (hid : id.group? = some g) (hnames : c.names .remove = true)
    (hrun : s.running = true) (h : ¬ (s.group g).outOfReach) : s.orderedAtRemove id c = [g] := by
  rw [← filter_allGroups_eq g]
  refine List.filter_congr fun x _ => decide_eq_decide.mpr ⟨fun hx => ?_, fun hx => ?_⟩
  · rw [hid] at hx
    exact (Option.some.inj hx.1).symm
  · subst hx
    exact ⟨hid, hnames, hrun, not_or.mp h⟩

/-- The REMOVE of an onset is that of the group of its entry. -/
theorem State.applyRemove_cases :
    (∃ g : Group, id.group? = some g ∧ c.names .remove = true ∧ s.applyRemove id c = s.removeGroup g) ∨
    ((∀ g : Group, ¬ (id.group? = some g ∧ c.names .remove = true)) ∧ s.applyRemove id c = s) := by
  cases id with
  | line k => exact .inr ⟨fun g h => (nomatch h.1), rfl⟩
  | group k g =>
    by_cases hc : c.names .remove = true
    · exact .inl ⟨g, rfl, hc, by simp [State.applyRemove, hc]⟩
    · exact .inr ⟨fun _ h => hc h.2, by simp [State.applyRemove, hc]⟩

theorem State.applyRemove_group_ne {g : Group} (h : ¬ (id.group? = some g ∧ c.names .remove = true)) :
    (s.applyRemove id c).group g = s.group g := by
  rcases s.applyRemove_cases id c with ⟨x, hid, hnames, heq⟩ | ⟨-, heq⟩ <;> rw [heq]
  exact s.removeGroup_group_ne fun hg => h ⟨hg ▸ hid, hnames⟩

theorem State.applyRemove_group_self {g : Group} (hid : id.group? = some g) (hnames : c.names .remove = true) :
    s.applyRemove id c = s.removeGroup g := by
  rcases s.applyRemove_cases id c with ⟨x, hx, -, heq⟩ | ⟨hnone, -⟩
  · cases hid.symm.trans hx
    exact heq
  · exact absurd ⟨hid, hnames⟩ (hnone g)

/-- The order frames that the REMOVE sends, and the sequences they count (R15, R17). -/
theorem State.applyRemove_sends :
    (s.applyRemove id c).out =
      s.out ++ (s.orderedAtRemove id c).map (fun g => Sent.order g 0 true (((s.group g).sequence + 1) % 256)) ∧
    ∀ g : Group, ((s.applyRemove id c).group g).sequence =
      if g ∈ s.orderedAtRemove id c then ((s.group g).sequence + 1) % 256 else (s.group g).sequence := by
  rcases s.applyRemove_cases id c with ⟨x, hid, hnames, heq⟩ | ⟨hnone, heq⟩ <;> rw [heq]
  · by_cases hreach : (s.group x).outOfReach
    · rw [State.removeGroup_outOfReach _ _ hreach, State.orderedAtRemove_none s id c fun g hg _ _ => by
        cases hid.symm.trans hg; exact hreach]
      simp
    · have hself := s.removeGroup_group_self x hreach
      have hout := s.removeGroup_out x hreach
      by_cases hrun : s.running = true
      · rw [if_pos hrun] at hself hout
        rw [s.orderedAtRemove_one id c hid hnames hrun hreach]
        refine ⟨hout, fun g => ?_⟩
        by_cases hg : g = x
        · rw [hg, if_pos (by simp), hself]
          rfl
        · rw [if_neg (by simpa using hg), s.removeGroup_group_ne hg]
      · rw [if_neg hrun] at hself hout
        rw [State.orderedAtRemove_none s id c fun g _ _ h => absurd h hrun]
        refine ⟨hout, fun g => ?_⟩
        by_cases hg : g = x
        · rw [hg, if_neg (by simp), hself]
          rfl
        · rw [if_neg (by simp), s.removeGroup_group_ne hg]
  · rw [State.orderedAtRemove_none s id c fun g hg hc _ => absurd ⟨hg, hc⟩ (hnone g)]
    simp

theorem State.orderedAtRemove_congr {s t : State} (hgroups : t.groups = s.groups) (hline : t.line = s.line) (id : FaultId)
    (c : Carried) : t.orderedAtRemove id c = s.orderedAtRemove id c := by
  have hrun : t.running = s.running := State.running_of_line (congrArg Line.state hline)
  have hgroup (g : Group) : t.group g = s.group g := congrArg (Eight.get · g) hgroups
  simp only [State.orderedAtRemove, hrun, hgroup]

end OrderedAt

/-! ### TRIP (R7, R22) -/

/-- The state in which a TRIP enters TRIPPED: an open adopt window is closed first (R22). -/
def State.beforeTrip (s : State) : State := if s.line.state = some .adopting then s.closeWindow else s

theorem State.enterBlocked_hears (s : State) {new : LineState} (c : LineCause) :
    s.hears (s.enterBlocked new c) (.lineState new s.line.state c) := by
  rw [State.enterBlocked_eq]
  exact ((s.dropCurrent.setLineState_hears new c).later (State.noticed_trans
    (State.eachGroup_noticed State.settleGroup_noticed _)
    (State.noticed_of_keeps (State.sendBlocked_keeps _) (by decide)))).since rfl fun _ => rfl

section Trip

variable {s : State}

theorem State.tripLine_idle (h : s.line.state = none ∨ s.line.state = some .tripped) : s.tripLine = s := by
  unfold State.tripLine
  rcases h with h | h <;> rw [h]

theorem State.tripLine_eq (hloaded : s.line.state ≠ none) (htripped : s.line.state ≠ some .tripped) :
    s.tripLine = s.beforeTrip.enterTripped := by
  unfold State.tripLine State.beforeTrip
  split <;> simp_all

theorem State.beforeTrip_line (s : State) :
    s.beforeTrip.line = { s.line with
      adoptDeadline := if s.line.state = some .adopting then none else s.line.adoptDeadline } := by
  unfold State.beforeTrip
  split
  · next h => exact State.closeWindow_line h
  · rfl

theorem State.beforeTrip_out (s : State) : s.beforeTrip.out = s.out := by
  unfold State.beforeTrip
  split
  · exact s.closeWindow_out
  · rfl

/-- The close of the window moves no sequence, and no group that is not in OUT (R23). -/
theorem State.beforeTrip_group (s : State) (g : Group) :
    (s.beforeTrip.group g).sequence = (s.group g).sequence ∧
      ((s.group g).service ≠ .out → s.beforeTrip.group g = s.group g) := by
  unfold State.beforeTrip
  split
  · rw [(s.closeWindow_unit g).1]
    obtain ⟨hsequence, -, -, hkept⟩ := (s.group g).classified_fields
    exact ⟨hsequence, hkept⟩
  · exact ⟨rfl, fun _ => rfl⟩

theorem State.beforeTrip_entry (s : State) {j : FaultId} (hj : ∀ g : Group, j ≠ .group .mismatch g) :
    s.beforeTrip.entry j = s.entry j := by
  unfold State.beforeTrip
  split
  · next h => exact State.closeWindow_entry_ne h hj
  · rfl

theorem State.beforeTrip_noticed (s : State) : s.noticed s.beforeTrip := by
  unfold State.beforeTrip
  split
  · exact s.closeWindow_noticed
  · exact s.noticed_refl

theorem State.beforeTrip_timeBase (s : State) : s.beforeTrip.timeBase = s.timeBase := by
  unfold State.beforeTrip
  split
  · exact s.closeWindow_keeps .timeBase (by decide)
  · rfl

theorem State.enterTripped_line (s : State) :
    s.enterTripped.line = { s.line with state := some .tripped, iCmd := 0, residual := 0, capacityShort := false } := by
  rw [State.enterTripped, State.capacityDeparture_line, State.enterBlocked_line]

theorem State.enterTripped_group (s : State) (g : Group) :
    s.enterTripped.group g = { ((s.group g).crossing (s.inSet g) false).settled with
      lastOrder := 0, blockFlag := true, sequence := ((s.group g).sequence + 1) % 256 } := by
  rw [State.enterTripped, (State.capacityDeparture_keeps _).group (by decide), State.enterBlocked_group rfl]

theorem State.enterTripped_out (s : State) :
    s.enterTripped.out =
      s.out ++ allGroups.map fun g => Sent.order g 0 true (((s.group g).sequence + 1) % 256) := by
  rw [State.enterTripped, State.capacityDeparture_keeps _ .out (by decide), State.enterBlocked_out rfl]

theorem State.enterTripped_hears (s : State) : s.hears s.enterTripped (.lineState .tripped s.line.state .fault) :=
  (s.enterBlocked_hears .fault).later (State.capacityDeparture_noticed _)

theorem State.enterTripped_handed (s : State) :
    s.handed s.enterTripped (.line .capacityShort) s.line.capacityShort false none := by
  have hhanded := (s.enterBlocked .tripped .fault).capacityDeparture_handed
  rw [State.enterBlocked_line] at hhanded
  exact hhanded.within (State.enterBlocked_keeps s .tripped .fault .timeBase (by decide))
    (Entry.sameButReduce_of_eq (s.enterBlocked_entry .fault rfl _)) (Entry.sameButReduce_refl _)

/-- The order frames of a TRIP, and the groups blocked (R7). -/
theorem State.tripLine_blocks (hloaded : s.line.state ≠ none) (htripped : s.line.state ≠ some .tripped) :
    s.tripLine.out = s.out ++ allGroups.map (fun g => Sent.order g 0 true (((s.group g).sequence + 1) % 256)) ∧
    ∀ g : Group, (s.tripLine.group g).lastOrder = 0 ∧ (s.tripLine.group g).blockFlag = true ∧
      (s.tripLine.group g).service ≠ .joining ∧ (s.tripLine.group g).service ≠ .leaving := by
  rw [State.tripLine_eq hloaded htripped]
  refine ⟨?_, fun g => ?_⟩
  · rw [State.enterTripped_out, State.beforeTrip_out]
    simp only [fun g => (s.beforeTrip_group g).1]
  · rw [State.enterTripped_group]
    exact ⟨rfl, rfl, GroupRecord.settled_service _⟩

/-- A TRIP changes of a group in REMOVED or LINK_LOST the order and the tracking timer alone. -/
theorem State.tripLine_group_outOfReach {g : Group} (h : (s.group g).outOfReach) :
    (s.tripLine.group g).service = (s.group g).service ∧ (s.tripLine.group g).linkTimer = (s.group g).linkTimer ∧
      (s.tripLine.group g).joinCeiling = (s.group g).joinCeiling ∧
      (s.tripLine.group g).leaveCeiling = (s.group g).leaveCeiling ∧
      ((s.tripLine.group g).trackingTimer = (s.group g).trackingTimer ∨ (s.tripLine.group g).trackingTimer = none) := by
  by_cases hidle : s.line.state = none ∨ s.line.state = some .tripped
  · rw [State.tripLine_idle hidle]
    exact ⟨rfl, rfl, rfl, rfl, .inl rfl⟩
  · obtain ⟨hloaded, htripped⟩ := not_or.mp hidle
    have hout : (s.group g).service ≠ .out := by rcases h with h | h <;> simp [h]
    have hsettled (b : Bool) : ((s.group g).crossing b false).settled = (s.group g).crossing b false := by
      unfold GroupRecord.settled
      rcases h with h | h <;> simp [h]
    rw [State.tripLine_eq hloaded htripped, State.enterTripped_group, (s.beforeTrip_group g).2 hout, hsettled]
    unfold GroupRecord.crossing
    split
    · exact ⟨rfl, rfl, rfl, rfl, .inr rfl⟩
    · exact ⟨rfl, rfl, rfl, rfl, .inl rfl⟩

/-- The line tripped (R7, R22, R46). -/
theorem State.tripLine_trips (hloaded : s.line.state ≠ none) (htripped : s.line.state ≠ some .tripped) :
    s.tripLine.line = { s.line with
      state := some .tripped, iCmd := 0, residual := 0, capacityShort := false
      adoptDeadline := if s.line.state = some .adopting then none else s.line.adoptDeadline } ∧
    s.hears s.tripLine (.lineState .tripped s.line.state .fault) ∧
    s.handed s.tripLine (.line .capacityShort) s.line.capacityShort false none := by
  have hline := s.beforeTrip_line
  have hears := s.beforeTrip.enterTripped_hears
  have hhanded := s.beforeTrip.enterTripped_handed
  rw [hline] at hears hhanded
  rw [State.tripLine_eq hloaded htripped]
  refine ⟨by rw [State.enterTripped_line, hline], hears.since s.beforeTrip_timeBase s.beforeTrip_noticed.role, ?_⟩
  exact hhanded.within s.beforeTrip_timeBase (Entry.sameButReduce_of_eq (s.beforeTrip_entry fun _ => nofun))
    (Entry.sameButReduce_refl _)

end Trip

end Sys2Proof.Machine
end

