-- ==== Sys2Proof/Proofs/OnsetFromClear.lean ====
section
/-! An onset taken in CLEAR, response by response (R4, R7, R15, R17, R22, R46, R69, R163 to R166). -/

namespace Sys2Proof.Machine

/-! ### A line-level response and the groups -/

section Line

variable {s : State} {id : FaultId} {before : EntryState} {a : Action}

/-- A response that trips no line leaves the groups and sends nothing. -/
theorem State.applyLine_unitsKept_of (h : a = .trip → s.line.state = none ∨ s.line.state = some .tripped) :
    s.unitsKept (s.applyLine State.tripLine id before a) := by
  cases a with
  | trip =>
    change s.unitsKept s.tripLine
    rw [State.tripLine_idle (h rfl)]
    exact s.unitsKept_refl
  | note | remove => exact s.unitsKept_refl
  | hold => exact s.applyLine_unitsKept id before .hold
  | reduce => exact s.applyLine_unitsKept id before .reduce

/-- A response changes of a group in REMOVED or LINK_LOST the order and the tracking timer alone. -/
theorem State.applyLine_group_outOfReach {g : Group} (h : (s.group g).outOfReach) :
    let t := s.applyLine State.tripLine id before a
    (t.group g).service = (s.group g).service ∧ (t.group g).linkTimer = (s.group g).linkTimer ∧
      (t.group g).joinCeiling = (s.group g).joinCeiling ∧ (t.group g).leaveCeiling = (s.group g).leaveCeiling ∧
      ((t.group g).trackingTimer = (s.group g).trackingTimer ∨ (t.group g).trackingTimer = none) := by
  intro t
  by_cases ha : a = .trip
  · subst ha
    exact State.tripLine_group_outOfReach h
  · have hg : t.group g = s.group g :=
      congrArg (Eight.get · g) (State.applyLine_unitsKept_of (before := before) (id := id) fun h => absurd h ha).groups
    rw [hg]
    exact ⟨rfl, rfl, rfl, rfl, .inl rfl⟩

/-- The order of 0 with the block flag that the REMOVE sent stands after the response, which sends that order again or none. -/
theorem State.applyLine_orderedOff {g : Group} (h : (s.group g).lastOrder = 0 ∧ (s.group g).blockFlag = true) :
    let t := s.applyLine State.tripLine id before a
    (t.group g).lastOrder = 0 ∧ (t.group g).blockFlag = true := by
  intro t
  by_cases htrips : a = .trip ∧ s.line.state ≠ none ∧ s.line.state ≠ some .tripped
  · obtain ⟨rfl, hloaded, htripped⟩ := htrips
    obtain ⟨horder, hblock, -⟩ := (State.tripLine_blocks hloaded htripped).2 g
    exact ⟨horder, hblock⟩
  · have hg : t.group g = s.group g := congrArg (Eight.get · g) (State.applyLine_unitsKept_of fun ha => by tauto).groups
    rwa [hg]

/-- A given value makes the FAULT slot active (R164). -/
theorem State.writeFaultClaim_active {v : Nat} (h : v ∈ s.faults.table.reduceValues) :
    s.writeFaultClaim.claims.fault.active = true := by
  have heq := s.writeFaultClaim_eq
  cases hmin : s.faults.table.reduceValues.min? with
  | none =>
    rw [List.min?_eq_none_iff.mp hmin] at h
    cases h
  | some m =>
    rw [hmin] at heq
    rw [heq]
    rfl

/-- REDUCE at an onset from CLEAR while the line regulates or holds (R164). -/
theorem State.reduceLine_regulating (hregulates : s.regulates = true) (hstands : (s.entry id).state ≠ .clear)
    (hcarries : (s.entry id).carries .reduce = true) :
    let t := s.reduceLine id .clear
    (t.entry id).reduceValue = .set (s.metering.iM * ((s.entry id).reducePercent.getD 0) / 100) ∧
      t.claims.fault.active = true ∧ s.faultLaid t := by
  obtain ⟨e, he⟩ : ∃ e, e = { s.entry id with
    reduceValue := .set (s.metering.iM * ((s.entry id).reducePercent.getD 0) / 100) } := ⟨_, rfl⟩
  have heq : s.reduceLine id .clear = (s.setEntry id e).writeFaultClaim := by rw [he]; exact if_pos hregulates
  have hgives : s.metering.iM * ((s.entry id).reducePercent.getD 0) / 100 ∈ (s.setEntry id e).faults.table.reduceValues := by
    refine (State.mem_reduceValues _ _).mpr ⟨id, ?_⟩
    rw [State.entry_setEntry_self, he]
    exact ⟨hstands, hcarries, rfl⟩
  rw [heq]
  refine ⟨?_, State.writeFaultClaim_active hgives, ?_⟩
  · rw [State.writeFaultClaim_entry, State.entry_setEntry_self, he]
  · exact State.faultLaid_congr (s.setEntry id e).writeFaultClaim_laid rfl rfl fun _ => rfl

/-- REDUCE at an onset from CLEAR while the line does neither (R164). -/
theorem State.reduceLine_pending (hregulates : s.regulates = false) :
    s.reduceLine id .clear = s.setEntry id { s.entry id with reduceValue := .pending } := by
  unfold State.reduceLine
  dsimp only
  rw [if_neg (by simp [hregulates])]

end Line

/-! ### The REMOVE of an onset from CLEAR (R165) -/

/-- The response that an onset from CLEAR takes (R158). -/
def State.carriedAt (s : State) (id : FaultId) : Carried := carriedFrom id.kind (s.config.actions.get id.kind)

theorem State.carriedAt_names_remove (s : State) (id : FaultId) : (s.carriedAt id).names .remove = true ↔
    id.kind.forcesRemove = true ∨ (s.config.actions.get id.kind).response = .remove := by
  rw [Carried.names_remove, or_comm]
  rfl

section FromClear

variable {s : State} {id : FaultId} (detail : Option Detail) (hclear : (s.entry id).state = .clear)
include hclear

theorem State.lineAction_clear : (s.stepOne id detail).lineAction = (s.carriedAt id).configured := by
  rw [State.stepOne_clear hclear]
  rfl

theorem State.removedAt_clear : s.removedAt id detail =
    (s.beforeResponse id .clear detail (s.stepOne id detail)).applyRemove id (s.carriedAt id) := by
  rw [State.removedAt, hclear, State.stepOne_clear hclear]
  rfl

theorem State.respondedAt_clear :
    s.respondedAt id detail = (s.removedAt id detail).applyLine State.tripLine id .clear (s.carriedAt id).configured := by
  rw [State.respondedAt, hclear, State.lineAction_clear detail hclear]

theorem State.removedAt_sends :
    (s.removedAt id detail).out =
      s.out ++ (s.orderedAtRemove id (s.carriedAt id)).map (fun g => Sent.order g 0 true (((s.group g).sequence + 1) % 256)) ∧
    ∀ g : Group, ((s.removedAt id detail).group g).sequence =
      if g ∈ s.orderedAtRemove id (s.carriedAt id) then ((s.group g).sequence + 1) % 256 else (s.group g).sequence := by
  have hw := s.beforeResponse_keeps id .clear detail (s.stepOne id detail)
  have hsends := (s.beforeResponse id .clear detail (s.stepOne id detail)).applyRemove_sends id (s.carriedAt id)
  rw [State.orderedAtRemove_congr (hw .groups (by decide)) (hw .line (by decide)), hw .out (by decide)] at hsends
  simp only [hw.group (by decide)] at hsends
  rwa [State.removedAt_clear detail hclear]

theorem State.removedAt_group_ne {g : Group} (h : ¬ (id.group? = some g ∧ (s.carriedAt id).names .remove = true)) :
    (s.removedAt id detail).group g = s.group g := by
  rw [State.removedAt_clear detail hclear, State.applyRemove_group_ne _ _ _ h,
    (s.beforeResponse_keeps id .clear detail _).group (by decide)]

section Own

variable {g : Group} (hid : id.group? = some g) (hremoves : (s.carriedAt id).names .remove = true)
include hid hremoves

theorem State.removedAt_group_outOfReach (h : (s.group g).outOfReach) : (s.removedAt id detail).group g = s.group g := by
  have hg := (s.beforeResponse_keeps id .clear detail (s.stepOne id detail)).group (by decide) g
  rw [State.removedAt_clear detail hclear, State.applyRemove_group_self _ _ _ hid hremoves,
    State.removeGroup_outOfReach _ _ (by rwa [hg]), hg]

theorem State.removedAt_group_reached (h : ¬ (s.group g).outOfReach) : (s.removedAt id detail).group g =
    if s.running = true then (s.group g).withdrawn.orderedOff else (s.group g).withdrawn := by
  have hw := s.beforeResponse_keeps id .clear detail (s.stepOne id detail)
  have hg := hw.group (by decide) g
  rw [State.removedAt_clear detail hclear, State.applyRemove_group_self _ _ _ hid hremoves,
    State.removeGroup_group_self _ _ (by rwa [hg]), hg, State.running_of_line (congrArg Line.state (hw .line (by decide)))]

theorem State.removedAt_hears (h : ¬ (s.group g).outOfReach) :
    s.hears (s.removedAt id detail) (.groupState g .removed (s.group g).service .fault) := by
  have hw := s.beforeResponse_keeps id .clear detail (s.stepOne id detail)
  have hg := hw.group (by decide) g
  have hears := (s.beforeResponse id .clear detail (s.stepOne id detail)).removeGroup_hears g (by rwa [hg])
  rw [hg] at hears
  rw [State.removedAt_clear detail hclear, State.applyRemove_group_self _ _ _ hid hremoves]
  exact hears.since (hw .timeBase (by decide)) (State.noticed_of_keeps hw (by decide)).role

end Own

/-! ### The onset as a whole -/

theorem State.onset_after_response : (s.respondedAt id detail).keepsAllBut (s.onset id detail) [.ports] ∧
    (s.respondedAt id detail).noticed (s.onset id detail) := by
  rw [State.onset_taken_eq _ _ _ (by simp [hclear])]
  exact ⟨State.noteOnset_keeps _ _ _ _, State.notify_noticed _ _⟩

theorem State.onset_clear_hold (hhold : (s.carriedAt id).configured = .hold) :
    (s.line.state = some .regulating →
      (s.onset id detail).line.state = some .hold ∧ (s.onset id detail).line.iCmd = s.line.iCmd) ∧
    (s.line.state ≠ some .regulating → (s.onset id detail).line.state = s.line.state) := by
  have hline : (s.removedAt id detail).line = s.line := s.removedAt_keeps id detail .line (by decide)
  have ht : (s.onset id detail).line = (s.removedAt id detail).holdLine.line := by
    rw [(State.onset_after_response detail hclear).1 .line (by decide), State.respondedAt_clear detail hclear, hhold]
    rfl
  rw [ht, State.holdLine_eq, hline]
  refine ⟨fun h => ?_, fun h => ?_⟩
  · rw [if_pos h, State.setLineState_line, hline]
    exact ⟨rfl, rfl⟩
  · rw [if_neg h, hline]

theorem State.onset_clear_reduce (hreduce : (s.carriedAt id).configured = .reduce) :
    let t := s.onset id detail
    (s.regulates = true →
      (t.entry id).reduceValue = .set (s.metering.iM * (s.config.actions.get id.kind).percent / 100) ∧
      t.claims.fault.active = true ∧ s.faultLaid t ∧ t.line = s.line) ∧
    (s.regulates = false → (t.entry id).reduceValue = .pending ∧ t.claims.fault = s.claims.fault) := by
  intro t
  have hr := s.removedAt_keeps id detail
  have hline : (s.removedAt id detail).line = s.line := hr .line (by decide)
  have hclaims : (s.removedAt id detail).claims = s.claims := hr .claims (by decide)
  have hregulates : (s.removedAt id detail).regulates = s.regulates := by rw [State.regulates, State.regulates, hline]
  have hown : (s.removedAt id detail).entry id =
      Entry.openWith s.timeBase id.kind (s.config.actions.get id.kind) detail := by
    rw [s.removedAt_entry_self, State.stepOne_clear hclear]
  have hv : s.respondedAt id detail = (s.removedAt id detail).reduceLine id .clear := by
    rw [State.respondedAt_clear detail hclear, hreduce]
    rfl
  have hafter := (State.onset_after_response detail hclear).1
  rw [hv] at hafter
  have htclaims : t.claims = _ := hafter .claims (by decide)
  have htentry (j : FaultId) : t.entry j = _ := hafter.entry (by decide) j
  refine ⟨fun h => ?_, fun h => ?_⟩
  · have hcarries : ((s.removedAt id detail).entry id).carries .reduce = true := by
      rw [← hreduce, hown]
      simp [Entry.carries, Entry.openWith, Carried.names, State.carriedAt]
    obtain ⟨hvalue, hactive, hlaid⟩ := State.reduceLine_regulating (hregulates.trans h) (by rw [hown]; simp [Entry.openWith])
      hcarries
    rw [hown, hr .metering (by decide)] at hvalue
    refine ⟨by rw [htentry, hvalue]; rfl, by rw [htclaims, hactive], State.faultLaid_congr hlaid
      (congrArg ClaimsTable.fault hclaims.symm) (congrArg ClaimsTable.fault htclaims) htentry, ?_⟩
    rw [hafter .line (by decide), State.reduceLine_keeps_groups _ _ _ .line (by decide), hline]
  · rw [htentry, htclaims, State.reduceLine_pending (hregulates.trans h)]
    exact ⟨by rw [State.entry_setEntry_self], congrArg ClaimsTable.fault hclaims⟩

/-- A TRIP that finds the line in neither TRIPPED nor loading: what it does after the REMOVE (R7, R22, R46, log 35). -/
theorem State.onset_clear_trip (hs : s.responsesAllowed) (htrip : (s.carriedAt id).configured = .trip)
    (hloaded : s.line.state ≠ none) (htripped : s.line.state ≠ some .tripped) :
    let first := s.orderedAtRemove id (s.carriedAt id)
    let t := s.onset id detail
    t.line = { s.line with
      state := some .tripped, iCmd := 0, residual := 0, capacityShort := false
      adoptDeadline := if s.line.state = some .adopting then none else s.line.adoptDeadline } ∧
    s.hears t (.lineState .tripped s.line.state .fault) ∧
    s.handed t (.line .capacityShort) s.line.capacityShort false none ∧
    t.out = s.out ++ first.map (fun g => Sent.order g 0 true (((s.group g).sequence + 1) % 256)) ++
      allGroups.map (fun g => Sent.order g 0 true (((s.group g).sequence + (if g ∈ first then 2 else 1)) % 256)) ∧
    ∀ g : Group, (t.group g).lastOrder = 0 ∧ (t.group g).blockFlag = true ∧
      (t.group g).service ≠ .joining ∧ (t.group g).service ≠ .leaving := by
  intro first t
  have hr := s.removedAt_keeps id detail
  have hline : (s.removedAt id detail).line = s.line := hr .line (by decide)
  have hv : s.respondedAt id detail = (s.removedAt id detail).tripLine := by
    rw [State.respondedAt_clear detail hclear, htrip]
    rfl
  obtain ⟨hafter, hnoticed⟩ := State.onset_after_response detail hclear
  rw [hv] at hafter hnoticed
  rw [← hline] at hloaded htripped
  obtain ⟨htline, hears, hhanded⟩ := State.tripLine_trips hloaded htripped
  obtain ⟨hout, hblocks⟩ := State.tripLine_blocks hloaded htripped
  obtain ⟨hrout, hsequence⟩ := State.removedAt_sends detail hclear
  have hcap : FaultId.line .capacityShort ≠ id := fun h => by
    have hallows := State.lineAction_allowed detail hs (by decide) ((State.lineAction_clear detail hclear).trans htrip)
    exact FaultId.not_tripped_of_trips hallows (.inl h.symm)
  have hcapEntry : (s.removedAt id detail).entry (.line .capacityShort) = s.entry (.line .capacityShort) := by
    rw [State.removedAt_entry, if_neg hcap]
  rw [hline] at htline hears hhanded
  refine ⟨(hafter .line (by decide)).trans htline, (hears.later hnoticed).since (hr .timeBase (by decide))
    (s.removedAt_noticed id detail).role, hhanded.within (hr .timeBase (by decide)) (Entry.sameButReduce_of_eq hcapEntry)
    (Entry.sameButReduce_of_eq (hafter.entry (by decide) _)), ?_, fun g => ?_⟩
  · have hcounts (g : Group) : (((s.removedAt id detail).group g).sequence + 1) % 256 =
        ((s.group g).sequence + (if g ∈ first then 2 else 1)) % 256 := by
      rw [hsequence g]
      change ((if g ∈ first then _ else _) + 1) % 256 = _
      split <;> omega
    rw [hafter .out (by decide), hout, hrout]
    simp only [hcounts]
    rfl
  · rw [hafter.group (by decide)]
    exact hblocks g

/-- A TRIP of a line in TRIPPED, or before the load, changes nothing of it (R7). -/
theorem State.onset_clear_trip_idle (htrip : (s.carriedAt id).configured = .trip)
    (hidle : s.line.state = none ∨ s.line.state = some .tripped) : (s.onset id detail).line = s.line := by
  have hline : (s.removedAt id detail).line = s.line := s.removedAt_keeps id detail .line (by decide)
  have hv : s.respondedAt id detail = (s.removedAt id detail).tripLine := by
    rw [State.respondedAt_clear detail hclear, htrip]
    rfl
  rw [(State.onset_after_response detail hclear).1 .line (by decide), hv, State.tripLine_idle (by rwa [hline]), hline]

/-- Where the response trips no line, the groups and the frames are those that the REMOVE left. -/
theorem State.onset_clear_units
    (h : (s.carriedAt id).configured = .trip → s.line.state = none ∨ s.line.state = some .tripped) :
    (s.onset id detail).out = (s.removedAt id detail).out ∧
      ∀ g : Group, (s.onset id detail).group g = (s.removedAt id detail).group g := by
  have hline : (s.removedAt id detail).line = s.line := s.removedAt_keeps id detail .line (by decide)
  have hkept := State.applyLine_unitsKept_of (s := s.removedAt id detail) (id := id) (before := .clear)
    (a := (s.carriedAt id).configured) (by rwa [hline])
  rw [← State.respondedAt_clear detail hclear] at hkept
  have hafter := (State.onset_after_response detail hclear).1
  exact ⟨(hafter .out (by decide)).trans hkept.out, fun g =>
    (hafter.group (by decide) g).trans (congrArg (Eight.get · g) hkept.groups)⟩

/-- The group of an entry that carries REMOVE (R15, R17, R19). -/
theorem State.onset_clear_removed {g : Group} (hid : id.group? = some g) (hremoves : (s.carriedAt id).names .remove = true) :
    let t := s.onset id detail
    ((s.group g).service ≠ .linkLost → (t.group g).service = .removed) ∧
    ((s.group g).service = .linkLost → (t.group g).service = .linkLost) ∧
    (¬ (s.group g).outOfReach →
      (t.group g).joinCeiling = 0 ∧ (t.group g).leaveCeiling = 0 ∧ (t.group g).trackingTimer = none ∧
      (t.group g).linkTimer = none ∧ s.hears t (.groupState g .removed (s.group g).service .fault) ∧
      (s.running = true → (t.group g).lastOrder = 0 ∧ (t.group g).blockFlag = true)) := by
  intro t
  have hkept := State.removedAt_group_outOfReach detail hclear hid hremoves
  have hreached := State.removedAt_group_reached detail hclear hid hremoves
  have hfields (h : ¬ (s.group g).outOfReach) : ((s.removedAt id detail).group g).service = .removed ∧
      ((s.removedAt id detail).group g).joinCeiling = 0 ∧ ((s.removedAt id detail).group g).leaveCeiling = 0 ∧
      ((s.removedAt id detail).group g).trackingTimer = none ∧ ((s.removedAt id detail).group g).linkTimer = none := by
    rw [hreached h]
    split <;> exact ⟨rfl, rfl, rfl, rfl, rfl⟩
  have hout : ((s.removedAt id detail).group g).outOfReach := by
    by_cases h : (s.group g).outOfReach
    · rwa [hkept h]
    · exact .inl (hfields h).1
  obtain ⟨hservice, hlink, hjoin, hleave, htracking⟩ := State.applyLine_group_outOfReach (id := id) (before := .clear)
    (a := (s.carriedAt id).configured) hout
  have horder := State.applyLine_orderedOff (s := s.removedAt id detail) (id := id) (before := .clear)
    (a := (s.carriedAt id).configured) (g := g)
  dsimp only at horder
  obtain ⟨hafter, hnoticed⟩ := State.onset_after_response detail hclear
  rw [← State.respondedAt_clear detail hclear, ← hafter.group (by decide)] at hservice hlink hjoin hleave htracking horder
  refine ⟨fun hlost => ?_, fun hlost => ?_, fun h => ?_⟩
  · rw [hservice]
    by_cases h : (s.group g).outOfReach
    · rw [hkept h]
      exact h.resolve_right hlost
    · exact (hfields h).1
  · rw [hservice, hkept (.inr hlost), hlost]
  · obtain ⟨-, hjoin0, hleave0, htracking0, hlink0⟩ := hfields h
    refine ⟨hjoin.trans hjoin0, hleave.trans hleave0, htracking.elim (·.trans htracking0) (·), hlink.trans hlink0,
      (State.removedAt_hears detail hclear hid hremoves h).later
        (State.noticed_trans (State.applyLine_noticed _ _ _ _) hnoticed), fun hrun => horder ?_⟩
    rw [hreached h, if_pos hrun]
    exact ⟨rfl, rfl⟩

/-- Its sequence counts the one order frame of the REMOVE (R15, R17). -/
theorem State.onset_clear_sequence {g : Group} (hid : id.group? = some g)
    (hremoves : (s.carriedAt id).names .remove = true) (h : ¬ (s.group g).outOfReach) (hrun : s.running = true)
    (htrip : (s.carriedAt id).configured ≠ .trip) :
    ((s.onset id detail).group g).sequence = ((s.group g).sequence + 1) % 256 := by
  rw [(State.onset_clear_units detail hclear fun ht => absurd ht htrip).2,
    State.removedAt_group_reached detail hclear hid hremoves h, if_pos hrun]
  rfl

end FromClear

/-- Settles O39: step 1, the REMOVE and then the line-level response, each by its own rule. -/
theorem responsesActOnTheLine : Obligations.ResponsesActOnTheLine := by
  intro s id detail hs hclear row removes first t
  have hnames : (s.carriedAt id).names .remove = true ↔ removes := s.carriedAt_names_remove id
  have hunits := State.onset_clear_units detail hclear
  refine ⟨?_, State.graceFollows_of_reacts (s.onset_reacts id detail), fun h => (State.onset_clear_hold detail hclear h).1,
    fun h => (State.onset_clear_hold detail hclear h).2, fun h => (State.onset_clear_reduce detail hclear h).1,
    fun h => (State.onset_clear_reduce detail hclear h).2, fun h hloaded htripped => ?_,
    State.onset_clear_trip_idle detail hclear, fun h => ?_, fun g hrem hid => ?_⟩
  · have hown := (State.onset_taken (id := id) detail hs (by simp [hclear])).1
    obtain ⟨hstate, -⟩ := Entry.sameButReduce.fields hown
    rw [hstate, State.stepOne_state]
  · obtain ⟨hline, hears, hhanded, hout, hblocks⟩ := State.onset_clear_trip detail hclear hs h hloaded htripped
    rw [hline]
    exact ⟨rfl, rfl, rfl, rfl, fun hadopting => if_pos hadopting, hears, hhanded, hout, hblocks⟩
  · obtain ⟨hout, hgroup⟩ := hunits fun ht => h.resolve_left (not_not.mpr ht)
    refine ⟨hout.trans (State.removedAt_sends detail hclear).1, fun g hnot => (hgroup g).trans ?_⟩
    exact State.removedAt_group_ne detail hclear fun hg => hnot ⟨hnames.mp hg.2, hg.1⟩
  · have hremoves := hnames.mpr hrem
    obtain ⟨hremoved, hlost, hreached⟩ := State.onset_clear_removed detail hclear hid hremoves
    refine ⟨hremoved, hlost, fun hnotLost hnotRemoved => ?_, fun htrip hout => ?_⟩
    · have hreach : ¬ (s.group g).outOfReach := not_or.mpr ⟨hnotRemoved, hnotLost⟩
      obtain ⟨hjoin, hleave, htracking, hlink, hears, horder⟩ := hreached hreach
      exact ⟨hjoin, hleave, htracking, hlink, hears, horder, State.onset_clear_sequence detail hclear hid hremoves hreach⟩
    · exact ((hunits fun ht => absurd ht htrip).2 g).trans
        (State.removedAt_group_outOfReach detail hclear hid hremoves hout.symm)

end Sys2Proof.Machine
end
